-- ==== Sys2Proof/Word.lean ====
section
/-! DEFINITION. The word types of the HCQ core and the two operand index types (00_scope.md R8, R10). -/

namespace Sys2Proof

/-- A u32: an X register, a weight, a count, a command word (00_scope.md R8, W = 32). -/
abbrev Word := BitVec 32

/-- One byte of a window, and a symbol (00_scope.md R16). -/
abbrev Byte := BitVec 8

/-- A bit string, index 0 first (00_scope.md R12). -/
abbrev Bits := List Bool

/-- The number of an X register (10_state.md R32: 16 of them, none hardwired). -/
abbrev XReg := Fin 16

/-- The number of a BS register (10_state.md R34). -/
abbrev BsReg := Fin 16

/-- A bit as a zero-extended word. -/
def bitWord (b : Bool) : Word := if b then 1 else 0

end Sys2Proof
end

