-- ==== Sys2Proof/Syntax.lean ====
section
/-! DEFINITION. The commands of command set HCQ-1: one constructor per row of the opcode map (30_encoding.md R116), its
operands in field order a, b, c, d, e, v (R120), each of the kind R113 gives it. -/

namespace Sys2Proof

/-- A command. Field names are those of 30_encoding.md R111 and R112. -/
inductive Instr where
  -- Control and register moves (40_control.md)
  /-- NOP, 40_control.md R140. -/
  | nop
  /-- SRST, 40_control.md R141. -/
  | srst
  /-- LI, 40_control.md R142. -/
  | li (a : XReg) (imm : BitVec 16)
  /-- LUI, 40_control.md R143. -/
  | lui (a : XReg) (imm : BitVec 16)
  /-- MOV, 40_control.md R144. -/
  | mov (a : XReg) (b : XReg)
  -- Bit primitives (41_bit_primitives.md)
  /-- BGET, 41_bit_primitives.md R155. -/
  | bget (a : XReg) (b : XReg) (c : XReg)
  /-- BSET, 41_bit_primitives.md R156. -/
  | bset (a : XReg) (b : XReg) (c : XReg) (v : Bool)
  /-- BINS, 41_bit_primitives.md R157. -/
  | bins (a : XReg) (b : XReg) (c : XReg) (d : XReg) (v : Bool)
  /-- BERA, 41_bit_primitives.md R158. -/
  | bera (a : XReg) (b : XReg) (c : XReg) (d : XReg)
  -- Bit Sequence Container (42_bit_sequence.md)
  /-- BSNEW, 42_bit_sequence.md R172. -/
  | bsnew (a : BsReg) (b : XReg) (v : Bool)
  /-- BSFROM, 42_bit_sequence.md R173. -/
  | bsfrom (a : BsReg) (b : XReg) (c : XReg)
  /-- BSMOV, 42_bit_sequence.md R174. -/
  | bsmov (a : BsReg) (b : BsReg)
  /-- BSSIZE, 42_bit_sequence.md R175. -/
  | bssize (a : XReg) (b : BsReg)
  /-- BSEMPTY, 42_bit_sequence.md R176. -/
  | bsempty (a : XReg) (b : BsReg)
  /-- BSAT, 42_bit_sequence.md R178. -/
  | bsat (a : XReg) (b : BsReg) (c : XReg)
  /-- BSGETU, 42_bit_sequence.md R177. -/
  | bsgetu (a : XReg) (b : BsReg) (c : XReg)
  /-- BSSETAT, 42_bit_sequence.md R179. -/
  | bssetat (a : BsReg) (b : XReg) (v : Bool)
  /-- BSSETU, 42_bit_sequence.md R180. -/
  | bssetu (a : BsReg) (b : XReg) (v : Bool)
  /-- BSINS, 42_bit_sequence.md R181. -/
  | bsins (a : BsReg) (b : XReg) (c : XReg) (v : Bool)
  /-- BSINS1, 42_bit_sequence.md R182. -/
  | bsins1 (a : BsReg) (b : XReg) (v : Bool)
  /-- BSINSR, 42_bit_sequence.md R183. -/
  | bsinsr (a : BsReg) (b : XReg) (c : BsReg) (d : XReg) (e : XReg)
  /-- BSERA, 42_bit_sequence.md R184. -/
  | bsera (a : BsReg) (b : XReg) (c : XReg)
  /-- BSERA1, 42_bit_sequence.md R185. -/
  | bsera1 (a : BsReg) (b : XReg)
  /-- BSPUSH, 42_bit_sequence.md R186. -/
  | bspush (a : BsReg) (v : Bool)
  /-- BSPOP, 42_bit_sequence.md R187. -/
  | bspop (a : BsReg)
  /-- BSRESIZE, 42_bit_sequence.md R188. -/
  | bsresize (a : BsReg) (b : XReg) (v : Bool)
  /-- BSCLR, 42_bit_sequence.md R189. -/
  | bsclr (a : BsReg)
  /-- BSFRONT, 42_bit_sequence.md R190. -/
  | bsfront (a : XReg) (b : BsReg)
  /-- BSBACK, 42_bit_sequence.md R191. -/
  | bsback (a : XReg) (b : BsReg)
  /-- BSWORD, 42_bit_sequence.md R192. -/
  | bsword (a : XReg) (b : BsReg)
  -- Priority queue (43_priority_queue.md)
  /-- PQPUSH, 43_priority_queue.md R223. -/
  | pqpush (a : XReg) (b : XReg)
  /-- PQPOP, 43_priority_queue.md R224. -/
  | pqpop
  /-- PQTOP, 43_priority_queue.md R225. -/
  | pqtop (a : XReg) (b : XReg)
  /-- PQBACK, 43_priority_queue.md R226. -/
  | pqback (a : XReg) (b : XReg)
  /-- PQAT, 43_priority_queue.md R227. -/
  | pqat (a : XReg) (b : XReg) (c : XReg)
  /-- PQSIZE, 43_priority_queue.md R228. -/
  | pqsize (a : XReg)
  /-- PQCLR, 43_priority_queue.md R229. -/
  | pqclr
  -- Huffman tree, frequency table, code table (44_huffman_tree.md)
  /-- FQWR, 44_huffman_tree.md R242. -/
  | fqwr (a : XReg) (b : XReg)
  /-- FQRD, 44_huffman_tree.md R243. -/
  | fqrd (a : XReg) (b : XReg)
  /-- FQCLR, 44_huffman_tree.md R244. -/
  | fqclr
  /-- CTWR, 44_huffman_tree.md R245. -/
  | ctwr (a : XReg) (b : BsReg)
  /-- CTRD, 44_huffman_tree.md R246. -/
  | ctrd (a : BsReg) (b : XReg)
  /-- CTCLR, 44_huffman_tree.md R247. -/
  | ctclr
  /-- HTFREQ, 44_huffman_tree.md R250. -/
  | htfreq (a : XReg) (b : XReg)
  /-- HTFILL, 44_huffman_tree.md R251. -/
  | htfill
  /-- HTBUILD, 44_huffman_tree.md R254. -/
  | htbuild
  /-- HTDICT, 44_huffman_tree.md R258. -/
  | htdict
  /-- HTSETDATA, 44_huffman_tree.md R260. -/
  | htsetdata (a : XReg) (b : XReg)
  /-- HTSETDICT, 44_huffman_tree.md R262. -/
  | htsetdict
  /-- HTENC, 44_huffman_tree.md R265. -/
  | htenc (a : XReg) (b : XReg)
  /-- HTDEC, 44_huffman_tree.md R267. -/
  | htdec (a : XReg)
  /-- HTROOT, 44_huffman_tree.md R270. -/
  | htroot (a : XReg)
  /-- HTNCNT, 44_huffman_tree.md R271. -/
  | htncnt (a : XReg)
  /-- NDRD, 44_huffman_tree.md R272. -/
  | ndrd (a : XReg) (b : XReg) (d : BitVec 4)
  -- Bit cursors (45_bit_cursors.md)
  /-- IBINIT, 45_bit_cursors.md R291. -/
  | ibinit (a : XReg)
  /-- IBREAD, 45_bit_cursors.md R292. -/
  | ibread (a : XReg)
  /-- IBNEXT, 45_bit_cursors.md R293. -/
  | ibnext
  /-- IBLAST, 45_bit_cursors.md R294. -/
  | iblast (a : XReg)
  /-- IBEND, 45_bit_cursors.md R295. -/
  | ibend (a : XReg)
  /-- IBPOS, 45_bit_cursors.md R296. -/
  | ibpos (a : XReg)
  /-- OBINIT, 45_bit_cursors.md R300. -/
  | obinit
  /-- OBPUT, 45_bit_cursors.md R301. -/
  | obput (v : Bool)
  /-- OBPUTX, 45_bit_cursors.md R302. -/
  | obputx (a : XReg)
  /-- OBFLUSH, 45_bit_cursors.md R303. -/
  | obflush (a : XReg)
  /-- OBCNT, 45_bit_cursors.md R304. -/
  | obcnt (a : XReg)
  -- Codec (46_codec.md)
  /-- COMPRESS, 46_codec.md R330. -/
  | compress
  /-- DECOMPRESS, 46_codec.md R343. -/
  | decompress
  deriving DecidableEq, Repr

end Sys2Proof
end

