-- ==== Sys2Proof/WellFormed.lean ====
section
/-! DEFINITION. Which terms of Instr are legal commands. Every register number is legal (30_encoding.md R113) and every
other operand is checked at execution (R125); the one check at decode is NDRD's field selector (R118 (3)). -/

namespace Sys2Proof

/-- The legal commands: NDRD with f > 4 is the only term with no legal word (30_encoding.md R118). -/
def WellFormed : Instr → Bool
  | .nop => true
  | .srst => true
  | .li _ _ => true
  | .lui _ _ => true
  | .mov _ _ => true
  | .bget _ _ _ => true
  | .bset _ _ _ _ => true
  | .bins _ _ _ _ _ => true
  | .bera _ _ _ _ => true
  | .bsnew _ _ _ => true
  | .bsfrom _ _ _ => true
  | .bsmov _ _ => true
  | .bssize _ _ => true
  | .bsempty _ _ => true
  | .bsat _ _ _ => true
  | .bsgetu _ _ _ => true
  | .bssetat _ _ _ => true
  | .bssetu _ _ _ => true
  | .bsins _ _ _ _ => true
  | .bsins1 _ _ _ => true
  | .bsinsr _ _ _ _ _ => true
  | .bsera _ _ _ => true
  | .bsera1 _ _ => true
  | .bspush _ _ => true
  | .bspop _ => true
  | .bsresize _ _ _ => true
  | .bsclr _ => true
  | .bsfront _ _ => true
  | .bsback _ _ => true
  | .bsword _ _ => true
  | .pqpush _ _ => true
  | .pqpop => true
  | .pqtop _ _ => true
  | .pqback _ _ => true
  | .pqat _ _ _ => true
  | .pqsize _ => true
  | .pqclr => true
  | .fqwr _ _ => true
  | .fqrd _ _ => true
  | .fqclr => true
  | .ctwr _ _ => true
  | .ctrd _ _ => true
  | .ctclr => true
  | .htfreq _ _ => true
  | .htfill => true
  | .htbuild => true
  | .htdict => true
  | .htsetdata _ _ => true
  | .htsetdict => true
  | .htenc _ _ => true
  | .htdec _ => true
  | .htroot _ => true
  | .htncnt _ => true
  | .ndrd _ _ f => decide (f.toNat ≤ 4)
  | .ibinit _ => true
  | .ibread _ => true
  | .ibnext => true
  | .iblast _ => true
  | .ibend _ => true
  | .ibpos _ => true
  | .obinit => true
  | .obput _ => true
  | .obputx _ => true
  | .obflush _ => true
  | .obcnt _ => true
  | .compress => true
  | .decompress => true

end Sys2Proof
end

