-- ==== Sys2Proof/Decode.lean ====
section
/-! DEFINITION. The command encoding: the fields of a word, the opcode map, the decoder (total, rejecting by name) and the
encoder (30_encoding.md R110 to R121). -/

namespace Sys2Proof

/-- A register number from its 4-bit field; every value is legal (30_encoding.md R113). -/
def regOf (b : BitVec 4) : Fin 16 := ⟨b.toNat, b.isLt⟩

/-- The 4-bit field of a register number. -/
def regBits (r : Fin 16) : BitVec 4 := BitVec.ofNat 4 r.val

/-- The fields of a command word, formats R and I read side by side (30_encoding.md R111, R112): format I's `zero` is
field b and its `imm16` is bits [15:0]. -/
structure Fields where
  op : BitVec 8
  a : BitVec 4
  b : BitVec 4
  c : BitVec 4
  d : BitVec 4
  e : BitVec 4
  rsv : BitVec 3
  v : Bool
  imm16 : BitVec 16
  deriving DecidableEq, Repr

/-- The fields of word `w` (30_encoding.md R111, R112, R119). -/
def fieldsOf (w : Word) : Fields where
  op := w.extractLsb' 24 8
  a := w.extractLsb' 20 4
  b := w.extractLsb' 16 4
  c := w.extractLsb' 12 4
  d := w.extractLsb' 8 4
  e := w.extractLsb' 4 4
  rsv := w.extractLsb' 1 3
  v := w.getLsbD 0
  imm16 := w.extractLsb' 0 16

/-- Formats R and I (30_encoding.md R111, R112). -/
inductive Format where
  | R
  | I
  deriving DecidableEq, Repr

/-- Which of the fields a, b, c, d, e and v of format R a command uses: the columns of 30_encoding.md R116. -/
structure Uses where
  a : Bool
  b : Bool
  c : Bool
  d : Bool
  e : Bool
  v : Bool
  deriving DecidableEq, Repr

/-- The first `n` of the fields a to e, and v if `v`. -/
def Uses.first (n : Nat) (v : Bool) : Uses where
  a := 0 < n
  b := 1 < n
  c := 2 < n
  d := 3 < n
  e := 4 < n
  v := v

/-- One row of the opcode map (30_encoding.md R116). -/
structure Row where
  op : BitVec 8
  fmt : Format
  uses : Uses
  build : Fields → Instr

/-- A row of format R. -/
def Row.r (op : BitVec 8) (uses : Uses) (build : Fields → Instr) : Row := ⟨op, .R, uses, build⟩

/-- A row of format I: field a and the immediate. -/
def Row.i (op : BitVec 8) (build : Fields → Instr) : Row := ⟨op, .I, Uses.first 1 false, build⟩

/-- Whether every field the row does not use is 0 in the word (30_encoding.md R114): in format R the unused ones of a to
e, `rsv`, and v where it is unused; in format I the `zero` field. -/
def Row.unusedZero (r : Row) (f : Fields) : Bool :=
  match r.fmt with
  | .R => (r.uses.a || f.a == 0) && (r.uses.b || f.b == 0) && (r.uses.c || f.c == 0) && (r.uses.d || f.d == 0) &&
      (r.uses.e || f.e == 0) && f.rsv == 0 && (r.uses.v || !f.v)
  | .I => f.b == 0

/-- A 4-bit mask: ones where the field must be 0. -/
def maskNibble (used : Bool) : BitVec 4 := if used then 0 else 15

/-- `row.mask` of 30_encoding.md R119: ones in bits [31:24], in every unused field, and in the rsv or zero bits. -/
def Row.mask (r : Row) : Word :=
  match r.fmt with
  | .R => 0xFF#8 ++ maskNibble r.uses.a ++ maskNibble r.uses.b ++ maskNibble r.uses.c ++ maskNibble r.uses.d ++
      maskNibble r.uses.e ++ 7#3 ++ BitVec.ofBool (!r.uses.v)
  | .I => 0xFF#8 ++ 0#4 ++ 0xF#4 ++ 0#16

/-- `row.match` of 30_encoding.md R119: `op × 2^24`. -/
def Row.word (r : Row) : Word := r.op ++ 0#24

/-- Control and register moves (40_control.md): the rows of 30_encoding.md R116. -/
def controlRows : List Row := [
  .r 0x00 (.first 0 false) fun _ => .nop,
  .r 0x01 (.first 0 false) fun _ => .srst,
  .i 0x10 fun f => .li (regOf f.a) f.imm16,
  .i 0x11 fun f => .lui (regOf f.a) f.imm16,
  .r 0x12 (.first 2 false) fun f => .mov (regOf f.a) (regOf f.b)]

/-- Bit primitives (41_bit_primitives.md): the rows of 30_encoding.md R116. -/
def bitRows : List Row := [
  .r 0x20 (.first 3 false) fun f => .bget (regOf f.a) (regOf f.b) (regOf f.c),
  .r 0x21 (.first 3 true) fun f => .bset (regOf f.a) (regOf f.b) (regOf f.c) f.v,
  .r 0x22 (.first 4 true) fun f => .bins (regOf f.a) (regOf f.b) (regOf f.c) (regOf f.d) f.v,
  .r 0x23 (.first 4 false) fun f => .bera (regOf f.a) (regOf f.b) (regOf f.c) (regOf f.d)]

/-- Bit Sequence Container (42_bit_sequence.md): the rows of 30_encoding.md R116. -/
def sequenceRows : List Row := [
  .r 0x30 (.first 2 true) fun f => .bsnew (regOf f.a) (regOf f.b) f.v,
  .r 0x31 (.first 3 false) fun f => .bsfrom (regOf f.a) (regOf f.b) (regOf f.c),
  .r 0x32 (.first 2 false) fun f => .bsmov (regOf f.a) (regOf f.b),
  .r 0x33 (.first 2 false) fun f => .bssize (regOf f.a) (regOf f.b),
  .r 0x34 (.first 2 false) fun f => .bsempty (regOf f.a) (regOf f.b),
  .r 0x35 (.first 3 false) fun f => .bsat (regOf f.a) (regOf f.b) (regOf f.c),
  .r 0x36 (.first 3 false) fun f => .bsgetu (regOf f.a) (regOf f.b) (regOf f.c),
  .r 0x37 (.first 2 true) fun f => .bssetat (regOf f.a) (regOf f.b) f.v,
  .r 0x38 (.first 2 true) fun f => .bssetu (regOf f.a) (regOf f.b) f.v,
  .r 0x39 (.first 3 true) fun f => .bsins (regOf f.a) (regOf f.b) (regOf f.c) f.v,
  .r 0x3A (.first 2 true) fun f => .bsins1 (regOf f.a) (regOf f.b) f.v,
  .r 0x3B (.first 5 false) fun f => .bsinsr (regOf f.a) (regOf f.b) (regOf f.c) (regOf f.d) (regOf f.e),
  .r 0x3C (.first 3 false) fun f => .bsera (regOf f.a) (regOf f.b) (regOf f.c),
  .r 0x3D (.first 2 false) fun f => .bsera1 (regOf f.a) (regOf f.b),
  .r 0x3E (.first 1 true) fun f => .bspush (regOf f.a) f.v,
  .r 0x3F (.first 1 false) fun f => .bspop (regOf f.a),
  .r 0x40 (.first 2 true) fun f => .bsresize (regOf f.a) (regOf f.b) f.v,
  .r 0x41 (.first 1 false) fun f => .bsclr (regOf f.a),
  .r 0x42 (.first 2 false) fun f => .bsfront (regOf f.a) (regOf f.b),
  .r 0x43 (.first 2 false) fun f => .bsback (regOf f.a) (regOf f.b),
  .r 0x44 (.first 2 false) fun f => .bsword (regOf f.a) (regOf f.b)]

/-- Priority queue (43_priority_queue.md): the rows of 30_encoding.md R116. -/
def queueRows : List Row := [
  .r 0x50 (.first 2 false) fun f => .pqpush (regOf f.a) (regOf f.b),
  .r 0x51 (.first 0 false) fun _ => .pqpop,
  .r 0x52 (.first 2 false) fun f => .pqtop (regOf f.a) (regOf f.b),
  .r 0x53 (.first 2 false) fun f => .pqback (regOf f.a) (regOf f.b),
  .r 0x54 (.first 3 false) fun f => .pqat (regOf f.a) (regOf f.b) (regOf f.c),
  .r 0x55 (.first 1 false) fun f => .pqsize (regOf f.a),
  .r 0x56 (.first 0 false) fun _ => .pqclr]

/-- Huffman tree, frequency table, code table (44_huffman_tree.md): the rows of 30_encoding.md R116. -/
def treeRows : List Row := [
  .r 0x60 (.first 2 false) fun f => .fqwr (regOf f.a) (regOf f.b),
  .r 0x61 (.first 2 false) fun f => .fqrd (regOf f.a) (regOf f.b),
  .r 0x62 (.first 0 false) fun _ => .fqclr,
  .r 0x63 (.first 2 false) fun f => .ctwr (regOf f.a) (regOf f.b),
  .r 0x64 (.first 2 false) fun f => .ctrd (regOf f.a) (regOf f.b),
  .r 0x65 (.first 0 false) fun _ => .ctclr,
  .r 0x68 (.first 2 false) fun f => .htfreq (regOf f.a) (regOf f.b),
  .r 0x69 (.first 0 false) fun _ => .htfill,
  .r 0x6A (.first 0 false) fun _ => .htbuild,
  .r 0x6B (.first 0 false) fun _ => .htdict,
  .r 0x6C (.first 2 false) fun f => .htsetdata (regOf f.a) (regOf f.b),
  .r 0x6D (.first 0 false) fun _ => .htsetdict,
  .r 0x6E (.first 2 false) fun f => .htenc (regOf f.a) (regOf f.b),
  .r 0x6F (.first 1 false) fun f => .htdec (regOf f.a),
  .r 0x70 (.first 1 false) fun f => .htroot (regOf f.a),
  .r 0x71 (.first 1 false) fun f => .htncnt (regOf f.a),
  .r 0x72 ⟨true, true, false, true, false, false⟩ fun f => .ndrd (regOf f.a) (regOf f.b) f.d]

/-- Bit cursors (45_bit_cursors.md): the rows of 30_encoding.md R116. -/
def cursorRows : List Row := [
  .r 0x80 (.first 1 false) fun f => .ibinit (regOf f.a),
  .r 0x81 (.first 1 false) fun f => .ibread (regOf f.a),
  .r 0x82 (.first 0 false) fun _ => .ibnext,
  .r 0x83 (.first 1 false) fun f => .iblast (regOf f.a),
  .r 0x84 (.first 1 false) fun f => .ibend (regOf f.a),
  .r 0x85 (.first 1 false) fun f => .ibpos (regOf f.a),
  .r 0x88 (.first 0 false) fun _ => .obinit,
  .r 0x89 (.first 0 true) fun f => .obput f.v,
  .r 0x8A (.first 1 false) fun f => .obputx (regOf f.a),
  .r 0x8B (.first 1 false) fun f => .obflush (regOf f.a),
  .r 0x8C (.first 1 false) fun f => .obcnt (regOf f.a)]

/-- Codec (46_codec.md): the rows of 30_encoding.md R116. -/
def codecRows : List Row := [
  .r 0x90 (.first 0 false) fun _ => .compress,
  .r 0x91 (.first 0 false) fun _ => .decompress]

/-- The complete opcode map (30_encoding.md R116). -/
def opcodeMap : List Row :=
  controlRows ++ bitRows ++ sequenceRows ++ queueRows ++ treeRows ++ cursorRows ++ codecRows

/-- Why a word is no legal command: the three cases of 30_encoding.md R118. Each raises ILLEGAL(0) in the machine. -/
inductive DecodeError where
  /-- (1) bits [31:24] are a reserved opcode (R117). -/
  | reservedOpcode
  /-- (2) a field the command does not use is nonzero (R114). -/
  | nonzeroUnusedField
  /-- (3) NDRD with f > 4. -/
  | badNodeField
  deriving DecidableEq, Repr

/-- The row of an opcode, or none for a reserved one (30_encoding.md R117). -/
def rowOf (op : BitVec 8) : Option Row := opcodeMap.find? fun r => r.op == op

/-- The decoder, total on every 32-bit word (30_encoding.md R118, R119). -/
def decode (w : Word) : Except DecodeError Instr :=
  match rowOf (fieldsOf w).op with
  | none => .error .reservedOpcode
  | some r =>
    if r.unusedZero (fieldsOf w) = false then .error .nonzeroUnusedField
    else if (fieldsOf w).op = 0x72 ∧ 4 < (fieldsOf w).d.toNat then .error .badNodeField
    else .ok (r.build (fieldsOf w))

/-- A format R word (30_encoding.md R121). -/
def encodeR (op : BitVec 8) (a b c d e : BitVec 4) (v : Bool) : Word :=
  op ++ a ++ b ++ c ++ d ++ e ++ 0#3 ++ BitVec.ofBool v

/-- A format I word (30_encoding.md R121). -/
def encodeI (op : BitVec 8) (a : BitVec 4) (imm16 : BitVec 16) : Word := op ++ a ++ 0#4 ++ imm16

/-- The word of a command (30_encoding.md R116, R121), written from the opcode map's columns. -/
def encode : Instr → Word
  | .nop => encodeR 0x00 0 0 0 0 0 false
  | .srst => encodeR 0x01 0 0 0 0 0 false
  | .li a imm => encodeI 0x10 (regBits a) imm
  | .lui a imm => encodeI 0x11 (regBits a) imm
  | .mov a b => encodeR 0x12 (regBits a) (regBits b) 0 0 0 false
  | .bget a b c => encodeR 0x20 (regBits a) (regBits b) (regBits c) 0 0 false
  | .bset a b c v => encodeR 0x21 (regBits a) (regBits b) (regBits c) 0 0 v
  | .bins a b c d v => encodeR 0x22 (regBits a) (regBits b) (regBits c) (regBits d) 0 v
  | .bera a b c d => encodeR 0x23 (regBits a) (regBits b) (regBits c) (regBits d) 0 false
  | .bsnew a b v => encodeR 0x30 (regBits a) (regBits b) 0 0 0 v
  | .bsfrom a b c => encodeR 0x31 (regBits a) (regBits b) (regBits c) 0 0 false
  | .bsmov a b => encodeR 0x32 (regBits a) (regBits b) 0 0 0 false
  | .bssize a b => encodeR 0x33 (regBits a) (regBits b) 0 0 0 false
  | .bsempty a b => encodeR 0x34 (regBits a) (regBits b) 0 0 0 false
  | .bsat a b c => encodeR 0x35 (regBits a) (regBits b) (regBits c) 0 0 false
  | .bsgetu a b c => encodeR 0x36 (regBits a) (regBits b) (regBits c) 0 0 false
  | .bssetat a b v => encodeR 0x37 (regBits a) (regBits b) 0 0 0 v
  | .bssetu a b v => encodeR 0x38 (regBits a) (regBits b) 0 0 0 v
  | .bsins a b c v => encodeR 0x39 (regBits a) (regBits b) (regBits c) 0 0 v
  | .bsins1 a b v => encodeR 0x3A (regBits a) (regBits b) 0 0 0 v
  | .bsinsr a b c d e => encodeR 0x3B (regBits a) (regBits b) (regBits c) (regBits d) (regBits e) false
  | .bsera a b c => encodeR 0x3C (regBits a) (regBits b) (regBits c) 0 0 false
  | .bsera1 a b => encodeR 0x3D (regBits a) (regBits b) 0 0 0 false
  | .bspush a v => encodeR 0x3E (regBits a) 0 0 0 0 v
  | .bspop a => encodeR 0x3F (regBits a) 0 0 0 0 false
  | .bsresize a b v => encodeR 0x40 (regBits a) (regBits b) 0 0 0 v
  | .bsclr a => encodeR 0x41 (regBits a) 0 0 0 0 false
  | .bsfront a b => encodeR 0x42 (regBits a) (regBits b) 0 0 0 false
  | .bsback a b => encodeR 0x43 (regBits a) (regBits b) 0 0 0 false
  | .bsword a b => encodeR 0x44 (regBits a) (regBits b) 0 0 0 false
  | .pqpush a b => encodeR 0x50 (regBits a) (regBits b) 0 0 0 false
  | .pqpop => encodeR 0x51 0 0 0 0 0 false
  | .pqtop a b => encodeR 0x52 (regBits a) (regBits b) 0 0 0 false
  | .pqback a b => encodeR 0x53 (regBits a) (regBits b) 0 0 0 false
  | .pqat a b c => encodeR 0x54 (regBits a) (regBits b) (regBits c) 0 0 false
  | .pqsize a => encodeR 0x55 (regBits a) 0 0 0 0 false
  | .pqclr => encodeR 0x56 0 0 0 0 0 false
  | .fqwr a b => encodeR 0x60 (regBits a) (regBits b) 0 0 0 false
  | .fqrd a b => encodeR 0x61 (regBits a) (regBits b) 0 0 0 false
  | .fqclr => encodeR 0x62 0 0 0 0 0 false
  | .ctwr a b => encodeR 0x63 (regBits a) (regBits b) 0 0 0 false
  | .ctrd a b => encodeR 0x64 (regBits a) (regBits b) 0 0 0 false
  | .ctclr => encodeR 0x65 0 0 0 0 0 false
  | .htfreq a b => encodeR 0x68 (regBits a) (regBits b) 0 0 0 false
  | .htfill => encodeR 0x69 0 0 0 0 0 false
  | .htbuild => encodeR 0x6A 0 0 0 0 0 false
  | .htdict => encodeR 0x6B 0 0 0 0 0 false
  | .htsetdata a b => encodeR 0x6C (regBits a) (regBits b) 0 0 0 false
  | .htsetdict => encodeR 0x6D 0 0 0 0 0 false
  | .htenc a b => encodeR 0x6E (regBits a) (regBits b) 0 0 0 false
  | .htdec a => encodeR 0x6F (regBits a) 0 0 0 0 false
  | .htroot a => encodeR 0x70 (regBits a) 0 0 0 0 false
  | .htncnt a => encodeR 0x71 (regBits a) 0 0 0 0 false
  | .ndrd a b d => encodeR 0x72 (regBits a) (regBits b) 0 d 0 false
  | .ibinit a => encodeR 0x80 (regBits a) 0 0 0 0 false
  | .ibread a => encodeR 0x81 (regBits a) 0 0 0 0 false
  | .ibnext => encodeR 0x82 0 0 0 0 0 false
  | .iblast a => encodeR 0x83 (regBits a) 0 0 0 0 false
  | .ibend a => encodeR 0x84 (regBits a) 0 0 0 0 false
  | .ibpos a => encodeR 0x85 (regBits a) 0 0 0 0 false
  | .obinit => encodeR 0x88 0 0 0 0 0 false
  | .obput v => encodeR 0x89 0 0 0 0 0 v
  | .obputx a => encodeR 0x8A (regBits a) 0 0 0 0 false
  | .obflush a => encodeR 0x8B (regBits a) 0 0 0 0 false
  | .obcnt a => encodeR 0x8C (regBits a) 0 0 0 0 false
  | .compress => encodeR 0x90 0 0 0 0 0 false
  | .decompress => encodeR 0x91 0 0 0 0 0 false

/-- The instruction the decoder reads from a word numbered as spec/opcode_table.json numbers it; a command is always
exactly one 32-bit word (30_encoding.md R110), so bits at and above `nbits` are 0 and bits at and above 32 do not exist. -/
def decodeTableWord (nbits w : Nat) : Option Instr :=
  match decode (BitVec.ofNat 32 (w % 2 ^ nbits)) with
  | .ok i => some i
  | .error _ => none

end Sys2Proof
end

