-- ==== Sys2Proof/Config.lean ====
section
/-! DEFINITION. What the spec leaves open: the two capacities, the latency and the draws. None has a body, so no proof can
know a value of it (93_implementation_defined.md P1 to P6). -/

namespace Sys2Proof.Config

/-- IN_CAP, OPEN with 0 ≤ IN_CAP ≤ 2^28 (00_scope.md R8; log 7). -/
opaque inCap : Fin (2 ^ 28 + 1)

/-- OUT_CAP, OPEN with 0 ≤ OUT_CAP ≤ 2^28 (00_scope.md R8; log 7). -/
opaque outCap : Fin (2 ^ 28 + 1)

/-- LATENCY of a command word (70_reset_and_hazards.md R408): how many host accesses may land while it executes, for
the n-th draw (log 2). -/
opaque latency : Word → Nat → Nat

/-- The n-th draw() restricted to one bit (42_bit_sequence.md R177; log 6). -/
opaque drawBit : Nat → Bool

/-- The byte at an address that the n-th draw() of a whole window gave (10_state.md R60, 46_codec.md R348; log 5). -/
opaque drawByte : Nat → Nat → Byte

/-- The n-th draw() of a word, returned by a host read while BUSY = 1 (70_reset_and_hazards.md R410; log 6). -/
opaque drawWord : Nat → Word

end Sys2Proof.Config
end

