-- ==== Sys2Proof/Machine/State.lean ====
section
/-! DEFINITION. The state of one HCQ core (10_state.md R30), the host's pending accesses, the reasons a step can stop, and
the state after power-on reset (10_state.md R60). Data only: every function on it stands in the other files of Machine. -/

namespace Sys2Proof.Machine

/-- The bytes of a window by window address: pairs (address, byte), addresses strictly rising. An address with no pair has
no value of its own (20_memory.md R80; log 5). -/
abbrev Memory := List Host.Cell

/-- The IN or the OUT window (20_memory.md R83, R84): the bytes written to it, and the number of the draw() that gave every
other byte its value (10_state.md R60, 46_codec.md R348; log 5). -/
structure Window where
  cells : Memory
  draw : Nat
  deriving DecidableEq, Repr

/-- A node index, or none for NONE = 0xFFFF (10_state.md R49; log 13). -/
abbrev Link := Option Nat

/-- A node of the arena (10_state.md R49). -/
structure Node where
  weight : Word
  sym : Byte
  leaf : Bool
  left : Link
  right : Link
  parent : Link
  deriving DecidableEq, Repr

/-- TSTATE, the tree builder's state (10_state.md R51). -/
inductive TState where
  /-- 0: no tree. -/
  | empty
  /-- 1: leaves filled, not yet built. -/
  | leaves
  /-- 2: built from data. -/
  | tree
  /-- 3: built from data, code table derived. -/
  | coded
  /-- 4: rebuilt from a code table. -/
  | dict
  deriving DecidableEq, Repr

/-- An entry of the priority queue (10_state.md R54). -/
structure PqEntry where
  key : Word
  val : BitVec 16
  deriving DecidableEq, Repr

/-- The input bit cursor IBC (10_state.md R55). `ended` is the field END. -/
structure Ibc where
  ended : Bool
  pos : Word
  bit : BitVec 3
  cur : Byte
  deriving DecidableEq, Repr

/-- The output bit cursor OBC (10_state.md R57). -/
structure Obc where
  buf : Byte
  nb : BitVec 3
  deriving DecidableEq, Repr

/-- The error codes written to STATUS.ERRCODE (60_exceptions.md R361). -/
inductive ErrCode where
  /-- 0: no fault. -/
  | none
  /-- 1. -/
  | outOfRange
  /-- 2. -/
  | io
  /-- 3. -/
  | malformed
  /-- 4. -/
  | capacity
  /-- 5. -/
  | illegal
  /-- 6. -/
  | sequence
  deriving DecidableEq, Repr

/-- The stored fields of STATUS (10_state.md R42); TSTATE, the sixth, is the state of R51. -/
structure Status where
  busy : Bool
  done : Bool
  err : Bool
  ovr : Bool
  errCode : ErrCode
  deriving DecidableEq, Repr

/-- The width of a host access: 8, 16 or 32 bits (20_memory.md R82, R83; log 11). -/
inductive Width where
  | byte
  | half
  | word
  deriving DecidableEq, Repr

/-- One thing the host does to the block (00_scope.md R6): a bus read, a bus write of a value (its low bits for the
narrower widths), or a level driven on the reset input. -/
inductive HostOp where
  | read (w : Width) (addr : Word)
  | write (w : Width) (addr : Word) (v : Word)
  | reset (asserted : Bool)
  deriving DecidableEq, Repr

/-- The state of one HCQ core (10_state.md R30) and, after it, the parameters and the model's own fields. -/
structure State where
  /-- X[0..15] (R32). -/
  x : Vector Word 16
  /-- BS[0..15], each a bit string (R34, R35). -/
  bs : Vector Bits 16
  /-- FREQ[0..255] (R53). -/
  freq : Vector Word 256
  /-- NODE[0..NCOUNT-1]; NCOUNT is the length (R48; log 13). -/
  nodes : List Node
  /-- ROOT (R50). -/
  root : Link
  /-- TSTATE (R51). -/
  tstate : TState
  /-- CT[0..255] (R52). -/
  ct : Vector Bits 256
  /-- PQ in sorted order, the minimum first (R54). -/
  pq : List PqEntry
  /-- IBC (R55). -/
  ibc : Ibc
  /-- OBC (R57). -/
  obc : Obc
  /-- PAD (R38). -/
  pad : BitVec 3
  /-- CTRL[3:0]: SRC_VALID, SNK_VALID, IE_DONE, IE_ERR from bit 0 up (R41). -/
  ctrl : BitVec 4
  /-- STATUS (R42). -/
  status : Status
  /-- ERRINFO (R43). -/
  errInfo : Word
  /-- ERRCMD (R44). -/
  errCmd : Word
  /-- IN_LEN (R46). -/
  inLen : Word
  /-- OUT_LEN (R47). -/
  outLen : Word
  /-- IN (20_memory.md R83). -/
  inWin : Window
  /-- OUT (20_memory.md R84). -/
  outWin : Window
  /-- The command word captured at the write to CMD (20_memory.md R97; log 20). -/
  cmd : Word
  /-- IN_CAP, a parameter no step changes (00_scope.md R8; log 7). -/
  inCap : Fin (2 ^ 28 + 1)
  /-- OUT_CAP, a parameter no step changes (00_scope.md R8; log 7). -/
  outCap : Fin (2 ^ 28 + 1)
  /-- The model's own: host accesses that still land before the executing command completes (log 2). -/
  busyLeft : Nat
  /-- The model's own: the level of the reset input, true while asserted (70_reset_and_hazards.md R400; log 17). -/
  resetPin : Bool
  /-- The model's own: the host's accesses not yet performed, oldest first (log 1). -/
  host : List HostOp
  /-- The model's own: the value the last host read returned (log 12). -/
  rdata : Word
  /-- The model's own: how many draws have been made (00_scope.md R14; log 6). -/
  draws : Nat
  deriving DecidableEq, Repr

/-- Reasons the machine stops. None of them is a fault of the HCQ core: those are next states (60_exceptions.md R362). -/
inductive Fault where
  /-- Raised by HTDICT and HTDEC where the arena breaks the invariant of 10_state.md R49 (a link to a node that does not
  exist, or parent links that never reach a root). Every command keeps that invariant, so no run from reset raises it.
  Safe: the model stops where the spec describes nothing (log 15). -/
  | arenaNotTree
  deriving DecidableEq, Repr

/-- Reasons the model has no meaning for an instruction. -/
inductive Refusal where
  /-- Raised by an arm of exec whose instruction has no meaning yet. Safe: nothing can be proved of it. -/
  | notModelled (mnemonic : String)
  deriving DecidableEq, Repr

/-- The answer of a meaning and of a step. -/
abbrev Answer := Host.Outcome State Fault Refusal

/-- IBC exhausted at position 0, its value after reset, SRST and a failed codec command (10_state.md R60). -/
def Ibc.cleared : Ibc := ⟨true, 0, 0, 0⟩

/-- OBC empty (10_state.md R60). -/
def Obc.cleared : Obc := ⟨0, 0⟩

/-- The state after power-on reset: the "after reset" column of 10_state.md R60, nothing listed in IN and OUT, the open
capacities of Config (log 7), and the model's own fields at the values of logs 1, 2, 5, 6, 12, 17 and 20. -/
def State.reset : State where
  x := Vector.replicate 16 0
  bs := Vector.replicate 16 []
  freq := Vector.replicate 256 0
  nodes := []
  root := none
  tstate := .empty
  ct := Vector.replicate 256 []
  pq := []
  ibc := Ibc.cleared
  obc := Obc.cleared
  pad := 0
  ctrl := 0
  status := ⟨false, false, false, false, .none⟩
  errInfo := 0
  errCmd := 0
  inLen := 0
  outLen := 0
  inWin := ⟨[], 0⟩
  outWin := ⟨[], 1⟩
  cmd := 0
  inCap := Config.inCap
  outCap := Config.outCap
  busyLeft := 0
  resetPin := false
  host := []
  rdata := 0
  draws := 2

end Sys2Proof.Machine
end

