-- ==== Sys2Proof/Machine/Ops.lean ====
section
/-! DEFINITION. The named operations over memory, registers and cursors, and the one way a command ends: completion, or
the fault entry of 60_exceptions.md R362 with its return beside it. -/

namespace Sys2Proof.Machine

/-! ### Memory: a list of (address, byte) in canonical form -/

/-- The byte listed at an address, or none where nothing has been written. -/
def Memory.get? : Memory → Nat → Option Byte
  | [], _ => none
  | (k, v) :: t, a => if k = a then some v else Memory.get? t a

/-- Write one byte, keeping the addresses strictly rising. -/
def Memory.put : Memory → Nat → Byte → Memory
  | [], a, b => [(a, b)]
  | (k, v) :: t, a, b =>
    if a < k then (a, b) :: (k, v) :: t
    else if a = k then (a, b) :: t
    else (k, v) :: Memory.put t a b

/-- The canonical form: addresses strictly rising. An unlisted address has no value, so no entry can equal it. -/
abbrev Memory.wf (m : Memory) : Prop := (m.map Prod.fst).Pairwise (· < ·)

/-- The byte a window holds at an address: the byte written last, else what the window's draw() gave (10_state.md R60;
20_memory.md R84; log 5). -/
def Window.byte (w : Window) (a : Nat) : Byte := (Memory.get? w.cells a).getD (Config.drawByte w.draw a)

/-- Write one byte of a window. -/
def Window.write (w : Window) (a : Nat) (b : Byte) : Window := { w with cells := Memory.put w.cells a b }

/-- A window whose every byte the n-th draw() gave. -/
def Window.drawn (n : Nat) : Window := ⟨[], n⟩

/-- InByte(a): the byte IN[a] (00_scope.md R14, 20_memory.md R87). -/
def State.inByte (s : State) (a : Nat) : Byte := s.inWin.byte a

/-- OUT[a] (20_memory.md R84). -/
def State.outByte (s : State) (a : Nat) : Byte := s.outWin.byte a

/-- IN[p .. p+n). -/
def State.inBytes (s : State) (p n : Nat) : List Byte := (List.range n).map fun k => s.inByte (p + k)

/-- OUT[p .. p+n). -/
def State.outBytes (s : State) (p n : Nat) : List Byte := (List.range n).map fun k => s.outByte (p + k)

/-! ### Registers and tables (00_scope.md R14) -/

/-- `x[i]` (10_state.md R32). -/
def State.getX (s : State) (i : XReg) : Word := s.x[i]

/-- `x[i] <- v` (10_state.md R32: no register is hardwired). -/
def State.setX (s : State) (i : XReg) (v : Word) : State := { s with x := s.x.set i v }

/-- `bs[j]` (10_state.md R34). -/
def State.getBs (s : State) (j : BsReg) : Bits := s.bs[j]

/-- `bs[j] <- v` (10_state.md R34). -/
def State.setBs (s : State) (j : BsReg) (v : Bits) : State := { s with bs := s.bs.set j v }

/-- The entry of a 256-entry table for a symbol (10_state.md R52, R53). -/
def entry {α : Type} (t : Vector α 256) (c : Byte) : α := t[c.toNat]'c.isLt

/-- A 256-entry table with the entry of one symbol replaced. -/
def setEntry {α : Type} (t : Vector α 256) (c : Byte) (v : α) : Vector α 256 := t.set c.toNat v c.isLt

/-- The symbols 0..255 in ascending order. -/
def symbols : List Byte := (List.range 256).map fun n => BitVec.ofNat 8 n

/-- The entries of a table beside their symbols, in ascending symbol order. -/
def entries {α : Type} (t : Vector α 256) : List (Byte × α) := symbols.zip t.toList

/-- A link as a word: NONE reads 0xFFFF (44_huffman_tree.md R270, R272). -/
def linkWord : Link → Word
  | none => 0xFFFF
  | some i => BitVec.ofNat 32 i

/-- The encodings of TSTATE (10_state.md R51). -/
def TState.code : TState → BitVec 3
  | .empty => 0
  | .leaves => 1
  | .tree => 2
  | .coded => 3
  | .dict => 4

/-- Take one draw(): the draw counter moves on (00_scope.md R14; log 6). -/
def State.drawn (s : State) : State := { s with draws := s.draws + 1 }

/-! ### Raising a fault (60_exceptions.md) -/

/-- `raise E(info)` with the values each rule names (60_exceptions.md R361, R363, R366 to R369). -/
inductive Raise where
  | outOfRange (info : Nat)
  | io (info : Nat)
  | malformed (sub detail : Nat)
  | capacity (info : Nat)
  | illegal
  | sequence (t : TState)
  deriving DecidableEq, Repr

/-- The error code of a raise (60_exceptions.md R361). -/
def Raise.code : Raise → ErrCode
  | .outOfRange _ => .outOfRange
  | .io _ => .io
  | .malformed _ _ => .malformed
  | .capacity _ => .capacity
  | .illegal => .illegal
  | .sequence _ => .sequence

/-- The ERRINFO value of a raise, `info mod 2^32` (60_exceptions.md R362); for MALFORMED `sub × 2^24 + (d mod 2^24)`
(R363). -/
def Raise.info : Raise → Word
  | .outOfRange v => BitVec.ofNat 32 v
  | .io v => BitVec.ofNat 32 v
  | .malformed sub d => BitVec.ofNat 32 (sub * 2 ^ 24 + d % 2 ^ 24)
  | .capacity v => BitVec.ofNat 32 v
  | .illegal => 0
  | .sequence t => t.code.setWidth 32

/-- Why a command's pseudocode ends before its end: a raise, or an arena outside 10_state.md R49 (log 15). -/
inductive Stop where
  | raise (r : Raise)
  | stuck (f : Fault)
  deriving DecidableEq, Repr

/-- `raise` in a command's pseudocode. -/
def raise {α : Type} (r : Raise) : Except Stop α := .error (.raise r)

/-- A walk that leaves the arena (log 15). -/
def stuck {α : Type} : Except Stop α := .error (.stuck .arenaNotTree)

/-- Fault entry, the effect of `raise E(info)` (60_exceptions.md R362): ERR, ERRCODE and ERRINFO are written, ERRCMD takes
the command word, BUSY falls, and DONE, cleared when the command was accepted, is not written. -/
def State.takeFault (s : State) (r : Raise) : State :=
  { s with
    status := { s.status with err := true, errCode := r.code, busy := false }
    errInfo := r.info
    errCmd := s.cmd }

/-- Return from a fault: what a host write to STATUS with bit 2 set does (60_exceptions.md R375, 10_state.md R42). ERRINFO
and ERRCMD stay (R43, R44). -/
def State.clearError (s : State) : State := { s with status := { s.status with err := false, errCode := .none } }

/-- Completion without a raise: BUSY falls and DONE is set (70_reset_and_hazards.md R406, 30_encoding.md R126). -/
def State.complete (s : State) : State := { s with status := { s.status with busy := false, done := true } }

/-- The end of a precise command (00_scope.md R15, 30_encoding.md R127): its result completes, and a raise takes the fault
from the state before the command. -/
def State.precise (s : State) (result : Except Stop State) : Answer :=
  match result with
  | .ok t => .next t.complete
  | .error (.raise r) => .next (s.takeFault r)
  | .error (.stuck f) => .fault f

/-- The end of COMPRESS or DECOMPRESS after the valid-bit checks (46_codec.md R348): a raise takes the fault from the
failure state. -/
def State.imprecise (failed : State) (result : Except Stop State) : Answer :=
  match result with
  | .ok t => .next t.complete
  | .error (.raise r) => .next (failed.takeFault r)
  | .error (.stuck f) => .fault f

/-! ### The output side: OUT, OUT_LEN and OBC (45_bit_cursors.md R299, 20_memory.md R88) -/

/-- What the output bit cursor writes: OUT, OUT_LEN and OBC. -/
structure Sink where
  win : Window
  len : Word
  obc : Obc
  deriving DecidableEq, Repr

/-- The output side of a state. -/
def State.sink (s : State) : Sink := ⟨s.outWin, s.outLen, s.obc⟩

/-- A state with another output side. -/
def State.setSink (s : State) (k : Sink) : State := { s with outWin := k.win, outLen := k.len, obc := k.obc }

/-- OutAppend(b) (20_memory.md R88). -/
def outAppend (cap : Nat) (k : Sink) (b : Byte) : Except Stop Sink :=
  if cap ≤ k.len.toNat then raise (.io 2)
  else .ok { k with win := k.win.write k.len.toNat b, len := k.len + 1 }

/-- `BUF[7 - NB] <- b` (45_bit_cursors.md R299). -/
def Obc.place (o : Obc) (b : Bool) : Byte :=
  (o.buf &&& ~~~((1 : Byte) <<< (7 - o.nb.toNat))) ||| ((BitVec.ofBool b).setWidth 8 <<< (7 - o.nb.toNat))

/-- ObcPut(b) (45_bit_cursors.md R299). -/
def obcPut (cap : Nat) (k : Sink) (b : Bool) : Except Stop Sink :=
  if k.obc.nb = 7 then
    match outAppend cap k (k.obc.place b) with
    | .ok k' => .ok { k' with obc := Obc.cleared }
    | .error e => .error e
  else .ok { k with obc := ⟨k.obc.place b, k.obc.nb + 1⟩ }

/-- ObcPut of every bit of a string, in order. -/
def obcPutBits (cap : Nat) (k : Sink) : Bits → Except Stop Sink
  | [] => .ok k
  | b :: t =>
    match obcPut cap k b with
    | .ok k' => obcPutBits cap k' t
    | .error e => .error e

/-- The bits of a byte, MSB first (20_memory.md R86). -/
def byteBits (y : Byte) : Bits := (List.range 8).map fun i => y.getLsbD (7 - i)

/-- The bits of a byte string, each byte MSB first. -/
def bytesBits (l : List Byte) : Bits := l.flatMap byteBits

/-- ObcPutByte of every byte, in order (45_bit_cursors.md R299). -/
def obcPutBytes (cap : Nat) (k : Sink) (l : List Byte) : Except Stop Sink := obcPutBits cap k (bytesBits l)

/-- ObcFlush() with the number of padding bits it returns (45_bit_cursors.md R299). -/
def obcFlush (cap : Nat) (k : Sink) : Except Stop (Sink × Nat) :=
  if k.obc.nb = 0 then .ok (k, 0)
  else
    match outAppend cap k k.obc.buf with
    | .ok k' => .ok ({ k' with obc := Obc.cleared }, 8 - k.obc.nb.toNat)
    | .error e => .error e

/-! ### The input side: IBC over IN (45_bit_cursors.md R290) -/

/-- IbcLoad(p): the cursor on byte p, or the "end" sentinel (45_bit_cursors.md R290). -/
def State.ibcLoad (s : State) (p : Nat) : Ibc :=
  if p < s.inLen.toNat then ⟨false, BitVec.ofNat 32 p, 0, s.inByte p⟩ else ⟨true, s.inLen, 0, 0⟩

/-- The cursor's current bit `CUR[7 - BIT]` (10_state.md R55). -/
def Ibc.current (c : Ibc) : Bool := c.cur.getLsbD (7 - c.bit.toNat)

/-- IbcAdvance (45_bit_cursors.md R290); a caller has checked END = 0. -/
def State.ibcAdvance (s : State) (c : Ibc) : Ibc :=
  if c.bit.toNat < 7 then { c with bit := c.bit + 1 } else s.ibcLoad (c.pos.toNat + 1)

end Sys2Proof.Machine
end

