-- ==== Sys2Proof/Machine/Flags.lean ====
section
/-! DEFINITION. STATUS and the interrupt output (10_state.md R42, 60_exceptions.md R370). The commands have no flags
(10_state.md R37): BUSY, DONE, ERR and OVR are written by acceptance, completion, fault entry and the host. -/

namespace Sys2Proof.Machine

/-- The codes of 60_exceptions.md R361. -/
def ErrCode.code : ErrCode → BitVec 8
  | .none => 0
  | .outOfRange => 1
  | .io => 2
  | .malformed => 3
  | .capacity => 4
  | .illegal => 5
  | .sequence => 6

/-- STATUS as the host reads it (10_state.md R42): [31:16] 0, [15:8] ERRCODE, [7] 0, [6:4] TSTATE, OVR, ERR, DONE, BUSY. -/
def State.statusWord (s : State) : Word :=
  0#16 ++ s.status.errCode.code ++ 0#1 ++ s.tstate.code ++ BitVec.ofBool s.status.ovr ++ BitVec.ofBool s.status.err ++
    BitVec.ofBool s.status.done ++ BitVec.ofBool s.status.busy

/-- CTRL.SRC_VALID (10_state.md R41). -/
def State.srcValid (s : State) : Bool := s.ctrl.getLsbD 0

/-- CTRL.SNK_VALID (10_state.md R41). -/
def State.snkValid (s : State) : Bool := s.ctrl.getLsbD 1

/-- CTRL.IE_DONE (10_state.md R41). -/
def State.ieDone (s : State) : Bool := s.ctrl.getLsbD 2

/-- CTRL.IE_ERR (10_state.md R41). -/
def State.ieErr (s : State) : Bool := s.ctrl.getLsbD 3

/-- The interrupt output (60_exceptions.md R370). -/
def State.irq (s : State) : Bool := (s.status.done && s.ieDone) || (s.status.err && s.ieErr)

/-- Set STATUS.OVR: a host write was discarded (10_state.md R42). -/
def State.overrun (s : State) : State := { s with status := { s.status with ovr := true } }

/-- Clear STATUS.DONE (10_state.md R42). -/
def State.clearDone (s : State) : State := { s with status := { s.status with done := false } }

/-- Clear STATUS.OVR (10_state.md R42). -/
def State.clearOverrun (s : State) : State := { s with status := { s.status with ovr := false } }

/-- A host write of `v` to STATUS (10_state.md R42): W1C of DONE, ERR (with ERRCODE) and OVR. -/
def State.writeStatus (s : State) (v : Word) : State :=
  let s1 := if v.getLsbD 1 then s.clearDone else s
  let s2 := if v.getLsbD 2 then s1.clearError else s1
  if v.getLsbD 3 then s2.clearOverrun else s2

/-- The first half of acceptance of a host write of word `c` to CMD (70_reset_and_hazards.md R406): DONE falls, BUSY rises,
the word is captured (20_memory.md R97), and `n` host accesses may land before it completes (R408; log 2). -/
def State.accept (s : State) (c : Word) (n : Nat) : State :=
  { s with status := { s.status with done := false, busy := true }, cmd := c, busyLeft := n }

end Sys2Proof.Machine
end

