-- ==== Sys2Proof/Machine/Bus.lean ====
section
/-! DEFINITION. What the host does to the block: bus reads and writes (10_state.md R39 to R47, R59; 20_memory.md R81 to
R84), the busy rule (70_reset_and_hazards.md R410), and the reset input (R400). -/

namespace Sys2Proof.Machine

/-! ### The address map (20_memory.md R81) -/

/-- The registers of the block (10_state.md R39). -/
inductive Reg where
  | id
  | ctrl
  | status
  | errInfo
  | errCmd
  | cmd
  | inLen
  | outLen
  | pad
  | inCap
  | outCap
  | x (i : XReg)
  deriving DecidableEq, Repr

/-- The register at an offset, or none for an unlisted one (10_state.md R39, R59). -/
def regAt (off : Nat) : Option Reg :=
  if off = 0x000 then some .id
  else if off = 0x004 then some .ctrl
  else if off = 0x008 then some .status
  else if off = 0x00C then some .errInfo
  else if off = 0x010 then some .errCmd
  else if off = 0x014 then some .cmd
  else if off = 0x018 then some .inLen
  else if off = 0x01C then some .outLen
  else if off = 0x020 then some .pad
  else if off = 0x024 then some .inCap
  else if off = 0x028 then some .outCap
  else if 0x040 ≤ off ∧ off < 0x080 ∧ off % 4 = 0 then some (.x (Fin.ofNat 16 ((off - 0x040) / 4)))
  else none

/-- Where a host address falls (20_memory.md R81). -/
inductive Place where
  | block (off : Nat)
  | inWin (a : Nat)
  | outWin (a : Nat)
  | unmapped
  deriving DecidableEq, Repr

/-- The place of a host address (20_memory.md R81). -/
def State.place (s : State) (addr : Word) : Place :=
  let a := addr.toNat
  if a < 0x1000 then .block a
  else if 0x40000000 ≤ a ∧ a < 0x40000000 + s.inCap.val then .inWin (a - 0x40000000)
  else if 0x80000000 ≤ a ∧ a < 0x80000000 + s.outCap.val then .outWin (a - 0x80000000)
  else .unmapped

/-- Whether a register-block access has a legal form: 32 bits, 4-byte aligned (20_memory.md R82). -/
def blockForm (w : Width) (off : Nat) : Bool := w == .word && off % 4 == 0

/-- How many bytes a window access moves: a byte anywhere, 4 at an aligned address, none otherwise (20_memory.md R83). -/
def windowBytes (w : Width) (a : Nat) : Nat :=
  match w with
  | .byte => 1
  | .half => 0
  | .word => if a % 4 = 0 then 4 else 0

/-! ### Reads -/

/-- What a host read of a register returns (10_state.md R38 to R47). -/
def State.readReg (s : State) : Reg → Word
  | .id => 0x48435101
  | .ctrl => s.ctrl.setWidth 32
  | .status => s.statusWord
  | .errInfo => s.errInfo
  | .errCmd => s.errCmd
  | .cmd => 0
  | .inLen => s.inLen
  | .outLen => s.outLen
  | .pad => s.pad.setWidth 32
  | .inCap => BitVec.ofNat 32 s.inCap.val
  | .outCap => BitVec.ofNat 32 s.outCap.val
  | .x i => s.getX i

/-- The little-endian value of n bytes of a window from address a, bytes at or beyond the capacity reading 0
(20_memory.md R83). -/
def readWindow (w : Window) (cap a : Nat) : Nat → Word
  | 0 => 0
  | n + 1 => (readWindow w cap (a + 1) n <<< 8) ||| (if a < cap then (w.byte a).setWidth 32 else 0)

/-- The value of a host read while BUSY = 0 (20_memory.md R81 to R84, 10_state.md R59). -/
def State.readIdle (s : State) (w : Width) (addr : Word) : Word :=
  match s.place addr with
  | .block off =>
    if blockForm w off then
      match regAt off with
      | some r => s.readReg r
      | none => 0
    else 0
  | .inWin a => readWindow s.inWin s.inCap.val a (windowBytes w a)
  | .outWin a => readWindow s.outWin s.outCap.val a (windowBytes w a)
  | .unmapped => 0

/-- The registers a host may read while BUSY = 1 (20_memory.md R94). -/
def Reg.readableBusy : Reg → Bool
  | .id => true
  | .status => true
  | .inCap => true
  | .outCap => true
  | .ctrl => false
  | .errInfo => false
  | .errCmd => false
  | .cmd => false
  | .inLen => false
  | .outLen => false
  | .pad => false
  | .x _ => false

/-- The value of a host read while BUSY = 1, where it is defined: STATUS, ID, INCAP and OUTCAP, and 0 for a register-block
access of no legal form (20_memory.md R82; log 9); none where it is a draw(), which every other read is (R94,
70_reset_and_hazards.md R410; log 10). -/
def State.readBusy (s : State) (w : Width) (addr : Word) : Option Word :=
  match s.place addr with
  | .block off =>
    if blockForm w off then
      match regAt off with
      | some r => if r.readableBusy then some (s.readReg r) else none
      | none => none
    else some 0
  | .inWin _ => none
  | .outWin _ => none
  | .unmapped => none

/-- A host read: it changes nothing but what the host holds (20_memory.md R91; log 12), and a draw() moves the draw counter. -/
def State.hostRead (s : State) (w : Width) (addr : Word) : State :=
  if s.status.busy then
    match s.readBusy w addr with
    | some v => { s with rdata := v }
    | none => { s.drawn with rdata := Config.drawWord s.draws }
  else { s with rdata := s.readIdle w addr }

/-! ### Writes -/

/-- A host write to CMD while BUSY = 0: discarded with OVR while ERR = 1, else accepted, and LATENCY(c) is drawn
(70_reset_and_hazards.md R406, R408; log 2). -/
def State.writeCmd (s : State) (c : Word) : State :=
  if s.status.err then s.overrun else s.drawn.accept c (Config.latency c s.draws)

/-- A host write of a register while BUSY = 0 (10_state.md R38 to R47): read-only registers ignore it, a length above its
capacity is ignored (R46, R47), CTRL keeps its four bits (R41). -/
def State.writeReg (s : State) (v : Word) : Reg → State
  | .id => s
  | .ctrl => { s with ctrl := v.setWidth 4 }
  | .status => s.writeStatus v
  | .errInfo => s
  | .errCmd => s
  | .cmd => s.writeCmd v
  | .inLen => if v.toNat ≤ s.inCap.val then { s with inLen := v } else s
  | .outLen => if v.toNat ≤ s.outCap.val then { s with outLen := v } else s
  | .pad => s
  | .inCap => s
  | .outCap => s
  | .x i => s.setX i v

/-- The window after n bytes of v are stored little-endian from address a, bytes at or beyond the capacity not written
(20_memory.md R83). -/
def writeWindow (w : Window) (cap a : Nat) (v : Word) : Nat → Window
  | 0 => w
  | n + 1 => writeWindow (if a < cap then w.write a (v.setWidth 8) else w) cap (a + 1) (v >>> 8) n

/-- A host write while BUSY = 0 (20_memory.md R81 to R84, 10_state.md R59). -/
def State.writeIdle (s : State) (w : Width) (addr : Word) (v : Word) : State :=
  match s.place addr with
  | .block off =>
    if blockForm w off then
      match regAt off with
      | some r => s.writeReg v r
      | none => s
    else s
  | .inWin a => { s with inWin := writeWindow s.inWin s.inCap.val a v (windowBytes w a) }
  | .outWin _ => s
  | .unmapped => s

/-- A host write while BUSY = 1: discarded, with OVR for a listed register and for IN (70_reset_and_hazards.md R410); an
access of the block with no legal form, an unlisted offset, OUT and an unmapped address set no flag (20_memory.md R82, R84,
10_state.md R59; log 9, log 10). -/
def State.writeBusy (s : State) (w : Width) (addr : Word) : State :=
  match s.place addr with
  | .block off =>
    if blockForm w off then
      match regAt off with
      | some _ => s.overrun
      | none => s
    else s
  | .inWin _ => s.overrun
  | .outWin _ => s
  | .unmapped => s

/-- A host write. -/
def State.hostWrite (s : State) (w : Width) (addr : Word) (v : Word) : State :=
  if s.status.busy then s.writeBusy w addr else s.writeIdle w addr v

/-! ### Reset (70_reset_and_hazards.md R400) -/

/-- Power-on reset: every piece of the spec's state at its reset value, IN and OUT drawn anew; the parameters (R402), what
the host still has to do, what it last read and the draw counter are not the block's state (log 17). -/
def State.powerOn (s : State) : State :=
  { State.reset with
    inWin := Window.drawn s.draws
    outWin := Window.drawn (s.draws + 1)
    inCap := s.inCap
    outCap := s.outCap
    resetPin := s.resetPin
    host := s.host
    rdata := s.rdata
    draws := s.draws + 2 }

/-- The host drives the reset input to a level: asserted, or released after it was asserted, it leaves the reset state
(70_reset_and_hazards.md R400). Driving it deasserted while it is deasserted already is neither, which R400 leaves open: the
model's choice is that nothing changes (log 17). -/
def State.setReset (s : State) (asserted : Bool) : State :=
  if asserted || s.resetPin then { s.powerOn with resetPin := asserted } else s

/-- One host access or one level driven on the reset input. While reset is asserted a write is ignored and a read returns 0
(70_reset_and_hazards.md R400). -/
def State.hostOp (s : State) : HostOp → State
  | .reset asserted => s.setReset asserted
  | .read w addr => if s.resetPin then { s with rdata := 0 } else s.hostRead w addr
  | .write w addr v => if s.resetPin then s else s.hostWrite w addr v

end Sys2Proof.Machine
end

