-- ==== Sys2Proof/Machine/Operands.lean ====
section
/-! DEFINITION. The operand forms (30_encoding.md R113, R115) and the range checks the commands share (R125,
44_huffman_tree.md R248, R250). Every operand value is a u32 read from an X register, an unsigned number (00_scope.md R10). -/

namespace Sys2Proof.Machine

/-- The value of an index, count, position, length, symbol, key or val operand (30_encoding.md R115). -/
def State.operand (s : State) (i : XReg) : Nat := (s.getX i).toNat

/-- `zext_32(imm16)` (30_encoding.md R115). -/
def immLow (imm : BitVec 16) : Word := imm.setWidth 32

/-- `imm16 × 2^16 + x[15:0]` (30_encoding.md R115, 40_control.md R143). -/
def immHigh (imm : BitVec 16) (old : Word) : Word := imm ++ old.extractLsb' 0 16

/-- A symbol operand: OUT_OF_RANGE above 255 (44_huffman_tree.md R248). -/
def State.symbol (s : State) (i : XReg) : Except Stop Byte :=
  if 255 < s.operand i then raise (.outOfRange (s.operand i)) else .ok (BitVec.ofNat 8 (s.operand i))

/-- The bytes of the input window IN[p .. p+n), checked against IN_LEN, the position first (44_huffman_tree.md R250, R265;
20_memory.md R87). -/
def State.window (s : State) (p n : Nat) : Except Stop (List Byte) :=
  if s.inLen.toNat < p then raise (.outOfRange p)
  else if s.inLen.toNat - p < n then raise (.outOfRange n)
  else .ok (s.inBytes p n)

/-- Check that `k` more bytes fit in OUT (20_memory.md R88). -/
def State.room (s : State) (k : Nat) : Except Stop Unit :=
  if s.outCap.val < s.outLen.toNat + k then raise (.io 2) else .ok ()

end Sys2Proof.Machine
end

