-- ==== Sys2Proof/Machine/BitPrim.lean ====
section
/-! DEFINITION. The bit primitives on a u32 in index numbering, index 0 = MSB (00_scope.md R11), and the four commands over
them (41_bit_primitives.md). -/

namespace Sys2Proof.Machine

/-- `HI(k)`, the word whose top k bits are 1, for 0 ≤ k ≤ 32 (00_scope.md R13). -/
def hi (k : Nat) : Word := BitVec.ofNat 32 ((2 ^ 32 - 1) - (2 ^ (32 - k) - 1))

/-- `getBit(w, i) = w[31 - i]` for i ≤ 31 (41_bit_primitives.md R150). -/
def getBit (w : Word) (i : Nat) : Bool := w.getLsbD (31 - i)

/-- `setBit(w, i, b)` for i ≤ 31 (41_bit_primitives.md R151). -/
def setBit (w : Word) (i : Nat) (b : Bool) : Word :=
  (w &&& ~~~((1 : Word) <<< (31 - i))) ||| (bitWord b <<< (31 - i))

/-- `insertBits(w, i, c, b)` for i ≤ 32 and c ≤ 32 - i (41_bit_primitives.md R152). -/
def insertBits (w : Word) (i c : Nat) (b : Bool) : Word :=
  (w &&& hi i) ||| (if b then hi (i + c) &&& ~~~(hi i) else 0) ||| ((w &&& ~~~(hi i)) >>> c)

/-- `eraseBits(w, i, c)` for i ≤ 32 and c ≤ 32 - i (41_bit_primitives.md R153). -/
def eraseBits (w : Word) (i c : Nat) : Word := (w &&& hi i) ||| ((w &&& ~~~(hi (i + c))) <<< c)

/-- BGET (41_bit_primitives.md R155). -/
def execBget (a b c : XReg) (s : State) : Answer :=
  s.precise
    (if 31 < s.operand c then raise (.outOfRange (s.operand c))
    else .ok (s.setX a (bitWord (getBit (s.getX b) (s.operand c)))))

/-- BSET (41_bit_primitives.md R156). -/
def execBset (a b c : XReg) (v : Bool) (s : State) : Answer :=
  s.precise
    (if 31 < s.operand c then raise (.outOfRange (s.operand c))
    else .ok (s.setX a (setBit (s.getX b) (s.operand c) v)))

/-- BINS, the index checked before the count (41_bit_primitives.md R157). -/
def execBins (a b c d : XReg) (v : Bool) (s : State) : Answer :=
  s.precise
    (if 32 < s.operand c then raise (.outOfRange (s.operand c))
    else if 32 - s.operand c < s.operand d then raise (.outOfRange (s.operand d))
    else .ok (s.setX a (insertBits (s.getX b) (s.operand c) (s.operand d) v)))

/-- BERA, the index checked before the count (41_bit_primitives.md R158). -/
def execBera (a b c d : XReg) (s : State) : Answer :=
  s.precise
    (if 32 < s.operand c then raise (.outOfRange (s.operand c))
    else if 32 - s.operand c < s.operand d then raise (.outOfRange (s.operand d))
    else .ok (s.setX a (eraseBits (s.getX b) (s.operand c) (s.operand d))))

end Sys2Proof.Machine
end

