-- ==== Sys2Proof/Machine/BitSeq.lean ====
section
/-! DEFINITION. The Bit Sequence Container commands (42_bit_sequence.md). A BS register is its bit string (10_state.md R34,
R35); the capacity is 32 (R170). Operands are read before any destination is written (R171). -/

namespace Sys2Proof.Machine

/-- The first n index-numbered bits of a word (42_bit_sequence.md R173). -/
def wordBits (w : Word) (n : Nat) : Bits := (List.range n).map (getBit w)

/-- The bits of a string written from index i into a word (42_bit_sequence.md R192). -/
def packFrom (i : Nat) (w : Word) : Bits → Word
  | [] => w
  | b :: t => packFrom (i + 1) (setBit w i b) t

/-- The container's bits as a word, 0 beyond the length (42_bit_sequence.md R192). -/
def seqWord (l : Bits) : Word := packFrom 0 0 l

/-- `s[0..p) ++ m ++ s[p..len(s))` (42_bit_sequence.md R181 to R183). -/
def insertAt (l : Bits) (p : Nat) (m : Bits) : Bits := l.take p ++ m ++ l.drop p

/-- `s[0..f) ++ s[l..len(s))` (42_bit_sequence.md R184). -/
def eraseRange (l : Bits) (f g : Nat) : Bits := l.take f ++ l.drop g

/-- `r[f..l)` (42_bit_sequence.md R183). -/
def slice (r : Bits) (f g : Nat) : Bits := (r.take g).drop f

/-- BSNEW (42_bit_sequence.md R172). -/
def execBsnew (a : BsReg) (b : XReg) (v : Bool) (s : State) : Answer :=
  s.precise
    (if 32 < s.operand b then raise (.outOfRange (s.operand b))
    else .ok (s.setBs a (List.replicate (s.operand b) v)))

/-- BSFROM (42_bit_sequence.md R173). -/
def execBsfrom (a : BsReg) (b c : XReg) (s : State) : Answer :=
  s.precise
    (if 32 < s.operand c then raise (.outOfRange (s.operand c))
    else .ok (s.setBs a (wordBits (s.getX b) (s.operand c))))

/-- BSMOV (42_bit_sequence.md R174). -/
def execBsmov (a b : BsReg) (s : State) : Answer := s.precise (.ok (s.setBs a (s.getBs b)))

/-- BSSIZE (42_bit_sequence.md R175). -/
def execBssize (a : XReg) (b : BsReg) (s : State) : Answer :=
  s.precise (.ok (s.setX a (BitVec.ofNat 32 (s.getBs b).length)))

/-- BSEMPTY (42_bit_sequence.md R176). -/
def execBsempty (a : XReg) (b : BsReg) (s : State) : Answer :=
  s.precise (.ok (s.setX a (bitWord ((s.getBs b).length == 0))))

/-- BSAT (42_bit_sequence.md R178). -/
def execBsat (a : XReg) (b : BsReg) (c : XReg) (s : State) : Answer :=
  s.precise
    (match (s.getBs b)[s.operand c]? with
    | none => raise (.outOfRange (s.operand c))
    | some v => .ok (s.setX a (bitWord v)))

/-- BSGETU: within the length the bit, from there to index 31 a drawn bit (42_bit_sequence.md R177; log 6). -/
def execBsgetu (a : XReg) (b : BsReg) (c : XReg) (s : State) : Answer :=
  s.precise
    (if 31 < s.operand c then raise (.outOfRange (s.operand c))
    else
      match (s.getBs b)[s.operand c]? with
      | some v => .ok (s.setX a (bitWord v))
      | none => .ok (s.drawn.setX a (bitWord (Config.drawBit s.draws))))

/-- BSSETAT (42_bit_sequence.md R179). -/
def execBssetat (a : BsReg) (b : XReg) (v : Bool) (s : State) : Answer :=
  s.precise
    (if (s.getBs a).length ≤ s.operand b then raise (.outOfRange (s.operand b))
    else .ok (s.setBs a ((s.getBs a).set (s.operand b) v)))

/-- BSSETU: a write beyond the length changes nothing (42_bit_sequence.md R180). -/
def execBssetu (a : BsReg) (b : XReg) (v : Bool) (s : State) : Answer :=
  s.precise
    (if 31 < s.operand b then raise (.outOfRange (s.operand b))
    else if s.operand b < (s.getBs a).length then .ok (s.setBs a ((s.getBs a).set (s.operand b) v))
    else .ok s)

/-- BSINS, the position checked before the count (42_bit_sequence.md R181). -/
def execBsins (a : BsReg) (b c : XReg) (v : Bool) (s : State) : Answer :=
  s.precise
    (if (s.getBs a).length < s.operand b then raise (.outOfRange (s.operand b))
    else if 32 - (s.getBs a).length < s.operand c then raise (.outOfRange (s.operand c))
    else .ok (s.setBs a (insertAt (s.getBs a) (s.operand b) (List.replicate (s.operand c) v))))

/-- BSINS1 (42_bit_sequence.md R182). -/
def execBsins1 (a : BsReg) (b : XReg) (v : Bool) (s : State) : Answer :=
  s.precise
    (if (s.getBs a).length < s.operand b then raise (.outOfRange (s.operand b))
    else if (s.getBs a).length = 32 then raise (.outOfRange 1)
    else .ok (s.setBs a (insertAt (s.getBs a) (s.operand b) [v])))

/-- BSINSR: the range is read from the state before the command (42_bit_sequence.md R183). -/
def execBsinsr (a : BsReg) (b : XReg) (c : BsReg) (d e : XReg) (s : State) : Answer :=
  s.precise
    (if (s.getBs a).length < s.operand b then raise (.outOfRange (s.operand b))
    else if s.operand e < s.operand d then raise (.outOfRange (s.operand d))
    else if (s.getBs c).length < s.operand e then raise (.outOfRange (s.operand e))
    else if 32 - (s.getBs a).length < s.operand e - s.operand d then raise (.outOfRange (s.operand e - s.operand d))
    else .ok (s.setBs a (insertAt (s.getBs a) (s.operand b) (slice (s.getBs c) (s.operand d) (s.operand e)))))

/-- BSERA (42_bit_sequence.md R184). -/
def execBsera (a : BsReg) (b c : XReg) (s : State) : Answer :=
  s.precise
    (if s.operand c < s.operand b then raise (.outOfRange (s.operand b))
    else if (s.getBs a).length < s.operand c then raise (.outOfRange (s.operand c))
    else .ok (s.setBs a (eraseRange (s.getBs a) (s.operand b) (s.operand c))))

/-- BSERA1 (42_bit_sequence.md R185). -/
def execBsera1 (a : BsReg) (b : XReg) (s : State) : Answer :=
  s.precise
    (if (s.getBs a).length ≤ s.operand b then raise (.outOfRange (s.operand b))
    else .ok (s.setBs a (eraseRange (s.getBs a) (s.operand b) (s.operand b + 1))))

/-- BSPUSH (42_bit_sequence.md R186). -/
def execBspush (a : BsReg) (v : Bool) (s : State) : Answer :=
  s.precise (if (s.getBs a).length = 32 then raise (.outOfRange 32) else .ok (s.setBs a (s.getBs a ++ [v])))

/-- BSPOP (42_bit_sequence.md R187). -/
def execBspop (a : BsReg) (s : State) : Answer :=
  s.precise
    (if (s.getBs a).length = 0 then raise (.outOfRange 0)
    else .ok (s.setBs a ((s.getBs a).take ((s.getBs a).length - 1))))

/-- BSRESIZE (42_bit_sequence.md R188). -/
def execBsresize (a : BsReg) (b : XReg) (v : Bool) (s : State) : Answer :=
  s.precise
    (if 32 < s.operand b then raise (.outOfRange (s.operand b))
    else if s.operand b ≤ (s.getBs a).length then .ok (s.setBs a ((s.getBs a).take (s.operand b)))
    else .ok (s.setBs a (s.getBs a ++ List.replicate (s.operand b - (s.getBs a).length) v)))

/-- BSCLR (42_bit_sequence.md R189). -/
def execBsclr (a : BsReg) (s : State) : Answer := s.precise (.ok (s.setBs a []))

/-- BSFRONT (42_bit_sequence.md R190). -/
def execBsfront (a : XReg) (b : BsReg) (s : State) : Answer :=
  s.precise
    (match s.getBs b with
    | [] => raise (.outOfRange 0)
    | v :: _ => .ok (s.setX a (bitWord v)))

/-- BSBACK (42_bit_sequence.md R191). -/
def execBsback (a : XReg) (b : BsReg) (s : State) : Answer :=
  s.precise
    (match (s.getBs b).getLast? with
    | none => raise (.outOfRange 0)
    | some v => .ok (s.setX a (bitWord v)))

/-- BSWORD (42_bit_sequence.md R192). -/
def execBsword (a : XReg) (b : BsReg) (s : State) : Answer := s.precise (.ok (s.setX a (seqWord (s.getBs b))))

end Sys2Proof.Machine
end

