-- ==== Sys2Proof/Machine/Queue.lean ====
section
/-! DEFINITION. The priority queue (43_priority_queue.md): a sequence sorted by unsigned key (R220), equal keys in push
order (R221), capacity 512 (10_state.md R54). -/

namespace Sys2Proof.Machine

/-- Insert at `upper_bound(key)`: before the first entry with a greater key (43_priority_queue.md R221). -/
def pqInsert : List PqEntry → PqEntry → List PqEntry
  | [], n => [n]
  | h :: t, n => if n.key < h.key then n :: h :: t else h :: pqInsert t n

/-- `x[a] <- k; x[b] <- zext_32(val)`: the val is written last (43_priority_queue.md R225, 10_state.md R33). -/
def State.setEntryRegs (s : State) (a b : XReg) (n : PqEntry) : State := (s.setX a n.key).setX b (n.val.setWidth 32)

/-- PQPUSH (43_priority_queue.md R223). -/
def execPqpush (a b : XReg) (s : State) : Answer :=
  s.precise
    (if 0xFFFF < s.operand b then raise (.outOfRange (s.operand b))
    else if s.pq.length = 512 then raise (.capacity 512)
    else .ok { s with pq := pqInsert s.pq ⟨s.getX a, BitVec.ofNat 16 (s.operand b)⟩ })

/-- PQPOP (43_priority_queue.md R224). -/
def execPqpop (s : State) : Answer :=
  s.precise
    (match s.pq with
    | [] => raise (.outOfRange 0)
    | _ :: t => .ok { s with pq := t })

/-- PQTOP (43_priority_queue.md R225). -/
def execPqtop (a b : XReg) (s : State) : Answer :=
  s.precise
    (match s.pq with
    | [] => raise (.outOfRange 0)
    | n :: _ => .ok (s.setEntryRegs a b n))

/-- PQBACK (43_priority_queue.md R226). -/
def execPqback (a b : XReg) (s : State) : Answer :=
  s.precise
    (match s.pq.getLast? with
    | none => raise (.outOfRange 0)
    | some n => .ok (s.setEntryRegs a b n))

/-- PQAT (43_priority_queue.md R227). -/
def execPqat (a b c : XReg) (s : State) : Answer :=
  s.precise
    (match s.pq[s.operand c]? with
    | none => raise (.outOfRange (s.operand c))
    | some n => .ok (s.setEntryRegs a b n))

/-- PQSIZE (43_priority_queue.md R228). -/
def execPqsize (a : XReg) (s : State) : Answer := s.precise (.ok (s.setX a (BitVec.ofNat 32 s.pq.length)))

/-- PQCLR (43_priority_queue.md R229). -/
def execPqclr (s : State) : Answer := s.precise (.ok { s with pq := [] })

end Sys2Proof.Machine
end

