-- ==== Sys2Proof/Machine/Tree.lean ====
section
/-! DEFINITION. The frequency table, the code table, the Huffman tree and its two construction paths, encoding, decoding
and inspection (44_huffman_tree.md). NCOUNT is the length of the node list (log 13). -/

namespace Sys2Proof.Machine

/-! ### Table access (44_huffman_tree.md §2) -/

/-- FQWR (44_huffman_tree.md R242). -/
def execFqwr (a b : XReg) (s : State) : Answer :=
  s.precise
    (match s.symbol a with
    | .error e => .error e
    | .ok c => .ok { s with freq := setEntry s.freq c (s.getX b) })

/-- FQRD (44_huffman_tree.md R243). -/
def execFqrd (a b : XReg) (s : State) : Answer :=
  s.precise
    (match s.symbol b with
    | .error e => .error e
    | .ok c => .ok (s.setX a (entry s.freq c)))

/-- FQCLR (44_huffman_tree.md R244). -/
def execFqclr (s : State) : Answer := s.precise (.ok { s with freq := Vector.replicate 256 0 })

/-- CTWR: TSTATE stays (44_huffman_tree.md R245). -/
def execCtwr (a : XReg) (b : BsReg) (s : State) : Answer :=
  s.precise
    (match s.symbol a with
    | .error e => .error e
    | .ok c => .ok { s with ct := setEntry s.ct c (s.getBs b) })

/-- CTRD (44_huffman_tree.md R246). -/
def execCtrd (a : BsReg) (b : XReg) (s : State) : Answer :=
  s.precise
    (match s.symbol b with
    | .error e => .error e
    | .ok c => .ok (s.setBs a (entry s.ct c)))

/-- CTCLR (44_huffman_tree.md R247). -/
def execCtclr (s : State) : Answer := s.precise (.ok { s with ct := Vector.replicate 256 [] })

/-! ### Building from data (44_huffman_tree.md §3) -/

/-- The counts of a byte string (44_huffman_tree.md R250): every count 0, then one added for each byte in order. -/
def countBytes (l : List Byte) : Vector Word 256 :=
  l.foldl (fun f c => setEntry f c (entry f c + 1)) (Vector.replicate 256 0)

/-- A leaf as HTFILL appends it (44_huffman_tree.md R251). -/
def leafNode (weight : Word) (c : Byte) : Node := ⟨weight, c, true, none, none, none⟩

/-- The leaves of a frequency table, ascending symbols, zero counts skipped (44_huffman_tree.md R251, R252). -/
def fillLeaves (freq : Vector Word 256) : List Node :=
  ((entries freq).filter fun e => e.2 != 0).map fun e => leafNode e.2 e.1

/-- `node[i].PARENT <- p`. -/
def setParent (nodes : List Node) (i p : Nat) : List Node := nodes.modify i fun n => { n with parent := some p }

/-- The queue of all leaves, pushed in index order from index i (44_huffman_tree.md R254). -/
def pushLeaves (i : Nat) (q : List PqEntry) : List Node → List PqEntry
  | [] => q
  | n :: t => pushLeaves (i + 1) (pqInsert q ⟨n.weight, BitVec.ofNat 16 i⟩) t

/-- The merge loop (44_huffman_tree.md R253, R254): the first popped becomes RIGHT, the second LEFT. `fuel` bounds the
passes; each shortens the queue by one, so the number of leaves is enough. -/
def mergeLoop : Nat → List PqEntry → List Node → Except Stop (List Node × Link)
  | _, [], nodes => .ok (nodes, none)
  | _, [r], nodes => .ok (nodes, some r.val.toNat)
  | 0, _ :: _ :: _, _ => stuck
  | fuel + 1, a :: b :: t, nodes =>
    if 0xFFFFFFFF < a.key.toNat + b.key.toNat then raise (.capacity 0xFFFFFFFF)
    else
      mergeLoop fuel (pqInsert t ⟨a.key + b.key, BitVec.ofNat 16 nodes.length⟩)
        (setParent (setParent nodes a.val.toNat nodes.length) b.val.toNat nodes.length ++
          [⟨a.key + b.key, 0, false, some b.val.toNat, some a.val.toNat, none⟩])

/-- The tree over the leaves HTFILL left: none, the single-symbol policy, or the merge loop (44_huffman_tree.md R254 to
R256). -/
def buildTree (nodes : List Node) : Except Stop (List Node × Link) :=
  match nodes with
  | [] => .ok ([], none)
  | [n] => .ok ([{ n with parent := some 1 }, ⟨n.weight, 0, false, some 0, none, none⟩], some 1)
  | _ => mergeLoop nodes.length (pushLeaves 0 [] nodes) nodes

/-- CodeOf, the walk from node j to the root (44_huffman_tree.md R259); `acc` is the code below j. none if the walk leaves
the arena or takes more steps than it has nodes (log 15). -/
def codeOf (nodes : List Node) : Nat → Nat → Bits → Option Bits
  | 0, _, _ => none
  | fuel + 1, j, acc =>
    match nodes[j]? with
    | none => none
    | some n =>
      match n.parent with
      | none => some acc
      | some p =>
        match nodes[p]? with
        | none => none
        | some m => codeOf nodes fuel p ((m.right == some j) :: acc)

/-- The codes of the leaves among the nodes from index i on, in a table (44_huffman_tree.md R258). -/
def deriveFrom (nodes : List Node) (i : Nat) (table : Vector Bits 256) : List Node → Except Stop (Vector Bits 256)
  | [] => .ok table
  | n :: t =>
    if n.leaf then
      match codeOf nodes nodes.length i [] with
      | none => stuck
      | some c =>
        if 32 < c.length then raise (.outOfRange c.length)
        else deriveFrom nodes (i + 1) (setEntry table n.sym c) t
    else deriveFrom nodes (i + 1) table t

/-- The code table of an arena (44_huffman_tree.md R258). -/
def deriveTable (nodes : List Node) : Except Stop (Vector Bits 256) :=
  deriveFrom nodes 0 (Vector.replicate 256 []) nodes

/-- HTFREQ on a state (44_huffman_tree.md R250). -/
def State.scanFrequencies (s : State) (p n : Nat) : Except Stop State :=
  match s.window p n with
  | .error e => .error e
  | .ok l => .ok { s with freq := countBytes l }

/-- HTFILL on a state (44_huffman_tree.md R251). -/
def State.fillNodes (s : State) : State := { s with nodes := fillLeaves s.freq, root := none, tstate := .leaves }

/-- HTBUILD on a state (44_huffman_tree.md R254). -/
def State.buildFromLeaves (s : State) : Except Stop State :=
  if s.tstate ≠ .leaves then raise (.sequence s.tstate)
  else
    match buildTree s.nodes with
    | .error e => .error e
    | .ok (nodes, root) => .ok { s with nodes := nodes, root := root, pq := [], tstate := .tree }

/-- HTDICT on a state (44_huffman_tree.md R258). -/
def State.deriveCodes (s : State) : Except Stop State :=
  if s.tstate ≠ .tree then raise (.sequence s.tstate)
  else
    match deriveTable s.nodes with
    | .error e => .error e
    | .ok table => .ok { s with ct := table, tstate := .coded }

/-- HTSETDATA on a state: HTFREQ, HTFILL, HTBUILD, HTDICT (44_huffman_tree.md R260). -/
def State.setData (s : State) (p n : Nat) : Except Stop State :=
  match s.scanFrequencies p n with
  | .error e => .error e
  | .ok s1 =>
    match s1.fillNodes.buildFromLeaves with
    | .error e => .error e
    | .ok s2 => s2.deriveCodes

/-- HTFREQ (44_huffman_tree.md R250). -/
def execHtfreq (a b : XReg) (s : State) : Answer := s.precise (s.scanFrequencies (s.operand a) (s.operand b))

/-- HTFILL (44_huffman_tree.md R251). -/
def execHtfill (s : State) : Answer := s.precise (.ok s.fillNodes)

/-- HTBUILD (44_huffman_tree.md R254). -/
def execHtbuild (s : State) : Answer := s.precise s.buildFromLeaves

/-- HTDICT (44_huffman_tree.md R258). -/
def execHtdict (s : State) : Answer := s.precise s.deriveCodes

/-- HTSETDATA, precise as a whole (44_huffman_tree.md R260). -/
def execHtsetdata (a b : XReg) (s : State) : Answer := s.precise (s.setData (s.operand a) (s.operand b))

/-! ### Rebuilding from a code table (44_huffman_tree.md §4) -/

/-- A node as HTSETDICT appends it (44_huffman_tree.md R262). -/
def branchNode (parent : Link) : Node := ⟨0, 0, false, none, none, parent⟩

/-- The child a bit selects: 1 = RIGHT, 0 = LEFT (44_huffman_tree.md R262, R267). -/
def Node.child (n : Node) (b : Bool) : Link := if b then n.right else n.left

/-- A node with the child a bit selects set. -/
def Node.setChild (n : Node) (b : Bool) (i : Nat) : Node :=
  if b then { n with right := some i } else { n with left := some i }

/-- Insert the rest of symbol c's code at node j (44_huffman_tree.md R262): descend where a child is present, branch where it
is missing, mark the terminal node. -/
def insertCode (c : Byte) : Bits → Nat → List Node → Except Stop (List Node)
  | [], j, nodes =>
    match nodes[j]? with
    | none => stuck
    | some n =>
      if n.leaf || n.left.isSome || n.right.isSome then raise (.malformed 0x0B c.toNat)
      else .ok (nodes.set j { n with leaf := true, sym := c })
  | b :: t, j, nodes =>
    match nodes[j]? with
    | none => stuck
    | some n =>
      if n.leaf then raise (.malformed 0x0B c.toNat)
      else
        match n.child b with
        | some k => insertCode c t k nodes
        | none => insertCode c t nodes.length (nodes.set j (n.setChild b nodes.length) ++ [branchNode (some j)])

/-- Insert the codes of the given symbols of a table in order, the root being node 0 (44_huffman_tree.md R262). -/
def insertCodes (table : Vector Bits 256) : List Byte → List Node → Except Stop (List Node)
  | [], nodes => .ok nodes
  | c :: t, nodes =>
    match insertCode c (entry table c) 0 nodes with
    | .error e => .error e
    | .ok nodes' => insertCodes table t nodes'

/-- The symbols with a code, ascending (44_huffman_tree.md R262, 46_codec.md R330). -/
def usedSymbols (table : Vector Bits 256) : List Byte := ((entries table).filter fun e => e.2 != []).map Prod.fst

/-- The arena and root rebuilt from a table (44_huffman_tree.md R262). -/
def rebuildTree (table : Vector Bits 256) : Except Stop (List Node × Link) :=
  match usedSymbols table with
  | [] => .ok ([], none)
  | used =>
    match insertCodes table used [branchNode none] with
    | .error e => .error e
    | .ok nodes => .ok (nodes, some 0)

/-- HTSETDICT on a state (44_huffman_tree.md R262). -/
def State.setDict (s : State) : Except Stop State :=
  match rebuildTree s.ct with
  | .error e => .error e
  | .ok (nodes, root) => .ok { s with nodes := nodes, root := root, tstate := .dict }

/-- HTSETDICT (44_huffman_tree.md R262). -/
def execHtsetdict (s : State) : Answer := s.precise s.setDict

/-! ### Encoding and decoding (44_huffman_tree.md §5) -/

/-- The codes of a byte string in a table, concatenated; a byte with no code is MALFORMED(0x0F) (44_huffman_tree.md R265,
R266). -/
def encodeBytes (table : Vector Bits 256) : List Byte → Except Stop Bits
  | [] => .ok []
  | c :: t =>
    if (entry table c).length = 0 then raise (.malformed 0x0F c.toNat)
    else
      match encodeBytes table t with
      | .error e => .error e
      | .ok l => .ok (entry table c ++ l)

/-- HTENC on a state (44_huffman_tree.md R265). -/
def State.encodeWindow (s : State) (p n : Nat) : Except Stop State :=
  match s.window p n with
  | .error e => .error e
  | .ok l =>
    match encodeBytes s.ct l with
    | .error e => .error e
    | .ok bits =>
      match s.room ((s.obc.nb.toNat + bits.length) / 8) with
      | .error e => .error e
      | .ok _ =>
        match obcPutBits s.outCap.val s.sink bits with
        | .error e => .error e
        | .ok k => .ok (s.setSink k)

/-- HTENC (44_huffman_tree.md R265). -/
def execHtenc (a b : XReg) (s : State) : Answer := s.precise (s.encodeWindow (s.operand a) (s.operand b))

/-- The decode loop (44_huffman_tree.md R267): `n` bits are left of which the next is bit k, the walk stands at node j with
`mid` true once it has left the root. It gives the cursor after the bits and the symbols found. -/
def decodeLoop (s : State) (nodes : List Node) (root : Nat) :
    (n k j : Nat) → (mid : Bool) → (cur : Ibc) → Except Stop (Ibc × List Byte)
  | 0, k, _, mid, cur => if mid then raise (.malformed 0x0E k) else .ok (cur, [])
  | n + 1, k, j, _, cur =>
    if cur.ended then raise (.malformed 0x0E k)
    else
      match nodes[j]? with
      | none => stuck
      | some m =>
        match m.child cur.current with
        | none => raise (.malformed 0x0D k)
        | some i =>
          match nodes[i]? with
          | none => stuck
          | some m' =>
            if m'.leaf then
              match decodeLoop s nodes root n (k + 1) root false (s.ibcAdvance cur) with
              | .error e => .error e
              | .ok (c, l) => .ok (c, m'.sym :: l)
            else decodeLoop s nodes root n (k + 1) i true (s.ibcAdvance cur)

/-- HTDEC of n bits on a state (44_huffman_tree.md R267). -/
def State.decodePayload (s : State) (n : Nat) : Except Stop State :=
  if s.tstate = .empty ∨ s.tstate = .leaves then raise (.sequence s.tstate)
  else if n = 0 then .ok s
  else
    match s.root with
    | none => raise (.malformed 0x0C 0)
    | some r =>
      match decodeLoop s s.nodes r n 0 r false s.ibc with
      | .error e => .error e
      | .ok (cur, l) =>
        match s.room l.length with
        | .error e => .error e
        | .ok _ =>
          match obcPutBytes s.outCap.val s.sink l with
          | .error e => .error e
          | .ok k => .ok { s.setSink k with ibc := cur }

/-- HTDEC (44_huffman_tree.md R267). -/
def execHtdec (a : XReg) (s : State) : Answer := s.precise (s.decodePayload (s.operand a))

/-! ### Inspection (44_huffman_tree.md §6) -/

/-- HTROOT (44_huffman_tree.md R270). -/
def execHtroot (a : XReg) (s : State) : Answer := s.precise (.ok (s.setX a (linkWord s.root)))

/-- HTNCNT (44_huffman_tree.md R271). -/
def execHtncnt (a : XReg) (s : State) : Answer := s.precise (.ok (s.setX a (BitVec.ofNat 32 s.nodes.length)))

/-- The field of a node a selector f ≤ 4 names (44_huffman_tree.md R272); none for f > 4. -/
def Node.field (n : Node) (f : BitVec 4) : Option Word :=
  if f = 0 then some n.weight
  else if f = 1 then some (BitVec.ofNat 32 ((if n.leaf then 1 else 0) * 2 ^ 8 + n.sym.toNat))
  else if f = 2 then some (linkWord n.left)
  else if f = 3 then some (linkWord n.right)
  else if f = 4 then some (linkWord n.parent)
  else none

/-- NDRD (44_huffman_tree.md R272); a selector above 4 is ILLEGAL, before any other check (30_encoding.md R118 (3)). -/
def execNdrd (a b : XReg) (f : BitVec 4) (s : State) : Answer :=
  s.precise
    (if 4 < f.toNat then raise .illegal
    else
      match s.nodes[s.operand b]? with
      | none => raise (.outOfRange (s.operand b))
      | some n =>
        match n.field f with
        | none => raise .illegal
        | some w => .ok (s.setX a w))

end Sys2Proof.Machine
end

