-- ==== Sys2Proof/Machine/Codec.lean ====
section
/-! DEFINITION. The container format and the two codec commands (46_codec.md). -/

namespace Sys2Proof.Machine

/-! ### The container (46_codec.md §1) -/

/-- magic, "HAFF" (46_codec.md R322). -/
def magic : List Byte := [0x48, 0x41, 0x46, 0x46]

/-- A 16-bit field, low byte first (20_memory.md R85). -/
def le16 (n : Nat) : List Byte := [BitVec.ofNat 8 (n % 256), BitVec.ofNat 8 (n / 256)]

/-- The entries: symbol and bitLength of each used symbol (46_codec.md R325). -/
def entryBytes (table : Vector Bits 256) (used : List Byte) : List Byte :=
  used.flatMap fun c => [c, BitVec.ofNat 8 (entry table c).length]

/-- The codes of the used symbols, concatenated (46_codec.md R326). -/
def codesBits (table : Vector Bits 256) (used : List Byte) : Bits := used.flatMap (entry table)

/-- T, the offset of payloadPadBits: 8 + 2E + ceil(L / 8) (46_codec.md R324). -/
def tableOffset (e l : Nat) : Nat := 8 + 2 * e + (l + 7) / 8

/-- N, the number of payload bits: the sum of count × code length (46_codec.md R330, R331). -/
def payloadLength (freq : Vector Word 256) (table : Vector Bits 256) (used : List Byte) : Nat :=
  (used.map fun c => (entry freq c).toNat * (entry table c).length).sum

/-- q, the number of padding bits for N payload bits (46_codec.md R330). -/
def padOf (n : Nat) : Nat := (8 - n % 8) % 8

/-! ### Failure (46_codec.md R348) -/

/-- The state a failing COMPRESS or DECOMPRESS leaves, besides the error state (46_codec.md R348): OUT is drawn anew. -/
def State.codecFailed (s : State) : State :=
  { s.drawn with
    outLen := 0
    outWin := Window.drawn s.draws
    obc := Obc.cleared
    ibc := Ibc.cleared
    ct := Vector.replicate 256 []
    nodes := []
    root := none
    tstate := .empty
    pq := [] }

/-- A failing COMPRESS also clears FREQ (46_codec.md R348). -/
def State.compressFailed (s : State) : State := { s.codecFailed with freq := Vector.replicate 256 0 }

/-- OUT_LEN <- 0 and OBC empty, the first step of both codec commands (46_codec.md R330, R343). -/
def State.freshOutput (s : State) : State := { s with outLen := 0, obc := Obc.cleared }

/-! ### COMPRESS (46_codec.md §2) -/

/-- The container written through OBC (46_codec.md R330): header, entries, packed table, flush, pad byte, payload, flush. -/
def writeContainer (cap : Nat) (k : Sink) (head : List Byte) (codes : Bits) (q : Nat) (payload : Bits) : Except Stop Sink :=
  match obcPutBytes cap k head with
  | .error e => .error e
  | .ok k1 =>
    match obcPutBits cap k1 codes with
    | .error e => .error e
    | .ok k2 =>
      match obcFlush cap k2 with
      | .error e => .error e
      | .ok (k3, _) =>
        match obcPutBytes cap k3 [BitVec.ofNat 8 q] with
        | .error e => .error e
        | .ok k4 =>
          match obcPutBits cap k4 payload with
          | .error e => .error e
          | .ok k5 =>
            match obcFlush cap k5 with
            | .error e => .error e
            | .ok (k6, _) => .ok k6

/-- The bytes of a container before its packed table (46_codec.md R321 to R325). -/
def containerHead (table : Vector Bits 256) (used : List Byte) : List Byte :=
  magic ++ le16 used.length ++ le16 (tableOffset used.length (codesBits table used).length) ++ entryBytes table used

/-- COMPRESS after the valid-bit checks (46_codec.md R330). -/
def State.compress (s : State) : Except Stop State :=
  match s.freshOutput.setData 0 s.inLen.toNat with
  | .error e => .error e
  | .ok s1 =>
    match writeContainer s1.outCap.val s1.sink (containerHead s1.ct (usedSymbols s1.ct))
        (codesBits s1.ct (usedSymbols s1.ct)) (padOf (payloadLength s1.freq s1.ct (usedSymbols s1.ct)))
        ((s1.inBytes 0 s1.inLen.toNat).flatMap (entry s1.ct)) with
    | .error e => .error e
    | .ok k => .ok { s1.setSink k with pad := BitVec.ofNat 3 (padOf (payloadLength s1.freq s1.ct (usedSymbols s1.ct))) }

/-- COMPRESS (46_codec.md R330): IO(0) and IO(1) are precise, every later raise has the effect of R348. -/
def execCompress (s : State) : Answer :=
  if s.srcValid = false then s.precise (raise (.io 0))
  else if s.snkValid = false then s.precise (raise (.io 1))
  else s.compressFailed.imprecise s.compress

/-! ### DECOMPRESS (46_codec.md §3) -/

/-- The entries of the container in IN, (symbol, bitLength) each (46_codec.md R325, R343). -/
def State.readEntries (s : State) (e : Nat) : List (Byte × Nat) :=
  (List.range e).map fun k => (s.inByte (8 + 2 * k), (s.inByte (9 + 2 * k)).toNat)

/-- The checks on the entries in order, entry k first against the symbol before it (46_codec.md R343, subcodes 0x05 and
0x06). -/
def checkEntries (k : Nat) (before : Option Byte) : List (Byte × Nat) → Except Stop Unit
  | [] => .ok ()
  | (c, n) :: t =>
    if before.any (fun p => c.toNat ≤ p.toNat) then raise (.malformed 0x05 k)
    else if n = 0 ∨ 32 < n then raise (.malformed 0x06 c.toNat)
    else checkEntries (k + 1) (some c) t

/-- The next n bits read through a cursor (read, then IbcAdvance), and the cursor after them (46_codec.md R343). -/
def State.readBits (s : State) : Nat → Ibc → Bits × Ibc
  | 0, c => ([], c)
  | n + 1, c => (c.current :: (s.readBits n (s.ibcAdvance c)).1, (s.readBits n (s.ibcAdvance c)).2)

/-- The code table read through a cursor, entry by entry (46_codec.md R343). -/
def State.readTable (s : State) : List (Byte × Nat) → Ibc → Vector Bits 256 → Vector Bits 256
  | [], _, table => table
  | (c, n) :: t, cur, table => s.readTable t (s.readBits n cur).2 (setEntry table c (s.readBits n cur).1)

/-- What the checks of the header find in IN: the entries, T, and the pad q (46_codec.md R343). -/
structure Header where
  entries : List (Byte × Nat)
  offset : Nat
  pad : Nat
  deriving DecidableEq, Repr

/-- The header checks of DECOMPRESS, in order (46_codec.md R343; 60_exceptions.md R363, subcodes 0x01 to 0x0A). -/
def State.parseHeader (s : State) : Except Stop Header :=
  let len := s.inLen.toNat
  if len < 4 ∨ s.inBytes 0 4 ≠ magic then raise (.malformed 0x01 0)
  else if len < 8 then raise (.malformed 0x02 len)
  else
    let e := (s.inByte 4).toNat + 256 * (s.inByte 5).toNat
    let t := (s.inByte 6).toNat + 256 * (s.inByte 7).toNat
    if 256 < e then raise (.malformed 0x03 e)
    else if len < 8 + 2 * e then raise (.malformed 0x04 e)
    else
      match checkEntries 0 none (s.readEntries e) with
      | .error x => .error x
      | .ok _ =>
        let l := ((s.readEntries e).map Prod.snd).sum
        if len < tableOffset e l then raise (.malformed 0x07 l)
        else if t ≠ tableOffset e l then raise (.malformed 0x08 t)
        else if len ≤ t then raise (.malformed 0x09 t)
        else
          let q := (s.inByte t).toNat
          if 7 < q ∨ (q ≠ 0 ∧ len - t - 1 = 0) then raise (.malformed 0x0A q)
          else .ok ⟨s.readEntries e, t, q⟩

/-- DECOMPRESS after the valid-bit checks (46_codec.md R343). -/
def State.decompress (s : State) : Except Stop State :=
  match s.parseHeader with
  | .error e => .error e
  | .ok h =>
    let table := s.readTable h.entries (s.ibcLoad (8 + 2 * h.entries.length)) (Vector.replicate 256 [])
    match State.setDict { s.freshOutput with ct := table } with
    | .error e => .error e
    | .ok s1 =>
      match State.decodePayload { s1 with ibc := s1.ibcLoad (h.offset + 1) }
          (8 * (s.inLen.toNat - h.offset - 1) - h.pad) with
      | .error e => .error e
      | .ok s2 => .ok { s2 with pad := BitVec.ofNat 3 h.pad }

/-- DECOMPRESS (46_codec.md R343): IO(0) and IO(1) are precise, every later raise has the effect of R348. -/
def execDecompress (s : State) : Answer :=
  if s.srcValid = false then s.precise (raise (.io 0))
  else if s.snkValid = false then s.precise (raise (.io 1))
  else s.codecFailed.imprecise s.decompress

end Sys2Proof.Machine
end

