-- ==== Sys2Proof/Machine/Control.lean ====
section
/-! DEFINITION. Control and register-move commands (40_control.md). -/

namespace Sys2Proof.Machine

/-- NOP (40_control.md R140). -/
def execNop (s : State) : Answer := s.precise (.ok s)

/-- The state SRST leaves before it completes (40_control.md R141, 10_state.md R60 "after SRST"). -/
def State.softReset (s : State) : State :=
  { s with
    bs := Vector.replicate 16 []
    freq := Vector.replicate 256 0
    ct := Vector.replicate 256 []
    nodes := []
    root := none
    tstate := .empty
    pq := []
    ibc := Ibc.cleared
    obc := Obc.cleared
    pad := 0 }

/-- SRST (40_control.md R141). -/
def execSrst (s : State) : Answer := s.precise (.ok s.softReset)

/-- LI (40_control.md R142). -/
def execLi (a : XReg) (imm : BitVec 16) (s : State) : Answer := s.precise (.ok (s.setX a (immLow imm)))

/-- LUI (40_control.md R143). -/
def execLui (a : XReg) (imm : BitVec 16) (s : State) : Answer := s.precise (.ok (s.setX a (immHigh imm (s.getX a))))

/-- MOV (40_control.md R144). -/
def execMov (a b : XReg) (s : State) : Answer := s.precise (.ok (s.setX a (s.getX b)))

end Sys2Proof.Machine
end

