-- ==== Sys2Proof/Machine/Cursor.lean ====
section
/-! DEFINITION. The stream bit cursor commands (45_bit_cursors.md). -/

namespace Sys2Proof.Machine

/-- IBINIT (45_bit_cursors.md R291). -/
def execIbinit (a : XReg) (s : State) : Answer := s.precise (.ok { s with ibc := s.ibcLoad (s.operand a) })

/-- IBREAD (45_bit_cursors.md R292). -/
def execIbread (a : XReg) (s : State) : Answer :=
  s.precise
    (if s.ibc.ended then raise (.outOfRange s.ibc.pos.toNat) else .ok (s.setX a (bitWord s.ibc.current)))

/-- IBNEXT (45_bit_cursors.md R293). -/
def execIbnext (s : State) : Answer :=
  s.precise
    (if s.ibc.ended then raise (.outOfRange s.ibc.pos.toNat) else .ok { s with ibc := s.ibcAdvance s.ibc })

/-- IBLAST (45_bit_cursors.md R294). -/
def execIblast (a : XReg) (s : State) : Answer :=
  s.precise (.ok (s.setX a (bitWord (!s.ibc.ended && s.ibc.pos.toNat + 1 == s.inLen.toNat))))

/-- IBEND (45_bit_cursors.md R295). -/
def execIbend (a : XReg) (s : State) : Answer := s.precise (.ok (s.setX a (bitWord s.ibc.ended)))

/-- IBPOS (45_bit_cursors.md R296). -/
def execIbpos (a : XReg) (s : State) : Answer :=
  s.precise (.ok (s.setX a (BitVec.ofNat 32 (s.ibc.pos.toNat * 8 + s.ibc.bit.toNat))))

/-- OBINIT (45_bit_cursors.md R300). -/
def execObinit (s : State) : Answer := s.precise (.ok { s with obc := Obc.cleared })

/-- ObcPut of one bit with the check made before any change (45_bit_cursors.md R301). -/
def State.putBit (s : State) (b : Bool) : Except Stop State :=
  if s.obc.nb = 7 ∧ s.outCap.val ≤ s.outLen.toNat then raise (.io 2)
  else
    match obcPut s.outCap.val s.sink b with
    | .error e => .error e
    | .ok k => .ok (s.setSink k)

/-- OBPUT (45_bit_cursors.md R301). -/
def execObput (v : Bool) (s : State) : Answer := s.precise (s.putBit v)

/-- OBPUTX: the value is checked first (45_bit_cursors.md R302). -/
def execObputx (a : XReg) (s : State) : Answer :=
  s.precise
    (if 1 < s.operand a then raise (.outOfRange (s.operand a)) else s.putBit (s.operand a == 1))

/-- OBFLUSH (45_bit_cursors.md R303). -/
def execObflush (a : XReg) (s : State) : Answer :=
  s.precise
    (if s.obc.nb ≠ 0 ∧ s.outCap.val ≤ s.outLen.toNat then raise (.io 2)
    else
      match obcFlush s.outCap.val s.sink with
      | .error e => .error e
      | .ok (k, q) => .ok { (s.setSink k).setX a (BitVec.ofNat 32 q) with pad := BitVec.ofNat 3 q })

/-- OBCNT (45_bit_cursors.md R304). -/
def execObcnt (a : XReg) (s : State) : Answer := s.precise (.ok (s.setX a (s.obc.nb.setWidth 32)))

end Sys2Proof.Machine
end

