-- ==== Sys2Proof/Machine/Dispatch.lean ====
section
/-! DEFINITION. One arm per command, each one call of its meaning. -/

namespace Sys2Proof.Machine

def exec (i : Instr) (s : State) : Host.Outcome State Fault Refusal :=
  match i with
  | .nop => Sys2Proof.Machine.execNop s
  | .srst => Sys2Proof.Machine.execSrst s
  | .li a imm => Sys2Proof.Machine.execLi a imm s
  | .lui a imm => Sys2Proof.Machine.execLui a imm s
  | .mov a b => Sys2Proof.Machine.execMov a b s
  | .bget a b c => Sys2Proof.Machine.execBget a b c s
  | .bset a b c v => Sys2Proof.Machine.execBset a b c v s
  | .bins a b c d v => Sys2Proof.Machine.execBins a b c d v s
  | .bera a b c d => Sys2Proof.Machine.execBera a b c d s
  | .bsnew a b v => Sys2Proof.Machine.execBsnew a b v s
  | .bsfrom a b c => Sys2Proof.Machine.execBsfrom a b c s
  | .bsmov a b => Sys2Proof.Machine.execBsmov a b s
  | .bssize a b => Sys2Proof.Machine.execBssize a b s
  | .bsempty a b => Sys2Proof.Machine.execBsempty a b s
  | .bsat a b c => Sys2Proof.Machine.execBsat a b c s
  | .bsgetu a b c => Sys2Proof.Machine.execBsgetu a b c s
  | .bssetat a b v => Sys2Proof.Machine.execBssetat a b v s
  | .bssetu a b v => Sys2Proof.Machine.execBssetu a b v s
  | .bsins a b c v => Sys2Proof.Machine.execBsins a b c v s
  | .bsins1 a b v => Sys2Proof.Machine.execBsins1 a b v s
  | .bsinsr a b c d e => Sys2Proof.Machine.execBsinsr a b c d e s
  | .bsera a b c => Sys2Proof.Machine.execBsera a b c s
  | .bsera1 a b => Sys2Proof.Machine.execBsera1 a b s
  | .bspush a v => Sys2Proof.Machine.execBspush a v s
  | .bspop a => Sys2Proof.Machine.execBspop a s
  | .bsresize a b v => Sys2Proof.Machine.execBsresize a b v s
  | .bsclr a => Sys2Proof.Machine.execBsclr a s
  | .bsfront a b => Sys2Proof.Machine.execBsfront a b s
  | .bsback a b => Sys2Proof.Machine.execBsback a b s
  | .bsword a b => Sys2Proof.Machine.execBsword a b s
  | .pqpush a b => Sys2Proof.Machine.execPqpush a b s
  | .pqpop => Sys2Proof.Machine.execPqpop s
  | .pqtop a b => Sys2Proof.Machine.execPqtop a b s
  | .pqback a b => Sys2Proof.Machine.execPqback a b s
  | .pqat a b c => Sys2Proof.Machine.execPqat a b c s
  | .pqsize a => Sys2Proof.Machine.execPqsize a s
  | .pqclr => Sys2Proof.Machine.execPqclr s
  | .fqwr a b => Sys2Proof.Machine.execFqwr a b s
  | .fqrd a b => Sys2Proof.Machine.execFqrd a b s
  | .fqclr => Sys2Proof.Machine.execFqclr s
  | .ctwr a b => Sys2Proof.Machine.execCtwr a b s
  | .ctrd a b => Sys2Proof.Machine.execCtrd a b s
  | .ctclr => Sys2Proof.Machine.execCtclr s
  | .htfreq a b => Sys2Proof.Machine.execHtfreq a b s
  | .htfill => Sys2Proof.Machine.execHtfill s
  | .htbuild => Sys2Proof.Machine.execHtbuild s
  | .htdict => Sys2Proof.Machine.execHtdict s
  | .htsetdata a b => Sys2Proof.Machine.execHtsetdata a b s
  | .htsetdict => Sys2Proof.Machine.execHtsetdict s
  | .htenc a b => Sys2Proof.Machine.execHtenc a b s
  | .htdec a => Sys2Proof.Machine.execHtdec a s
  | .htroot a => Sys2Proof.Machine.execHtroot a s
  | .htncnt a => Sys2Proof.Machine.execHtncnt a s
  | .ndrd a b d => Sys2Proof.Machine.execNdrd a b d s
  | .ibinit a => Sys2Proof.Machine.execIbinit a s
  | .ibread a => Sys2Proof.Machine.execIbread a s
  | .ibnext => Sys2Proof.Machine.execIbnext s
  | .iblast a => Sys2Proof.Machine.execIblast a s
  | .ibend a => Sys2Proof.Machine.execIbend a s
  | .ibpos a => Sys2Proof.Machine.execIbpos a s
  | .obinit => Sys2Proof.Machine.execObinit s
  | .obput v => Sys2Proof.Machine.execObput v s
  | .obputx a => Sys2Proof.Machine.execObputx a s
  | .obflush a => Sys2Proof.Machine.execObflush a s
  | .obcnt a => Sys2Proof.Machine.execObcnt a s
  | .compress => Sys2Proof.Machine.execCompress s
  | .decompress => Sys2Proof.Machine.execDecompress s

end Sys2Proof.Machine
end

