-- ==== Sys2Proof/Machine/Sequencer.lean ====
section
/-! DEFINITION. How the two agents move (00_scope.md R6): the host's next access, or the sequencer executing the captured
command word as one step (70_reset_and_hazards.md R405). -/

namespace Sys2Proof.Machine

/-- Execute(c) of the captured word (70_reset_and_hazards.md R406): decode (30_encoding.md R119), then the command's rule; a
word that is no legal command raises ILLEGAL(0) and nothing else (60_exceptions.md R369). -/
def State.runCommand (s : State) : Answer :=
  match decode s.cmd with
  | .ok i => exec i s
  | .error _ => .next (s.takeFault .illegal)

/-- The host performs its oldest pending access; with none pending nothing happens (60_exceptions.md R382; log 1, log 18). -/
def State.hostMoves (s : State) : Answer :=
  match s.host with
  | [] => .next s
  | op :: t => .next (State.hostOp { s with host := t } op)

/-- Which agent moves. A command in progress completes once the host accesses that LATENCY lets land before it have
landed, or the host has none left; each access that lands uses one of them up (70_reset_and_hazards.md R408; log 2). While
reset is asserted only the host moves (R400). -/
def State.moves (s : State) : Answer :=
  if s.resetPin = false ∧ s.status.busy then
    if s.busyLeft = 0 ∨ s.host = [] then s.runCommand else State.hostMoves { s with busyLeft := s.busyLeft - 1 }
  else s.hostMoves

/-- The state in which word `c` has just been accepted (70_reset_and_hazards.md R406) and completes at the next step: reset is
not asserted and no fault is pending, as acceptance takes (R364; log 4). -/
def State.issued (s : State) (c : Word) : State := State.accept { s.clearError with resetPin := false } c 0

end Sys2Proof.Machine
end

