-- ==== Sys2Proof/Machine/Step.lean ====
section
/-! DEFINITION. One step of the machine, and the command word placed where the next step takes it. -/

namespace Sys2Proof.Machine

/-- One step: one host access, or one whole command (70_reset_and_hazards.md R405). -/
def step (s : State) : Host.Outcome State Fault Refusal := s.moves

/-- `s` with the command word `w` (bits at and above `nbits` zero) accepted, so that the very next step executes it
(30_encoding.md R110: a command is exactly one 32-bit word; log 4). -/
def State.withFetchWord (s : State) (nbits w : Nat) : State := s.issued (BitVec.ofNat 32 (w % 2 ^ nbits))

end Sys2Proof.Machine
end

