-- ==== Sys2Proof/Safety.lean ====
section
/-! DEFINITION. The terms claims are stated in: how a command ends and what it leaves alone, the invariants of the state,
and the spec's own views of a bit stream, a tree and a container. -/

namespace Sys2Proof.Machine

/-! ### How a command ends -/

/-- The parts of the state, besides the X and the BS registers, that a command can write (10_state.md R30). `out` is OUT
with OUT_LEN, `tree` is NODE, NCOUNT, ROOT and TSTATE, `draws` is the model's own counter of draws (log 6). -/
inductive Part where
  | freq
  | tree
  | ct
  | pq
  | ibc
  | obc
  | pad
  | out
  | draws
  deriving DecidableEq, Repr

/-- State `t` agrees with state `s` on everything but the named registers and parts, STATUS, ERRINFO and ERRCMD. Windows
are compared byte by byte through the read of one byte. -/
structure SameBut (xs : List XReg) (bss : List BsReg) (parts : List Part) (s t : State) : Prop where
  x : ∀ r, r ∉ xs → t.getX r = s.getX r
  bs : ∀ j, j ∉ bss → t.getBs j = s.getBs j
  freq : Part.freq ∈ parts ∨ t.freq = s.freq
  tree : Part.tree ∈ parts ∨ (t.nodes = s.nodes ∧ t.root = s.root ∧ t.tstate = s.tstate)
  ct : Part.ct ∈ parts ∨ t.ct = s.ct
  pq : Part.pq ∈ parts ∨ t.pq = s.pq
  ibc : Part.ibc ∈ parts ∨ t.ibc = s.ibc
  obc : Part.obc ∈ parts ∨ t.obc = s.obc
  pad : Part.pad ∈ parts ∨ t.pad = s.pad
  out : Part.out ∈ parts ∨ (t.outLen = s.outLen ∧ ∀ a, t.outByte a = s.outByte a)
  draws : Part.draws ∈ parts ∨ t.draws = s.draws
  ctrl : t.ctrl = s.ctrl
  inLen : t.inLen = s.inLen
  inByte : ∀ a, t.inByte a = s.inByte a
  inCap : t.inCap = s.inCap
  outCap : t.outCap = s.outCap
  cmd : t.cmd = s.cmd
  busyLeft : t.busyLeft = s.busyLeft
  resetPin : t.resetPin = s.resetPin
  host : t.host = s.host
  rdata : t.rdata = s.rdata

/-- The command completed from `s` to `t`, and wrote nothing but the named registers and parts (30_encoding.md R126,
70_reset_and_hazards.md R406): BUSY falls, DONE is set, no other flag and no error register changes. -/
structure Completes (xs : List XReg) (bss : List BsReg) (parts : List Part) (s t : State) : Prop extends
    SameBut xs bss parts s t where
  status : t.status = { s.status with busy := false, done := true }
  errInfo : t.errInfo = s.errInfo
  errCmd : t.errCmd = s.errCmd

/-- The error state of 60_exceptions.md R362 stands in `t` for a fault raised from `s`. -/
structure ErrorEntered (code : ErrCode) (info : Nat) (s t : State) : Prop where
  status : t.status = { s.status with err := true, errCode := code, busy := false }
  errInfo : t.errInfo.toNat = info % 2 ^ 32
  errCmd : t.errCmd = s.cmd

/-- The command faulted precisely: the error state and nothing else (30_encoding.md R127, 60_exceptions.md R362). -/
structure Faults (code : ErrCode) (info : Nat) (s t : State) : Prop extends
    SameBut [] [] [] s t, ErrorEntered code info s t

/-- What a failing codec command leaves besides the error state (46_codec.md R348): nothing is claimed of the bytes of OUT. -/
structure CodecFailed (s t : State) : Prop extends
    SameBut [] [] [.freq, .tree, .ct, .pq, .ibc, .obc, .out, .draws] s t where
  outEmpty : t.outLen = 0
  obcEmpty : t.obc = ⟨0, 0⟩
  ibcEnd : t.ibc = ⟨true, 0, 0, 0⟩
  ctEmpty : ∀ c, entry t.ct c = []
  noNodes : t.nodes = []
  noRoot : t.root = none
  tstateEmpty : t.tstate = .empty
  pqEmpty : t.pq = []

/-- Run commands one after the other, stopping at the first that faults. -/
def execAll : List Instr → State → Answer
  | [], s => .next s
  | i :: l, s =>
    match exec i s with
    | .next t => if t.status.err then .next t else execAll l t
    | .fault f => .fault f
    | .refused r => .refused r

/-! ### The invariants -/

/-- The order PQ keeps (10_state.md R54). -/
abbrev pqSorted (q : List PqEntry) : Prop := q.Pairwise fun e f => e.key.toNat ≤ f.key.toNat

/-- The registers, tables, queue, windows, cursors and status hold what 10_state.md says they hold. -/
structure Inv (s : State) : Prop where
  /-- R34. -/
  bsLen : ∀ j, (s.getBs j).length ≤ 32
  /-- R52. -/
  ctLen : ∀ c, (entry s.ct c).length ≤ 32
  /-- R54. -/
  pqOrder : pqSorted s.pq
  /-- R54. -/
  pqLen : s.pq.length ≤ 512
  /-- R46. -/
  inLenCap : s.inLen.toNat ≤ s.inCap.val
  /-- R47. -/
  outLenCap : s.outLen.toNat ≤ s.outCap.val
  /-- The canonical form, and 20_memory.md R80: addresses below IN_CAP. -/
  inWf : s.inWin.cells.wf
  inBelow : ∀ e ∈ s.inWin.cells, e.1 < s.inCap.val
  /-- The canonical form, and 20_memory.md R80: addresses below OUT_CAP. -/
  outWf : s.outWin.cells.wf
  outBelow : ∀ e ∈ s.outWin.cells, e.1 < s.outCap.val
  /-- R56: at the end the cursor's BIT and CUR are 0; its POS names no byte beyond IN_CAP. -/
  ibcEnd : s.ibc.ended = true → s.ibc.bit = 0 ∧ s.ibc.cur = 0 ∧ s.ibc.pos.toNat ≤ s.inCap.val
  ibcOn : s.ibc.ended = false → s.ibc.pos.toNat < s.inCap.val
  /-- R57: BUF[7 - NB .. 0] are 0. -/
  obcLow : ∀ i, i + s.obc.nb.toNat < 8 → s.obc.buf.getLsbD i = false
  /-- R42: ERRCODE is 0 exactly when ERR = 0. -/
  errCode : s.status.errCode = .none ↔ s.status.err = false
  /-- 60_exceptions.md R372: at most one of DONE and ERR is 1. -/
  oneEnd : ¬ (s.status.done = true ∧ s.status.err = true)
  /-- 70_reset_and_hazards.md R406: a command executes with DONE = 0 and ERR = 0. -/
  busyClean : s.status.busy = true → s.status.done = false ∧ s.status.err = false
  /-- 70_reset_and_hazards.md R400: BUSY = 0 while reset is asserted. -/
  resetIdle : s.resetPin = true → s.status.busy = false

/-- The weight of the node a link names, 0 for none. -/
def linkWeight (nodes : List Node) (l : Link) : Nat := (l.bind fun i => nodes[i]?).elim 0 fun n => n.weight.toNat

/-- The arena of a tree that has a root (10_state.md R49, 44_huffman_tree.md R240). `up` is the direction of the parent
links: a tree built from data appends parents after their children, a tree rebuilt from a table before them. -/
structure Rooted (nodes : List Node) (root : Nat) (up : Nat → Nat → Prop) : Prop where
  /-- ROOT exists, and is the only node whose PARENT is NONE. -/
  rootLt : root < nodes.length
  onlyRoot : ∀ (j : Nat) (n : Node), nodes[j]? = some n → (n.parent = none ↔ j = root)
  /-- A leaf has no child; an internal node has SYM = 0. -/
  leafBare : ∀ n ∈ nodes, n.leaf = true → n.left = none ∧ n.right = none
  internalSym : ∀ n ∈ nodes, n.leaf = false → n.sym = 0
  /-- A non-root node's PARENT names the one node whose LEFT or RIGHT names it. -/
  parentNames : ∀ (j p : Nat) (n : Node), nodes[j]? = some n → n.parent = some p →
    ∃ m, nodes[p]? = some m ∧ (m.left = some j ∨ m.right = some j)
  childNames : ∀ (p k : Nat) (m : Node), nodes[p]? = some m → m.left = some k ∨ m.right = some k →
    ∃ n, nodes[k]? = some n ∧ n.parent = some p
  /-- No node is both children of a node. -/
  twoChildren : ∀ n ∈ nodes, ∀ k, n.left = some k → n.right ≠ some k
  /-- Each leaf has a symbol of its own. -/
  symOnce : ∀ (i j : Nat) (n m : Node), nodes[i]? = some n → nodes[j]? = some m → n.leaf = true → m.leaf = true →
    n.sym = m.sym → i = j
  /-- No cycles. -/
  order : ∀ (j p : Nat) (n : Node), nodes[j]? = some n → n.parent = some p → up j p

/-- The leaves stand in ascending symbol order (44_huffman_tree.md R252). -/
def leavesAscend (nodes : List Node) : Prop :=
  ∀ (i j : Nat) (n m : Node), i < j → nodes[i]? = some n → nodes[j]? = some m → n.leaf = true → m.leaf = true →
    n.sym.toNat < m.sym.toNat

/-- The arena in each TSTATE (10_state.md R48 to R51, 44_huffman_tree.md R240, R251, R254, R255, R262). In LEAVES the nodes
are leaves with no root yet (R50), which the words of R49 leave out (log 15). -/
structure Arena (s : State) : Prop where
  empty : s.tstate = .empty → s.nodes = [] ∧ s.root = none
  leaves : s.tstate = .leaves → s.root = none ∧ s.nodes.length ≤ 256 ∧ leavesAscend s.nodes ∧
    ∀ n ∈ s.nodes, n.leaf = true ∧ n.left = none ∧ n.right = none ∧ n.parent = none
  data : s.tstate = .tree ∨ s.tstate = .coded →
    (s.nodes = [] ∧ s.root = none) ∨
    (s.root = some (s.nodes.length - 1) ∧ s.nodes.length ≤ 511 ∧ Rooted s.nodes (s.nodes.length - 1) (· < ·) ∧
      leavesAscend s.nodes ∧
      ∀ n ∈ s.nodes, n.leaf = false →
        n.left.isSome ∧ (n.right.isSome ∨ s.nodes.length = 2) ∧
          n.weight.toNat = linkWeight s.nodes n.left + linkWeight s.nodes n.right)
  dict : s.tstate = .dict →
    (s.nodes = [] ∧ s.root = none) ∨
    (s.root = some 0 ∧ s.nodes.length ≤ 8193 ∧ Rooted s.nodes 0 (fun j p => p < j) ∧ ∀ n ∈ s.nodes, n.weight = 0)

/-! ### Views of a stream, a tree and a container -/

/-- The k-th bit the input cursor has yet to give: the latched byte first, then IN (45_bit_cursors.md R290). -/
def State.streamBit (s : State) (k : Nat) : Bool :=
  if s.ibc.bit.toNat + k < 8 then s.ibc.cur.getLsbD (7 - (s.ibc.bit.toNat + k))
  else (s.inByte (s.ibc.pos.toNat + (s.ibc.bit.toNat + k) / 8)).getLsbD (7 - (s.ibc.bit.toNat + k) % 8)

/-- How many bits the input cursor has yet to give (45_bit_cursors.md R290). -/
def State.streamLeft (s : State) : Nat :=
  if s.ibc.ended then 0
  else if s.ibc.pos.toNat < s.inLen.toNat then 8 * (s.inLen.toNat - s.ibc.pos.toNat) - s.ibc.bit.toNat
  else 8 - s.ibc.bit.toNat

/-- Where the input cursor stands n bits on, for n ≤ streamLeft (45_bit_cursors.md R290). -/
def State.streamAt (s : State) (n : Nat) : Ibc :=
  if n = 0 then s.ibc
  else if s.ibc.bit.toNat + n < 8 then { s.ibc with bit := BitVec.ofNat 3 (s.ibc.bit.toNat + n) }
  else if s.ibc.pos.toNat + (s.ibc.bit.toNat + n) / 8 < s.inLen.toNat then
    ⟨false, BitVec.ofNat 32 (s.ibc.pos.toNat + (s.ibc.bit.toNat + n) / 8), BitVec.ofNat 3 ((s.ibc.bit.toNat + n) % 8),
      s.inByte (s.ibc.pos.toNat + (s.ibc.bit.toNat + n) / 8)⟩
  else ⟨true, s.inLen, 0, 0⟩

/-- The bits OBC has accumulated (10_state.md R57). -/
def State.pending (s : State) : Bits := (List.range s.obc.nb.toNat).map fun i => s.obc.buf.getLsbD (7 - i)

/-- `t` is `s` after `bits` have gone through OBC (45_bit_cursors.md R299): with the pending bits before them they fill
whole bytes of OUT from OUT_LEN on, MSB-first; what is left over is in OBC; every other byte of OUT is as before. -/
structure Appended (bits : Bits) (s t : State) : Prop where
  outLen : t.outLen.toNat = s.outLen.toNat + (s.pending ++ bits).length / 8
  bytes : ∀ i, i < 8 * ((s.pending ++ bits).length / 8) →
    (t.outByte (s.outLen.toNat + i / 8)).getLsbD (7 - i % 8) = (s.pending ++ bits).getD i false
  others : ∀ a, a < s.outLen.toNat ∨ s.outLen.toNat + (s.pending ++ bits).length / 8 ≤ a → t.outByte a = s.outByte a
  count : t.obc.nb.toNat = (s.pending ++ bits).length % 8
  rest : ∀ i, i < 8 → t.obc.buf.getLsbD (7 - i) = (s.pending ++ bits).getD (8 * ((s.pending ++ bits).length / 8) + i) false

/-- The node a code leads to from node j: 1 = RIGHT, 0 = LEFT (44_huffman_tree.md R263). -/
def walk (nodes : List Node) : Nat → Bits → Option Nat
  | j, [] => some j
  | j, b :: t =>
    match nodes[j]? with
    | none => none
    | some n =>
      match (if b then n.right else n.left) with
      | none => none
      | some i => walk nodes i t

/-- The code leads from the root to a leaf that holds the symbol. -/
def leadsTo (nodes : List Node) (root : Nat) (code : Bits) (c : Byte) : Prop :=
  ∃ k n, walk nodes root code = some k ∧ nodes[k]? = some n ∧ n.leaf = true ∧ n.sym = c

/-- The bits are the codes of the symbols in order, each a nonempty walk from the root that meets its first leaf at its end
(44_huffman_tree.md R267). -/
inductive Parses (nodes : List Node) (root : Nat) : Bits → List Byte → Prop where
  | done : Parses nodes root [] []
  | symbol (code rest : Bits) (c : Byte) (l : List Byte) : code ≠ [] → leadsTo nodes root code c →
      (∀ m, 0 < m → m < code.length → ¬ ∃ d, leadsTo nodes root (code.take m) d) →
      Parses nodes root rest l → Parses nodes root (code ++ rest) (c :: l)

/-- After `bits` the walk from the root, which starts again at each leaf, stands at the end of `rest`, the bits since the last
leaf (44_huffman_tree.md R267). -/
def standsAfter (nodes : List Node) (root : Nat) (bits rest : Bits) : Prop :=
  ∃ (found : Bits) (symbols : List Byte), bits = found ++ rest ∧ Parses nodes root found symbols ∧
    (walk nodes root rest).isSome ∧ ∀ m, 0 < m → m ≤ rest.length → ¬ ∃ d, leadsTo nodes root (rest.take m) d

/-- Decoding n bits of a source that has `left` of them raises MALFORMED with this subcode and bit number
(44_huffman_tree.md R267, 60_exceptions.md R363): bit k selects a child that does not exist, or the source ends at bit k, or
the n bits end in mid-walk. -/
def DecodeFault (nodes : List Node) (root : Nat) (bit : Nat → Bool) (left n sub k : Nat) : Prop :=
  ∃ rest, standsAfter nodes root ((List.range k).map bit) rest ∧
    ((sub = 0x0D ∧ k < n ∧ k < left ∧ walk nodes root (rest ++ [bit k]) = none) ∨
      (sub = 0x0E ∧ k < n ∧ k = left) ∨
      (sub = 0x0E ∧ k = n ∧ n ≤ left ∧ rest ≠ []))

/-- No code of the table is a prefix of another symbol's (44_huffman_tree.md R261). -/
def prefixFree (table : Vector Bits 256) : Prop :=
  ∀ c d : Byte, c ≠ d → entry table c ≠ [] → entry table d ≠ [] → ¬ (entry table c) <+: (entry table d)

/-- The first eight bits as a byte, MSB-first, zeros where there are none (20_memory.md R86). -/
def packByte (l : Bits) : Byte :=
  BitVec.ofNat 8 ((List.range 8).foldl (fun n i => 2 * n + (l.getD i false).toNat) 0)

/-- A bit string packed MSB-first into bytes, zero bits to the byte boundary (46_codec.md R326, R328). -/
def packBytes (l : Bits) : List Byte := (List.range ((l.length + 7) / 8)).map fun k => packByte (l.drop (8 * k))

/-- The symbols with a code, ascending, each once (46_codec.md R325). -/
def coded (table : Vector Bits 256) : List Byte :=
  ((List.range 256).map (BitVec.ofNat 8)).filter fun c => (entry table c).length ≠ 0

/-- L, the sum of the code lengths (46_codec.md R321). -/
def codesLength (table : Vector Bits 256) : Nat := ((coded table).map fun c => (entry table c).length).sum

/-- T = 8 + 2E + ceil(L / 8) (46_codec.md R324). -/
def padOffset (table : Vector Bits 256) : Nat := 8 + 2 * (coded table).length + (codesLength table + 7) / 8

/-- The payload bits of a message (46_codec.md R328). -/
def payload (table : Vector Bits 256) (l : List Byte) : Bits := l.flatMap fun c => entry table c

/-- The pad count of n payload bits (46_codec.md R327, R330). -/
def padCount (n : Nat) : Nat := (8 - n % 8) % 8

/-- magic, entryCount, tableOffset and the entries of a container (46_codec.md R321 to R325). -/
def layoutHead (table : Vector Bits 256) : List Byte :=
  [0x48, 0x41, 0x46, 0x46, BitVec.ofNat 8 ((coded table).length % 256), BitVec.ofNat 8 ((coded table).length / 256),
    BitVec.ofNat 8 (padOffset table % 256), BitVec.ofNat 8 (padOffset table / 256)] ++
    (coded table).flatMap fun c => [c, BitVec.ofNat 8 (entry table c).length]

/-- The container of a message under a table (46_codec.md R321). -/
def container (table : Vector Bits 256) (l : List Byte) : List Byte :=
  layoutHead table ++ packBytes ((coded table).flatMap fun c => entry table c) ++
    [BitVec.ofNat 8 (padCount (payload table l).length)] ++ packBytes (payload table l)

/-- A byte string that is the container of a message under a table, whatever its padding bits are (46_codec.md R321,
R344). -/
def IsContainer (table : Vector Bits 256) (l : List Byte) (bytes : List Byte) : Prop :=
  ∃ codeBytes payloadBytes : List Byte,
    bytes = layoutHead table ++ codeBytes ++ [BitVec.ofNat 8 (padCount (payload table l).length)] ++ payloadBytes ∧
    codeBytes.length = (codesLength table + 7) / 8 ∧
    ((coded table).flatMap fun c => entry table c) <+: bytesBits codeBytes ∧
    payloadBytes.length = ((payload table l).length + 7) / 8 ∧
    payload table l <+: bytesBits payloadBytes

/-- The bits a command puts through OBC from state `s` (45_bit_cursors.md R305: OBPUT, OBPUTX, HTENC or HTDEC). -/
def putsBits : Instr → State → Bits → Prop
  | .obput v, _, l => l = [v]
  | .obputx a, s, l => l = [s.operand a == 1]
  | .htenc a b, s, l => l = payload s.ct (s.inBytes (s.operand a) (s.operand b))
  | .htdec a, s, l => ∃ symbols : List Byte, l = bytesBits symbols ∧
      (symbols = [] ∧ s.operand a = 0 ∨
        ∃ r, s.root = some r ∧ Parses s.nodes r ((List.range (s.operand a)).map s.streamBit) symbols)
  | _, _, _ => False

/-- A run of commands that put bits, each completing, from `s` to `t`, with the bits put. -/
inductive PutRun : State → Bits → State → Prop where
  | start (s : State) : PutRun s [] s
  | put (s t u : State) (l m : Bits) (i : Instr) : PutRun s l t → exec i t = .next u → u.status.err = false →
      putsBits i t m → PutRun s (l ++ m) u

end Sys2Proof.Machine
end

