-- ==== Sys2Proof/Certificates/Slice0/Obligations.lean ====
section
/-! DEFINITION. The statements for the provers, from the numbered rules of spec/, and the tables of the spec they compare
the model with. -/

section

open Sys2Proof Sys2Proof.Machine

/-! ### Encoding (30_encoding.md) -/

namespace Sys2Proof.Machine

/-- The `match` and `mask` of the rows of 40_control.md in spec/opcode_table.json (30_encoding.md R119). -/
def controlMasks : List (Word × Word) :=
  [(0x00000000, 0xFFFFFFFF), (0x01000000, 0xFFFFFFFF), (0x10000000, 0xFF0F0000), (0x11000000, 0xFF0F0000),
   (0x12000000, 0xFF00FFFF)]

/-- The `match` and `mask` of the rows of 41_bit_primitives.md in spec/opcode_table.json (30_encoding.md R119). -/
def bitMasks : List (Word × Word) :=
  [(0x20000000, 0xFF000FFF), (0x21000000, 0xFF000FFE), (0x22000000, 0xFF0000FE), (0x23000000, 0xFF0000FF)]

/-- The `match` and `mask` of the rows of 42_bit_sequence.md in spec/opcode_table.json (30_encoding.md R119). -/
def sequenceMasks : List (Word × Word) :=
  [(0x30000000, 0xFF00FFFE), (0x31000000, 0xFF000FFF), (0x32000000, 0xFF00FFFF), (0x33000000, 0xFF00FFFF),
   (0x34000000, 0xFF00FFFF), (0x35000000, 0xFF000FFF), (0x36000000, 0xFF000FFF), (0x37000000, 0xFF00FFFE),
   (0x38000000, 0xFF00FFFE), (0x39000000, 0xFF000FFE), (0x3A000000, 0xFF00FFFE), (0x3B000000, 0xFF00000F),
   (0x3C000000, 0xFF000FFF), (0x3D000000, 0xFF00FFFF), (0x3E000000, 0xFF0FFFFE), (0x3F000000, 0xFF0FFFFF),
   (0x40000000, 0xFF00FFFE), (0x41000000, 0xFF0FFFFF), (0x42000000, 0xFF00FFFF), (0x43000000, 0xFF00FFFF),
   (0x44000000, 0xFF00FFFF)]

/-- The `match` and `mask` of the rows of 43_priority_queue.md in spec/opcode_table.json (30_encoding.md R119). -/
def queueMasks : List (Word × Word) :=
  [(0x50000000, 0xFF00FFFF), (0x51000000, 0xFFFFFFFF), (0x52000000, 0xFF00FFFF), (0x53000000, 0xFF00FFFF),
   (0x54000000, 0xFF000FFF), (0x55000000, 0xFF0FFFFF), (0x56000000, 0xFFFFFFFF)]

/-- The `match` and `mask` of the rows of 44_huffman_tree.md in spec/opcode_table.json (30_encoding.md R119). -/
def treeMasks : List (Word × Word) :=
  [(0x60000000, 0xFF00FFFF), (0x61000000, 0xFF00FFFF), (0x62000000, 0xFFFFFFFF), (0x63000000, 0xFF00FFFF),
   (0x64000000, 0xFF00FFFF), (0x65000000, 0xFFFFFFFF), (0x68000000, 0xFF00FFFF), (0x69000000, 0xFFFFFFFF),
   (0x6A000000, 0xFFFFFFFF), (0x6B000000, 0xFFFFFFFF), (0x6C000000, 0xFF00FFFF), (0x6D000000, 0xFFFFFFFF),
   (0x6E000000, 0xFF00FFFF), (0x6F000000, 0xFF0FFFFF), (0x70000000, 0xFF0FFFFF), (0x71000000, 0xFF0FFFFF),
   (0x72000000, 0xFF00F0FF)]

/-- The `match` and `mask` of the rows of 45_bit_cursors.md in spec/opcode_table.json (30_encoding.md R119). -/
def cursorMasks : List (Word × Word) :=
  [(0x80000000, 0xFF0FFFFF), (0x81000000, 0xFF0FFFFF), (0x82000000, 0xFFFFFFFF), (0x83000000, 0xFF0FFFFF),
   (0x84000000, 0xFF0FFFFF), (0x85000000, 0xFF0FFFFF), (0x88000000, 0xFFFFFFFF), (0x89000000, 0xFFFFFFFE),
   (0x8A000000, 0xFF0FFFFF), (0x8B000000, 0xFF0FFFFF), (0x8C000000, 0xFF0FFFFF)]

/-- The `match` and `mask` of the rows of 46_codec.md in spec/opcode_table.json (30_encoding.md R119). -/
def codecMasks : List (Word × Word) :=
  [(0x90000000, 0xFFFFFFFF), (0x91000000, 0xFFFFFFFF)]

/-- Every row of spec/opcode_table.json: its `match` and its `mask`. -/
def masks : List (Word × Word) :=
  controlMasks ++ bitMasks ++ sequenceMasks ++ queueMasks ++ treeMasks ++ cursorMasks ++ codecMasks

/-- The reserved opcodes (30_encoding.md R117). -/
def reservedOp (n : Nat) : Prop :=
  (0x02 ≤ n ∧ n ≤ 0x0F) ∨ (0x13 ≤ n ∧ n ≤ 0x1F) ∨ (0x24 ≤ n ∧ n ≤ 0x2F) ∨ (0x45 ≤ n ∧ n ≤ 0x4F) ∨
  (0x57 ≤ n ∧ n ≤ 0x5F) ∨ n = 0x66 ∨ n = 0x67 ∨ (0x73 ≤ n ∧ n ≤ 0x7F) ∨ n = 0x86 ∨ n = 0x87 ∨
  (0x8D ≤ n ∧ n ≤ 0x8F) ∨ (0x92 ≤ n ∧ n ≤ 0xFF)

/-- A word is ILLEGAL exactly for one of the three reasons of 30_encoding.md R118. -/
def illegalWord (w : Word) : Prop :=
  reservedOp (w.extractLsb' 24 8).toNat ∨
  (∃ r ∈ masks, r.1.extractLsb' 24 8 = w.extractLsb' 24 8 ∧ w &&& r.2 ≠ r.1) ∨
  (w.extractLsb' 24 8 = 0x72 ∧ 4 < (w.extractLsb' 8 4).toNat)

/-- The offsets of 10_state.md R39. -/
def listedOffset (n : Nat) : Prop :=
  n ∈ [0x000, 0x004, 0x008, 0x00C, 0x010, 0x014, 0x018, 0x01C, 0x020, 0x024, 0x028] ∨
  (0x040 ≤ n ∧ n ≤ 0x07C ∧ n % 4 = 0)

/-- The X registers a command names in a destination field (10_state.md R33). -/
def xDests : Instr → List XReg
  | .li a _ | .lui a _ | .mov a _ | .bget a _ _ | .bset a _ _ _ | .bins a _ _ _ _ | .bera a _ _ _ => [a]
  | .bssize a _ | .bsempty a _ | .bsat a _ _ | .bsgetu a _ _ | .bsfront a _ | .bsback a _ | .bsword a _ => [a]
  | .pqtop a b | .pqback a b | .pqat a b _ => [a, b]
  | .pqsize a | .fqrd a _ | .htroot a | .htncnt a | .ndrd a _ _ => [a]
  | .ibread a | .iblast a | .ibend a | .ibpos a | .obflush a | .obcnt a => [a]
  | _ => []

/-- The error codes a legal command can raise: the "raised by" column of 60_exceptions.md R361. -/
def mayRaise : Instr → List ErrCode
  | .bget _ _ _ | .bset _ _ _ _ | .bins _ _ _ _ _ | .bera _ _ _ _ => [.outOfRange]
  | .bsnew _ _ _ | .bsfrom _ _ _ | .bsat _ _ _ | .bsgetu _ _ _ | .bssetat _ _ _ | .bssetu _ _ _ => [.outOfRange]
  | .bsins _ _ _ _ | .bsins1 _ _ _ | .bsinsr _ _ _ _ _ | .bsera _ _ _ | .bsera1 _ _ | .bspush _ _ => [.outOfRange]
  | .bspop _ | .bsresize _ _ _ | .bsfront _ _ | .bsback _ _ => [.outOfRange]
  | .pqpush _ _ => [.outOfRange, .capacity]
  | .pqpop | .pqtop _ _ | .pqback _ _ | .pqat _ _ _ => [.outOfRange]
  | .fqwr _ _ | .fqrd _ _ | .ctwr _ _ | .ctrd _ _ | .htfreq _ _ | .htsetdata _ _ | .ndrd _ _ _ => [.outOfRange]
  | .htbuild => [.capacity, .sequence]
  | .htdict => [.outOfRange, .sequence]
  | .htsetdict => [.malformed]
  | .htenc _ _ => [.outOfRange, .io, .malformed]
  | .htdec _ => [.io, .malformed, .sequence]
  | .ibread _ | .ibnext => [.outOfRange]
  | .obput _ | .obflush _ => [.io]
  | .obputx _ => [.outOfRange, .io]
  | .compress => [.outOfRange, .io]
  | .decompress => [.io, .malformed]
  | _ => []

/-- The changes of TSTATE a command makes (10_state.md R51), with the EMPTY a failing codec command leaves (46_codec.md
R348). -/
def tstateMoves : Instr → TState → TState → Prop
  | .srst, _, u => u = .empty
  | .htfill, _, u => u = .leaves
  | .htbuild, s, u => s = .leaves ∧ u = .tree
  | .htdict, s, u => s = .tree ∧ u = .coded
  | .htsetdata _ _, _, u => u = .coded
  | .htsetdict, _, u => u = .dict
  | .compress, _, u => u = .coded ∨ u = .empty
  | .decompress, _, u => u = .dict ∨ u = .empty
  | _, _, _ => False

/-- A 16-bit little-endian field of a byte string (20_memory.md R85). -/
def fieldAt (c : List Byte) (k : Nat) : Nat := (c.getD k 0).toNat + 256 * (c.getD (k + 1) 0).toNat

/-- The first check of the E entries that fails (46_codec.md R343): subcode and detail. -/
def entryFault (c : List Byte) (e : Nat) : Option (Nat × Nat) :=
  (List.range e).findSome? fun k =>
    if 0 < k ∧ (c.getD (8 + 2 * k) 0).toNat ≤ (c.getD (6 + 2 * k) 0).toNat then some (0x05, k)
    else if (c.getD (9 + 2 * k) 0).toNat = 0 ∨ 32 < (c.getD (9 + 2 * k) 0).toNat then
      some (0x06, (c.getD (8 + 2 * k) 0).toNat)
    else none

/-- The sum of the bitLength values of E entries (46_codec.md R321). -/
def lengthSum (c : List Byte) (e : Nat) : Nat := ((List.range e).map fun k => (c.getD (9 + 2 * k) 0).toNat).sum

/-- The first check of 46_codec.md R343 on a container's header that fails, with the subcode and detail of
60_exceptions.md R363. -/
def headerFault (c : List Byte) : Option (Nat × Nat) :=
  if c.length < 4 ∨ c.take 4 ≠ [0x48, 0x41, 0x46, 0x46] then some (0x01, 0)
  else if c.length < 8 then some (0x02, c.length)
  else if 256 < fieldAt c 4 then some (0x03, fieldAt c 4)
  else if c.length < 8 + 2 * fieldAt c 4 then some (0x04, fieldAt c 4)
  else
    match entryFault c (fieldAt c 4) with
    | some x => some x
    | none =>
      if c.length < 8 + 2 * fieldAt c 4 + (lengthSum c (fieldAt c 4) + 7) / 8 then
        some (0x07, lengthSum c (fieldAt c 4))
      else if fieldAt c 6 ≠ 8 + 2 * fieldAt c 4 + (lengthSum c (fieldAt c 4) + 7) / 8 then some (0x08, fieldAt c 6)
      else if c.length ≤ fieldAt c 6 then some (0x09, fieldAt c 6)
      else if 7 < (c.getD (fieldAt c 6) 0).toNat ∨
          ((c.getD (fieldAt c 6) 0).toNat ≠ 0 ∧ c.length = fieldAt c 6 + 1) then
        some (0x0A, (c.getD (fieldAt c 6) 0).toNat)
      else none

/-- The table a container holds (46_codec.md R325, R326, R343): entry k's code is the next bitLength bits of the packed table,
and a symbol that no entry names has no code. -/
def tableHeld (c : List Byte) (table : Vector Bits 256) : Prop :=
  (∀ k, k < fieldAt c 4 → entry table (c.getD (8 + 2 * k) 0) =
    ((bytesBits (c.drop (8 + 2 * fieldAt c 4))).drop (lengthSum c k)).take (c.getD (9 + 2 * k) 0).toNat) ∧
  ∀ d : Byte, (∀ k, k < fieldAt c 4 → c.getD (8 + 2 * k) 0 ≠ d) → entry table d = []

/-- The payload bits of a container, the padding left out (46_codec.md R321, R345). -/
def payloadHeld (c : List Byte) : Bits :=
  (bytesBits (c.drop (fieldAt c 6 + 1))).take (8 * (c.length - fieldAt c 6 - 1) - (c.getD (fieldAt c 6) 0).toNat)

/-- d is the first symbol, in ascending order, whose code begins, or begins with, a smaller symbol's (44_huffman_tree.md
R262). -/
def firstClash (table : Vector Bits 256) (d : Byte) : Prop :=
  (∃ c : Byte, c.toNat < d.toNat ∧ entry table c ≠ [] ∧ entry table d ≠ [] ∧
    (entry table c <+: entry table d ∨ entry table d <+: entry table c)) ∧
  ∀ e c : Byte, e.toNat < d.toNat → c.toNat < e.toNat → entry table c ≠ [] → entry table e ≠ [] →
    ¬ (entry table c <+: entry table e ∨ entry table e <+: entry table c)

/-- Bits that are not the codes of a message go wrong with this subcode and bit number (44_huffman_tree.md R267): after whole
codes and the beginning `rest` of one, bit k makes it the beginning of none, or the bits end within it. -/
def PayloadFault (table : Vector Bits 256) (bits : Bits) (sub k : Nat) : Prop :=
  ∃ (l : List Byte) (rest : Bits), (∀ c ∈ l, entry table c ≠ []) ∧ k ≤ bits.length ∧
    bits.take k = payload table l ++ rest ∧ (∃ c, rest <+: entry table c ∧ rest ≠ entry table c) ∧
    ((sub = 0x0D ∧ k < bits.length ∧ ¬ ∃ c, rest ++ [bits.getD k false] <+: entry table c) ∨
      (sub = 0x0E ∧ k = bits.length ∧ rest ≠ []))

/-- DECOMPRESS raises MALFORMED with this subcode and detail and leaves the failure state (60_exceptions.md R363, 46_codec.md
R348). -/
def decompressRaises (s : State) (sub d : Nat) : Prop :=
  ∃ t, exec .decompress s = .next t ∧ ErrorEntered .malformed (sub * 2 ^ 24 + d % 2 ^ 24) s t ∧ CodecFailed s t ∧
    t.freq = s.freq

end Sys2Proof.Machine

/-- Decoding the word of a legal command gives the command back, with every operand at every value its field admits
(30_encoding.md R111 to R116, R119, R121). -/
def Obligations.DecodeOfEncode : Prop := ∀ i : Instr, WellFormed i = true → decode (encode i) = .ok i

/-- Every word that decodes is the one word of its command, so no two words mean the same command and no bit of a legal
word is free (30_encoding.md R114, R118, R121). -/
def Obligations.EncodeOfDecode : Prop :=
  ∀ (w : Word) (i : Instr), decode w = .ok i → encode i = w ∧ WellFormed i = true

/-- A word is no command exactly when 30_encoding.md R118 says so, against the reserved opcodes of R117 and the masks of
spec/opcode_table.json; executing it raises ILLEGAL(0) and changes nothing else (60_exceptions.md R369). -/
def Obligations.IllegalWordsOnlyFault : Prop :=
  (∀ w : Word, illegalWord w ↔ ¬ ∃ i, decode w = .ok i) ∧
  ∀ s : State, illegalWord s.cmd → ∃ t, s.runCommand = .next t ∧ Faults .illegal 0 s t

/-- Words written out from 30_encoding.md R111, R112 and R116, one of each family, and the example of R120. -/
def Obligations.SpecWordsDecode : Prop :=
  decode 0x11109800 = .ok (.lui 1 0x9800) ∧ decode 0x22123400 = .ok (.bins 1 2 3 4 false) ∧
  decode 0x39312001 = .ok (.bsins 3 1 2 true) ∧ decode 0x3B121340 = .ok (.bsinsr 1 2 1 3 4) ∧
  decode 0x54456000 = .ok (.pqat 4 5 6) ∧ decode 0x72510300 = .ok (.ndrd 5 1 3) ∧
  decode 0x89000001 = .ok (.obput true) ∧ decode 0x90000000 = .ok .compress

/-! ### The step and the host (70_reset_and_hazards.md, 10_state.md, 20_memory.md) -/

/-- A step in which the sequencer moves is exec of the decoded command (70_reset_and_hazards.md R405, R406); a step in which
the host moves is the oldest of its pending accesses; an idle step with none pending changes nothing (60_exceptions.md
R382). Who moves is the model's reading of LATENCY (R408; log 1, log 2, log 4, log 18). -/
def Obligations.StepRunsTheDecodedCommand : Prop :=
  (∀ (s : State) (i : Instr), s.resetPin = false → s.status.busy = true → s.busyLeft = 0 ∨ s.host = [] →
    decode s.cmd = .ok i → step s = exec i s) ∧
  (∀ (s : State) (i : Instr), WellFormed i = true →
    step (s.withFetchWord 32 (encode i).toNat) = exec i (s.withFetchWord 32 (encode i).toNat)) ∧
  (∀ (s : State) (op : HostOp) (l : List HostOp), s.host = op :: l →
    s.resetPin = true ∨ s.status.busy = false ∨ s.busyLeft ≠ 0 →
    ∃ n, step s = .next (State.hostOp { s with host := l, busyLeft := n } op)) ∧
  (∀ s : State, s.host = [] → s.status.busy = false → step s = .next s)

/-- Acceptance of a host write to CMD, and the end of the command (70_reset_and_hazards.md R406): discarded with OVR alone
while BUSY or ERR is 1; else DONE falls, BUSY rises and the word is captured; at the end BUSY falls and either DONE or ERR
is set. -/
def Obligations.CommandAcceptance : Prop :=
  (∀ (s : State) (c : Word), s.resetPin = false → s.status.busy = true ∨ s.status.err = true →
    s.hostOp (.write .word 0x014 c) = { s with status := { s.status with ovr := true } }) ∧
  (∀ (s : State) (c : Word), s.resetPin = false → s.status.busy = false → s.status.err = false →
    ∃ n d, s.hostOp (.write .word 0x014 c) =
      { s with status := { s.status with done := false, busy := true }, cmd := c, busyLeft := n, draws := d }) ∧
  (∀ s t : State, s.runCommand = .next t →
    t.status = { s.status with busy := false, done := true } ∨
    ∃ code, code ≠ .none ∧ t.status = { s.status with busy := false, err := true, errCode := code })

/-- While BUSY = 1 every host write to a listed register or to IN sets OVR and nothing else, a write to an unlisted offset
does nothing, and reads of STATUS, ID, INCAP and OUTCAP give their values while every other read gives a draw
(70_reset_and_hazards.md R410). These clauses are the model's reading (log 10, DEDUCED): a read of an unlisted offset or of
an unmapped address is a draw, a write to IN of any width or alignment sets OVR, and a write to OUT or to an unmapped address
does nothing. Register-block accesses of no legal form are in AccessesOutsideTheMap (log 9). -/
def Obligations.BusyHazard : Prop :=
  ∀ (s : State) (addr v : Word), s.resetPin = false → s.status.busy = true →
    (listedOffset addr.toNat →
      s.hostOp (.write .word addr v) = { s with status := { s.status with ovr := true } }) ∧
    (∀ w, 0x40000000 ≤ addr.toNat → addr.toNat < 0x40000000 + s.inCap.val →
      s.hostOp (.write w addr v) = { s with status := { s.status with ovr := true } }) ∧
    (addr.toNat < 0x1000 → ¬ listedOffset addr.toNat → s.hostOp (.write .word addr v) = s) ∧
    (addr = 0x000 → s.hostOp (.read .word addr) = { s with rdata := 0x48435101 }) ∧
    (addr = 0x008 → s.hostOp (.read .word addr) = { s with rdata := s.statusWord }) ∧
    (addr = 0x024 → s.hostOp (.read .word addr) = { s with rdata := BitVec.ofNat 32 s.inCap.val }) ∧
    (addr = 0x028 → s.hostOp (.read .word addr) = { s with rdata := BitVec.ofNat 32 s.outCap.val }) ∧
    (addr.toNat < 0x1000 → addr.toNat % 4 = 0 → addr ≠ 0x000 → addr ≠ 0x008 → addr ≠ 0x024 → addr ≠ 0x028 →
      s.hostOp (.read .word addr) = { s with rdata := Config.drawWord s.draws, draws := s.draws + 1 }) ∧
    (∀ w, 0x1000 ≤ addr.toNat →
      s.hostOp (.read w addr) = { s with rdata := Config.drawWord s.draws, draws := s.draws + 1 }) ∧
    (∀ w, 0x1000 ≤ addr.toNat → ¬ (0x40000000 ≤ addr.toNat ∧ addr.toNat < 0x40000000 + s.inCap.val) →
      s.hostOp (.write w addr v) = s)

/-- A register-block access of another width or alignment is ignored, or reads 0 (20_memory.md R82); that this holds also
while BUSY = 1 is the model's reading (log 9, DEDUCED), since 70_reset_and_hazards.md R410 and R94 do not name it. With BUSY = 0 an unlisted offset and an address outside the map read 0 and ignore writes (10_state.md R59, 20_memory.md R81). -/
def Obligations.AccessesOutsideTheMap : Prop :=
  (∀ (s : State) (w : Width) (addr v : Word), s.resetPin = false → addr.toNat < 0x1000 →
    w ≠ .word ∨ addr.toNat % 4 ≠ 0 →
    s.hostOp (.write w addr v) = s ∧ s.hostOp (.read w addr) = { s with rdata := 0 }) ∧
  (∀ (s : State) (addr v : Word), s.resetPin = false → s.status.busy = false → addr.toNat < 0x1000 →
    ¬ listedOffset addr.toNat →
    s.hostOp (.write .word addr v) = s ∧ s.hostOp (.read .word addr) = { s with rdata := 0 }) ∧
  (∀ (s : State) (w : Width) (addr v : Word), s.resetPin = false → s.status.busy = false → 0x1000 ≤ addr.toNat →
    ¬ (0x40000000 ≤ addr.toNat ∧ addr.toNat < 0x40000000 + s.inCap.val) →
    ¬ (0x80000000 ≤ addr.toNat ∧ addr.toNat < 0x80000000 + s.outCap.val) →
    s.hostOp (.write w addr v) = s ∧ s.hostOp (.read w addr) = { s with rdata := 0 })

/-- With BUSY = 0 every listed register reads its value, the read-only ones ignore writes, CTRL keeps its four bits, a length
above its capacity is ignored, and an X register takes the value written (10_state.md R32, R38 to R47; STATUS and CMD
writes are in other statements). -/
def Obligations.RegisterBlockAccess : Prop :=
  ∀ (s : State) (v : Word), s.resetPin = false → s.status.busy = false →
    (∀ p ∈ ([(0x000, 0x48435101), (0x004, s.ctrl.setWidth 32), (0x008, s.statusWord), (0x00C, s.errInfo),
        (0x010, s.errCmd), (0x014, 0), (0x018, s.inLen), (0x01C, s.outLen), (0x020, s.pad.setWidth 32),
        (0x024, BitVec.ofNat 32 s.inCap.val), (0x028, BitVec.ofNat 32 s.outCap.val)] : List (Word × Word)),
      s.hostOp (.read .word p.1) = { s with rdata := p.2 }) ∧
    (∀ i : XReg, s.hostOp (.read .word (BitVec.ofNat 32 (0x040 + 4 * i.val))) = { s with rdata := s.getX i }) ∧
    (∀ addr ∈ ([0x000, 0x00C, 0x010, 0x020, 0x024, 0x028] : List Word), s.hostOp (.write .word addr v) = s) ∧
    s.hostOp (.write .word 0x004 v) = { s with ctrl := v.extractLsb' 0 4 } ∧
    (v.toNat ≤ s.inCap.val → s.hostOp (.write .word 0x018 v) = { s with inLen := v }) ∧
    (s.inCap.val < v.toNat → s.hostOp (.write .word 0x018 v) = s) ∧
    (v.toNat ≤ s.outCap.val → s.hostOp (.write .word 0x01C v) = { s with outLen := v }) ∧
    (s.outCap.val < v.toNat → s.hostOp (.write .word 0x01C v) = s) ∧
    (∀ i : XReg, s.hostOp (.write .word (BitVec.ofNat 32 (0x040 + 4 * i.val)) v) = s.setX i v)

/-- STATUS as the host reads it, bit by bit, at any BUSY, and what a host write clears (10_state.md R42, R51;
60_exceptions.md R361, R375): ERRINFO and ERRCMD stay (R43, R44). The interrupt output is the function of STATUS and CTRL
that 60_exceptions.md R370 gives. -/
def Obligations.StatusRegister : Prop :=
  (∀ s : State, s.resetPin = false → ∃ r, s.hostOp (.read .word 0x008) = { s with rdata := r } ∧
    r.getLsbD 0 = s.status.busy ∧ r.getLsbD 1 = s.status.done ∧ r.getLsbD 2 = s.status.err ∧
    r.getLsbD 3 = s.status.ovr ∧ r.getLsbD 7 = false ∧ r.extractLsb' 16 16 = 0 ∧
    (s.tstate, r.extractLsb' 4 3) ∈
      ([(.empty, 0), (.leaves, 1), (.tree, 2), (.coded, 3), (.dict, 4)] : List (TState × BitVec 3)) ∧
    (s.status.errCode, r.extractLsb' 8 8) ∈
      ([(.none, 0), (.outOfRange, 1), (.io, 2), (.malformed, 3), (.capacity, 4), (.illegal, 5), (.sequence, 6)] :
        List (ErrCode × BitVec 8))) ∧
  (∀ (s : State) (v : Word), s.resetPin = false → s.status.busy = false →
    s.hostOp (.write .word 0x008 v) =
      { s with
        status :=
          { busy := s.status.busy
            done := s.status.done && !v.getLsbD 1
            err := s.status.err && !v.getLsbD 2
            ovr := s.status.ovr && !v.getLsbD 3
            errCode := if v.getLsbD 2 then .none else s.status.errCode } }) ∧
  (∀ s : State, s.irq = true ↔
    (s.statusWord.getLsbD 1 = true ∧ s.ctrl.getLsbD 2 = true) ∨
      (s.statusWord.getLsbD 2 = true ∧ s.ctrl.getLsbD 3 = true))

/-- Host accesses of IN and OUT with BUSY = 0 (20_memory.md R83, R84): bytes anywhere, words at aligned addresses,
little-endian; bytes at or beyond the capacity are not written and read as 0; a misaligned word and a 16-bit access are
ignored or read 0; OUT ignores writes; a write of IN changes nothing else, and no command writes IN. -/
def Obligations.WindowAccess : Prop :=
  (∀ (s : State) (a : Nat) (v : Word), s.inWin.cells.wf → s.resetPin = false → s.status.busy = false →
    a < s.inCap.val →
    (∀ w, ∃ win, s.hostOp (.write w (BitVec.ofNat 32 (0x40000000 + a)) v) = { s with inWin := win }) ∧
    (∀ b, (s.hostOp (.write .byte (BitVec.ofNat 32 (0x40000000 + a)) v)).inByte b =
      if b = a then v.extractLsb' 0 8 else s.inByte b) ∧
    s.hostOp (.read .byte (BitVec.ofNat 32 (0x40000000 + a))) = { s with rdata := (s.inByte a).setWidth 32 } ∧
    (a % 4 = 0 → ∀ b, (s.hostOp (.write .word (BitVec.ofNat 32 (0x40000000 + a)) v)).inByte b =
      if a ≤ b ∧ b < a + 4 ∧ b < s.inCap.val then v.extractLsb' (8 * (b - a)) 8 else s.inByte b) ∧
    (a % 4 = 0 → ∃ r, s.hostOp (.read .word (BitVec.ofNat 32 (0x40000000 + a))) = { s with rdata := r } ∧
      ∀ k, k < 4 → r.extractLsb' (8 * k) 8 = if a + k < s.inCap.val then s.inByte (a + k) else 0) ∧
    (∀ w, w = .half ∨ (w = .word ∧ a % 4 ≠ 0) →
      s.hostOp (.write w (BitVec.ofNat 32 (0x40000000 + a)) v) = s ∧
      s.hostOp (.read w (BitVec.ofNat 32 (0x40000000 + a))) = { s with rdata := 0 })) ∧
  (∀ (s : State) (a : Nat) (v : Word), s.resetPin = false → s.status.busy = false → a < s.outCap.val →
    (∀ w, s.hostOp (.write w (BitVec.ofNat 32 (0x80000000 + a)) v) = s) ∧
    s.hostOp (.read .byte (BitVec.ofNat 32 (0x80000000 + a))) = { s with rdata := (s.outByte a).setWidth 32 } ∧
    (a % 4 = 0 → ∃ r, s.hostOp (.read .word (BitVec.ofNat 32 (0x80000000 + a))) = { s with rdata := r } ∧
      ∀ k, k < 4 → r.extractLsb' (8 * k) 8 = if a + k < s.outCap.val then s.outByte (a + k) else 0) ∧
    (∀ w, w = .half ∨ (w = .word ∧ a % 4 ≠ 0) →
      s.hostOp (.read w (BitVec.ofNat 32 (0x80000000 + a))) = { s with rdata := 0 })) ∧
  (∀ (i : Instr) (s t : State), exec i s = .next t → ∀ a, t.inByte a = s.inByte a)

/-- The host reaches the core's internal state only through commands (00_scope.md R6, 10_state.md R61), and a host read has
no side effect (20_memory.md R91) but on what the host holds and the model's draw counter. -/
def Obligations.HostReachesOnlyTheRegisterBlock : Prop :=
  (∀ (s : State) (w : Width) (addr : Word), ∃ r d, s.hostOp (.read w addr) = { s with rdata := r, draws := d }) ∧
  (∀ (s : State) (w : Width) (addr v : Word), ∃ x ctrl status inLen outLen inWin cmd n d,
    s.hostOp (.write w addr v) =
      { s with
        x := x, ctrl := ctrl, status := status, inLen := inLen, outLen := outLen, inWin := inWin, cmd := cmd
        busyLeft := n, draws := d })

/-- Power-on reset (70_reset_and_hazards.md R400 to R402, 10_state.md R60): holding the reset input asserted, and releasing
it, leaves every piece of state at its reset value, whatever ran before; while it is asserted writes are ignored, reads
return 0 and no command runs. The same values hold in State.reset. IN and OUT are draws: nothing is said of them. That
driving it deasserted while it is deasserted changes nothing is the model's choice (log 17). -/
def Obligations.PowerOnReset : Prop :=
  (∀ (s : State) (asserted : Bool) (t : State),
    ((asserted = true ∨ s.resetPin = true) ∧ t = s.hostOp (.reset asserted)) ∨ t = State.reset →
    (∀ i, t.getX i = 0) ∧ (∀ j, t.getBs j = []) ∧ (∀ c, entry t.freq c = 0) ∧ (∀ c, entry t.ct c = []) ∧
    t.nodes = [] ∧ t.root = none ∧ t.tstate = .empty ∧ t.pq = [] ∧ t.ibc = ⟨true, 0, 0, 0⟩ ∧ t.obc = ⟨0, 0⟩ ∧
    t.pad = 0 ∧ t.ctrl = 0 ∧ t.statusWord = 0 ∧ t.errInfo = 0 ∧ t.errCmd = 0 ∧ t.inLen = 0 ∧ t.outLen = 0 ∧
    t.irq = false) ∧
  (∀ (s : State) (asserted : Bool), (s.hostOp (.reset asserted)).resetPin = asserted ∧
    (s.hostOp (.reset asserted)).inCap = s.inCap ∧ (s.hostOp (.reset asserted)).outCap = s.outCap ∧
    (s.hostOp (.reset asserted)).host = s.host) ∧
  (∀ s : State, s.resetPin = false → s.hostOp (.reset false) = s) ∧
  (∀ (s : State) (w : Width) (addr v : Word), s.resetPin = true →
    s.hostOp (.write w addr v) = s ∧ s.hostOp (.read w addr) = { s with rdata := 0 }) ∧
  (∀ (s : State) (op : HostOp) (l : List HostOp), s.resetPin = true → s.host = op :: l →
    step s = .next (State.hostOp { s with host := l } op))

/-! ### Invariants and rules of the whole machine -/

/-- The reset state meets both invariants. -/
def Obligations.ResetMeetsInvariants : Prop := Inv State.reset ∧ Arena State.reset

/-- Every step, of either agent, keeps the invariant of the registers, tables, queue, windows, cursors and status
(10_state.md R34, R42, R46, R47, R52, R54, R56, R57; 60_exceptions.md R372), from every state that meets it. -/
def Obligations.StepKeepsInv : Prop := ∀ s t : State, Inv s → step s = .next t → Inv t

/-- Every step keeps the arena a tree of the shape its TSTATE says (10_state.md R48 to R50, 44_huffman_tree.md R240): one
root, parent and child links that agree, no cycle, weights that add up. The LEAVES case is the model's reading of R49 and
R50 (log 15). -/
def Obligations.StepKeepsArena : Prop := ∀ s t : State, Inv s → Arena s → step s = .next t → Arena t

/-- From a state whose arena has its shape no step stops the machine: every fault of the HCQ core is a next state
(60_exceptions.md R360, R362), and no walk leaves the arena (log 15). -/
def Obligations.NoStepStops : Prop := ∀ s : State, Arena s → ∃ t, step s = .next t

/-- A command in progress ends after finitely many steps, with exactly one of DONE and ERR set (70_reset_and_hazards.md
R407), whatever the host does meanwhile short of asserting reset. That it is at most one step more than the host's pending accesses
is the model's choice (log 2). -/
def Obligations.CommandEnds : Prop :=
  ∀ s : State, Inv s → Arena s → s.resetPin = false → s.status.busy = true → HostOp.reset true ∉ s.host →
    ∃ (k : Nat) (t : State), k ≤ s.host.length + 1 ∧ Host.Core.run Sys2Proof.core k s = .next t ∧
      t.status.busy = false ∧
      ((t.status.done = true ∧ t.status.err = false) ∨ (t.status.done = false ∧ t.status.err = true))

/-- Every command but COMPRESS and DECOMPRESS either completes, setting DONE and no other flag, or faults leaving everything
but the error state as it was (30_encoding.md R126, R127; 60_exceptions.md R362). -/
def Obligations.CommandsCompleteOrFaultPrecisely : Prop :=
  ∀ (i : Instr) (s t : State), i ≠ .compress → i ≠ .decompress → exec i s = .next t →
    (t.status = { s.status with busy := false, done := true } ∧ t.errInfo = s.errInfo ∧ t.errCmd = s.errCmd) ∨
    ∃ code info, code ≠ .none ∧ Faults code info s t

/-- A legal command raises only the error codes 60_exceptions.md R361 lists for it: HTSETDATA and COMPRESS never raise
CAPACITY or SEQUENCE, DECOMPRESS never OUT_OF_RANGE. -/
def Obligations.CommandsRaiseOnlyListedCodes : Prop :=
  ∀ (i : Instr) (s t : State), WellFormed i = true → Inv s → s.status.err = false → exec i s = .next t →
    t.status.err = true → t.status.errCode ∈ mayRaise i

/-- The commands that write an X register (10_state.md R33): no command changes a register outside its destination fields,
none is written on a fault, and where both fields of PQTOP, PQBACK or PQAT name one register the val of the front, the last
or the indexed entry remains. -/
def Obligations.OnlyListedCommandsWriteX : Prop :=
  (∀ (i : Instr) (s t : State) (r : XReg), exec i s = .next t → r ∉ xDests i → t.getX r = s.getX r) ∧
  (∀ (i : Instr) (s t : State) (r : XReg), s.status.err = false → exec i s = .next t → t.status.err = true →
    t.getX r = s.getX r) ∧
  (∀ (a c : XReg) (i : Instr) (s t : State), s.status.err = false → exec i s = .next t → t.status.err = false →
    (i = .pqtop a a → ∃ e l, s.pq = e :: l ∧ t.getX a = e.val.setWidth 32) ∧
    (i = .pqback a a → ∃ e l, s.pq = l ++ [e] ∧ t.getX a = e.val.setWidth 32) ∧
    (i = .pqat a a c → ∃ e, s.pq[s.operand c]? = some e ∧ t.getX a = e.val.setWidth 32))

/-- No command writes CTRL, IN_LEN, IN, the OVR flag or a parameter (10_state.md R41, R46; 20_memory.md R83;
30_encoding.md R126; 70_reset_and_hazards.md R402), nor what the host side of the model holds. -/
def Obligations.CommandsLeaveTheHostSide : Prop :=
  ∀ (i : Instr) (s t : State), exec i s = .next t →
    t.ctrl = s.ctrl ∧ t.inLen = s.inLen ∧ (∀ a, t.inByte a = s.inByte a) ∧ t.status.ovr = s.status.ovr ∧
    t.inCap = s.inCap ∧ t.outCap = s.outCap ∧ t.cmd = s.cmd ∧ t.busyLeft = s.busyLeft ∧ t.resetPin = s.resetPin ∧
    t.host = s.host ∧ t.rdata = s.rdata

/-- TSTATE changes only as 10_state.md R51 and 46_codec.md R348 say. -/
def Obligations.TreeStateTransitions : Prop :=
  ∀ (i : Instr) (s t : State), exec i s = .next t → t.tstate = s.tstate ∨ tstateMoves i s.tstate t.tstate

/-- PAD is written only by a completed OBFLUSH, COMPRESS or DECOMPRESS and cleared by SRST (10_state.md R38); the host reads
it in bits [2:0] with zeros above. -/
def Obligations.PadWriters : Prop :=
  (∀ (i : Instr) (s t : State), s.status.err = false → exec i s = .next t → t.pad ≠ s.pad →
    t.status.err = false ∧ ((∃ a, i = .obflush a) ∨ i = .compress ∨ i = .decompress ∨ (i = .srst ∧ t.pad = 0))) ∧
  (∀ (s : State) (w : Width) (addr v : Word), (s.hostOp (.write w addr v)).pad = s.pad) ∧
  (∀ s : State, s.resetPin = false → s.status.busy = false → ∃ r,
    s.hostOp (.read .word 0x020) = { s with rdata := r } ∧ r.extractLsb' 0 3 = s.pad ∧ r.extractLsb' 3 29 = 0)

/-- HTBUILD needs LEAVES, HTDICT needs TREE, HTDEC needs TREE, CODED or DICT; out of that order each raises SEQUENCE with the
TSTATE value (60_exceptions.md R368), and no other command ever does. -/
def Obligations.SequenceFaults : Prop :=
  (∀ s : State, s.tstate ≠ .leaves → ∃ t, exec .htbuild s = .next t ∧ Faults .sequence s.tstate.code.toNat s t) ∧
  (∀ s : State, s.tstate ≠ .tree → ∃ t, exec .htdict s = .next t ∧ Faults .sequence s.tstate.code.toNat s t) ∧
  (∀ (s : State) (a : XReg), s.tstate = .empty ∨ s.tstate = .leaves →
    ∃ t, exec (.htdec a) s = .next t ∧ Faults .sequence s.tstate.code.toNat s t) ∧
  (∀ (i : Instr) (s t : State), s.status.errCode ≠ .sequence → exec i s = .next t → t.status.errCode = .sequence →
    (i = .htbuild ∧ s.tstate ≠ .leaves) ∨ (i = .htdict ∧ s.tstate ≠ .tree) ∨
      ((∃ a, i = .htdec a) ∧ (s.tstate = .empty ∨ s.tstate = .leaves)))

/-- ERRINFO and ERRCMD change only at a fault, which sets ERR and ERRCODE, or at a reset (10_state.md R43, R44): no host
write and no completed command changes them. A step that sets ERR is a command's, and leaves its word in ERRCMD (R44,
60_exceptions.md R362). The value a fault leaves in ERRINFO is in the statements of each command. -/
def Obligations.ErrorRegistersKept : Prop :=
  ∀ s t : State, step s = .next t →
    ((t.errInfo = s.errInfo ∧ t.errCmd = s.errCmd) ∨
      (s.status.busy = true ∧ t.status.err = true ∧ t.status.errCode ≠ .none ∧ t.errCmd = s.cmd) ∨
      (∃ b l, s.host = HostOp.reset b :: l ∧ t.errInfo = 0 ∧ t.errCmd = 0)) ∧
    (s.status.err = false → t.status.err = true →
      s.status.busy = true ∧ t.status.errCode ≠ .none ∧ t.errCmd = s.cmd)

/-! ### Control and register moves (40_control.md) -/

/-- NOP, SRST, LI, LUI and MOV complete from every state with the values of 40_control.md R140 to R144 and 10_state.md R60
("after SRST"), and change nothing else. -/
def Obligations.ControlCommands : Prop :=
  ∀ (s : State) (a b : XReg) (imm : BitVec 16),
    (∃ t, exec .nop s = .next t ∧ Completes [] [] [] s t) ∧
    (∃ t, exec .srst s = .next t ∧
      Completes [] [0, 1, 2, 3, 4, 5, 6, 7, 8, 9, 10, 11, 12, 13, 14, 15] [.freq, .tree, .ct, .pq, .ibc, .obc, .pad] s t ∧
      (∀ j, t.getBs j = []) ∧ (∀ c, entry t.freq c = 0) ∧ (∀ c, entry t.ct c = []) ∧ t.nodes = [] ∧ t.root = none ∧
      t.tstate = .empty ∧ t.pq = [] ∧ t.ibc = ⟨true, 0, 0, 0⟩ ∧ t.obc = ⟨0, 0⟩ ∧ t.pad = 0) ∧
    (∃ t, exec (.li a imm) s = .next t ∧ Completes [a] [] [] s t ∧ (t.getX a).toNat = imm.toNat) ∧
    (∃ t, exec (.lui a imm) s = .next t ∧ Completes [a] [] [] s t ∧
      (t.getX a).toNat = imm.toNat * 2 ^ 16 + (s.getX a).toNat % 2 ^ 16) ∧
    (∃ t, exec (.mov a b) s = .next t ∧ Completes [a] [] [] s t ∧ t.getX a = s.getX b)

/-! ### Bit primitives (41_bit_primitives.md) -/

/-- BGET, BSET, BINS and BERA index by index, index 0 the MSB (41_bit_primitives.md R150 to R153, R155 to R158), with the
OUT_OF_RANGE of each, the index before the count. -/
def Obligations.BitPrimitiveCommands : Prop :=
  ∀ (s : State) (a b c d : XReg) (v : Bool),
    (s.operand c ≤ 31 → ∃ t, exec (.bget a b c) s = .next t ∧ Completes [a] [] [] s t ∧
      (t.getX a).toNat = (s.getX b).toNat / 2 ^ (31 - s.operand c) % 2) ∧
    (31 < s.operand c → ∃ t, exec (.bget a b c) s = .next t ∧ Faults .outOfRange (s.operand c) s t) ∧
    (s.operand c ≤ 31 → ∃ t, exec (.bset a b c v) s = .next t ∧ Completes [a] [] [] s t ∧
      ∀ j, j < 32 → (t.getX a).getLsbD (31 - j) = if j = s.operand c then v else (s.getX b).getLsbD (31 - j)) ∧
    (31 < s.operand c → ∃ t, exec (.bset a b c v) s = .next t ∧ Faults .outOfRange (s.operand c) s t) ∧
    (s.operand c + s.operand d ≤ 32 →
      (∃ t, exec (.bins a b c d v) s = .next t ∧ Completes [a] [] [] s t ∧
        ∀ j, j < 32 → (t.getX a).getLsbD (31 - j) =
          if j < s.operand c then (s.getX b).getLsbD (31 - j)
          else if j < s.operand c + s.operand d then v
          else (s.getX b).getLsbD (31 - (j - s.operand d))) ∧
      (∃ t, exec (.bera a b c d) s = .next t ∧ Completes [a] [] [] s t ∧
        ∀ j, j < 32 → (t.getX a).getLsbD (31 - j) =
          if j < s.operand c then (s.getX b).getLsbD (31 - j)
          else if j + s.operand d < 32 then (s.getX b).getLsbD (31 - (j + s.operand d))
          else false)) ∧
    (32 < s.operand c →
      (∃ t, exec (.bins a b c d v) s = .next t ∧ Faults .outOfRange (s.operand c) s t) ∧
      (∃ t, exec (.bera a b c d) s = .next t ∧ Faults .outOfRange (s.operand c) s t)) ∧
    (s.operand c ≤ 32 → 32 < s.operand c + s.operand d →
      (∃ t, exec (.bins a b c d v) s = .next t ∧ Faults .outOfRange (s.operand d) s t) ∧
      (∃ t, exec (.bera a b c d) s = .next t ∧ Faults .outOfRange (s.operand d) s t))

/-- The six laws of the bit primitives (41_bit_primitives.md R154). -/
def Obligations.BitPrimitiveLaws : Prop :=
  ∀ (w : Word) (b : Bool),
    (∀ i, i ≤ 31 → getBit (setBit w i b) i = b ∧ ∀ j, j ≤ 31 → j ≠ i → getBit (setBit w i b) j = getBit w j) ∧
    (∀ i c, i + c ≤ 32 →
      (∀ j, i ≤ j → j < i + c → getBit (insertBits w i c b) j = b) ∧
      (∀ j, i ≤ j → j < 32 - c → getBit (insertBits w i c b) (j + c) = getBit w j) ∧
      eraseBits (insertBits w i c b) i c = w &&& hi (32 - c)) ∧
    (∀ i, i ≤ 32 → insertBits w i 0 b = w ∧ eraseBits w i 0 = w) ∧
    insertBits w 0 32 b = (if b then 0xFFFFFFFF else 0) ∧ eraseBits w 0 32 = 0

/-! ### Bit Sequence Container (42_bit_sequence.md) -/

/-- BSNEW, BSFROM, BSMOV and BSCLR: the container they leave, or OUT_OF_RANGE of a length above 32 (42_bit_sequence.md R172
to R174, R189). -/
def Obligations.SequenceConstruction : Prop :=
  ∀ (s : State) (a a' : BsReg) (b c : XReg) (v : Bool),
    (s.operand b ≤ 32 → ∃ t, exec (.bsnew a b v) s = .next t ∧ Completes [] [a] [] s t ∧
      (t.getBs a).length = s.operand b ∧ ∀ x ∈ t.getBs a, x = v) ∧
    (32 < s.operand b → ∃ t, exec (.bsnew a b v) s = .next t ∧ Faults .outOfRange (s.operand b) s t) ∧
    (s.operand c ≤ 32 → ∃ t, exec (.bsfrom a b c) s = .next t ∧ Completes [] [a] [] s t ∧
      (t.getBs a).length = s.operand c ∧
      ∀ i, i < s.operand c → (t.getBs a)[i]? = some ((s.getX b).getLsbD (31 - i))) ∧
    (32 < s.operand c → ∃ t, exec (.bsfrom a b c) s = .next t ∧ Faults .outOfRange (s.operand c) s t) ∧
    (∃ t, exec (.bsmov a a') s = .next t ∧ Completes [] [a] [] s t ∧ t.getBs a = s.getBs a') ∧
    (∃ t, exec (.bsclr a) s = .next t ∧ Completes [] [a] [] s t ∧ t.getBs a = [])

/-- BSSIZE, BSEMPTY, BSAT, BSFRONT, BSBACK and BSWORD, with the OUT_OF_RANGE of the checked reads (42_bit_sequence.md R175,
R176, R178, R190 to R192). The lengths are those 10_state.md R34 allows. -/
def Obligations.SequenceReads : Prop :=
  ∀ (s : State) (a : XReg) (b : BsReg) (c : XReg), (s.getBs b).length ≤ 32 →
    (∃ t, exec (.bssize a b) s = .next t ∧ Completes [a] [] [] s t ∧ (t.getX a).toNat = (s.getBs b).length) ∧
    (∃ t, exec (.bsempty a b) s = .next t ∧ Completes [a] [] [] s t ∧
      (t.getX a).toNat = if s.getBs b = [] then 1 else 0) ∧
    (∀ v, (s.getBs b)[s.operand c]? = some v →
      ∃ t, exec (.bsat a b c) s = .next t ∧ Completes [a] [] [] s t ∧ (t.getX a).toNat = v.toNat) ∧
    ((s.getBs b).length ≤ s.operand c →
      ∃ t, exec (.bsat a b c) s = .next t ∧ Faults .outOfRange (s.operand c) s t) ∧
    (∀ v l, s.getBs b = v :: l →
      ∃ t, exec (.bsfront a b) s = .next t ∧ Completes [a] [] [] s t ∧ (t.getX a).toNat = v.toNat) ∧
    (∀ v l, s.getBs b = l ++ [v] →
      ∃ t, exec (.bsback a b) s = .next t ∧ Completes [a] [] [] s t ∧ (t.getX a).toNat = v.toNat) ∧
    (s.getBs b = [] →
      (∃ t, exec (.bsfront a b) s = .next t ∧ Faults .outOfRange 0 s t) ∧
      (∃ t, exec (.bsback a b) s = .next t ∧ Faults .outOfRange 0 s t)) ∧
    (∃ t, exec (.bsword a b) s = .next t ∧ Completes [a] [] [] s t ∧
      ∀ j, j < 32 → (t.getX a).getLsbD (31 - j) = (s.getBs b).getD j false)

/-- BSGETU and BSSETU (42_bit_sequence.md R177, R180): within the length they read and write the bit; from there to index 31
the read completes with 0 or 1, whichever, and the write changes nothing; from 32 on both are OUT_OF_RANGE. -/
def Obligations.UncheckedElementAccess : Prop :=
  ∀ (s : State) (a : XReg) (r : BsReg) (c : XReg) (v : Bool), (s.getBs r).length ≤ 32 →
    (∀ x, (s.getBs r)[s.operand c]? = some x →
      (∃ t, exec (.bsgetu a r c) s = .next t ∧ Completes [a] [] [] s t ∧ (t.getX a).toNat = x.toNat) ∧
      (∃ t, exec (.bssetu r c v) s = .next t ∧ Completes [] [r] [] s t ∧
        (t.getBs r).length = (s.getBs r).length ∧
        ∀ j, j < (s.getBs r).length →
          (t.getBs r)[j]? = if j = s.operand c then some v else (s.getBs r)[j]?)) ∧
    ((s.getBs r).length ≤ s.operand c → s.operand c ≤ 31 →
      (∃ t, exec (.bsgetu a r c) s = .next t ∧ Completes [a] [] [.draws] s t ∧
        ((t.getX a).toNat = 0 ∨ (t.getX a).toNat = 1)) ∧
      (∃ t, exec (.bssetu r c v) s = .next t ∧ Completes [] [] [] s t)) ∧
    (31 < s.operand c →
      (∃ t, exec (.bsgetu a r c) s = .next t ∧ Faults .outOfRange (s.operand c) s t) ∧
      (∃ t, exec (.bssetu r c v) s = .next t ∧ Faults .outOfRange (s.operand c) s t))

/-- BSSETAT, BSPUSH, BSPOP and BSRESIZE, with the OUT_OF_RANGE of each (42_bit_sequence.md R179, R186 to R188). -/
def Obligations.SequenceUpdates : Prop :=
  ∀ (s : State) (a : BsReg) (b : XReg) (v : Bool), (s.getBs a).length ≤ 32 →
    (s.operand b < (s.getBs a).length → ∃ t, exec (.bssetat a b v) s = .next t ∧ Completes [] [a] [] s t ∧
      (t.getBs a).length = (s.getBs a).length ∧
      ∀ j, j < (s.getBs a).length →
        (t.getBs a)[j]? = if j = s.operand b then some v else (s.getBs a)[j]?) ∧
    ((s.getBs a).length ≤ s.operand b →
      ∃ t, exec (.bssetat a b v) s = .next t ∧ Faults .outOfRange (s.operand b) s t) ∧
    ((s.getBs a).length < 32 → ∃ t, exec (.bspush a v) s = .next t ∧ Completes [] [a] [] s t ∧
      t.getBs a = s.getBs a ++ [v]) ∧
    ((s.getBs a).length = 32 → ∃ t, exec (.bspush a v) s = .next t ∧ Faults .outOfRange 32 s t) ∧
    (∀ l x, s.getBs a = l ++ [x] → ∃ t, exec (.bspop a) s = .next t ∧ Completes [] [a] [] s t ∧ t.getBs a = l) ∧
    (s.getBs a = [] → ∃ t, exec (.bspop a) s = .next t ∧ Faults .outOfRange 0 s t) ∧
    (s.operand b ≤ 32 → ∃ t, exec (.bsresize a b v) s = .next t ∧ Completes [] [a] [] s t ∧
      (t.getBs a).length = s.operand b ∧
      ∀ j, j < s.operand b → (t.getBs a)[j]? = some ((s.getBs a).getD j v)) ∧
    (32 < s.operand b → ∃ t, exec (.bsresize a b v) s = .next t ∧ Faults .outOfRange (s.operand b) s t)

/-- BSINS, BSINS1, BSINSR, BSERA and BSERA1, every check in the order of its rule (42_bit_sequence.md R181 to R185). The range
of BSINSR is read from the state before the command, also from the destination itself. -/
def Obligations.SequenceInsertAndErase : Prop :=
  ∀ (s : State) (a r : BsReg) (b c d e : XReg) (v : Bool) (l m n : Bits),
    (s.getBs a).length ≤ 32 →
    (s.getBs a = l ++ n → s.operand b = l.length → (s.getBs a).length + s.operand c ≤ 32 →
      ∃ t, exec (.bsins a b c v) s = .next t ∧ Completes [] [a] [] s t ∧
        t.getBs a = l ++ List.replicate (s.operand c) v ++ n) ∧
    ((s.getBs a).length < s.operand b →
      (∃ t, exec (.bsins a b c v) s = .next t ∧ Faults .outOfRange (s.operand b) s t) ∧
      (∃ t, exec (.bsins1 a b v) s = .next t ∧ Faults .outOfRange (s.operand b) s t) ∧
      (∃ t, exec (.bsinsr a b r d e) s = .next t ∧ Faults .outOfRange (s.operand b) s t)) ∧
    (s.operand b ≤ (s.getBs a).length → 32 < (s.getBs a).length + s.operand c →
      ∃ t, exec (.bsins a b c v) s = .next t ∧ Faults .outOfRange (s.operand c) s t) ∧
    (s.getBs a = l ++ n → s.operand b = l.length → (s.getBs a).length < 32 →
      ∃ t, exec (.bsins1 a b v) s = .next t ∧ Completes [] [a] [] s t ∧ t.getBs a = l ++ [v] ++ n) ∧
    (s.operand b ≤ (s.getBs a).length → (s.getBs a).length = 32 →
      ∃ t, exec (.bsins1 a b v) s = .next t ∧ Faults .outOfRange 1 s t) ∧
    (s.getBs a = l ++ n → s.operand b = l.length → s.operand d ≤ s.operand e →
      s.operand e ≤ (s.getBs r).length → (s.getBs a).length + (s.operand e - s.operand d) ≤ 32 →
      m.length = s.operand e - s.operand d →
      (∀ j, j < m.length → m[j]? = (s.getBs r)[s.operand d + j]?) →
      ∃ t, exec (.bsinsr a b r d e) s = .next t ∧ Completes [] [a] [] s t ∧ t.getBs a = l ++ m ++ n) ∧
    (s.operand b ≤ (s.getBs a).length → s.operand e < s.operand d →
      ∃ t, exec (.bsinsr a b r d e) s = .next t ∧ Faults .outOfRange (s.operand d) s t) ∧
    (s.operand b ≤ (s.getBs a).length → s.operand d ≤ s.operand e → (s.getBs r).length < s.operand e →
      ∃ t, exec (.bsinsr a b r d e) s = .next t ∧ Faults .outOfRange (s.operand e) s t) ∧
    (s.operand b ≤ (s.getBs a).length → s.operand d ≤ s.operand e → s.operand e ≤ (s.getBs r).length →
      32 < (s.getBs a).length + (s.operand e - s.operand d) →
      ∃ t, exec (.bsinsr a b r d e) s = .next t ∧ Faults .outOfRange (s.operand e - s.operand d) s t) ∧
    (s.getBs a = l ++ m ++ n → s.operand b = l.length → s.operand c = l.length + m.length →
      ∃ t, exec (.bsera a b c) s = .next t ∧ Completes [] [a] [] s t ∧ t.getBs a = l ++ n) ∧
    (s.operand c < s.operand b → ∃ t, exec (.bsera a b c) s = .next t ∧ Faults .outOfRange (s.operand b) s t) ∧
    (s.operand b ≤ s.operand c → (s.getBs a).length < s.operand c →
      ∃ t, exec (.bsera a b c) s = .next t ∧ Faults .outOfRange (s.operand c) s t) ∧
    (s.getBs a = l ++ [v] ++ n → s.operand b = l.length →
      ∃ t, exec (.bsera1 a b) s = .next t ∧ Completes [] [a] [] s t ∧ t.getBs a = l ++ n) ∧
    ((s.getBs a).length ≤ s.operand b →
      ∃ t, exec (.bsera1 a b) s = .next t ∧ Faults .outOfRange (s.operand b) s t)

/-- BSERA of [p, p + n) undoes BSINS of n bits at p (42_bit_sequence.md R184), and BSINS at the length is n times BSPUSH
(R181): the two containers are the ones before, bit for bit. -/
def Obligations.EraseUndoesInsert : Prop :=
  ∀ (s : State) (a : BsReg) (b c d : XReg) (v : Bool), s.status.err = false →
    s.operand b ≤ (s.getBs a).length → (s.getBs a).length + s.operand c ≤ 32 →
    (s.operand d = s.operand b + s.operand c →
      ∃ t, execAll [.bsins a b c v, .bsera a b d] s = .next t ∧ Completes [] [] [] s t) ∧
    (s.operand b = (s.getBs a).length → ∃ t, exec (.bsins a b c v) s = .next t ∧
      execAll (.nop :: List.replicate (s.operand c) (.bspush a v)) s = .next t)

/-- The container commands are the bit primitives on the storage word (42_bit_sequence.md R171): after BSINS and BSERA every
bit below the new length is the one insertBits and eraseBits leave at its index. -/
def Obligations.StorageView : Prop :=
  ∀ (s t : State) (a : BsReg) (b c : XReg) (v : Bool), s.status.err = false → (s.getBs a).length ≤ 32 →
    t.status.err = false →
    (exec (.bsins a b c v) s = .next t → ∀ j, j < (t.getBs a).length →
      (t.getBs a)[j]? = some (getBit (insertBits (seqWord (s.getBs a)) (s.operand b) (s.operand c) v) j)) ∧
    (exec (.bsera a b c) s = .next t → ∀ j, j < (t.getBs a).length →
      (t.getBs a)[j]? =
        some (getBit (eraseBits (seqWord (s.getBs a)) (s.operand b) (s.operand c - s.operand b)) j))

/-! ### Priority queue (43_priority_queue.md) -/

/-- PQPUSH inserts at upper_bound: before the first entry of a greater key and after every entry of its own key
(43_priority_queue.md R220, R221, R223), with the val checked before the capacity. -/
def Obligations.QueuePush : Prop :=
  ∀ (s : State) (a b : XReg), pqSorted s.pq → s.pq.length ≤ 512 →
    (s.operand b ≤ 0xFFFF → s.pq.length < 512 → ∃ t l r e,
      exec (.pqpush a b) s = .next t ∧ Completes [] [] [.pq] s t ∧ s.pq = l ++ r ∧ t.pq = l ++ [e] ++ r ∧
      e.key = s.getX a ∧ e.val.toNat = s.operand b ∧ (∀ f ∈ l, f.key.toNat ≤ e.key.toNat) ∧
      (∀ f ∈ r, e.key.toNat < f.key.toNat) ∧ pqSorted t.pq) ∧
    (0xFFFF < s.operand b → ∃ t, exec (.pqpush a b) s = .next t ∧ Faults .outOfRange (s.operand b) s t) ∧
    (s.operand b ≤ 0xFFFF → s.pq.length = 512 →
      ∃ t, exec (.pqpush a b) s = .next t ∧ Faults .capacity 512 s t)

/-- PQPOP, PQTOP, PQBACK, PQAT, PQSIZE and PQCLR (43_priority_queue.md R224 to R229): position 0 is the front, the val is
written last, and an empty queue or a position at or beyond the size is OUT_OF_RANGE. -/
def Obligations.QueueReads : Prop :=
  ∀ (s : State) (a b c : XReg), s.pq.length ≤ 512 →
    (∀ e l, s.pq = e :: l →
      (∃ t, exec .pqpop s = .next t ∧ Completes [] [] [.pq] s t ∧ t.pq = l) ∧
      (∃ t, exec (.pqtop a b) s = .next t ∧ Completes [a, b] [] [] s t ∧ (a ≠ b → t.getX a = e.key) ∧
        (t.getX b).toNat = e.val.toNat)) ∧
    (∀ e l, s.pq = l ++ [e] → ∃ t, exec (.pqback a b) s = .next t ∧ Completes [a, b] [] [] s t ∧
      (a ≠ b → t.getX a = e.key) ∧ (t.getX b).toNat = e.val.toNat) ∧
    (∀ e, s.pq[s.operand c]? = some e → ∃ t, exec (.pqat a b c) s = .next t ∧ Completes [a, b] [] [] s t ∧
      (a ≠ b → t.getX a = e.key) ∧ (t.getX b).toNat = e.val.toNat) ∧
    (s.pq = [] →
      (∃ t, exec .pqpop s = .next t ∧ Faults .outOfRange 0 s t) ∧
      (∃ t, exec (.pqtop a b) s = .next t ∧ Faults .outOfRange 0 s t) ∧
      (∃ t, exec (.pqback a b) s = .next t ∧ Faults .outOfRange 0 s t)) ∧
    (s.pq.length ≤ s.operand c → ∃ t, exec (.pqat a b c) s = .next t ∧ Faults .outOfRange (s.operand c) s t) ∧
    (∃ t, exec (.pqsize a) s = .next t ∧ Completes [a] [] [] s t ∧ (t.getX a).toNat = s.pq.length) ∧
    (∃ t, exec .pqclr s = .next t ∧ Completes [] [] [.pq] s t ∧ t.pq = [])

/-- The laws of the queue (43_priority_queue.md R222): from a sorted queue every run of commands, whichever they are, leaves
it sorted, also where the last one faults; two pops in a row give keys that do not decrease; a push on an empty queue is what the pop finds. -/
def Obligations.QueueLaws : Prop :=
  (∀ (l : List Instr) (s t : State), pqSorted s.pq → execAll l s = .next t → pqSorted t.pq) ∧
  (∀ (s : State) (a b c d : XReg), s.status.err = false → pqSorted s.pq → 2 ≤ s.pq.length → a ≠ b → a ≠ c → a ≠ d →
    c ≠ d → ∃ t, execAll [.pqtop a b, .pqpop, .pqtop c d] s = .next t ∧ t.status.err = false ∧
      (t.getX a).toNat ≤ (t.getX c).toNat) ∧
  (∀ (s : State) (a b c d : XReg), s.status.err = false → s.pq = [] → s.operand b ≤ 0xFFFF → c ≠ d →
    ∃ t, execAll [.pqpush a b, .pqtop c d, .pqpop] s = .next t ∧ t.status.err = false ∧ t.pq = [] ∧
      t.getX c = s.getX a ∧ t.getX d = s.getX b)

/-! ### Tables and tree (44_huffman_tree.md) -/

/-- FQWR, FQRD, FQCLR, CTWR, CTRD and CTCLR, with OUT_OF_RANGE for a symbol above 255 (44_huffman_tree.md R242 to R248):
one entry is written or read, every other entry of the table and TSTATE stay. -/
def Obligations.TableCommands : Prop :=
  ∀ (s : State) (a b : XReg) (r : BsReg) (c : Byte),
    (s.operand a = c.toNat →
      (∃ t, exec (.fqwr a b) s = .next t ∧ Completes [] [] [.freq] s t ∧
        ∀ d, entry t.freq d = if d = c then s.getX b else entry s.freq d) ∧
      (∃ t, exec (.fqrd b a) s = .next t ∧ Completes [b] [] [] s t ∧ t.getX b = entry s.freq c) ∧
      (∃ t, exec (.ctwr a r) s = .next t ∧ Completes [] [] [.ct] s t ∧
        ∀ d, entry t.ct d = if d = c then s.getBs r else entry s.ct d) ∧
      (∃ t, exec (.ctrd r a) s = .next t ∧ Completes [] [r] [] s t ∧ t.getBs r = entry s.ct c)) ∧
    (255 < s.operand a →
      (∃ t, exec (.fqwr a b) s = .next t ∧ Faults .outOfRange (s.operand a) s t) ∧
      (∃ t, exec (.fqrd b a) s = .next t ∧ Faults .outOfRange (s.operand a) s t) ∧
      (∃ t, exec (.ctwr a r) s = .next t ∧ Faults .outOfRange (s.operand a) s t) ∧
      (∃ t, exec (.ctrd r a) s = .next t ∧ Faults .outOfRange (s.operand a) s t)) ∧
    (∃ t, exec .fqclr s = .next t ∧ Completes [] [] [.freq] s t ∧ ∀ d, entry t.freq d = 0) ∧
    (∃ t, exec .ctclr s = .next t ∧ Completes [] [] [.ct] s t ∧ ∀ d, entry t.ct d = [])

/-- HTFREQ counts each byte of its window, the counts adding up to its length, and faults on a window outside IN[0 .. IN_LEN),
the position first (44_huffman_tree.md R250); HTFILL makes one leaf for each symbol with a nonzero count, in ascending symbol
order (R251, R252). -/
def Obligations.ScanAndFill : Prop :=
  (∀ (s : State) (a b : XReg),
    (s.operand a + s.operand b ≤ s.inLen.toNat → ∃ t, exec (.htfreq a b) s = .next t ∧ Completes [] [] [.freq] s t ∧
      (∀ c, (entry t.freq c).toNat = (s.inBytes (s.operand a) (s.operand b)).count c) ∧
      ((List.range 256).map fun k => (entry t.freq (BitVec.ofNat 8 k)).toNat).sum = s.operand b) ∧
    (s.inLen.toNat < s.operand a → ∃ t, exec (.htfreq a b) s = .next t ∧ Faults .outOfRange (s.operand a) s t) ∧
    (s.operand a ≤ s.inLen.toNat → s.inLen.toNat < s.operand a + s.operand b →
      ∃ t, exec (.htfreq a b) s = .next t ∧ Faults .outOfRange (s.operand b) s t)) ∧
  (∀ s : State, ∃ t, exec .htfill s = .next t ∧ Completes [] [] [.tree] s t ∧ t.tstate = .leaves ∧ t.root = none ∧
    (∀ n ∈ t.nodes, n.leaf = true ∧ n.left = none ∧ n.right = none ∧ n.parent = none ∧
      n.weight = entry s.freq n.sym ∧ n.weight ≠ 0) ∧
    (∀ c, entry s.freq c ≠ 0 → ∃ n ∈ t.nodes, n.sym = c) ∧
    t.nodes.Pairwise fun n m => n.sym.toNat < m.sym.toNat)

/-- HTBUILD over the leaves HTFILL left (44_huffman_tree.md R254 to R256): it completes exactly when the weights add up to
less than 2^32, with NCOUNT, ROOT and TSTATE as the rule says, the leaves in place, the whole weight at the root, and PQ
empty; else it raises CAPACITY and nothing changes. -/
def Obligations.HuffmanBuild : Prop :=
  ∀ (s : State) (total : Nat), Arena s → s.tstate = .leaves → total = (s.nodes.map fun n => n.weight.toNat).sum →
    (total < 2 ^ 32 → ∃ t, exec .htbuild s = .next t ∧ Completes [] [] [.tree, .pq] s t ∧ t.tstate = .tree ∧ t.pq = [] ∧
      (s.nodes.length = 0 → t.nodes = [] ∧ t.root = none) ∧
      (s.nodes.length = 1 → t.nodes.length = 2) ∧
      (2 ≤ s.nodes.length → t.nodes.length = 2 * s.nodes.length - 1) ∧
      (1 ≤ s.nodes.length → t.root = some (t.nodes.length - 1) ∧
        linkWeight t.nodes t.root = total) ∧
      (∀ (i : Nat) (n : Node), s.nodes[i]? = some n → ∃ m, t.nodes[i]? = some m ∧ m.leaf = true ∧ m.sym = n.sym ∧
        m.weight = n.weight) ∧
      (∀ (i : Nat) (m : Node), t.nodes[i]? = some m → s.nodes.length ≤ i → m.leaf = false) ∧ Arena t) ∧
    (2 ^ 32 ≤ total → ∃ t, exec .htbuild s = .next t ∧ Faults .capacity 0xFFFFFFFF s t)

/-- The merge order (44_huffman_tree.md R253, R254, with R221): every parent HTBUILD appends joins the two nodes that come
first, by weight and then by index, among the nodes that have no parent yet; the first of the two becomes RIGHT, the second
LEFT. -/
def Obligations.HuffmanMergeOrder : Prop :=
  ∀ (s t : State) (p a b : Nat) (m : Node), Arena s → s.tstate = .leaves → exec .htbuild s = .next t →
    t.tstate = .tree → 2 ≤ s.nodes.length → s.nodes.length ≤ p → t.nodes[p]? = some m → m.right = some a →
    m.left = some b →
    (linkWeight t.nodes (some a) < linkWeight t.nodes (some b) ∨
      (linkWeight t.nodes (some a) = linkWeight t.nodes (some b) ∧ a < b)) ∧
    ∀ (k : Nat) (n : Node), k < p → k ≠ a → k ≠ b → t.nodes[k]? = some n →
      (∀ q, n.parent = some q → p < q) →
      linkWeight t.nodes (some b) < linkWeight t.nodes (some k) ∨
        (linkWeight t.nodes (some b) = linkWeight t.nodes (some k) ∧ b < k)

/-- HTDICT gives every leaf's symbol the path from the root to it, 1 for a right step and 0 for a left step, and every other
symbol the empty code (44_huffman_tree.md R258, R259); if a leaf lies deeper than 32 it raises OUT_OF_RANGE with the depth of
the first such symbol and changes nothing. -/
def Obligations.CodeDerivation : Prop :=
  ∀ s : State, Arena s → s.tstate = .tree →
    ((∀ (r k : Nat) (n : Node) (code : Bits), s.root = some r → walk s.nodes r code = some k → s.nodes[k]? = some n →
        n.leaf = true → code.length ≤ 32) →
      ∃ t, exec .htdict s = .next t ∧ Completes [] [] [.tree, .ct] s t ∧ t.nodes = s.nodes ∧ t.root = s.root ∧
        t.tstate = .coded ∧
        (∀ (r k : Nat) (n : Node) (code : Bits), s.root = some r → walk s.nodes r code = some k →
          s.nodes[k]? = some n → n.leaf = true → entry t.ct n.sym = code) ∧
        (∀ n ∈ s.nodes, n.leaf = true → ∃ r, s.root = some r ∧ leadsTo s.nodes r (entry t.ct n.sym) n.sym) ∧
        (∀ c, (∀ n ∈ s.nodes, n.leaf = true → n.sym ≠ c) → entry t.ct c = [])) ∧
    (∀ (r : Nat) (c : Byte) (code : Bits), s.root = some r → leadsTo s.nodes r code c → 32 < code.length →
      (∀ (d : Byte) (other : Bits), leadsTo s.nodes r other d → d.toNat < c.toNat → other.length ≤ 32) →
      ∃ t, exec .htdict s = .next t ∧ Faults .outOfRange code.length s t)

/-- After a completed HTDICT, HTSETDATA or COMPRESS no nonempty code of CT is a prefix of another symbol's, and a table with
one code only has the code "0" (44_huffman_tree.md R261). -/
def Obligations.DerivedTableIsPrefixFree : Prop :=
  ∀ (i : Instr) (s t : State), i = .htdict ∨ (∃ a b, i = .htsetdata a b) ∨ i = .compress → Arena s →
    exec i s = .next t → t.status.err = false →
    prefixFree t.ct ∧ ∀ c, coded t.ct = [c] → entry t.ct c = [false]

/-- HTSETDATA is HTFREQ, HTFILL, HTBUILD and HTDICT in a row, precise as a whole (44_huffman_tree.md R260); over a window of
at most 33 distinct bytes it completes, with a code for exactly the bytes of the window. -/
def Obligations.SetData : Prop :=
  (∀ (s u : State) (a b : XReg), s.status.err = false →
    execAll [.htfreq a b, .htfill, .htbuild, .htdict] s = .next u →
    (u.status.err = false → exec (.htsetdata a b) s = .next u) ∧
    (u.status.err = true →
      ∃ t, exec (.htsetdata a b) s = .next t ∧ Faults u.status.errCode u.errInfo.toNat s t)) ∧
  (∀ (s : State) (a b : XReg), s.operand a + s.operand b ≤ s.inLen.toNat →
    (s.inBytes (s.operand a) (s.operand b)).dedup.length ≤ 33 →
    ∃ t, exec (.htsetdata a b) s = .next t ∧ Completes [] [] [.freq, .tree, .ct, .pq] s t ∧ t.tstate = .coded ∧
      t.pq = [] ∧ (∀ c, (entry t.freq c).toNat = (s.inBytes (s.operand a) (s.operand b)).count c) ∧
      (∀ c, entry t.ct c ≠ [] ↔ c ∈ s.inBytes (s.operand a) (s.operand b)))

/-- HTSETDICT builds the trie of a prefix-free table: the code of every symbol leads from the root to a leaf with that
symbol, and every leaf is reached so by its own symbol alone (44_huffman_tree.md R262, R263), with at most one node more
than the code bits. On a table that is not prefix-free it raises MALFORMED(0x0B) with the first symbol whose code clashes
with a smaller symbol's, and the arena, ROOT and TSTATE stay. -/
def Obligations.TrieFromTable : Prop :=
  (∀ s : State, prefixFree s.ct → ∃ t, exec .htsetdict s = .next t ∧ Completes [] [] [.tree] s t ∧ t.tstate = .dict ∧
    (coded s.ct = [] → t.nodes = [] ∧ t.root = none) ∧
    (coded s.ct ≠ [] → t.root = some 0 ∧ t.nodes.length ≤ 1 + codesLength s.ct ∧
      (∀ c, entry s.ct c ≠ [] → leadsTo t.nodes 0 (entry s.ct c) c) ∧
      (∀ (k : Nat) (n : Node), t.nodes[k]? = some n → n.leaf = true →
        entry s.ct n.sym ≠ [] ∧ walk t.nodes 0 (entry s.ct n.sym) = some k) ∧
      (∀ n ∈ t.nodes, n.weight = 0))) ∧
  (∀ (s : State) (d : Byte), entry s.ct d ≠ [] →
    (∃ c : Byte, c.toNat < d.toNat ∧ entry s.ct c ≠ [] ∧
      (entry s.ct c <+: entry s.ct d ∨ entry s.ct d <+: entry s.ct c)) →
    (∀ e c : Byte, e.toNat < d.toNat → c.toNat < e.toNat → entry s.ct c ≠ [] → entry s.ct e ≠ [] →
      ¬ (entry s.ct c <+: entry s.ct e ∨ entry s.ct e <+: entry s.ct c)) →
    ∃ t, exec .htsetdict s = .next t ∧ Faults .malformed (0x0B * 2 ^ 24 + d.toNat) s t)

/-- HTENC puts the codes of its window through OBC, in order (44_huffman_tree.md R265), after its checks in order: the
window, a byte with no code (R266), room in OUT. -/
def Obligations.EncodeWindow : Prop :=
  ∀ (s : State) (a b : XReg) (l : List Byte), Inv s → l = s.inBytes (s.operand a) (s.operand b) →
    (s.inLen.toNat < s.operand a → ∃ t, exec (.htenc a b) s = .next t ∧ Faults .outOfRange (s.operand a) s t) ∧
    (s.operand a ≤ s.inLen.toNat → s.inLen.toNat < s.operand a + s.operand b →
      ∃ t, exec (.htenc a b) s = .next t ∧ Faults .outOfRange (s.operand b) s t) ∧
    (s.operand a + s.operand b ≤ s.inLen.toNat →
      (∀ (m : List Byte) (c : Byte) (n : List Byte), l = m ++ c :: n → (∀ d ∈ m, entry s.ct d ≠ []) →
        entry s.ct c = [] →
        ∃ t, exec (.htenc a b) s = .next t ∧ Faults .malformed (0x0F * 2 ^ 24 + c.toNat) s t) ∧
      ((∀ c ∈ l, entry s.ct c ≠ []) →
        (s.outLen.toNat + (s.obc.nb.toNat + (payload s.ct l).length) / 8 ≤ s.outCap.val →
          ∃ t, exec (.htenc a b) s = .next t ∧ Completes [] [] [.obc, .out] s t ∧ Appended (payload s.ct l) s t) ∧
        (s.outCap.val < s.outLen.toNat + (s.obc.nb.toNat + (payload s.ct l).length) / 8 →
          ∃ t, exec (.htenc a b) s = .next t ∧ Faults .io 2 s t)))

/-- HTDEC reads exactly n bits from the input cursor and walks the tree (44_huffman_tree.md R267, R268): where they are the
codes of a list of symbols it writes those symbols, MSB-first, through OBC and leaves IBC n bits on; where they are not, or
the cursor ends before them, it raises MALFORMED: 0x0D with the number of the first bit that has no child to select, 0x0E
with the number of the bit at which the cursor ended, or 0x0E with n for an end in mid-walk (60_exceptions.md R363); with no
root MALFORMED(0x0C); with no room IO(2). A fault changes nothing else. -/
def Obligations.DecodePayload : Prop :=
  ∀ (s : State) (a : XReg), Inv s → Arena s → s.tstate = .tree ∨ s.tstate = .coded ∨ s.tstate = .dict →
    (s.operand a = 0 → ∃ t, exec (.htdec a) s = .next t ∧ Completes [] [] [] s t) ∧
    (s.operand a ≠ 0 → s.root = none →
      ∃ t, exec (.htdec a) s = .next t ∧ Faults .malformed (0x0C * 2 ^ 24) s t) ∧
    (∀ r, s.operand a ≠ 0 → s.root = some r →
      (∀ symbols, s.operand a ≤ s.streamLeft →
        Parses s.nodes r ((List.range (s.operand a)).map s.streamBit) symbols →
        (s.outLen.toNat + symbols.length ≤ s.outCap.val →
          ∃ t, exec (.htdec a) s = .next t ∧ Completes [] [] [.ibc, .obc, .out] s t ∧
            Appended (bytesBits symbols) s t ∧ t.ibc = s.streamAt (s.operand a)) ∧
        (s.outCap.val < s.outLen.toNat + symbols.length →
          ∃ t, exec (.htdec a) s = .next t ∧ Faults .io 2 s t)) ∧
      (s.streamLeft < s.operand a ∨
        (¬ ∃ symbols, Parses s.nodes r ((List.range (s.operand a)).map s.streamBit) symbols) →
        ∃ sub k, DecodeFault s.nodes r s.streamBit s.streamLeft (s.operand a) sub k) ∧
      (∀ sub k, DecodeFault s.nodes r s.streamBit s.streamLeft (s.operand a) sub k →
        ∃ t, exec (.htdec a) s = .next t ∧ Faults .malformed (sub * 2 ^ 24 + k % 2 ^ 24) s t))

/-- HTROOT, HTNCNT and NDRD: each field of each node, NONE as 0xFFFF, an internal node's symbol field as 0; OUT_OF_RANGE for
a node that does not exist and ILLEGAL for a selector above 4 (44_huffman_tree.md R270 to R272, 10_state.md R49). -/
def Obligations.TreeInspection : Prop :=
  ∀ (s : State) (a b : XReg) (f : BitVec 4), Arena s →
    (∃ t, exec (.htroot a) s = .next t ∧ Completes [a] [] [] s t ∧ (t.getX a).toNat = s.root.getD 0xFFFF) ∧
    (∃ t, exec (.htncnt a) s = .next t ∧ Completes [a] [] [] s t ∧ (t.getX a).toNat = s.nodes.length) ∧
    (∀ n, s.nodes[s.operand b]? = some n →
      (∃ t, exec (.ndrd a b 0) s = .next t ∧ Completes [a] [] [] s t ∧ t.getX a = n.weight) ∧
      (∃ t, exec (.ndrd a b 1) s = .next t ∧ Completes [a] [] [] s t ∧
        (t.getX a).toNat = if n.leaf then 256 + n.sym.toNat else 0) ∧
      (∃ t, exec (.ndrd a b 2) s = .next t ∧ Completes [a] [] [] s t ∧ (t.getX a).toNat = n.left.getD 0xFFFF) ∧
      (∃ t, exec (.ndrd a b 3) s = .next t ∧ Completes [a] [] [] s t ∧ (t.getX a).toNat = n.right.getD 0xFFFF) ∧
      (∃ t, exec (.ndrd a b 4) s = .next t ∧ Completes [a] [] [] s t ∧ (t.getX a).toNat = n.parent.getD 0xFFFF)) ∧
    (f.toNat ≤ 4 → s.nodes.length ≤ s.operand b →
      ∃ t, exec (.ndrd a b f) s = .next t ∧ Faults .outOfRange (s.operand b) s t) ∧
    (4 < f.toNat → ∃ t, exec (.ndrd a b f) s = .next t ∧ Faults .illegal 0 s t)

/-! ### Bit cursors (45_bit_cursors.md) -/

/-- IBINIT, IBREAD, IBNEXT, IBLAST, IBEND and IBPOS (45_bit_cursors.md R290 to R296), with the OUT_OF_RANGE of a read or an
advance at the end, ERRINFO the cursor's POS (60_exceptions.md R366). -/
def Obligations.InputCursor : Prop :=
  ∀ (s : State) (a : XReg), Inv s →
    (∃ t, exec (.ibinit a) s = .next t ∧ Completes [] [] [.ibc] s t ∧
      (s.operand a < s.inLen.toNat → t.ibc.ended = false ∧ t.ibc.pos.toNat = s.operand a ∧ t.ibc.bit = 0 ∧
        t.ibc.cur = s.inByte (s.operand a)) ∧
      (s.inLen.toNat ≤ s.operand a → t.ibc = ⟨true, s.inLen, 0, 0⟩)) ∧
    (s.ibc.ended = true →
      (∃ t, exec (.ibread a) s = .next t ∧ Faults .outOfRange s.ibc.pos.toNat s t) ∧
      (∃ t, exec .ibnext s = .next t ∧ Faults .outOfRange s.ibc.pos.toNat s t)) ∧
    (s.ibc.ended = false →
      (∃ t, exec (.ibread a) s = .next t ∧ Completes [a] [] [] s t ∧
        (t.getX a).toNat = s.ibc.cur.toNat / 2 ^ (7 - s.ibc.bit.toNat) % 2) ∧
      (∃ t, exec .ibnext s = .next t ∧ Completes [] [] [.ibc] s t ∧
        (s.ibc.bit.toNat < 7 → t.ibc.ended = false ∧ t.ibc.pos = s.ibc.pos ∧
          t.ibc.bit.toNat = s.ibc.bit.toNat + 1 ∧ t.ibc.cur = s.ibc.cur) ∧
        (s.ibc.bit.toNat = 7 → s.ibc.pos.toNat + 1 < s.inLen.toNat → t.ibc.ended = false ∧
          t.ibc.pos.toNat = s.ibc.pos.toNat + 1 ∧ t.ibc.bit = 0 ∧ t.ibc.cur = s.inByte (s.ibc.pos.toNat + 1)) ∧
        (s.ibc.bit.toNat = 7 → s.inLen.toNat ≤ s.ibc.pos.toNat + 1 → t.ibc = ⟨true, s.inLen, 0, 0⟩))) ∧
    (∃ t, exec (.iblast a) s = .next t ∧ Completes [a] [] [] s t ∧
      (t.getX a).toNat = if s.ibc.ended = false ∧ s.ibc.pos.toNat + 1 = s.inLen.toNat then 1 else 0) ∧
    (∃ t, exec (.ibend a) s = .next t ∧ Completes [a] [] [] s t ∧ (t.getX a).toNat = s.ibc.ended.toNat) ∧
    (∃ t, exec (.ibpos a) s = .next t ∧ Completes [a] [] [] s t ∧
      (t.getX a).toNat = s.ibc.pos.toNat * 8 + s.ibc.bit.toNat)

/-- The stream law (45_bit_cursors.md R297): after IBINIT p, the IBREAD after k IBNEXTs gives bit 7 - (k mod 8) of
IN[p + k / 8] while that byte lies below IN_LEN, and after 8 × (IN_LEN - p) IBNEXTs IBEND gives 1. -/
def Obligations.StreamLaw : Prop :=
  ∀ (s : State) (a d : XReg) (k : Nat), s.status.err = false → s.operand a < s.inLen.toNat →
    (s.operand a + k / 8 < s.inLen.toNat →
      ∃ t, execAll ([.ibinit a] ++ List.replicate k .ibnext ++ [.ibread d]) s = .next t ∧ t.status.err = false ∧
        (t.getX d).toNat = ((s.inByte (s.operand a + k / 8)).getLsbD (7 - k % 8)).toNat) ∧
    (∃ t, execAll ([.ibinit a] ++ List.replicate (8 * (s.inLen.toNat - s.operand a)) .ibnext ++ [.ibend d]) s =
        .next t ∧ t.status.err = false ∧ (t.getX d).toNat = 1)

/-- OBINIT, OBPUT, OBPUTX, OBFLUSH and OBCNT (45_bit_cursors.md R299 to R304): a bit goes after the pending ones and every
eighth completes a byte of OUT; a flush writes the pending bits with zeros below them and counts the zeros in the register
and in PAD; IO(2) where a byte must be written and OUT is full, OUT_OF_RANGE first for a value other than 0 and 1. -/
def Obligations.OutputCursor : Prop :=
  ∀ (s : State) (a : XReg) (v : Bool), Inv s →
    (∃ t, exec .obinit s = .next t ∧ Completes [] [] [.obc] s t ∧ t.obc = ⟨0, 0⟩) ∧
    (s.obc.nb.toNat < 7 ∨ s.outLen.toNat < s.outCap.val →
      (∃ t, exec (.obput v) s = .next t ∧ Completes [] [] [.obc, .out] s t ∧ Appended [v] s t) ∧
      (s.operand a = v.toNat →
        ∃ t, exec (.obputx a) s = .next t ∧ Completes [] [] [.obc, .out] s t ∧ Appended [v] s t)) ∧
    (s.obc.nb.toNat = 7 → s.outLen.toNat = s.outCap.val →
      (∃ t, exec (.obput v) s = .next t ∧ Faults .io 2 s t) ∧
      (s.operand a ≤ 1 → ∃ t, exec (.obputx a) s = .next t ∧ Faults .io 2 s t)) ∧
    (1 < s.operand a → ∃ t, exec (.obputx a) s = .next t ∧ Faults .outOfRange (s.operand a) s t) ∧
    (s.obc.nb = 0 → ∃ t, exec (.obflush a) s = .next t ∧ Completes [a] [] [.pad] s t ∧ (t.getX a).toNat = 0 ∧
      t.pad = 0) ∧
    (s.obc.nb ≠ 0 → s.outLen.toNat < s.outCap.val →
      ∃ t, exec (.obflush a) s = .next t ∧ Completes [a] [] [.obc, .out, .pad] s t ∧
        (t.getX a).toNat = 8 - s.obc.nb.toNat ∧ t.pad.toNat = 8 - s.obc.nb.toNat ∧ t.obc = ⟨0, 0⟩ ∧
        t.outLen.toNat = s.outLen.toNat + 1 ∧
        (∀ b, t.outByte b = if b = s.outLen.toNat then packByte s.pending else s.outByte b)) ∧
    (s.obc.nb ≠ 0 → s.outLen.toNat = s.outCap.val → ∃ t, exec (.obflush a) s = .next t ∧ Faults .io 2 s t) ∧
    (∃ t, exec (.obcnt a) s = .next t ∧ Completes [a] [] [] s t ∧ (t.getX a).toNat = s.obc.nb.toNat)

/-- The output law (45_bit_cursors.md R305): OBINIT, then any run of OBPUT, OBPUTX, HTENC and HTDEC, then OBFLUSH leave the
bits put, MSB-first and padded with zeros to whole bytes, from the old OUT_LEN on, and the flush counts the zeros. -/
def Obligations.OutputLaw : Prop :=
  ∀ (s s0 t u : State) (bits : Bits) (d : XReg), Inv s → s.status.err = false → exec .obinit s = .next s0 →
    PutRun s0 bits t → exec (.obflush d) t = .next u → u.status.err = false →
    u.outBytes s.outLen.toNat ((bits.length + 7) / 8) = packBytes bits ∧
    u.outLen.toNat = s.outLen.toNat + (bits.length + 7) / 8 ∧
    (u.getX d).toNat = padCount bits.length ∧ u.pad.toNat = padCount bits.length

/-! ### Codec (46_codec.md) -/

/-- COMPRESS (46_codec.md R330 to R333): with both valid bits set it does to FREQ, the tree and CT what HTSETDATA over the
whole input does, and then completes exactly when the container fits OUT, leaving it in OUT[0 .. OUT_LEN); else it fails
with IO(2), or with HTSETDATA's error. It always completes on at most 33 distinct bytes with OUT_CAP ≥ 1545 + 4 × IN_LEN. -/
def Obligations.CompressWritesContainer : Prop :=
  (∀ (s u : State) (l : List Byte), Inv s → s.status.err = false → s.ctrl.getLsbD 0 = true → s.ctrl.getLsbD 1 = true →
    l = s.inBytes 0 s.inLen.toNat → exec (.htsetdata 0 1) ((s.setX 0 0).setX 1 s.inLen) = .next u →
    (u.status.err = false → (container u.ct l).length ≤ s.outCap.val →
      ∃ t, exec .compress s = .next t ∧ Completes [] [] [.freq, .tree, .ct, .pq, .obc, .pad, .out] s t ∧
        t.outLen.toNat = (container u.ct l).length ∧ t.outBytes 0 t.outLen.toNat = container u.ct l ∧
        (∀ a, t.outLen.toNat ≤ a → t.outByte a = s.outByte a) ∧
        t.freq = u.freq ∧ t.nodes = u.nodes ∧ t.root = u.root ∧ t.ct = u.ct ∧ t.tstate = .coded ∧ t.pq = [] ∧
        t.obc = ⟨0, 0⟩ ∧ t.pad.toNat = padCount (payload u.ct l).length) ∧
    (u.status.err = false → s.outCap.val < (container u.ct l).length →
      ∃ t, exec .compress s = .next t ∧ ErrorEntered .io 2 s t ∧ CodecFailed s t) ∧
    (u.status.err = true →
      ∃ t, exec .compress s = .next t ∧ ErrorEntered u.status.errCode u.errInfo.toNat s t ∧ CodecFailed s t)) ∧
  (∀ s : State, Inv s → s.ctrl.getLsbD 0 = true → s.ctrl.getLsbD 1 = true →
    (s.inBytes 0 s.inLen.toNat).dedup.length ≤ 33 → 1545 + 4 * s.inLen.toNat ≤ s.outCap.val →
    ∃ t, exec .compress s = .next t ∧ Completes [] [] [.freq, .tree, .ct, .pq, .obc, .pad, .out] s t)

/-- DECOMPRESS reads back every container of a prefix-free table, whatever its padding bits hold (46_codec.md R321, R343 to
R346), and fails with IO(2) where the message does not fit OUT. -/
def Obligations.DecompressReadsContainer : Prop :=
  ∀ (s : State) (table : Vector Bits 256) (l : List Byte), Inv s → s.ctrl.getLsbD 0 = true →
    s.ctrl.getLsbD 1 = true → prefixFree table → (∀ c, (entry table c).length ≤ 32) → (∀ c ∈ l, entry table c ≠ []) →
    IsContainer table l (s.inBytes 0 s.inLen.toNat) →
    (l.length ≤ s.outCap.val →
      ∃ t, exec .decompress s = .next t ∧ Completes [] [] [.tree, .ct, .ibc, .obc, .pad, .out] s t ∧
        t.outLen.toNat = l.length ∧ t.outBytes 0 l.length = l ∧
        (∀ a, l.length ≤ a → t.outByte a = s.outByte a) ∧ t.ct = table ∧ t.tstate = .dict ∧
        (∀ u, exec .htsetdict { s with ct := table } = .next u → t.nodes = u.nodes ∧ t.root = u.root) ∧
        t.obc = ⟨0, 0⟩ ∧ t.pad.toNat = padCount (payload table l).length ∧
        (padCount (payload table l).length = 0 → t.ibc = ⟨true, s.inLen, 0, 0⟩) ∧
        (padCount (payload table l).length ≠ 0 → t.ibc.ended = false ∧ t.ibc.pos.toNat + 1 = s.inLen.toNat ∧
          t.ibc.bit.toNat = 8 - padCount (payload table l).length ∧ t.ibc.cur = s.inByte (s.inLen.toNat - 1))) ∧
    (s.outCap.val < l.length →
      ∃ t, exec .decompress s = .next t ∧ ErrorEntered .io 2 s t ∧ CodecFailed s t ∧ t.freq = s.freq)

/-- DECOMPRESS on a byte string that fails a check of 46_codec.md R343 raises MALFORMED with the subcode and detail of the
first such check (60_exceptions.md R363) and leaves the failure state: a header check (0x01 to 0x0A); then a table that is
not prefix-free (0x0B with the first symbol that clashes); then payload bits with an empty table (0x0C), or ones that are
not the codes of any message (0x0D or 0x0E with the bit number). -/
def Obligations.HeaderChecks : Prop :=
  ∀ (s : State) (c : List Byte), s.ctrl.getLsbD 0 = true → s.ctrl.getLsbD 1 = true → c = s.inBytes 0 s.inLen.toNat →
    (∀ sub d, headerFault c = some (sub, d) → decompressRaises s sub d) ∧
    ∀ table : Vector Bits 256, headerFault c = none → tableHeld c table →
      (¬ prefixFree table → ∃ d, firstClash table d) ∧
      (∀ d : Byte, firstClash table d → decompressRaises s 0x0B d.toNat) ∧
      (fieldAt c 4 = 0 → payloadHeld c ≠ [] → decompressRaises s 0x0C 0) ∧
      (prefixFree table → fieldAt c 4 ≠ 0 → (¬ ∃ l, (∀ x ∈ l, entry table x ≠ []) ∧ payloadHeld c = payload table l) →
        ∃ sub k, PayloadFault table (payloadHeld c) sub k) ∧
      (∀ sub k, prefixFree table → PayloadFault table (payloadHeld c) sub k → decompressRaises s sub k)

/-- Failure of COMPRESS and DECOMPRESS (46_codec.md R348): after the two valid-bit checks it leaves the state the rule lists,
FREQ cleared by COMPRESS and kept by DECOMPRESS, and nothing is said of the bytes of OUT; the two valid-bit checks
themselves, SRC_VALID first, are precise IO(0) and IO(1) (60_exceptions.md R365). -/
def Obligations.CodecFailure : Prop :=
  (∀ s t : State, s.status.err = false → s.ctrl.getLsbD 0 = true → s.ctrl.getLsbD 1 = true → t.status.err = true →
    (exec .compress s = .next t → CodecFailed s t ∧ ∀ c, entry t.freq c = 0) ∧
    (exec .decompress s = .next t → CodecFailed s t ∧ t.freq = s.freq)) ∧
  (∀ (s : State) (i : Instr), i = .compress ∨ i = .decompress →
    (s.ctrl.getLsbD 0 = false → ∃ t, exec i s = .next t ∧ Faults .io 0 s t) ∧
    (s.ctrl.getLsbD 0 = true → s.ctrl.getLsbD 1 = false → ∃ t, exec i s = .next t ∧ Faults .io 1 s t))

/-- The round-trip law (46_codec.md R350): what COMPRESS wrote, DECOMPRESS turns back into exactly the bytes it was given,
on any core with room for them. -/
def Obligations.CodecRoundTrip : Prop :=
  ∀ s t v : State, Inv s → s.status.err = false → exec .compress s = .next t → t.status.err = false →
    Inv v → v.ctrl.getLsbD 0 = true → v.ctrl.getLsbD 1 = true →
    v.inBytes 0 v.inLen.toNat = t.outBytes 0 t.outLen.toNat → s.inLen.toNat ≤ v.outCap.val →
    ∃ u, exec .decompress v = .next u ∧ Completes [] [] [.tree, .ct, .ibc, .obc, .pad, .out] v u ∧
      u.outLen = s.inLen ∧ u.outBytes 0 u.outLen.toNat = s.inBytes 0 s.inLen.toNat

/-- The round trip of the core's own commands (44_huffman_tree.md R264, R269): the bytes HTSETDATA, HTENC and OBFLUSH append
for a window, read back by IBINIT and HTDEC with the padding left out, give the window again, with the tree HTSETDATA built
and also with the one HTSETDICT rebuilds from its table. -/
def Obligations.EncodeDecodeRoundTrip : Prop :=
  ∀ (s t v : State) (a b d e n : XReg) (l bytes : List Byte), Inv s → s.status.err = false → s.obc = ⟨0, 0⟩ →
    l = s.inBytes (s.operand a) (s.operand b) →
    execAll [.htsetdata a b, .htenc a b, .obflush d] s = .next t → t.status.err = false →
    bytes = t.outBytes s.outLen.toNat (t.outLen.toNat - s.outLen.toNat) →
    Inv v → v.status.err = false → v.obc = ⟨0, 0⟩ → v.inBytes 0 v.inLen.toNat = bytes → v.operand e = 0 →
    v.operand n + (t.getX d).toNat = 8 * bytes.length → v.outLen.toNat + l.length ≤ v.outCap.val →
    ((v.nodes = t.nodes ∧ v.root = t.root ∧ v.tstate = t.tstate →
      ∃ u, execAll [.ibinit e, .htdec n] v = .next u ∧ u.status.err = false ∧
        u.outLen.toNat = v.outLen.toNat + l.length ∧ u.outBytes v.outLen.toNat l.length = l) ∧
    (v.ct = t.ct →
      ∃ u, execAll [.htsetdict, .ibinit e, .htdec n] v = .next u ∧ u.status.err = false ∧
        u.outLen.toNat = v.outLen.toNat + l.length ∧ u.outBytes v.outLen.toNat l.length = l))

end
end

