-- ==== Sys2Proof/Laws/Bits.lean ====
section
/-! SUPPORT. The bit primitives index by index (41_bit_primitives.md R150 to R154), and the word view of a bit string. -/

namespace Sys2Proof.Machine

/-- Two words with the same bits at every index are the same word. -/
theorem word_ext {w u : Word} (h : ∀ j, j < 32 → getBit w j = getBit u j) : w = u := by
  apply BitVec.eq_of_getLsbD_eq
  intro i hi
  have := h (31 - i) (by omega)
  simpa [getBit, show 31 - (31 - i) = i by omega] using this

theorem hi_eq_shift (k : Nat) (h : k ≤ 32) : hi k = BitVec.allOnes 32 <<< (32 - k) := by
  have : ∀ k : Fin 33, hi k.val = BitVec.allOnes 32 <<< (32 - k.val) := by decide
  exact this ⟨k, by omega⟩

/-- `HI(k)` has ones at the indices below k. -/
theorem getBit_hi (k j : Nat) (hk : k ≤ 32) (hj : j < 32) : getBit (hi k) j = decide (j < k) := by
  rw [hi_eq_shift k hk]
  rw [Bool.eq_iff_iff]
  simp only [getBit, BitVec.getLsbD_shiftLeft, BitVec.getLsbD_allOnes, Bool.and_eq_true, decide_eq_true_eq,
    Bool.not_eq_true', decide_eq_false_iff_not]
  omega

@[simp] theorem getBit_zero (j : Nat) : getBit 0#32 j = false := by simp [getBit]

@[simp] theorem getBit_or (w u : Word) (j : Nat) : getBit (w ||| u) j = (getBit w j || getBit u j) := by simp [getBit]

@[simp] theorem getBit_and (w u : Word) (j : Nat) : getBit (w &&& u) j = (getBit w j && getBit u j) := by simp [getBit]

theorem getBit_not (w : Word) (j : Nat) (hj : j < 32) : getBit (~~~w) j = !getBit w j := by
  simp [getBit, show 31 - j < 32 by omega]

theorem getBit_ushiftRight (w : Word) (c j : Nat) (hj : j < 32) :
    getBit (w >>> c) j = if c ≤ j then getBit w (j - c) else false := by
  simp only [getBit, BitVec.getLsbD_ushiftRight]
  split
  · rw [show c + (31 - j) = 31 - (j - c) by omega]
  · exact BitVec.getLsbD_of_ge _ _ (by omega)

theorem getBit_shiftLeft (w : Word) (c j : Nat) (hj : j < 32) :
    getBit (w <<< c) j = if j + c < 32 then getBit w (j + c) else false := by
  simp only [getBit, BitVec.getLsbD_shiftLeft]
  split
  · rw [show 31 - j - c = 31 - (j + c) by omega]
    simp only [show (31 - j < 32) by omega, show ¬ (31 - j < c) by omega, decide_true, decide_false, Bool.not_false,
      Bool.true_and]
  · simp only [show (31 - j < c) by omega, decide_true, Bool.not_true, Bool.and_false, Bool.false_and]

theorem getBit_oneAt (i j : Nat) (hi : i < 32) (hj : j < 32) :
    getBit ((1 : Word) <<< (31 - i)) j = decide (j = i) := by
  have h1 (k : Nat) : BitVec.getLsbD (1 : Word) k = decide (k = 0) := by
    rw [show (1 : Word) = 1#32 from rfl, BitVec.getLsbD_one]; simp
  rw [Bool.eq_iff_iff]
  simp only [getBit, BitVec.getLsbD_shiftLeft, h1, Bool.and_eq_true, decide_eq_true_eq, Bool.not_eq_true',
    decide_eq_false_iff_not]
  omega

/-- R154 (1): setBit writes its index and no other. -/
theorem getBit_setBit (w : Word) (i j : Nat) (b : Bool) (hi : i < 32) (hj : j < 32) :
    getBit (setBit w i b) j = if j = i then b else getBit w j := by
  have hb : getBit (bitWord b <<< (31 - i)) j = (decide (j = i) && b) := by
    cases b
    · simp [bitWord]
    · simpa [bitWord] using getBit_oneAt i j hi hj
  simp only [setBit, getBit_or, getBit_and, getBit_not _ _ hj, getBit_oneAt i j hi hj, hb]
  by_cases h : j = i <;> simp [h]

/-- R152, R154 (2), (3): what each index of `insertBits` holds. -/
theorem getBit_insertBits (w : Word) (i c j : Nat) (b : Bool) (hc : i + c ≤ 32) (hj : j < 32) :
    getBit (insertBits w i c b) j = if j < i then getBit w j else if j < i + c then b else getBit w (j - c) := by
  have h1 := getBit_hi i j (by omega) hj
  have h2 := getBit_hi (i + c) j hc hj
  have h3 : getBit (if b = true then hi (i + c) &&& ~~~(hi i) else 0) j = (b && (decide (j < i + c) && !decide (j < i))) := by
    cases b
    · simp
    · simp [getBit_not _ _ hj, h1, h2]
  simp only [insertBits, getBit_or, getBit_and, h1, h3, getBit_ushiftRight _ _ _ hj]
  by_cases h : j < i
  · have : ¬ (c ≤ j ∧ ¬ (j - c < i)) := by omega
    by_cases hcj : c ≤ j
    · have h5 := getBit_hi i (j - c) (by omega) (by omega)
      simp [h, hcj, getBit_not _ _ (show j - c < 32 by omega), h5]
      intro _ hh; omega
    · simp [h, hcj]
  · by_cases h' : j < i + c
    · by_cases hcj : c ≤ j
      · have h5 := getBit_hi i (j - c) (by omega) (by omega)
        simp [h, h', hcj, getBit_not _ _ (show j - c < 32 by omega), h5, show j - c < i by omega]
      · simp [h, h', hcj]
    · have h5 := getBit_hi i (j - c) (by omega) (by omega)
      simp [h, h', show c ≤ j by omega, getBit_not _ _ (show j - c < 32 by omega), h5, show ¬ j - c < i by omega]

/-- R153: what each index of `eraseBits` holds. -/
theorem getBit_eraseBits (w : Word) (i c j : Nat) (hc : i + c ≤ 32) (hj : j < 32) :
    getBit (eraseBits w i c) j =
      if j < i then getBit w j else if j + c < 32 then getBit w (j + c) else false := by
  have h1 := getBit_hi i j (by omega) hj
  simp only [eraseBits, getBit_or, getBit_and, h1, getBit_shiftLeft _ _ _ hj]
  by_cases hb : j + c < 32
  · have h2 := getBit_hi (i + c) (j + c) hc hb
    simp only [hb, if_true, getBit_not _ _ hb, h2]
    by_cases h : j < i <;> simp [h]
  · simp only [hb, if_false]
    by_cases h : j < i <;> simp [h]

/-- What each index holds after a string is packed from index i on (42_bit_sequence.md R192). -/
theorem getBit_packFrom (l : Bits) (i j : Nat) (w : Word) (hl : i + l.length ≤ 32) (hj : j < 32) :
    getBit (packFrom i w l) j = if i ≤ j then l.getD (j - i) (getBit w j) else getBit w j := by
  induction l generalizing i w with
  | nil => simp [packFrom]
  | cons b t ih =>
    simp only [List.length_cons] at hl
    rw [packFrom, ih (i + 1) _ (by omega), getBit_setBit w i j b (by omega) hj]
    by_cases h : i + 1 ≤ j
    · rw [if_pos h, if_pos (show i ≤ j by omega), if_neg (show ¬ j = i by omega), show j - i = (j - (i + 1)) + 1 by omega]
      simp
    · rw [if_neg h]
      by_cases h' : j = i
      · subst h'; simp
      · rw [if_neg h', if_neg (by omega)]

/-- BSWORD: the bit at each index below the length, 0 from there on (42_bit_sequence.md R192). -/
theorem getBit_seqWord (l : Bits) (j : Nat) (hl : l.length ≤ 32) (hj : j < 32) :
    getBit (seqWord l) j = l.getD j false := by
  simpa [seqWord] using getBit_packFrom l 0 j 0 (by omega) hj

end Sys2Proof.Machine
end

