-- ==== Sys2Proof/Laws/Memory.lean ====
section
/-! SUPPORT. Read after write, and that every memory operation keeps the canonical form. -/

namespace Sys2Proof.Machine

theorem Memory.get?_put (m : Memory) (a b : Nat) (v : Byte) (h : m.wf) :
    (m.put a v).get? b = if b = a then some v else m.get? b := by
  induction m with
  | nil => simp only [Memory.put, Memory.get?, eq_comm]
  | cons e t ih =>
    obtain ⟨k, w⟩ := e
    have ht : Memory.wf t := (List.pairwise_cons.1 h).2
    have hk : ∀ x ∈ t.map Prod.fst, k < x := (List.pairwise_cons.1 h).1
    simp only [Memory.put]
    split
    · simp only [Memory.get?, eq_comm]
    · split
      · subst a
        simp only [Memory.get?]
        by_cases hb : k = b
        · simp [hb]
        · simp [hb, Ne.symm hb]
      · simp only [Memory.get?, ih ht]
        by_cases hb : k = b
        · subst hb; rw [if_pos rfl, if_pos rfl, if_neg (by omega)]
        · rw [if_neg hb, if_neg hb]

theorem Memory.mem_put (m : Memory) (a : Nat) (v : Byte) (x : Nat) :
    x ∈ (m.put a v).map Prod.fst ↔ x = a ∨ x ∈ m.map Prod.fst := by
  induction m with
  | nil => simp [Memory.put]
  | cons e t ih =>
    obtain ⟨k, w⟩ := e
    simp only [Memory.put]
    split
    · simp
    · split
      · subst a; simp
      · simp only [List.map_cons, List.mem_cons, ih]; tauto

/-- A write keeps the canonical form. -/
theorem Memory.wf_put (m : Memory) (a : Nat) (v : Byte) (h : m.wf) : (m.put a v).wf := by
  induction m with
  | nil => simp [Memory.put, Memory.wf]
  | cons e t ih =>
    obtain ⟨k, w⟩ := e
    have ht : Memory.wf t := (List.pairwise_cons.1 h).2
    have hk : ∀ x ∈ t.map Prod.fst, k < x := (List.pairwise_cons.1 h).1
    simp only [Memory.put]
    split
    · refine List.pairwise_cons.2 ⟨fun x hx => ?_, h⟩
      rcases List.mem_cons.1 hx with rfl | hx
      · assumption
      · exact lt_trans ‹_› (hk x hx)
    · split
      · subst a; exact List.pairwise_cons.2 ⟨hk, ht⟩
      · refine List.pairwise_cons.2 ⟨fun x hx => ?_, ih ht⟩
        rcases (Memory.mem_put t a v x).1 hx with rfl | hx
        · omega
        · exact hk x hx

theorem reset_memory_wf : State.reset.inWin.cells.wf ∧ State.reset.outWin.cells.wf := by
  simp [State.reset, Memory.wf]

/-- What a window reads after a write of one byte. -/
theorem Window.byte_write (w : Window) (a b : Nat) (v : Byte) (h : w.cells.wf) :
    (w.write a v).byte b = if b = a then v else w.byte b := by
  simp only [Window.byte, Window.write, Memory.get?_put _ _ _ _ h]
  split <;> simp

theorem Window.write_wf (w : Window) (a : Nat) (v : Byte) (h : w.cells.wf) : (w.write a v).cells.wf :=
  Memory.wf_put _ _ _ h

theorem Window.drawn_wf (n : Nat) : (Window.drawn n).cells.wf := by simp [Window.drawn, Memory.wf]

/-- A host write of n bytes keeps the canonical form. -/
theorem writeWindow_wf (w : Window) (cap a : Nat) (v : Word) (n : Nat) (h : w.cells.wf) :
    (writeWindow w cap a v n).cells.wf := by
  induction n generalizing w a v with
  | zero => exact h
  | succ n ih =>
    refine ih _ _ _ ?_
    split
    · exact Window.write_wf _ _ _ h
    · exact h

end Sys2Proof.Machine
end

