-- ==== Sys2Proof/Laws/Bus.lean ====
section
/-! SUPPORT. The address map of the host: where an address falls, which offsets are listed, and what a window access of n
bytes reads and writes (10_state.md R39; 20_memory.md R81 to R84). -/

namespace Sys2Proof.Machine

theorem State.place_block (s : State) {addr : Word} (h : addr.toNat < 0x1000) : s.place addr = .block addr.toNat := by
  simp [State.place, h]

theorem State.place_inWin (s : State) {addr : Word} (h : 0x40000000 ≤ addr.toNat)
    (h' : addr.toNat < 0x40000000 + s.inCap.val) : s.place addr = .inWin (addr.toNat - 0x40000000) := by
  simp only [State.place]
  rw [if_neg (by omega), if_pos ⟨h, h'⟩]

theorem State.place_outWin (s : State) {addr : Word} (h : 0x80000000 ≤ addr.toNat)
    (h' : addr.toNat < 0x80000000 + s.outCap.val) : s.place addr = .outWin (addr.toNat - 0x80000000) := by
  have := s.inCap.isLt
  simp only [State.place]
  rw [if_neg (by omega), if_neg (by omega), if_pos ⟨h, h'⟩]

theorem State.place_unmapped (s : State) {addr : Word} (h : 0x1000 ≤ addr.toNat)
    (hi : ¬ (0x40000000 ≤ addr.toNat ∧ addr.toNat < 0x40000000 + s.inCap.val))
    (ho : ¬ (0x80000000 ≤ addr.toNat ∧ addr.toNat < 0x80000000 + s.outCap.val)) : s.place addr = .unmapped := by
  simp only [State.place]
  rw [if_neg (by omega), if_neg hi, if_neg ho]

/-- The offsets of 10_state.md R39, and no others, name a register. -/
theorem regAt_isSome (n : Nat) : (regAt n).isSome = true ↔
    n ∈ [0x000, 0x004, 0x008, 0x00C, 0x010, 0x014, 0x018, 0x01C, 0x020, 0x024, 0x028] ∨
      (0x040 ≤ n ∧ n ≤ 0x07C ∧ n % 4 = 0) := by
  by_cases h : n < 0x80
  · revert n; decide
  · have h1 : regAt n = none := by
      unfold regAt
      iterate 12 rw [if_neg (by omega)]
    rw [h1]
    simp only [List.mem_cons, List.not_mem_nil, or_false, Option.isSome_none, Bool.false_eq_true, false_iff]
    omega

theorem regAt_x (i : XReg) : regAt (0x040 + 4 * i.val) = some (.x i) := by revert i; decide

/-- The registers a host can read while BUSY = 1 stand at four offsets (20_memory.md R94). -/
theorem regAt_readable {n : Nat} {r : Reg} (h : regAt n = some r) :
    r.readableBusy = true ↔ n = 0x000 ∨ n = 0x008 ∨ n = 0x024 ∨ n = 0x028 := by
  have hn : n < 0x80 := by
    have := (regAt_isSome n).1 (by rw [h]; rfl)
    simp only [List.mem_cons, List.not_mem_nil, or_false] at this
    omega
  have key : ∀ n, n < 0x80 → ∀ r, regAt n = some r →
      (r.readableBusy = true ↔ n = 0x000 ∨ n = 0x008 ∨ n = 0x024 ∨ n = 0x028) := by
    intro n hn r hr
    have : (regAt n).all (fun r => decide (r.readableBusy = true ↔ n = 0x000 ∨ n = 0x008 ∨ n = 0x024 ∨ n = 0x028)) = true := by
      clear hr
      revert n
      decide
    rw [hr] at this
    exact of_decide_eq_true this
  exact key n hn r h

/-- Outside the register block every read while BUSY = 1 is a draw() (20_memory.md R94, 70_reset_and_hazards.md R410). -/
theorem State.readBusy_window (s : State) (w : Width) {addr : Word} (h : 0x1000 ≤ addr.toNat) :
    s.readBusy w addr = none := by
  have hp : ∀ off, s.place addr ≠ .block off := by
    intro off
    simp only [State.place]
    rw [if_neg (by omega)]
    split
    · simp
    · split <;> simp
  unfold State.readBusy
  split
  · exact absurd ‹_› (hp _)
  all_goals rfl

/-- The reset input asserted, or released after it was asserted (70_reset_and_hazards.md R400). -/
theorem State.setReset_reset (s : State) {asserted : Bool} (h : asserted = true ∨ s.resetPin = true) :
    s.setReset asserted = { s.powerOn with resetPin := asserted } := if_pos (by simpa using h)

/-- The reset input driven deasserted while it is deasserted (log 17). -/
theorem State.setReset_idle (s : State) (h : s.resetPin = false) : s.setReset false = s := if_neg (by simp [h])

/-- Byte k of a little-endian read of n bytes (20_memory.md R83). -/
theorem readWindow_byte (w : Window) (cap a n k : Nat) (hk : k < n) (h4 : n ≤ 4) :
    (readWindow w cap a n).extractLsb' (8 * k) 8 = if a + k < cap then w.byte (a + k) else 0 := by
  induction n generalizing a k with
  | zero => omega
  | succ n ih =>
    apply BitVec.eq_of_getLsbD_eq
    intro i hi
    rcases k with _ | k
    · simp only [readWindow, BitVec.getLsbD_extractLsb', BitVec.getLsbD_or, BitVec.getLsbD_shiftLeft, hi, decide_true,
        Bool.true_and, Nat.mul_zero, Nat.zero_add, Nat.add_zero, show (i < 32) by omega, Bool.not_true, Bool.false_and,
        Bool.false_or]
      split
      · simp [show i < 32 by omega]
      · simp
    · have := congrArg (fun x => x.getLsbD i) (ih (a + 1) k (by omega) (by omega))
      simp only [BitVec.getLsbD_extractLsb', hi, decide_true, Bool.true_and] at this
      simp only [readWindow, BitVec.getLsbD_extractLsb', BitVec.getLsbD_or, BitVec.getLsbD_shiftLeft, hi, decide_true,
        Bool.true_and, show 8 * (k + 1) + i < 32 by omega, show ¬ 8 * (k + 1) + i < 8 by omega, decide_false, Bool.not_false,
        show 8 * (k + 1) + i - 8 = 8 * k + i by omega, this, show a + 1 + k = a + (k + 1) by omega]
      have hz : (if a < cap then (w.byte a).setWidth 32 else (0 : Word)).getLsbD (8 * (k + 1) + i) = false := by
        split
        · rw [BitVec.getLsbD_setWidth, BitVec.getLsbD_of_ge _ _ (by omega)]
          simp
        · simp
      rw [hz, Bool.or_false]

/-- What a window reads after a host write of n bytes (20_memory.md R83). -/
theorem writeWindow_byte {w : Window} (h : w.cells.wf) (cap a : Nat) (v : Word) (n b : Nat) (h4 : n ≤ 4) :
    (writeWindow w cap a v n).byte b =
      if a ≤ b ∧ b < a + n ∧ b < cap then v.extractLsb' (8 * (b - a)) 8 else w.byte b := by
  induction n generalizing w a v with
  | zero => rw [writeWindow, if_neg (by omega)]
  | succ n ih =>
    have hw : (if a < cap then w.write a (v.setWidth 8) else w).cells.wf := by
      split
      · exact Window.write_wf _ _ _ h
      · exact h
    rw [writeWindow, ih hw (a + 1) (v >>> 8) (by omega)]
    by_cases hb : a + 1 ≤ b ∧ b < a + 1 + n ∧ b < cap
    · rw [if_pos hb, if_pos (by omega)]
      apply BitVec.eq_of_getLsbD_eq
      intro i hi
      simp only [BitVec.getLsbD_extractLsb', BitVec.getLsbD_ushiftRight]
      rw [show 8 + (8 * (b - (a + 1)) + i) = 8 * (b - a) + i by omega]
    · rw [if_neg hb]
      by_cases ha : a < cap
      · rw [if_pos ha, Window.byte_write _ _ _ _ h]
        by_cases hba : b = a
        · subst hba
          rw [if_pos rfl, if_pos (by omega), Nat.sub_self]
          apply BitVec.eq_of_getLsbD_eq
          intro i hi
          simp [BitVec.getLsbD_extractLsb', BitVec.getLsbD_setWidth]
        · rw [if_neg hba, if_neg (by omega)]
      · rw [if_neg ha, if_neg (by omega)]

end Sys2Proof.Machine
end

