-- ==== Sys2Proof/Laws/Check.lean ====
section
/-! SUPPORT. The invariants of Safety as checks on one concrete state, and that a check that passes gives the invariant. -/

namespace Sys2Proof.Machine

/-- The registers' invariant on one state. -/
def invCheck (s : State) : Bool :=
  s.bs.toList.all (fun l => l.length ≤ 32) && s.ct.toList.all (fun l => l.length ≤ 32) && decide (pqSorted s.pq) &&
    decide (s.pq.length ≤ 512) && decide (s.inLen.toNat ≤ s.inCap.val) && decide (s.outLen.toNat ≤ s.outCap.val) &&
    decide s.inWin.cells.wf && s.inWin.cells.all (fun e => e.1 < s.inCap.val) && decide s.outWin.cells.wf &&
    s.outWin.cells.all (fun e => e.1 < s.outCap.val) &&
    (if s.ibc.ended then decide (s.ibc.bit = 0 ∧ s.ibc.cur = 0 ∧ s.ibc.pos.toNat ≤ s.inCap.val)
      else decide (s.ibc.pos.toNat < s.inCap.val)) &&
    (List.range 8).all (fun i => decide (8 ≤ i + s.obc.nb.toNat) || !s.obc.buf.getLsbD i) &&
    decide (s.status.errCode = .none ↔ s.status.err = false) &&
    decide (¬ (s.status.done = true ∧ s.status.err = true)) &&
    decide (s.status.busy = true → s.status.done = false ∧ s.status.err = false) &&
    decide (s.resetPin = true → s.status.busy = false)

theorem inv_of_check {s : State} (h : invCheck s = true) : Inv s := by
  simp only [invCheck, Bool.and_eq_true, decide_eq_true_eq, List.all_eq_true] at h
  obtain ⟨⟨⟨⟨⟨⟨⟨⟨⟨⟨⟨⟨⟨⟨⟨h1, h2⟩, h3⟩, h4⟩, h5⟩, h6⟩, h7⟩, h8⟩, h9⟩, h10⟩, h11⟩, h12⟩, h13⟩, h14⟩, h15⟩, h16⟩ := h
  exact {
    bsLen := fun j => h1 _ (Vector.mem_toList_iff.2 (Vector.getElem_mem _))
    ctLen := fun c => h2 _ (Vector.mem_toList_iff.2 (Vector.getElem_mem _))
    pqOrder := h3
    pqLen := h4
    inLenCap := h5
    outLenCap := h6
    inWf := h7
    inBelow := h8
    outWf := h9
    outBelow := h10
    ibcEnd := fun e => by simpa [e] using h11
    ibcOn := fun e => by simpa [e] using h11
    obcLow := fun i hi => by
      have := h12 i (List.mem_range.2 (by omega))
      simpa [show ¬ 8 ≤ i + s.obc.nb.toNat by omega] using this
    errCode := h13
    oneEnd := h14
    busyClean := h15
    resetIdle := h16 }

/-- A check of every node with its index. -/
def nodesAll (nodes : List Node) (p : Nat → Node → Bool) : Bool := nodes.zipIdx.all fun e => p e.2 e.1

theorem nodesAll_get {nodes : List Node} {p : Nat → Node → Bool} (h : nodesAll nodes p = true) {j : Nat} {n : Node}
    (hj : nodes[j]? = some n) : p j n = true :=
  List.all_eq_true.1 h (n, j) (List.mk_mem_zipIdx_iff_getElem?.2 hj)

/-- The shape of a rooted arena on one list of nodes; `up` is the direction of the parent links. -/
def rootedCheck (nodes : List Node) (root : Nat) (up : Nat → Nat → Bool) : Bool :=
  decide (root < nodes.length) &&
    nodesAll nodes fun j n =>
      (n.parent.isNone == (j == root)) && (!n.leaf || (n.left.isNone && n.right.isNone)) && (n.leaf || n.sym == 0) &&
        n.parent.all (fun p => up j p && nodes[p]?.any fun m => m.left == some j || m.right == some j) &&
        n.left.all (fun k => nodes[k]?.any fun m => m.parent == some j) &&
        n.right.all (fun k => nodes[k]?.any fun m => m.parent == some j) && (n.left.isNone || n.left != n.right) &&
        (!n.leaf || nodesAll nodes fun i m => !m.leaf || n.sym != m.sym || j == i)

theorem rooted_of_check {nodes : List Node} {root : Nat} {up : Nat → Nat → Bool} (h : rootedCheck nodes root up = true) :
    Rooted nodes root fun j p => up j p = true := by
  simp only [rootedCheck, Bool.and_eq_true, decide_eq_true_eq] at h
  obtain ⟨hr, h⟩ := h
  have key : ∀ (j : Nat) (n : Node), nodes[j]? = some n → _ := fun j n hj => nodesAll_get h hj
  simp only [Bool.and_eq_true, Bool.or_eq_true, beq_iff_eq, Bool.not_eq_true', Option.isNone_iff_eq_none,
    bne_iff_ne] at key
  exact {
    rootLt := hr
    onlyRoot := fun j n hj => by
      have := (key j n hj).1.1.1.1.1.1.1
      cases hp : n.parent <;> simp_all
    leafBare := fun n hn hl => by
      obtain ⟨j, hj⟩ := List.mem_iff_getElem?.1 hn
      simpa [hl] using (key j n hj).1.1.1.1.1.1.2
    internalSym := fun n hn hl => by
      obtain ⟨j, hj⟩ := List.mem_iff_getElem?.1 hn
      simpa [hl] using (key j n hj).1.1.1.1.1.2
    parentNames := fun j p n hj hp => by
      have := (key j n hj).1.1.1.1.2
      rw [hp] at this
      simp only [Option.all_some, Bool.and_eq_true, Option.any_eq_true, Bool.or_eq_true, beq_iff_eq] at this
      exact this.2
    childNames := fun p k m hp hk => by
      rcases hk with hk | hk
      · have := (key p m hp).1.1.1.2
        rw [hk] at this
        simpa only [Option.all_some, Option.any_eq_true, beq_iff_eq] using this
      · have := (key p m hp).1.1.2
        rw [hk] at this
        simpa only [Option.all_some, Option.any_eq_true, beq_iff_eq] using this
    twoChildren := fun n hn k hl hr => by
      obtain ⟨j, hj⟩ := List.mem_iff_getElem?.1 hn
      rcases (key j n hj).1.2 with h | h
      · simp [h] at hl
      · exact h (hl.trans hr.symm)
    symOnce := fun i j n m hi hj hl hl' hs => by
      rcases (key i n hi).2 with h | h
      · simp [h] at hl
      · have := nodesAll_get h hj
        simpa [hl', hs] using this
    order := fun j p n hj hp => by
      have := (key j n hj).1.1.1.1.2
      rw [hp] at this
      simp only [Option.all_some, Bool.and_eq_true] at this
      exact this.1 }

/-- Whether the leaves stand in ascending symbol order. -/
def ascendCheck (nodes : List Node) : Bool :=
  nodesAll nodes fun i n => nodesAll nodes fun j m =>
    !decide (i < j) || !n.leaf || !m.leaf || decide (n.sym.toNat < m.sym.toNat)

theorem ascend_of_check {nodes : List Node} (h : ascendCheck nodes = true) : leavesAscend nodes :=
  fun i j n m hij hi hj hl hl' => by
    have := nodesAll_get (nodesAll_get h hi) hj
    simpa [hij, hl, hl'] using this

/-- The shape of an arena built from data on one state. -/
def dataCheck (s : State) : Bool :=
  (s.nodes.isEmpty && s.root.isNone) ||
    (s.root == some (s.nodes.length - 1) && decide (s.nodes.length ≤ 511) &&
      rootedCheck s.nodes (s.nodes.length - 1) (fun j p => decide (j < p)) && ascendCheck s.nodes &&
      s.nodes.all fun n => n.leaf || (n.left.isSome && (n.right.isSome || decide (s.nodes.length = 2)) &&
        decide (n.weight.toNat = linkWeight s.nodes n.left + linkWeight s.nodes n.right)))

/-- The shape of the arena on one state. -/
def arenaCheck (s : State) : Bool :=
  match s.tstate with
  | .empty => s.nodes.isEmpty && s.root.isNone
  | .leaves =>
    s.root.isNone && decide (s.nodes.length ≤ 256) && ascendCheck s.nodes &&
      s.nodes.all fun n => n.leaf && n.left.isNone && n.right.isNone && n.parent.isNone
  | .tree => dataCheck s
  | .coded => dataCheck s
  | .dict =>
    (s.nodes.isEmpty && s.root.isNone) ||
      (s.root == some 0 && decide (s.nodes.length ≤ 8193) && rootedCheck s.nodes 0 (fun j p => decide (p < j)) &&
        s.nodes.all fun n => n.weight == 0)

theorem arena_of_check {s : State} (h : arenaCheck s = true) : Arena s := by
  constructor
  · intro ht
    simpa [arenaCheck, ht] using h
  · intro ht
    simp only [arenaCheck, ht, Bool.and_eq_true, Option.isNone_iff_eq_none, decide_eq_true_eq, List.all_eq_true] at h
    exact ⟨h.1.1.1, h.1.1.2, ascend_of_check h.1.2, fun n hn => by
      have := h.2 n hn
      exact ⟨this.1.1.1, this.1.1.2, this.1.2, this.2⟩⟩
  · intro ht
    have h' : dataCheck s = true := by
      rcases ht with ht | ht <;> simpa only [arenaCheck, ht] using h
    simp only [dataCheck, Bool.or_eq_true] at h'
    refine h'.imp (fun h => by simpa using h) fun h => ?_
    simp only [Bool.and_eq_true, Bool.or_eq_true, beq_iff_eq, decide_eq_true_eq, List.all_eq_true] at h
    refine ⟨h.1.1.1.1, h.1.1.1.2, ?_, ascend_of_check h.1.2, fun n hn hl => ?_⟩
    · simpa using rooted_of_check h.1.1.2
    · have := h.2 n hn
      simp only [hl, Bool.false_eq_true, false_or] at this
      exact ⟨this.1.1, this.1.2, this.2⟩
  · intro ht
    simp only [arenaCheck, ht, Bool.or_eq_true] at h
    refine h.imp (fun h => by simpa using h) fun h => ?_
    simp only [Bool.and_eq_true, beq_iff_eq, decide_eq_true_eq, List.all_eq_true] at h
    exact ⟨h.1.1.1, h.1.1.2, by simpa using rooted_of_check h.1.2, h.2⟩

end Sys2Proof.Machine
end

