-- ==== Sys2Proof/Laws/Cursor.lean ====
section
/-! SUPPORT. The input bit cursor as a stream: where it stands after n advances, which bit it shows, and when it has ended
(45_bit_cursors.md R290, R297). -/

namespace Sys2Proof.Machine

/-- What IbcLoad leaves (45_bit_cursors.md R290). -/
theorem State.ibcLoad_eq (s : State) (p : Nat) :
    (p < s.inLen.toNat ∧ s.ibcLoad p = ⟨false, BitVec.ofNat 32 p, 0, s.inByte p⟩) ∨
    (s.inLen.toNat ≤ p ∧ s.ibcLoad p = ⟨true, s.inLen, 0, 0⟩) := by
  unfold State.ibcLoad
  split
  · exact .inl ⟨‹_›, rfl⟩
  · exact .inr ⟨by omega, rfl⟩

theorem bit_succ (n : Nat) : BitVec.ofNat 3 (n + 1) = BitVec.ofNat 3 n + 1 := BitVec.ofNat_add _ _

/-- Within the latched byte only BIT moves. -/
theorem State.streamAt_latched {s : State} {n : Nat} (h : s.ibc.bit.toNat + n < 8) :
    s.streamAt n = { s.ibc with bit := BitVec.ofNat 3 (s.ibc.bit.toNat + n) } := by
  unfold State.streamAt
  split
  · subst n; simp
  · rfl

/-- From the next byte on the cursor stands in IN, or at the end. -/
theorem State.streamAt_loaded {s : State} {n : Nat} (h : 8 ≤ s.ibc.bit.toNat + n) :
    s.streamAt n =
      if s.ibc.pos.toNat + (s.ibc.bit.toNat + n) / 8 < s.inLen.toNat then
        ⟨false, BitVec.ofNat 32 (s.ibc.pos.toNat + (s.ibc.bit.toNat + n) / 8), BitVec.ofNat 3 ((s.ibc.bit.toNat + n) % 8),
          s.inByte (s.ibc.pos.toNat + (s.ibc.bit.toNat + n) / 8)⟩
      else ⟨true, s.inLen, 0, 0⟩ := by
  have := s.ibc.bit.isLt
  unfold State.streamAt
  rw [if_neg (by omega), if_neg (by omega)]

theorem State.streamAt_zero (s : State) : s.streamAt 0 = s.ibc := by simp [State.streamAt]

/-- While bits are left the cursor is not at its end. -/
theorem State.streamAt_on {s : State} {n : Nat} (h : n < s.streamLeft) : (s.streamAt n).ended = false := by
  have := s.ibc.bit.isLt
  unfold State.streamLeft at h
  split at h
  · omega
  rename_i he
  by_cases hl : s.ibc.bit.toNat + n < 8
  · rw [State.streamAt_latched hl]; simpa using he
  · rw [State.streamAt_loaded (by omega), if_pos (by split at h <;> omega)]

/-- When none is left it is. -/
theorem State.streamAt_left {s : State} : (s.streamAt s.streamLeft).ended = true := by
  have := s.ibc.bit.isLt
  by_cases he : s.ibc.ended = true
  · simp [State.streamLeft, he, State.streamAt_zero]
  · have hl : s.streamLeft = if s.ibc.pos.toNat < s.inLen.toNat then
        8 * (s.inLen.toNat - s.ibc.pos.toNat) - s.ibc.bit.toNat else 8 - s.ibc.bit.toNat := by
      simp [State.streamLeft, he]
    rw [State.streamAt_loaded (by rw [hl]; split <;> omega), if_neg (by rw [hl]; split <;> omega)]

/-- The bit the cursor shows after n advances is the n-th bit of the stream. -/
theorem State.streamAt_current {s : State} {n : Nat} (h : n < s.streamLeft) :
    (s.streamAt n).current = s.streamBit n := by
  have := s.ibc.bit.isLt
  unfold State.streamLeft at h
  split at h
  · omega
  by_cases hl : s.ibc.bit.toNat + n < 8
  · rw [State.streamAt_latched hl]
    simp only [Ibc.current, State.streamBit, if_pos hl, BitVec.toNat_ofNat, show (2 : Nat) ^ 3 = 8 from rfl,
      Nat.mod_eq_of_lt hl]
  · rw [State.streamAt_loaded (by omega), if_pos (by split at h <;> omega)]
    simp only [Ibc.current, State.streamBit, if_neg hl, BitVec.toNat_ofNat, show (2 : Nat) ^ 3 = 8 from rfl, Nat.mod_mod]

/-- One advance is one bit on. -/
theorem State.ibcAdvance_streamAt {s : State} {n : Nat} (h : n < s.streamLeft) :
    s.ibcAdvance (s.streamAt n) = s.streamAt (n + 1) := by
  have hb := s.ibc.bit.isLt
  have hi := s.inLen.isLt
  unfold State.streamLeft at h
  split at h
  · omega
  by_cases hl : s.ibc.bit.toNat + n < 8
  · rw [State.streamAt_latched hl]
    simp only [State.ibcAdvance, BitVec.toNat_ofNat, show (2 : Nat) ^ 3 = 8 from rfl, Nat.mod_eq_of_lt hl]
    by_cases h7 : s.ibc.bit.toNat + n < 7
    · rw [if_pos h7, State.streamAt_latched (by omega), ← Nat.add_assoc, bit_succ]
    · rw [if_neg h7, State.streamAt_loaded (by omega), State.ibcLoad,
        show (s.ibc.bit.toNat + (n + 1)) / 8 = 1 by omega, show (s.ibc.bit.toNat + (n + 1)) % 8 = 0 by omega]
      rfl
  · rw [State.streamAt_loaded (by omega), if_pos (by split at h <;> omega)]
    simp only [State.ibcAdvance, BitVec.toNat_ofNat, show (2 : Nat) ^ 3 = 8 from rfl, Nat.mod_mod]
    have hp : s.ibc.pos.toNat + (s.ibc.bit.toNat + n) / 8 < s.inLen.toNat := by split at h <;> omega
    rw [State.streamAt_loaded (by omega)]
    by_cases h7 : (s.ibc.bit.toNat + n) % 8 < 7
    · rw [if_pos h7, show (s.ibc.bit.toNat + (n + 1)) / 8 = (s.ibc.bit.toNat + n) / 8 by omega, if_pos hp,
        show (s.ibc.bit.toNat + (n + 1)) % 8 = (s.ibc.bit.toNat + n) % 8 + 1 by omega, bit_succ]
    · rw [if_neg h7, Nat.mod_eq_of_lt (by omega), State.ibcLoad,
        show (s.ibc.bit.toNat + (n + 1)) / 8 = (s.ibc.bit.toNat + n) / 8 + 1 by omega,
        show (s.ibc.bit.toNat + (n + 1)) % 8 = 0 by omega, Nat.add_assoc]
      rfl

/-- What n bits read through a cursor are, and where it stands after them (46_codec.md R343). -/
theorem State.readBits_streamAt {s : State} {n k : Nat} (h : k + n ≤ s.streamLeft) :
    s.readBits n (s.streamAt k) = ((List.range' k n).map s.streamBit, s.streamAt (k + n)) := by
  induction n generalizing k with
  | zero => rfl
  | succ n ih =>
    simp only [State.readBits, State.ibcAdvance_streamAt (show k < s.streamLeft by omega),
      State.streamAt_current (show k < s.streamLeft by omega), ih (show k + 1 + n ≤ s.streamLeft by omega),
      List.range'_succ, List.map_cons]
    rw [show k + 1 + n = k + (n + 1) by omega]

end Sys2Proof.Machine
end

