-- ==== Sys2Proof/Laws/Decode.lean ====
section
/-! SUPPORT. The fields of an encoded word, and the row of each opcode. -/

namespace Sys2Proof

@[simp] theorem regOf_regBits (r : Fin 16) : regOf (regBits r) = r := by
  ext
  simp only [regOf, regBits, BitVec.toNat_ofNat]
  omega

@[simp] theorem regBits_regOf (b : BitVec 4) : regBits (regOf b) = b := by
  simp [regOf, regBits]

/-- A field wholly in the high part of an append. -/
theorem extract_append_high {m n : Nat} (x : BitVec m) (y : BitVec n) (start len : Nat) (h : n ≤ start) :
    (x ++ y).extractLsb' start len = x.extractLsb' (start - n) len := by
  apply BitVec.eq_of_getLsbD_eq
  intro i hi
  simp only [BitVec.getLsbD_extractLsb', BitVec.getLsbD_append, show ¬ start + i < n by omega, if_false,
    show start + i - n = start - n + i by omega]

/-- A field wholly in the low part of an append. -/
theorem extract_append_low {m n : Nat} (x : BitVec m) (y : BitVec n) (start len : Nat) (h : start + len ≤ n) :
    (x ++ y).extractLsb' start len = y.extractLsb' start len := by
  apply BitVec.eq_of_getLsbD_eq
  intro i hi
  simp only [BitVec.getLsbD_extractLsb', BitVec.getLsbD_append, show start + i < n by omega, if_true]

theorem extract_all {n : Nat} (x : BitVec n) : x.extractLsb' 0 n = x := by simp

/-- Each field of format R's append (30_encoding.md R111). -/
theorem append_fields_R (op : BitVec 8) (a b c d e : BitVec 4) (v : Bool) :
    (op ++ a ++ b ++ c ++ d ++ e ++ 0#3 ++ BitVec.ofBool v).extractLsb' 24 8 = op ∧
    (op ++ a ++ b ++ c ++ d ++ e ++ 0#3 ++ BitVec.ofBool v).extractLsb' 20 4 = a ∧
    (op ++ a ++ b ++ c ++ d ++ e ++ 0#3 ++ BitVec.ofBool v).extractLsb' 16 4 = b ∧
    (op ++ a ++ b ++ c ++ d ++ e ++ 0#3 ++ BitVec.ofBool v).extractLsb' 12 4 = c ∧
    (op ++ a ++ b ++ c ++ d ++ e ++ 0#3 ++ BitVec.ofBool v).extractLsb' 8 4 = d ∧
    (op ++ a ++ b ++ c ++ d ++ e ++ 0#3 ++ BitVec.ofBool v).extractLsb' 4 4 = e ∧
    (op ++ a ++ b ++ c ++ d ++ e ++ 0#3 ++ BitVec.ofBool v).extractLsb' 1 3 = 0 ∧
    (op ++ a ++ b ++ c ++ d ++ e ++ 0#3 ++ BitVec.ofBool v).getLsbD 0 = v := by
  refine ⟨?_, ?_, ?_, ?_, ?_, ?_, ?_, ?_⟩
  case refine_8 => rw [BitVec.getLsbD_append]; cases v <;> rfl
  all_goals
    simp (disch := omega) only [extract_append_high, extract_append_low, Nat.reduceSub, extract_all]
  rfl

/-- Each field of format I's append (30_encoding.md R112). -/
theorem append_fields_I (op : BitVec 8) (a : BitVec 4) (imm : BitVec 16) :
    (op ++ a ++ 0#4 ++ imm).extractLsb' 24 8 = op ∧ (op ++ a ++ 0#4 ++ imm).extractLsb' 20 4 = a ∧
    (op ++ a ++ 0#4 ++ imm).extractLsb' 16 4 = 0 ∧ (op ++ a ++ 0#4 ++ imm).extractLsb' 0 16 = imm := by
  refine ⟨?_, ?_, ?_, ?_⟩
  all_goals
    simp (disch := omega) only [extract_append_high, extract_append_low, Nat.reduceSub, extract_all]
  rfl

/-- The fields of a format R word are the ones it was made of (30_encoding.md R111, R121). -/
theorem fieldsOf_encodeR (op : BitVec 8) (a b c d e : BitVec 4) (v : Bool) :
    fieldsOf (encodeR op a b c d e v) =
      { op, a, b, c, d, e, rsv := 0, v, imm16 := (fieldsOf (encodeR op a b c d e v)).imm16 } := by
  obtain ⟨h1, h2, h3, h4, h5, h6, h7, h8⟩ := append_fields_R op a b c d e v
  exact Fields.mk.injEq .. ▸ ⟨h1, h2, h3, h4, h5, h6, h7, h8, rfl⟩

/-- The fields of a format I word (30_encoding.md R112, R121). -/
theorem fieldsOf_encodeI (op : BitVec 8) (a : BitVec 4) (imm : BitVec 16) :
    (fieldsOf (encodeI op a imm)).op = op ∧ (fieldsOf (encodeI op a imm)).a = a ∧ (fieldsOf (encodeI op a imm)).b = 0 ∧
      (fieldsOf (encodeI op a imm)).imm16 = imm := append_fields_I op a imm

end Sys2Proof
end

