-- ==== Sys2Proof/Laws/Ends.lean ====
section
/-! SUPPORT. How a command can end: what a next state of `precise` and `imprecise` is. -/

namespace Sys2Proof.Machine

@[simp] theorem State.precise_ok (s t : State) : s.precise (.ok t) = .next t.complete := rfl

@[simp] theorem State.precise_raise (s : State) (r : Raise) : s.precise (raise r) = .next (s.takeFault r) := rfl

@[simp] theorem State.precise_error_raise (s : State) (r : Raise) :
    s.precise (.error (.raise r)) = .next (s.takeFault r) := rfl

@[simp] theorem State.precise_stuck (s : State) (f : Fault) : s.precise (.error (.stuck f)) = .fault f := rfl

@[simp] theorem State.imprecise_ok (s t : State) : s.imprecise (.ok t) = .next t.complete := rfl

@[simp] theorem State.imprecise_raise (s : State) (r : Raise) : s.imprecise (raise r) = .next (s.takeFault r) := rfl

@[simp] theorem State.imprecise_error_raise (s : State) (r : Raise) :
    s.imprecise (.error (.raise r)) = .next (s.takeFault r) := rfl

/-- A precise command ends in its completed result, or in the fault entry from the state before it. -/
theorem State.precise_next {s t : State} {result : Except Stop State} (h : s.precise result = .next t) :
    (∃ u, result = .ok u ∧ t = u.complete) ∨ (∃ r, result = .error (.raise r) ∧ t = s.takeFault r) := by
  match result, h with
  | .ok u, h => exact .inl ⟨u, rfl, by simpa using h.symm⟩
  | .error (.raise r), h => exact .inr ⟨r, rfl, by simpa using h.symm⟩

/-- A codec command past its valid-bit checks ends in its completed result, or in the fault entry from the failure state. -/
theorem State.imprecise_next {s t : State} {result : Except Stop State} (h : s.imprecise result = .next t) :
    (∃ u, result = .ok u ∧ t = u.complete) ∨ (∃ r, result = .error (.raise r) ∧ t = s.takeFault r) := by
  match result, h with
  | .ok u, h => exact .inl ⟨u, rfl, by simpa using h.symm⟩
  | .error (.raise r), h => exact .inr ⟨r, rfl, by simpa using h.symm⟩

end Sys2Proof.Machine
end

