-- ==== Sys2Proof/Laws/Operands.lean ====
section
/-! SUPPORT. What the shared range checks answer: the input window, and the room left in OUT. -/

namespace Sys2Proof.Machine

theorem State.operand_lt (s : State) (i : XReg) : s.operand i < 2 ^ 32 := (s.getX i).isLt

/-- What a window of the input can be: its position outside IN_LEN, its length outside the rest, or its bytes
(44_huffman_tree.md R250, R265). -/
theorem State.window_eq (s : State) (p n : Nat) :
    (s.inLen.toNat < p ∧ s.window p n = raise (.outOfRange p)) ∨
    (p ≤ s.inLen.toNat ∧ s.inLen.toNat < p + n ∧ s.window p n = raise (.outOfRange n)) ∨
    (p + n ≤ s.inLen.toNat ∧ s.window p n = .ok (s.inBytes p n)) := by
  unfold State.window
  split
  · exact .inl ⟨‹_›, rfl⟩
  · split
    · exact .inr (.inl ⟨by omega, by omega, rfl⟩)
    · exact .inr (.inr ⟨by omega, rfl⟩)

/-- A window that lies in IN[0 .. IN_LEN) is its bytes. -/
theorem State.window_ok {s : State} {p n : Nat} (h : p + n ≤ s.inLen.toNat) : s.window p n = .ok (s.inBytes p n) := by
  rcases s.window_eq p n with h' | h' | h'
  · omega
  · omega
  · exact h'.2

/-- Whether k more bytes fit in OUT (20_memory.md R88). -/
theorem State.room_eq (s : State) (k : Nat) :
    (s.outLen.toNat + k ≤ s.outCap.val ∧ s.room k = .ok ()) ∨
    (s.outCap.val < s.outLen.toNat + k ∧ s.room k = raise (.io 2)) := by
  unfold State.room
  split
  · exact .inr ⟨‹_›, rfl⟩
  · exact .inl ⟨by omega, rfl⟩

@[simp] theorem State.inBytes_length (s : State) (p n : Nat) : (s.inBytes p n).length = n := by simp [State.inBytes]

@[simp] theorem State.outBytes_length (s : State) (p n : Nat) : (s.outBytes p n).length = n := by simp [State.outBytes]

theorem State.inBytes_get? (s : State) {p n k : Nat} (h : k < n) : (s.inBytes p n)[k]? = some (s.inByte (p + k)) := by
  simp [State.inBytes, h]

theorem State.outBytes_get? (s : State) {p n k : Nat} (h : k < n) : (s.outBytes p n)[k]? = some (s.outByte (p + k)) := by
  simp [State.outBytes, h]

/-- The bytes listed from address k on read back. -/
theorem Memory.get?_zip (l : List Byte) (k a : Nat) :
    Memory.get? ((List.range' k l.length).zip l) a = if a < k then none else l[a - k]? := by
  induction l generalizing k with
  | nil => simp [Memory.get?]
  | cons b t ih =>
    simp only [List.length_cons, List.range'_succ, List.zip_cons_cons, Memory.get?, ih]
    rcases Nat.lt_trichotomy a k with h | rfl | h
    · rw [if_neg (by omega), if_pos (by omega), if_pos h]
    · simp
    · rw [if_neg (by omega), if_neg (by omega), if_neg (by omega), show a - k = (a - (k + 1)) + 1 by omega]
      simp

end Sys2Proof.Machine
end

