-- ==== Sys2Proof/Laws/PerInstr.lean ====
section
/-! SUPPORT. The per-instruction families of LAWS.json: one lemma per constructor of Instr, about the instruction as syntax. -/

namespace Sys2Proof.Laws.RowBuilds

/-- The opcode map has a row for the instruction's word, the fields that row does not use are 0 in it, and the row builds
the instruction again (30_encoding.md R114, R116, R121). -/
def Statement (i : Instr) : Prop :=
  ∃ r, rowOf (fieldsOf (encode i)).op = some r ∧ r.unusedZero (fieldsOf (encode i)) = true ∧
    r.build (fieldsOf (encode i)) = i

/-- A format R instruction, from the row its opcode has. -/
theorem of_encodeR {i : Instr} {r : Row} {op : BitVec 8} {a b c d e : BitVec 4} {v : Bool}
    (h : encode i = encodeR op a b c d e v) (hr : rowOf op = some r) (hf : r.fmt = .R)
    (hu : ((r.uses.a || a == 0) && (r.uses.b || b == 0) && (r.uses.c || c == 0) && (r.uses.d || d == 0) &&
      (r.uses.e || e == 0) && (r.uses.v || !v)) = true)
    (hb : ∀ imm, r.build ⟨op, a, b, c, d, e, 0, v, imm⟩ = i) : Statement i := by
  refine ⟨r, ?_, ?_, ?_⟩
  · rw [h, fieldsOf_encodeR]; exact hr
  · rw [h, fieldsOf_encodeR, Row.unusedZero, hf]
    simpa using hu
  · rw [h, fieldsOf_encodeR]; exact hb _

/-- A format I instruction, from the row its opcode has. -/
theorem of_encodeI {i : Instr} {r : Row} {op : BitVec 8} {a : BitVec 4} {imm : BitVec 16}
    (h : encode i = encodeI op a imm) (hr : rowOf op = some r) (hf : r.fmt = .I)
    (hb : ∀ f : Fields, f.a = a → f.imm16 = imm → r.build f = i) : Statement i := by
  obtain ⟨h1, h2, h3, h4⟩ := fieldsOf_encodeI op a imm
  refine ⟨r, ?_, ?_, ?_⟩
  · rw [h, h1]; exact hr
  · rw [h, Row.unusedZero, hf]; simp [h3]
  · rw [h]; exact hb _ h2 h4

theorem nop : Statement (.nop) :=
  of_encodeR rfl rfl rfl (by simp [Uses.first, Row.r]) fun _ => rfl

theorem srst : Statement (.srst) :=
  of_encodeR rfl rfl rfl (by simp [Uses.first, Row.r]) fun _ => rfl

theorem li (a : XReg) (imm : BitVec 16) : Statement (.li a imm) :=
  of_encodeI rfl rfl rfl fun f h1 h2 => by rw [← h2, ← regOf_regBits a, ← h1]; rfl

theorem lui (a : XReg) (imm : BitVec 16) : Statement (.lui a imm) :=
  of_encodeI rfl rfl rfl fun f h1 h2 => by rw [← h2, ← regOf_regBits a, ← h1]; rfl

theorem mov (a : XReg) (b : XReg) : Statement (.mov a b) :=
  of_encodeR rfl rfl rfl (by simp [Uses.first, Row.r]) fun _ => by simp [Row.r]

theorem bget (a : XReg) (b : XReg) (c : XReg) : Statement (.bget a b c) :=
  of_encodeR rfl rfl rfl (by simp [Uses.first, Row.r]) fun _ => by simp [Row.r]

theorem bset (a : XReg) (b : XReg) (c : XReg) (v : Bool) : Statement (.bset a b c v) :=
  of_encodeR rfl rfl rfl (by simp [Uses.first, Row.r]) fun _ => by simp [Row.r]

theorem bins (a : XReg) (b : XReg) (c : XReg) (d : XReg) (v : Bool) : Statement (.bins a b c d v) :=
  of_encodeR rfl rfl rfl (by simp [Uses.first, Row.r]) fun _ => by simp [Row.r]

theorem bera (a : XReg) (b : XReg) (c : XReg) (d : XReg) : Statement (.bera a b c d) :=
  of_encodeR rfl rfl rfl (by simp [Uses.first, Row.r]) fun _ => by simp [Row.r]

theorem bsnew (a : BsReg) (b : XReg) (v : Bool) : Statement (.bsnew a b v) :=
  of_encodeR rfl rfl rfl (by simp [Uses.first, Row.r]) fun _ => by simp [Row.r]

theorem bsfrom (a : BsReg) (b : XReg) (c : XReg) : Statement (.bsfrom a b c) :=
  of_encodeR rfl rfl rfl (by simp [Uses.first, Row.r]) fun _ => by simp [Row.r]

theorem bsmov (a : BsReg) (b : BsReg) : Statement (.bsmov a b) :=
  of_encodeR rfl rfl rfl (by simp [Uses.first, Row.r]) fun _ => by simp [Row.r]

theorem bssize (a : XReg) (b : BsReg) : Statement (.bssize a b) :=
  of_encodeR rfl rfl rfl (by simp [Uses.first, Row.r]) fun _ => by simp [Row.r]

theorem bsempty (a : XReg) (b : BsReg) : Statement (.bsempty a b) :=
  of_encodeR rfl rfl rfl (by simp [Uses.first, Row.r]) fun _ => by simp [Row.r]

theorem bsat (a : XReg) (b : BsReg) (c : XReg) : Statement (.bsat a b c) :=
  of_encodeR rfl rfl rfl (by simp [Uses.first, Row.r]) fun _ => by simp [Row.r]

theorem bsgetu (a : XReg) (b : BsReg) (c : XReg) : Statement (.bsgetu a b c) :=
  of_encodeR rfl rfl rfl (by simp [Uses.first, Row.r]) fun _ => by simp [Row.r]

theorem bssetat (a : BsReg) (b : XReg) (v : Bool) : Statement (.bssetat a b v) :=
  of_encodeR rfl rfl rfl (by simp [Uses.first, Row.r]) fun _ => by simp [Row.r]

theorem bssetu (a : BsReg) (b : XReg) (v : Bool) : Statement (.bssetu a b v) :=
  of_encodeR rfl rfl rfl (by simp [Uses.first, Row.r]) fun _ => by simp [Row.r]

theorem bsins (a : BsReg) (b : XReg) (c : XReg) (v : Bool) : Statement (.bsins a b c v) :=
  of_encodeR rfl rfl rfl (by simp [Uses.first, Row.r]) fun _ => by simp [Row.r]

theorem bsins1 (a : BsReg) (b : XReg) (v : Bool) : Statement (.bsins1 a b v) :=
  of_encodeR rfl rfl rfl (by simp [Uses.first, Row.r]) fun _ => by simp [Row.r]

theorem bsinsr (a : BsReg) (b : XReg) (c : BsReg) (d : XReg) (e : XReg) : Statement (.bsinsr a b c d e) :=
  of_encodeR rfl rfl rfl (by simp [Uses.first, Row.r]) fun _ => by simp [Row.r]

theorem bsera (a : BsReg) (b : XReg) (c : XReg) : Statement (.bsera a b c) :=
  of_encodeR rfl rfl rfl (by simp [Uses.first, Row.r]) fun _ => by simp [Row.r]

theorem bsera1 (a : BsReg) (b : XReg) : Statement (.bsera1 a b) :=
  of_encodeR rfl rfl rfl (by simp [Uses.first, Row.r]) fun _ => by simp [Row.r]

theorem bspush (a : BsReg) (v : Bool) : Statement (.bspush a v) :=
  of_encodeR rfl rfl rfl (by simp [Uses.first, Row.r]) fun _ => by simp [Row.r]

theorem bspop (a : BsReg) : Statement (.bspop a) :=
  of_encodeR rfl rfl rfl (by simp [Uses.first, Row.r]) fun _ => by simp [Row.r]

theorem bsresize (a : BsReg) (b : XReg) (v : Bool) : Statement (.bsresize a b v) :=
  of_encodeR rfl rfl rfl (by simp [Uses.first, Row.r]) fun _ => by simp [Row.r]

theorem bsclr (a : BsReg) : Statement (.bsclr a) :=
  of_encodeR rfl rfl rfl (by simp [Uses.first, Row.r]) fun _ => by simp [Row.r]

theorem bsfront (a : XReg) (b : BsReg) : Statement (.bsfront a b) :=
  of_encodeR rfl rfl rfl (by simp [Uses.first, Row.r]) fun _ => by simp [Row.r]

theorem bsback (a : XReg) (b : BsReg) : Statement (.bsback a b) :=
  of_encodeR rfl rfl rfl (by simp [Uses.first, Row.r]) fun _ => by simp [Row.r]

theorem bsword (a : XReg) (b : BsReg) : Statement (.bsword a b) :=
  of_encodeR rfl rfl rfl (by simp [Uses.first, Row.r]) fun _ => by simp [Row.r]

theorem pqpush (a : XReg) (b : XReg) : Statement (.pqpush a b) :=
  of_encodeR rfl rfl rfl (by simp [Uses.first, Row.r]) fun _ => by simp [Row.r]

theorem pqpop : Statement (.pqpop) :=
  of_encodeR rfl rfl rfl (by simp [Uses.first, Row.r]) fun _ => rfl

theorem pqtop (a : XReg) (b : XReg) : Statement (.pqtop a b) :=
  of_encodeR rfl rfl rfl (by simp [Uses.first, Row.r]) fun _ => by simp [Row.r]

theorem pqback (a : XReg) (b : XReg) : Statement (.pqback a b) :=
  of_encodeR rfl rfl rfl (by simp [Uses.first, Row.r]) fun _ => by simp [Row.r]

theorem pqat (a : XReg) (b : XReg) (c : XReg) : Statement (.pqat a b c) :=
  of_encodeR rfl rfl rfl (by simp [Uses.first, Row.r]) fun _ => by simp [Row.r]

theorem pqsize (a : XReg) : Statement (.pqsize a) :=
  of_encodeR rfl rfl rfl (by simp [Uses.first, Row.r]) fun _ => by simp [Row.r]

theorem pqclr : Statement (.pqclr) :=
  of_encodeR rfl rfl rfl (by simp [Uses.first, Row.r]) fun _ => rfl

theorem fqwr (a : XReg) (b : XReg) : Statement (.fqwr a b) :=
  of_encodeR rfl rfl rfl (by simp [Uses.first, Row.r]) fun _ => by simp [Row.r]

theorem fqrd (a : XReg) (b : XReg) : Statement (.fqrd a b) :=
  of_encodeR rfl rfl rfl (by simp [Uses.first, Row.r]) fun _ => by simp [Row.r]

theorem fqclr : Statement (.fqclr) :=
  of_encodeR rfl rfl rfl (by simp [Uses.first, Row.r]) fun _ => rfl

theorem ctwr (a : XReg) (b : BsReg) : Statement (.ctwr a b) :=
  of_encodeR rfl rfl rfl (by simp [Uses.first, Row.r]) fun _ => by simp [Row.r]

theorem ctrd (a : BsReg) (b : XReg) : Statement (.ctrd a b) :=
  of_encodeR rfl rfl rfl (by simp [Uses.first, Row.r]) fun _ => by simp [Row.r]

theorem ctclr : Statement (.ctclr) :=
  of_encodeR rfl rfl rfl (by simp [Uses.first, Row.r]) fun _ => rfl

theorem htfreq (a : XReg) (b : XReg) : Statement (.htfreq a b) :=
  of_encodeR rfl rfl rfl (by simp [Uses.first, Row.r]) fun _ => by simp [Row.r]

theorem htfill : Statement (.htfill) :=
  of_encodeR rfl rfl rfl (by simp [Uses.first, Row.r]) fun _ => rfl

theorem htbuild : Statement (.htbuild) :=
  of_encodeR rfl rfl rfl (by simp [Uses.first, Row.r]) fun _ => rfl

theorem htdict : Statement (.htdict) :=
  of_encodeR rfl rfl rfl (by simp [Uses.first, Row.r]) fun _ => rfl

theorem htsetdata (a : XReg) (b : XReg) : Statement (.htsetdata a b) :=
  of_encodeR rfl rfl rfl (by simp [Uses.first, Row.r]) fun _ => by simp [Row.r]

theorem htsetdict : Statement (.htsetdict) :=
  of_encodeR rfl rfl rfl (by simp [Uses.first, Row.r]) fun _ => rfl

theorem htenc (a : XReg) (b : XReg) : Statement (.htenc a b) :=
  of_encodeR rfl rfl rfl (by simp [Uses.first, Row.r]) fun _ => by simp [Row.r]

theorem htdec (a : XReg) : Statement (.htdec a) :=
  of_encodeR rfl rfl rfl (by simp [Uses.first, Row.r]) fun _ => by simp [Row.r]

theorem htroot (a : XReg) : Statement (.htroot a) :=
  of_encodeR rfl rfl rfl (by simp [Uses.first, Row.r]) fun _ => by simp [Row.r]

theorem htncnt (a : XReg) : Statement (.htncnt a) :=
  of_encodeR rfl rfl rfl (by simp [Uses.first, Row.r]) fun _ => by simp [Row.r]

theorem ndrd (a : XReg) (b : XReg) (d : BitVec 4) : Statement (.ndrd a b d) :=
  of_encodeR rfl rfl rfl (by simp [Row.r]) fun _ => by simp [Row.r]

theorem ibinit (a : XReg) : Statement (.ibinit a) :=
  of_encodeR rfl rfl rfl (by simp [Uses.first, Row.r]) fun _ => by simp [Row.r]

theorem ibread (a : XReg) : Statement (.ibread a) :=
  of_encodeR rfl rfl rfl (by simp [Uses.first, Row.r]) fun _ => by simp [Row.r]

theorem ibnext : Statement (.ibnext) :=
  of_encodeR rfl rfl rfl (by simp [Uses.first, Row.r]) fun _ => rfl

theorem iblast (a : XReg) : Statement (.iblast a) :=
  of_encodeR rfl rfl rfl (by simp [Uses.first, Row.r]) fun _ => by simp [Row.r]

theorem ibend (a : XReg) : Statement (.ibend a) :=
  of_encodeR rfl rfl rfl (by simp [Uses.first, Row.r]) fun _ => by simp [Row.r]

theorem ibpos (a : XReg) : Statement (.ibpos a) :=
  of_encodeR rfl rfl rfl (by simp [Uses.first, Row.r]) fun _ => by simp [Row.r]

theorem obinit : Statement (.obinit) :=
  of_encodeR rfl rfl rfl (by simp [Uses.first, Row.r]) fun _ => rfl

theorem obput (v : Bool) : Statement (.obput v) :=
  of_encodeR rfl rfl rfl (by simp [Uses.first, Row.r]) fun _ => rfl

theorem obputx (a : XReg) : Statement (.obputx a) :=
  of_encodeR rfl rfl rfl (by simp [Uses.first, Row.r]) fun _ => by simp [Row.r]

theorem obflush (a : XReg) : Statement (.obflush a) :=
  of_encodeR rfl rfl rfl (by simp [Uses.first, Row.r]) fun _ => by simp [Row.r]

theorem obcnt (a : XReg) : Statement (.obcnt a) :=
  of_encodeR rfl rfl rfl (by simp [Uses.first, Row.r]) fun _ => by simp [Row.r]

theorem compress : Statement (.compress) :=
  of_encodeR rfl rfl rfl (by simp [Uses.first, Row.r]) fun _ => rfl

theorem decompress : Statement (.decompress) :=
  of_encodeR rfl rfl rfl (by simp [Uses.first, Row.r]) fun _ => rfl

end Sys2Proof.Laws.RowBuilds
end

