-- ==== Sys2Proof/Laws/Queue.lean ====
section
/-! SUPPORT. Insertion at upper_bound (43_priority_queue.md R221): length, members, order. -/

namespace Sys2Proof.Machine

@[simp] theorem pqInsert_length (q : List PqEntry) (n : PqEntry) : (pqInsert q n).length = q.length + 1 := by
  induction q with
  | nil => rfl
  | cons h t ih => simp only [pqInsert]; split <;> simp_all

theorem pqInsert_perm (q : List PqEntry) (n : PqEntry) : (pqInsert q n).Perm (n :: q) := by
  induction q with
  | nil => exact List.Perm.refl _
  | cons h t ih =>
    simp only [pqInsert]
    split
    · exact List.Perm.refl _
    · exact (List.Perm.cons h ih).trans (List.Perm.swap n h t)

theorem mem_pqInsert {q : List PqEntry} {n e : PqEntry} : e ∈ pqInsert q n ↔ e = n ∨ e ∈ q := by
  rw [(pqInsert_perm q n).mem_iff, List.mem_cons]

/-- Insertion keeps the order (43_priority_queue.md R222). -/
theorem pqInsert_sorted {q : List PqEntry} (n : PqEntry) (h : pqSorted q) : pqSorted (pqInsert q n) := by
  induction q with
  | nil => simp [pqInsert, pqSorted]
  | cons e t ih =>
    have he : ∀ f ∈ t, e.key.toNat ≤ f.key.toNat := (List.pairwise_cons.1 h).1
    simp only [pqInsert]
    split
    next hlt =>
      rw [BitVec.lt_def] at hlt
      refine List.pairwise_cons.2 ⟨fun f hf => ?_, h⟩
      rcases List.mem_cons.1 hf with rfl | hf
      · omega
      · have := he f hf; omega
    next hge =>
      rw [BitVec.lt_def] at hge
      refine List.pairwise_cons.2 ⟨fun f hf => ?_, ih (List.pairwise_cons.1 h).2⟩
      rcases mem_pqInsert.1 hf with rfl | hf
      · omega
      · exact he f hf

end Sys2Proof.Machine
end

