-- ==== Sys2Proof/Laws/Registers.lean ====
section
/-! SUPPORT. Reading a register or a table entry after a write. -/

namespace Sys2Proof.Machine

theorem State.getX_setX (s : State) (i r : XReg) (v : Word) :
    (s.setX i v).getX r = if i = r then v else s.getX r := by
  simp only [State.getX, State.setX, Fin.getElem_fin, Vector.getElem_set, Fin.ext_iff]

@[simp] theorem State.getX_setX_same (s : State) (i : XReg) (v : Word) : (s.setX i v).getX i = v := by
  simp [State.getX_setX]

theorem State.getBs_setBs (s : State) (j r : BsReg) (v : Bits) :
    (s.setBs j v).getBs r = if j = r then v else s.getBs r := by
  simp only [State.getBs, State.setBs, Fin.getElem_fin, Vector.getElem_set, Fin.ext_iff]

@[simp] theorem State.getBs_setBs_same (s : State) (j : BsReg) (v : Bits) : (s.setBs j v).getBs j = v := by
  simp [State.getBs_setBs]

theorem entry_setEntry {α : Type} (t : Vector α 256) (c d : Byte) (v : α) :
    entry (setEntry t c v) d = if c = d then v else entry t d := by
  simp only [entry, setEntry, Vector.getElem_set, BitVec.toNat_inj]

@[simp] theorem entry_replicate {α : Type} (v : α) (c : Byte) : entry (Vector.replicate 256 v) c = v := by
  simp [entry]

/-- Two tables with the same entries are the same table. -/
theorem entry_ext {α : Type} {t u : Vector α 256} (h : ∀ c, entry t c = entry u c) : t = u := by
  apply Vector.ext
  intro i hi
  have := h (BitVec.ofNat 8 i)
  simpa [entry, Nat.mod_eq_of_lt hi] using this

theorem mem_symbols (c : Byte) : c ∈ symbols :=
  List.mem_map.2 ⟨c.toNat, List.mem_range.2 c.isLt, by simp⟩

/-- The symbols are listed in ascending order, each once. -/
theorem symbols_sorted : symbols.Pairwise (fun c d => c.toNat < d.toNat) := by
  refine List.pairwise_map.2 (List.Pairwise.imp_of_mem ?_ (List.pairwise_lt_range (n := 256)))
  intro a b ha hb hab
  have := List.mem_range.1 ha
  have := List.mem_range.1 hb
  simp only [BitVec.toNat_ofNat]
  omega

/-- The entries of a table, symbol by symbol. -/
theorem entries_eq {α : Type} (t : Vector α 256) : entries t = symbols.map fun c => (c, entry t c) := by
  refine List.ext_getElem (by simp [entries, symbols]) fun i h1 h2 => ?_
  have hi : i < 256 := by simpa [symbols] using h2
  simp [entries, symbols, entry, Nat.mod_eq_of_lt hi]

/-- What a symbol operand can be. -/
theorem State.symbol_eq (s : State) (i : XReg) :
    (255 < s.operand i ∧ s.symbol i = raise (.outOfRange (s.operand i))) ∨
    (∃ c : Byte, c.toNat = s.operand i ∧ s.symbol i = .ok c) := by
  unfold State.symbol
  split
  · exact .inl ⟨‹_›, rfl⟩
  · refine .inr ⟨_, ?_, rfl⟩
    simp only [BitVec.toNat_ofNat]
    omega

end Sys2Proof.Machine
end

