-- ==== Sys2Proof/Laws/Sink.lean ====
section
/-! SUPPORT. The output side as one stream of bits: the bytes of OUT below OUT_LEN, then the bits of OBC (45_bit_cursors.md
R299). A put appends bits to the stream, a flush appends zeros up to a byte boundary. -/

namespace Sys2Proof.Machine

/-- How many bits the output side holds. -/
def Sink.total (k : Sink) : Nat := 8 * k.len.toNat + k.obc.nb.toNat

/-- Bit i of the output side, each byte MSB first. -/
def Sink.bit (k : Sink) (i : Nat) : Bool :=
  if i / 8 < k.len.toNat then (k.win.byte (i / 8)).getLsbD (7 - i % 8) else k.obc.buf.getLsbD (7 - i % 8)

/-- The canonical form of OUT, and the zeros of BUF below its NB bits (10_state.md R57). -/
structure Sink.Good (k : Sink) : Prop where
  wf : k.win.cells.wf
  low : ∀ i, i + k.obc.nb.toNat < 8 → k.obc.buf.getLsbD i = false

/-- `k'` is `k` with bits appended: nothing else of OUT changes. -/
structure Sink.Puts (k : Sink) (bits : Bits) (k' : Sink) : Prop where
  good : k'.Good
  total : k'.total = k.total + bits.length
  bit : ∀ i, i < k'.total → k'.bit i = if i < k.total then k.bit i else bits.getD (i - k.total) false
  above : ∀ a, k'.len.toNat ≤ a → k'.win.byte a = k.win.byte a

theorem Sink.Puts.refl {k : Sink} (h : k.Good) : k.Puts [] k where
  good := h
  total := by simp
  bit := fun i hi => by rw [if_pos hi]
  above := fun _ _ => rfl

theorem Sink.Puts.len_le {k k' : Sink} {l : Bits} (h : k.Puts l k') : k.len.toNat ≤ k'.len.toNat := by
  have := h.total
  have := k'.obc.nb.isLt
  unfold Sink.total at *
  omega

theorem Sink.Puts.trans {k k' k'' : Sink} {l m : Bits} (h : k.Puts l k') (h' : k'.Puts m k'') : k.Puts (l ++ m) k'' where
  good := h'.good
  total := by rw [h'.total, h.total, List.length_append]; omega
  bit := fun i hi => by
    have ht := h.total
    rw [h'.bit i hi]
    split
    · rw [h.bit i ‹_›]
      split
      · rfl
      · rw [List.getD_append _ _ _ _ (by omega)]
    · rw [if_neg (by omega), List.getD_append_right _ _ _ _ (by omega), ht, Nat.sub_add_eq]
  above := fun a ha => by rw [h'.above a ha, h.above a (Nat.le_trans h'.len_le ha)]

theorem Obc.place_bit (o : Obc) (b : Bool) {j : Nat} (hj : j < 8) :
    (o.place b).getLsbD (7 - j) = if j = o.nb.toNat then b else o.buf.getLsbD (7 - j) := by
  have hn := o.nb.isLt
  have h1 (m : Nat) : BitVec.getLsbD (1 : Byte) m = decide (m = 0) := by
    rw [show (1 : Byte) = 1#8 from rfl, BitVec.getLsbD_one]; simp
  have h2 (m : Nat) : ((BitVec.ofBool b).setWidth 8).getLsbD m = (decide (m = 0) && b) := by
    rw [BitVec.getLsbD_setWidth]
    cases b
    · simp
    · rcases m with _ | m <;> simp [BitVec.ofBool]
  simp only [Obc.place, BitVec.getLsbD_or, BitVec.getLsbD_and, BitVec.getLsbD_not, BitVec.getLsbD_shiftLeft, h1, h2,
    show 7 - j < 8 by omega, decide_true, Bool.true_and]
  by_cases h : j = o.nb.toNat
  · simp [h]
  · rcases Nat.lt_or_gt_of_ne h with h' | h'
    · simp [h, show ¬ 7 - j < 7 - o.nb.toNat by omega, show ¬ 7 - j - (7 - o.nb.toNat) = 0 by omega]
    · simp [h, show 7 - j < 7 - o.nb.toNat by omega]

/-- ObcPut appends one bit, or raises IO(2) where it would complete a byte and OUT is full (45_bit_cursors.md R299, R301). -/
theorem obcPut_eq {cap : Nat} (hc : cap < 2 ^ 32) {k : Sink} (hg : k.Good) (b : Bool) :
    ((k.obc.nb ≠ 7 ∨ k.len.toNat < cap) ∧ ∃ k', obcPut cap k b = .ok k' ∧ k.Puts [b] k') ∨
    (k.obc.nb = 7 ∧ cap ≤ k.len.toNat ∧ obcPut cap k b = raise (.io 2)) := by
  by_cases h7 : k.obc.nb = 7
  · by_cases hl : cap ≤ k.len.toNat
    · exact .inr ⟨h7, hl, by simp [obcPut, h7, outAppend, hl, raise]⟩
    refine .inl ⟨.inr (by omega), _, by simp only [obcPut, h7, outAppend, hl, if_true, if_false]; rfl, ?_⟩
    have hn : k.obc.nb.toNat = 7 := by rw [h7]; rfl
    have hlen : (k.len + 1).toNat = k.len.toNat + 1 := by
      rw [BitVec.toNat_add, show (1 : Word).toNat = 1 from rfl, Nat.mod_eq_of_lt (by omega)]
    have hw (a : Nat) := Window.byte_write k.win k.len.toNat a (k.obc.place b) hg.wf
    constructor
    · exact ⟨Window.write_wf _ _ _ hg.wf, fun i _ => by simp [Obc.cleared]⟩
    · simp only [Sink.total, hlen, Obc.cleared, hn, List.length_singleton, show (0 : BitVec 3).toNat = 0 from rfl]
      omega
    · intro i hi
      simp only [Sink.total, hlen, Obc.cleared, show (0 : BitVec 3).toNat = 0 from rfl] at hi
      have htot : k.total = 8 * k.len.toNat + 7 := by rw [Sink.total, hn]
      simp only [Sink.bit, hlen, hw]
      rw [if_pos (show i / 8 < k.len.toNat + 1 by omega)]
      by_cases he : i / 8 = k.len.toNat
      · rw [if_pos he, k.obc.place_bit b (by omega), hn, if_neg (show ¬ i / 8 < k.len.toNat by omega)]
        by_cases h : i % 8 = 7
        · rw [if_pos h, if_neg (by omega), show i - k.total = 0 by omega]; rfl
        · rw [if_neg h, if_pos (by omega)]
      · rw [if_neg he, if_pos (show i / 8 < k.len.toNat by omega), if_pos (by omega)]
    · intro a ha
      rw [hlen] at ha
      rw [hw, if_neg (by omega)]
  · refine .inl ⟨.inl h7, _, by simp only [obcPut, h7, if_false]; rfl, ?_⟩
    have hn8 := k.obc.nb.isLt
    have hn7 : k.obc.nb.toNat ≠ 7 := fun h => h7 (BitVec.eq_of_toNat_eq h)
    have hn : (k.obc.nb + 1).toNat = k.obc.nb.toNat + 1 := by
      rw [BitVec.toNat_add, show (1 : BitVec 3).toNat = 1 from rfl, Nat.mod_eq_of_lt (by omega)]
    constructor
    · refine ⟨hg.wf, fun i hi => ?_⟩
      rw [hn] at hi
      have := k.obc.place_bit b (j := 7 - i) (by omega)
      rw [show 7 - (7 - i) = i by omega, if_neg (by omega)] at this
      rw [this, hg.low i (by omega)]
    · simp only [Sink.total, hn, List.length_singleton]; omega
    · intro i hi
      simp only [Sink.total, hn] at hi
      have htot : k.total = 8 * k.len.toNat + k.obc.nb.toNat := rfl
      simp only [Sink.bit]
      by_cases hb : i / 8 < k.len.toNat
      · rw [if_pos hb, if_pos hb, if_pos (by omega)]
      · rw [if_neg hb, if_neg hb, k.obc.place_bit b (by omega)]
        by_cases h : i % 8 = k.obc.nb.toNat
        · rw [if_pos h, if_neg (by omega), show i - k.total = 0 by omega]; rfl
        · rw [if_neg h, if_pos (by omega)]
    · exact fun _ _ => rfl

/-- ObcPut of a string appends it, or raises IO(2) where its whole bytes do not fit OUT (45_bit_cursors.md R299; 20_memory.md
R88). -/
theorem obcPutBits_eq {cap : Nat} (hc : cap < 2 ^ 32) {k : Sink} (hg : k.Good) (l : Bits) :
    ((k.total + l.length) / 8 ≤ max cap k.len.toNat ∧ ∃ k', obcPutBits cap k l = .ok k' ∧ k.Puts l k') ∨
    (max cap k.len.toNat < (k.total + l.length) / 8 ∧ obcPutBits cap k l = raise (.io 2)) := by
  induction l generalizing k with
  | nil =>
    refine .inl ⟨?_, k, rfl, .refl hg⟩
    have := k.obc.nb.isLt
    simp only [Sink.total, List.length_nil]
    omega
  | cons b t ih =>
    have hn := k.obc.nb.isLt
    simp only [List.length_cons]
    rcases obcPut_eq hc hg b with ⟨hor, k1, h1, hp⟩ | ⟨h7, hl, h1⟩
    · have ht := hp.total
      have hlen : max cap k1.len.toNat = max cap k.len.toNat := by
        have := hp.len_le
        have := k1.obc.nb.isLt
        have h7 : k.obc.nb.toNat ≠ 7 ∨ k.len.toNat < cap := hor.imp (fun h e => h (BitVec.eq_of_toNat_eq e)) id
        simp only [Sink.total, List.length_singleton] at ht
        omega
      simp only [List.length_singleton] at ht
      rcases ih hp.good with ⟨hf, k2, h2, hp2⟩ | ⟨hf, h2⟩
      · exact .inl ⟨by rw [← hlen]; omega, k2, by simp only [obcPutBits, h1, h2], hp.trans hp2⟩
      · exact .inr ⟨by rw [← hlen]; omega, by simp only [obcPutBits, h1, h2]⟩
    · refine .inr ⟨?_, by simp only [obcPutBits, h1, raise]⟩
      rw [h7] at hn
      simp only [Sink.total, h7, show (7 : BitVec 3).toNat = 7 from rfl]
      omega

/-- How many zeros a flush appends. -/
def Sink.gap (k : Sink) : Nat := (8 - k.obc.nb.toNat) % 8

/-- ObcFlush appends zeros up to the byte boundary and counts them, or raises IO(2) where OUT is full (45_bit_cursors.md
R299, R303). -/
theorem obcFlush_eq {cap : Nat} (hc : cap < 2 ^ 32) {k : Sink} (hg : k.Good) :
    ((k.obc.nb = 0 ∨ k.len.toNat < cap) ∧ ∃ k', obcFlush cap k = .ok (k', k.gap) ∧ k.Puts (List.replicate k.gap false) k' ∧
      k'.obc = Obc.cleared) ∨
    (k.obc.nb ≠ 0 ∧ cap ≤ k.len.toNat ∧ obcFlush cap k = raise (.io 2)) := by
  by_cases h0 : k.obc.nb = 0
  · have hgap : k.gap = 0 := by simp [Sink.gap, h0]
    refine .inl ⟨.inl h0, k, by simp [obcFlush, h0, hgap], ?_, ?_⟩
    · rw [hgap]; exact .refl hg
    · have hb : k.obc.buf = 0 := by
        apply BitVec.eq_of_getLsbD_eq
        intro i hi
        rw [hg.low i (by simpa [h0] using hi)]
        simp
      cases hk : k.obc
      simp_all [Obc.cleared]
  · have hn0 : k.obc.nb.toNat ≠ 0 := fun h => h0 (BitVec.eq_of_toNat_eq h)
    have hn8 := k.obc.nb.isLt
    by_cases hl : cap ≤ k.len.toNat
    · exact .inr ⟨h0, hl, by simp only [obcFlush, h0, outAppend, hl, raise, if_true, if_false]⟩
    have hgap : k.gap = 8 - k.obc.nb.toNat := by unfold Sink.gap; omega
    refine .inl ⟨.inr (by omega), _, by simp only [obcFlush, h0, outAppend, hl, if_false, hgap]; rfl, ?_, rfl⟩
    have hlen : (k.len + 1).toNat = k.len.toNat + 1 := by
      rw [BitVec.toNat_add, show (1 : Word).toNat = 1 from rfl, Nat.mod_eq_of_lt (by omega)]
    have hw (a : Nat) := Window.byte_write k.win k.len.toNat a k.obc.buf hg.wf
    constructor
    · exact ⟨Window.write_wf _ _ _ hg.wf, fun i _ => by simp [Obc.cleared]⟩
    · simp only [Sink.total, hlen, Obc.cleared, List.length_replicate, hgap, show (0 : BitVec 3).toNat = 0 from rfl]
      omega
    · intro i hi
      simp only [Sink.total, hlen, Obc.cleared, show (0 : BitVec 3).toNat = 0 from rfl] at hi
      have htot : k.total = 8 * k.len.toNat + k.obc.nb.toNat := rfl
      simp only [Sink.bit, hlen, hw]
      rw [if_pos (show i / 8 < k.len.toNat + 1 by omega)]
      by_cases he : i / 8 = k.len.toNat
      · rw [if_pos he, if_neg (show ¬ i / 8 < k.len.toNat by omega)]
        split
        · rfl
        · rw [hg.low _ (by omega)]
          simp only [List.getD_eq_getElem?_getD, List.getElem?_replicate]
          split <;> rfl
      · rw [if_neg he, if_pos (show i / 8 < k.len.toNat by omega), if_pos (by omega)]
    · intro a ha
      rw [hlen] at ha
      rw [hw, if_neg (by omega)]

/-- The output side of a state that meets the invariant. -/
theorem Inv.sink_good {s : State} (h : Inv s) : s.sink.Good := ⟨h.outWf, h.obcLow⟩

/-- What a put leaves, as Safety states it. -/
theorem Sink.Puts.appended {s : State} {k : Sink} {l : Bits} (h : s.sink.Puts l k) : Appended l s (s.setSink k) := by
  have ht : 8 * k.len.toNat + k.obc.nb.toNat = 8 * s.outLen.toNat + s.obc.nb.toNat + l.length := h.total
  have hk := k.obc.nb.isLt
  have hs := s.obc.nb.isLt
  have hp : s.pending.length = s.obc.nb.toNat := by simp [State.pending]
  have hlen : (s.pending ++ l).length = s.obc.nb.toNat + l.length := by rw [List.length_append, hp]
  have hbit (i : Nat) (hi : 8 * s.outLen.toNat + i < k.total) :
      k.bit (8 * s.outLen.toNat + i) = (s.pending ++ l).getD i false := by
    have htot : s.sink.total = 8 * s.outLen.toNat + s.obc.nb.toNat := rfl
    rw [h.bit _ hi]
    by_cases hin : i < s.obc.nb.toNat
    · rw [if_pos (by omega), List.getD_append _ _ _ _ (by omega)]
      simp only [Sink.bit, State.sink, show (8 * s.outLen.toNat + i) / 8 = s.outLen.toNat by omega,
        show (8 * s.outLen.toNat + i) % 8 = i by omega, Nat.lt_irrefl, if_false]
      simp [State.pending, hin]
    · rw [if_neg (by omega), List.getD_append_right _ _ _ _ (by omega), hp]
      congr 1
      omega
  constructor
  · show k.len.toNat = _
    rw [hlen]; omega
  · intro i hi
    rw [hlen] at hi
    have := hbit i (by simp only [Sink.total]; omega)
    simp only [Sink.bit, show (8 * s.outLen.toNat + i) / 8 = s.outLen.toNat + i / 8 by omega,
      show (8 * s.outLen.toNat + i) % 8 = i % 8 by omega] at this
    rw [if_pos (by omega)] at this
    exact this
  · intro a ha
    rw [hlen] at ha
    by_cases hb : a < s.outLen.toNat
    · show k.win.byte a = s.outWin.byte a
      apply BitVec.eq_of_getLsbD_eq
      intro i hi
      have := h.bit (8 * a + (7 - i)) (by simp only [Sink.total]; omega)
      have htot : s.sink.total = 8 * s.outLen.toNat + s.obc.nb.toNat := rfl
      simp only [Sink.bit, State.sink, show (8 * a + (7 - i)) / 8 = a by omega,
        show 7 - (8 * a + (7 - i)) % 8 = i by omega] at this
      rwa [if_pos (by omega), if_pos (by rw [State.sink] at htot; omega), if_pos hb] at this
    · exact h.above a (by omega)
  · show k.obc.nb.toNat = _
    rw [hlen]; omega
  · intro i hi
    show k.obc.buf.getLsbD (7 - i) = _
    rw [hlen]
    by_cases hin : i < k.obc.nb.toNat
    · have := hbit (8 * ((s.obc.nb.toNat + l.length) / 8) + i) (by simp only [Sink.total]; omega)
      rw [← this]
      simp only [Sink.bit]
      rw [if_neg (by omega)]
      congr 1
      omega
    · rw [h.good.low _ (by omega), List.getD_eq_default _ _ (by omega)]

end Sys2Proof.Machine
end

