-- ==== Sys2Proof/Laws/State.lean ====
section
/-! SUPPORT. One lemma per field per update of State, each true by rfl, so that no later proof unfolds a record update. -/

namespace Sys2Proof.Machine

section setX
variable (s : State) (i : XReg) (v : Word)

@[simp] theorem State.setX_x : (s.setX i v).x = s.x.set i v := rfl
@[simp] theorem State.setX_bs : (s.setX i v).bs = s.bs := rfl
@[simp] theorem State.setX_freq : (s.setX i v).freq = s.freq := rfl
@[simp] theorem State.setX_nodes : (s.setX i v).nodes = s.nodes := rfl
@[simp] theorem State.setX_root : (s.setX i v).root = s.root := rfl
@[simp] theorem State.setX_tstate : (s.setX i v).tstate = s.tstate := rfl
@[simp] theorem State.setX_ct : (s.setX i v).ct = s.ct := rfl
@[simp] theorem State.setX_pq : (s.setX i v).pq = s.pq := rfl
@[simp] theorem State.setX_ibc : (s.setX i v).ibc = s.ibc := rfl
@[simp] theorem State.setX_obc : (s.setX i v).obc = s.obc := rfl
@[simp] theorem State.setX_pad : (s.setX i v).pad = s.pad := rfl
@[simp] theorem State.setX_ctrl : (s.setX i v).ctrl = s.ctrl := rfl
@[simp] theorem State.setX_status : (s.setX i v).status = s.status := rfl
@[simp] theorem State.setX_errInfo : (s.setX i v).errInfo = s.errInfo := rfl
@[simp] theorem State.setX_errCmd : (s.setX i v).errCmd = s.errCmd := rfl
@[simp] theorem State.setX_inLen : (s.setX i v).inLen = s.inLen := rfl
@[simp] theorem State.setX_outLen : (s.setX i v).outLen = s.outLen := rfl
@[simp] theorem State.setX_inWin : (s.setX i v).inWin = s.inWin := rfl
@[simp] theorem State.setX_outWin : (s.setX i v).outWin = s.outWin := rfl
@[simp] theorem State.setX_cmd : (s.setX i v).cmd = s.cmd := rfl
@[simp] theorem State.setX_inCap : (s.setX i v).inCap = s.inCap := rfl
@[simp] theorem State.setX_outCap : (s.setX i v).outCap = s.outCap := rfl
@[simp] theorem State.setX_busyLeft : (s.setX i v).busyLeft = s.busyLeft := rfl
@[simp] theorem State.setX_resetPin : (s.setX i v).resetPin = s.resetPin := rfl
@[simp] theorem State.setX_host : (s.setX i v).host = s.host := rfl
@[simp] theorem State.setX_rdata : (s.setX i v).rdata = s.rdata := rfl
@[simp] theorem State.setX_draws : (s.setX i v).draws = s.draws := rfl

end setX

section setBs
variable (s : State) (j : BsReg) (v : Bits)

@[simp] theorem State.setBs_x : (s.setBs j v).x = s.x := rfl
@[simp] theorem State.setBs_bs : (s.setBs j v).bs = s.bs.set j v := rfl
@[simp] theorem State.setBs_freq : (s.setBs j v).freq = s.freq := rfl
@[simp] theorem State.setBs_nodes : (s.setBs j v).nodes = s.nodes := rfl
@[simp] theorem State.setBs_root : (s.setBs j v).root = s.root := rfl
@[simp] theorem State.setBs_tstate : (s.setBs j v).tstate = s.tstate := rfl
@[simp] theorem State.setBs_ct : (s.setBs j v).ct = s.ct := rfl
@[simp] theorem State.setBs_pq : (s.setBs j v).pq = s.pq := rfl
@[simp] theorem State.setBs_ibc : (s.setBs j v).ibc = s.ibc := rfl
@[simp] theorem State.setBs_obc : (s.setBs j v).obc = s.obc := rfl
@[simp] theorem State.setBs_pad : (s.setBs j v).pad = s.pad := rfl
@[simp] theorem State.setBs_ctrl : (s.setBs j v).ctrl = s.ctrl := rfl
@[simp] theorem State.setBs_status : (s.setBs j v).status = s.status := rfl
@[simp] theorem State.setBs_errInfo : (s.setBs j v).errInfo = s.errInfo := rfl
@[simp] theorem State.setBs_errCmd : (s.setBs j v).errCmd = s.errCmd := rfl
@[simp] theorem State.setBs_inLen : (s.setBs j v).inLen = s.inLen := rfl
@[simp] theorem State.setBs_outLen : (s.setBs j v).outLen = s.outLen := rfl
@[simp] theorem State.setBs_inWin : (s.setBs j v).inWin = s.inWin := rfl
@[simp] theorem State.setBs_outWin : (s.setBs j v).outWin = s.outWin := rfl
@[simp] theorem State.setBs_cmd : (s.setBs j v).cmd = s.cmd := rfl
@[simp] theorem State.setBs_inCap : (s.setBs j v).inCap = s.inCap := rfl
@[simp] theorem State.setBs_outCap : (s.setBs j v).outCap = s.outCap := rfl
@[simp] theorem State.setBs_busyLeft : (s.setBs j v).busyLeft = s.busyLeft := rfl
@[simp] theorem State.setBs_resetPin : (s.setBs j v).resetPin = s.resetPin := rfl
@[simp] theorem State.setBs_host : (s.setBs j v).host = s.host := rfl
@[simp] theorem State.setBs_rdata : (s.setBs j v).rdata = s.rdata := rfl
@[simp] theorem State.setBs_draws : (s.setBs j v).draws = s.draws := rfl

end setBs

section drawn
variable (s : State)

@[simp] theorem State.drawn_x : s.drawn.x = s.x := rfl
@[simp] theorem State.drawn_bs : s.drawn.bs = s.bs := rfl
@[simp] theorem State.drawn_freq : s.drawn.freq = s.freq := rfl
@[simp] theorem State.drawn_nodes : s.drawn.nodes = s.nodes := rfl
@[simp] theorem State.drawn_root : s.drawn.root = s.root := rfl
@[simp] theorem State.drawn_tstate : s.drawn.tstate = s.tstate := rfl
@[simp] theorem State.drawn_ct : s.drawn.ct = s.ct := rfl
@[simp] theorem State.drawn_pq : s.drawn.pq = s.pq := rfl
@[simp] theorem State.drawn_ibc : s.drawn.ibc = s.ibc := rfl
@[simp] theorem State.drawn_obc : s.drawn.obc = s.obc := rfl
@[simp] theorem State.drawn_pad : s.drawn.pad = s.pad := rfl
@[simp] theorem State.drawn_ctrl : s.drawn.ctrl = s.ctrl := rfl
@[simp] theorem State.drawn_status : s.drawn.status = s.status := rfl
@[simp] theorem State.drawn_errInfo : s.drawn.errInfo = s.errInfo := rfl
@[simp] theorem State.drawn_errCmd : s.drawn.errCmd = s.errCmd := rfl
@[simp] theorem State.drawn_inLen : s.drawn.inLen = s.inLen := rfl
@[simp] theorem State.drawn_outLen : s.drawn.outLen = s.outLen := rfl
@[simp] theorem State.drawn_inWin : s.drawn.inWin = s.inWin := rfl
@[simp] theorem State.drawn_outWin : s.drawn.outWin = s.outWin := rfl
@[simp] theorem State.drawn_cmd : s.drawn.cmd = s.cmd := rfl
@[simp] theorem State.drawn_inCap : s.drawn.inCap = s.inCap := rfl
@[simp] theorem State.drawn_outCap : s.drawn.outCap = s.outCap := rfl
@[simp] theorem State.drawn_busyLeft : s.drawn.busyLeft = s.busyLeft := rfl
@[simp] theorem State.drawn_resetPin : s.drawn.resetPin = s.resetPin := rfl
@[simp] theorem State.drawn_host : s.drawn.host = s.host := rfl
@[simp] theorem State.drawn_rdata : s.drawn.rdata = s.rdata := rfl
@[simp] theorem State.drawn_draws : s.drawn.draws = s.draws + 1 := rfl

end drawn

section setSink
variable (s : State) (k : Sink)

@[simp] theorem State.setSink_x : (s.setSink k).x = s.x := rfl
@[simp] theorem State.setSink_bs : (s.setSink k).bs = s.bs := rfl
@[simp] theorem State.setSink_freq : (s.setSink k).freq = s.freq := rfl
@[simp] theorem State.setSink_nodes : (s.setSink k).nodes = s.nodes := rfl
@[simp] theorem State.setSink_root : (s.setSink k).root = s.root := rfl
@[simp] theorem State.setSink_tstate : (s.setSink k).tstate = s.tstate := rfl
@[simp] theorem State.setSink_ct : (s.setSink k).ct = s.ct := rfl
@[simp] theorem State.setSink_pq : (s.setSink k).pq = s.pq := rfl
@[simp] theorem State.setSink_ibc : (s.setSink k).ibc = s.ibc := rfl
@[simp] theorem State.setSink_obc : (s.setSink k).obc = k.obc := rfl
@[simp] theorem State.setSink_pad : (s.setSink k).pad = s.pad := rfl
@[simp] theorem State.setSink_ctrl : (s.setSink k).ctrl = s.ctrl := rfl
@[simp] theorem State.setSink_status : (s.setSink k).status = s.status := rfl
@[simp] theorem State.setSink_errInfo : (s.setSink k).errInfo = s.errInfo := rfl
@[simp] theorem State.setSink_errCmd : (s.setSink k).errCmd = s.errCmd := rfl
@[simp] theorem State.setSink_inLen : (s.setSink k).inLen = s.inLen := rfl
@[simp] theorem State.setSink_outLen : (s.setSink k).outLen = k.len := rfl
@[simp] theorem State.setSink_inWin : (s.setSink k).inWin = s.inWin := rfl
@[simp] theorem State.setSink_outWin : (s.setSink k).outWin = k.win := rfl
@[simp] theorem State.setSink_cmd : (s.setSink k).cmd = s.cmd := rfl
@[simp] theorem State.setSink_inCap : (s.setSink k).inCap = s.inCap := rfl
@[simp] theorem State.setSink_outCap : (s.setSink k).outCap = s.outCap := rfl
@[simp] theorem State.setSink_busyLeft : (s.setSink k).busyLeft = s.busyLeft := rfl
@[simp] theorem State.setSink_resetPin : (s.setSink k).resetPin = s.resetPin := rfl
@[simp] theorem State.setSink_host : (s.setSink k).host = s.host := rfl
@[simp] theorem State.setSink_rdata : (s.setSink k).rdata = s.rdata := rfl
@[simp] theorem State.setSink_draws : (s.setSink k).draws = s.draws := rfl

end setSink

section complete
variable (s : State)

@[simp] theorem State.complete_x : s.complete.x = s.x := rfl
@[simp] theorem State.complete_bs : s.complete.bs = s.bs := rfl
@[simp] theorem State.complete_freq : s.complete.freq = s.freq := rfl
@[simp] theorem State.complete_nodes : s.complete.nodes = s.nodes := rfl
@[simp] theorem State.complete_root : s.complete.root = s.root := rfl
@[simp] theorem State.complete_tstate : s.complete.tstate = s.tstate := rfl
@[simp] theorem State.complete_ct : s.complete.ct = s.ct := rfl
@[simp] theorem State.complete_pq : s.complete.pq = s.pq := rfl
@[simp] theorem State.complete_ibc : s.complete.ibc = s.ibc := rfl
@[simp] theorem State.complete_obc : s.complete.obc = s.obc := rfl
@[simp] theorem State.complete_pad : s.complete.pad = s.pad := rfl
@[simp] theorem State.complete_ctrl : s.complete.ctrl = s.ctrl := rfl
@[simp] theorem State.complete_status : s.complete.status = { s.status with busy := false, done := true } := rfl
@[simp] theorem State.complete_errInfo : s.complete.errInfo = s.errInfo := rfl
@[simp] theorem State.complete_errCmd : s.complete.errCmd = s.errCmd := rfl
@[simp] theorem State.complete_inLen : s.complete.inLen = s.inLen := rfl
@[simp] theorem State.complete_outLen : s.complete.outLen = s.outLen := rfl
@[simp] theorem State.complete_inWin : s.complete.inWin = s.inWin := rfl
@[simp] theorem State.complete_outWin : s.complete.outWin = s.outWin := rfl
@[simp] theorem State.complete_cmd : s.complete.cmd = s.cmd := rfl
@[simp] theorem State.complete_inCap : s.complete.inCap = s.inCap := rfl
@[simp] theorem State.complete_outCap : s.complete.outCap = s.outCap := rfl
@[simp] theorem State.complete_busyLeft : s.complete.busyLeft = s.busyLeft := rfl
@[simp] theorem State.complete_resetPin : s.complete.resetPin = s.resetPin := rfl
@[simp] theorem State.complete_host : s.complete.host = s.host := rfl
@[simp] theorem State.complete_rdata : s.complete.rdata = s.rdata := rfl
@[simp] theorem State.complete_draws : s.complete.draws = s.draws := rfl

end complete

section takeFault
variable (s : State) (r : Raise)

@[simp] theorem State.takeFault_x : (s.takeFault r).x = s.x := rfl
@[simp] theorem State.takeFault_bs : (s.takeFault r).bs = s.bs := rfl
@[simp] theorem State.takeFault_freq : (s.takeFault r).freq = s.freq := rfl
@[simp] theorem State.takeFault_nodes : (s.takeFault r).nodes = s.nodes := rfl
@[simp] theorem State.takeFault_root : (s.takeFault r).root = s.root := rfl
@[simp] theorem State.takeFault_tstate : (s.takeFault r).tstate = s.tstate := rfl
@[simp] theorem State.takeFault_ct : (s.takeFault r).ct = s.ct := rfl
@[simp] theorem State.takeFault_pq : (s.takeFault r).pq = s.pq := rfl
@[simp] theorem State.takeFault_ibc : (s.takeFault r).ibc = s.ibc := rfl
@[simp] theorem State.takeFault_obc : (s.takeFault r).obc = s.obc := rfl
@[simp] theorem State.takeFault_pad : (s.takeFault r).pad = s.pad := rfl
@[simp] theorem State.takeFault_ctrl : (s.takeFault r).ctrl = s.ctrl := rfl
@[simp] theorem State.takeFault_status : (s.takeFault r).status = { s.status with err := true, errCode := r.code, busy := false } := rfl
@[simp] theorem State.takeFault_errInfo : (s.takeFault r).errInfo = r.info := rfl
@[simp] theorem State.takeFault_errCmd : (s.takeFault r).errCmd = s.cmd := rfl
@[simp] theorem State.takeFault_inLen : (s.takeFault r).inLen = s.inLen := rfl
@[simp] theorem State.takeFault_outLen : (s.takeFault r).outLen = s.outLen := rfl
@[simp] theorem State.takeFault_inWin : (s.takeFault r).inWin = s.inWin := rfl
@[simp] theorem State.takeFault_outWin : (s.takeFault r).outWin = s.outWin := rfl
@[simp] theorem State.takeFault_cmd : (s.takeFault r).cmd = s.cmd := rfl
@[simp] theorem State.takeFault_inCap : (s.takeFault r).inCap = s.inCap := rfl
@[simp] theorem State.takeFault_outCap : (s.takeFault r).outCap = s.outCap := rfl
@[simp] theorem State.takeFault_busyLeft : (s.takeFault r).busyLeft = s.busyLeft := rfl
@[simp] theorem State.takeFault_resetPin : (s.takeFault r).resetPin = s.resetPin := rfl
@[simp] theorem State.takeFault_host : (s.takeFault r).host = s.host := rfl
@[simp] theorem State.takeFault_rdata : (s.takeFault r).rdata = s.rdata := rfl
@[simp] theorem State.takeFault_draws : (s.takeFault r).draws = s.draws := rfl

end takeFault

section clearError
variable (s : State)

@[simp] theorem State.clearError_x : s.clearError.x = s.x := rfl
@[simp] theorem State.clearError_bs : s.clearError.bs = s.bs := rfl
@[simp] theorem State.clearError_freq : s.clearError.freq = s.freq := rfl
@[simp] theorem State.clearError_nodes : s.clearError.nodes = s.nodes := rfl
@[simp] theorem State.clearError_root : s.clearError.root = s.root := rfl
@[simp] theorem State.clearError_tstate : s.clearError.tstate = s.tstate := rfl
@[simp] theorem State.clearError_ct : s.clearError.ct = s.ct := rfl
@[simp] theorem State.clearError_pq : s.clearError.pq = s.pq := rfl
@[simp] theorem State.clearError_ibc : s.clearError.ibc = s.ibc := rfl
@[simp] theorem State.clearError_obc : s.clearError.obc = s.obc := rfl
@[simp] theorem State.clearError_pad : s.clearError.pad = s.pad := rfl
@[simp] theorem State.clearError_ctrl : s.clearError.ctrl = s.ctrl := rfl
@[simp] theorem State.clearError_status : s.clearError.status = { s.status with err := false, errCode := .none } := rfl
@[simp] theorem State.clearError_errInfo : s.clearError.errInfo = s.errInfo := rfl
@[simp] theorem State.clearError_errCmd : s.clearError.errCmd = s.errCmd := rfl
@[simp] theorem State.clearError_inLen : s.clearError.inLen = s.inLen := rfl
@[simp] theorem State.clearError_outLen : s.clearError.outLen = s.outLen := rfl
@[simp] theorem State.clearError_inWin : s.clearError.inWin = s.inWin := rfl
@[simp] theorem State.clearError_outWin : s.clearError.outWin = s.outWin := rfl
@[simp] theorem State.clearError_cmd : s.clearError.cmd = s.cmd := rfl
@[simp] theorem State.clearError_inCap : s.clearError.inCap = s.inCap := rfl
@[simp] theorem State.clearError_outCap : s.clearError.outCap = s.outCap := rfl
@[simp] theorem State.clearError_busyLeft : s.clearError.busyLeft = s.busyLeft := rfl
@[simp] theorem State.clearError_resetPin : s.clearError.resetPin = s.resetPin := rfl
@[simp] theorem State.clearError_host : s.clearError.host = s.host := rfl
@[simp] theorem State.clearError_rdata : s.clearError.rdata = s.rdata := rfl
@[simp] theorem State.clearError_draws : s.clearError.draws = s.draws := rfl

end clearError

section overrun
variable (s : State)

@[simp] theorem State.overrun_x : s.overrun.x = s.x := rfl
@[simp] theorem State.overrun_bs : s.overrun.bs = s.bs := rfl
@[simp] theorem State.overrun_freq : s.overrun.freq = s.freq := rfl
@[simp] theorem State.overrun_nodes : s.overrun.nodes = s.nodes := rfl
@[simp] theorem State.overrun_root : s.overrun.root = s.root := rfl
@[simp] theorem State.overrun_tstate : s.overrun.tstate = s.tstate := rfl
@[simp] theorem State.overrun_ct : s.overrun.ct = s.ct := rfl
@[simp] theorem State.overrun_pq : s.overrun.pq = s.pq := rfl
@[simp] theorem State.overrun_ibc : s.overrun.ibc = s.ibc := rfl
@[simp] theorem State.overrun_obc : s.overrun.obc = s.obc := rfl
@[simp] theorem State.overrun_pad : s.overrun.pad = s.pad := rfl
@[simp] theorem State.overrun_ctrl : s.overrun.ctrl = s.ctrl := rfl
@[simp] theorem State.overrun_status : s.overrun.status = { s.status with ovr := true } := rfl
@[simp] theorem State.overrun_errInfo : s.overrun.errInfo = s.errInfo := rfl
@[simp] theorem State.overrun_errCmd : s.overrun.errCmd = s.errCmd := rfl
@[simp] theorem State.overrun_inLen : s.overrun.inLen = s.inLen := rfl
@[simp] theorem State.overrun_outLen : s.overrun.outLen = s.outLen := rfl
@[simp] theorem State.overrun_inWin : s.overrun.inWin = s.inWin := rfl
@[simp] theorem State.overrun_outWin : s.overrun.outWin = s.outWin := rfl
@[simp] theorem State.overrun_cmd : s.overrun.cmd = s.cmd := rfl
@[simp] theorem State.overrun_inCap : s.overrun.inCap = s.inCap := rfl
@[simp] theorem State.overrun_outCap : s.overrun.outCap = s.outCap := rfl
@[simp] theorem State.overrun_busyLeft : s.overrun.busyLeft = s.busyLeft := rfl
@[simp] theorem State.overrun_resetPin : s.overrun.resetPin = s.resetPin := rfl
@[simp] theorem State.overrun_host : s.overrun.host = s.host := rfl
@[simp] theorem State.overrun_rdata : s.overrun.rdata = s.rdata := rfl
@[simp] theorem State.overrun_draws : s.overrun.draws = s.draws := rfl

end overrun

section clearDone
variable (s : State)

@[simp] theorem State.clearDone_x : s.clearDone.x = s.x := rfl
@[simp] theorem State.clearDone_bs : s.clearDone.bs = s.bs := rfl
@[simp] theorem State.clearDone_freq : s.clearDone.freq = s.freq := rfl
@[simp] theorem State.clearDone_nodes : s.clearDone.nodes = s.nodes := rfl
@[simp] theorem State.clearDone_root : s.clearDone.root = s.root := rfl
@[simp] theorem State.clearDone_tstate : s.clearDone.tstate = s.tstate := rfl
@[simp] theorem State.clearDone_ct : s.clearDone.ct = s.ct := rfl
@[simp] theorem State.clearDone_pq : s.clearDone.pq = s.pq := rfl
@[simp] theorem State.clearDone_ibc : s.clearDone.ibc = s.ibc := rfl
@[simp] theorem State.clearDone_obc : s.clearDone.obc = s.obc := rfl
@[simp] theorem State.clearDone_pad : s.clearDone.pad = s.pad := rfl
@[simp] theorem State.clearDone_ctrl : s.clearDone.ctrl = s.ctrl := rfl
@[simp] theorem State.clearDone_status : s.clearDone.status = { s.status with done := false } := rfl
@[simp] theorem State.clearDone_errInfo : s.clearDone.errInfo = s.errInfo := rfl
@[simp] theorem State.clearDone_errCmd : s.clearDone.errCmd = s.errCmd := rfl
@[simp] theorem State.clearDone_inLen : s.clearDone.inLen = s.inLen := rfl
@[simp] theorem State.clearDone_outLen : s.clearDone.outLen = s.outLen := rfl
@[simp] theorem State.clearDone_inWin : s.clearDone.inWin = s.inWin := rfl
@[simp] theorem State.clearDone_outWin : s.clearDone.outWin = s.outWin := rfl
@[simp] theorem State.clearDone_cmd : s.clearDone.cmd = s.cmd := rfl
@[simp] theorem State.clearDone_inCap : s.clearDone.inCap = s.inCap := rfl
@[simp] theorem State.clearDone_outCap : s.clearDone.outCap = s.outCap := rfl
@[simp] theorem State.clearDone_busyLeft : s.clearDone.busyLeft = s.busyLeft := rfl
@[simp] theorem State.clearDone_resetPin : s.clearDone.resetPin = s.resetPin := rfl
@[simp] theorem State.clearDone_host : s.clearDone.host = s.host := rfl
@[simp] theorem State.clearDone_rdata : s.clearDone.rdata = s.rdata := rfl
@[simp] theorem State.clearDone_draws : s.clearDone.draws = s.draws := rfl

end clearDone

section clearOverrun
variable (s : State)

@[simp] theorem State.clearOverrun_x : s.clearOverrun.x = s.x := rfl
@[simp] theorem State.clearOverrun_bs : s.clearOverrun.bs = s.bs := rfl
@[simp] theorem State.clearOverrun_freq : s.clearOverrun.freq = s.freq := rfl
@[simp] theorem State.clearOverrun_nodes : s.clearOverrun.nodes = s.nodes := rfl
@[simp] theorem State.clearOverrun_root : s.clearOverrun.root = s.root := rfl
@[simp] theorem State.clearOverrun_tstate : s.clearOverrun.tstate = s.tstate := rfl
@[simp] theorem State.clearOverrun_ct : s.clearOverrun.ct = s.ct := rfl
@[simp] theorem State.clearOverrun_pq : s.clearOverrun.pq = s.pq := rfl
@[simp] theorem State.clearOverrun_ibc : s.clearOverrun.ibc = s.ibc := rfl
@[simp] theorem State.clearOverrun_obc : s.clearOverrun.obc = s.obc := rfl
@[simp] theorem State.clearOverrun_pad : s.clearOverrun.pad = s.pad := rfl
@[simp] theorem State.clearOverrun_ctrl : s.clearOverrun.ctrl = s.ctrl := rfl
@[simp] theorem State.clearOverrun_status : s.clearOverrun.status = { s.status with ovr := false } := rfl
@[simp] theorem State.clearOverrun_errInfo : s.clearOverrun.errInfo = s.errInfo := rfl
@[simp] theorem State.clearOverrun_errCmd : s.clearOverrun.errCmd = s.errCmd := rfl
@[simp] theorem State.clearOverrun_inLen : s.clearOverrun.inLen = s.inLen := rfl
@[simp] theorem State.clearOverrun_outLen : s.clearOverrun.outLen = s.outLen := rfl
@[simp] theorem State.clearOverrun_inWin : s.clearOverrun.inWin = s.inWin := rfl
@[simp] theorem State.clearOverrun_outWin : s.clearOverrun.outWin = s.outWin := rfl
@[simp] theorem State.clearOverrun_cmd : s.clearOverrun.cmd = s.cmd := rfl
@[simp] theorem State.clearOverrun_inCap : s.clearOverrun.inCap = s.inCap := rfl
@[simp] theorem State.clearOverrun_outCap : s.clearOverrun.outCap = s.outCap := rfl
@[simp] theorem State.clearOverrun_busyLeft : s.clearOverrun.busyLeft = s.busyLeft := rfl
@[simp] theorem State.clearOverrun_resetPin : s.clearOverrun.resetPin = s.resetPin := rfl
@[simp] theorem State.clearOverrun_host : s.clearOverrun.host = s.host := rfl
@[simp] theorem State.clearOverrun_rdata : s.clearOverrun.rdata = s.rdata := rfl
@[simp] theorem State.clearOverrun_draws : s.clearOverrun.draws = s.draws := rfl

end clearOverrun

section accept
variable (s : State) (c : Word) (n : Nat)

@[simp] theorem State.accept_x : (s.accept c n).x = s.x := rfl
@[simp] theorem State.accept_bs : (s.accept c n).bs = s.bs := rfl
@[simp] theorem State.accept_freq : (s.accept c n).freq = s.freq := rfl
@[simp] theorem State.accept_nodes : (s.accept c n).nodes = s.nodes := rfl
@[simp] theorem State.accept_root : (s.accept c n).root = s.root := rfl
@[simp] theorem State.accept_tstate : (s.accept c n).tstate = s.tstate := rfl
@[simp] theorem State.accept_ct : (s.accept c n).ct = s.ct := rfl
@[simp] theorem State.accept_pq : (s.accept c n).pq = s.pq := rfl
@[simp] theorem State.accept_ibc : (s.accept c n).ibc = s.ibc := rfl
@[simp] theorem State.accept_obc : (s.accept c n).obc = s.obc := rfl
@[simp] theorem State.accept_pad : (s.accept c n).pad = s.pad := rfl
@[simp] theorem State.accept_ctrl : (s.accept c n).ctrl = s.ctrl := rfl
@[simp] theorem State.accept_status : (s.accept c n).status = { s.status with done := false, busy := true } := rfl
@[simp] theorem State.accept_errInfo : (s.accept c n).errInfo = s.errInfo := rfl
@[simp] theorem State.accept_errCmd : (s.accept c n).errCmd = s.errCmd := rfl
@[simp] theorem State.accept_inLen : (s.accept c n).inLen = s.inLen := rfl
@[simp] theorem State.accept_outLen : (s.accept c n).outLen = s.outLen := rfl
@[simp] theorem State.accept_inWin : (s.accept c n).inWin = s.inWin := rfl
@[simp] theorem State.accept_outWin : (s.accept c n).outWin = s.outWin := rfl
@[simp] theorem State.accept_cmd : (s.accept c n).cmd = c := rfl
@[simp] theorem State.accept_inCap : (s.accept c n).inCap = s.inCap := rfl
@[simp] theorem State.accept_outCap : (s.accept c n).outCap = s.outCap := rfl
@[simp] theorem State.accept_busyLeft : (s.accept c n).busyLeft = n := rfl
@[simp] theorem State.accept_resetPin : (s.accept c n).resetPin = s.resetPin := rfl
@[simp] theorem State.accept_host : (s.accept c n).host = s.host := rfl
@[simp] theorem State.accept_rdata : (s.accept c n).rdata = s.rdata := rfl
@[simp] theorem State.accept_draws : (s.accept c n).draws = s.draws := rfl

end accept

section codecFailed
variable (s : State)

@[simp] theorem State.codecFailed_x : s.codecFailed.x = s.x := rfl
@[simp] theorem State.codecFailed_bs : s.codecFailed.bs = s.bs := rfl
@[simp] theorem State.codecFailed_freq : s.codecFailed.freq = s.freq := rfl
@[simp] theorem State.codecFailed_nodes : s.codecFailed.nodes = [] := rfl
@[simp] theorem State.codecFailed_root : s.codecFailed.root = none := rfl
@[simp] theorem State.codecFailed_tstate : s.codecFailed.tstate = .empty := rfl
@[simp] theorem State.codecFailed_ct : s.codecFailed.ct = Vector.replicate 256 [] := rfl
@[simp] theorem State.codecFailed_pq : s.codecFailed.pq = [] := rfl
@[simp] theorem State.codecFailed_ibc : s.codecFailed.ibc = Ibc.cleared := rfl
@[simp] theorem State.codecFailed_obc : s.codecFailed.obc = Obc.cleared := rfl
@[simp] theorem State.codecFailed_pad : s.codecFailed.pad = s.pad := rfl
@[simp] theorem State.codecFailed_ctrl : s.codecFailed.ctrl = s.ctrl := rfl
@[simp] theorem State.codecFailed_status : s.codecFailed.status = s.status := rfl
@[simp] theorem State.codecFailed_errInfo : s.codecFailed.errInfo = s.errInfo := rfl
@[simp] theorem State.codecFailed_errCmd : s.codecFailed.errCmd = s.errCmd := rfl
@[simp] theorem State.codecFailed_inLen : s.codecFailed.inLen = s.inLen := rfl
@[simp] theorem State.codecFailed_outLen : s.codecFailed.outLen = 0 := rfl
@[simp] theorem State.codecFailed_inWin : s.codecFailed.inWin = s.inWin := rfl
@[simp] theorem State.codecFailed_outWin : s.codecFailed.outWin = Window.drawn s.draws := rfl
@[simp] theorem State.codecFailed_cmd : s.codecFailed.cmd = s.cmd := rfl
@[simp] theorem State.codecFailed_inCap : s.codecFailed.inCap = s.inCap := rfl
@[simp] theorem State.codecFailed_outCap : s.codecFailed.outCap = s.outCap := rfl
@[simp] theorem State.codecFailed_busyLeft : s.codecFailed.busyLeft = s.busyLeft := rfl
@[simp] theorem State.codecFailed_resetPin : s.codecFailed.resetPin = s.resetPin := rfl
@[simp] theorem State.codecFailed_host : s.codecFailed.host = s.host := rfl
@[simp] theorem State.codecFailed_rdata : s.codecFailed.rdata = s.rdata := rfl
@[simp] theorem State.codecFailed_draws : s.codecFailed.draws = s.draws + 1 := rfl

end codecFailed

section freshOutput
variable (s : State)

@[simp] theorem State.freshOutput_x : s.freshOutput.x = s.x := rfl
@[simp] theorem State.freshOutput_bs : s.freshOutput.bs = s.bs := rfl
@[simp] theorem State.freshOutput_freq : s.freshOutput.freq = s.freq := rfl
@[simp] theorem State.freshOutput_nodes : s.freshOutput.nodes = s.nodes := rfl
@[simp] theorem State.freshOutput_root : s.freshOutput.root = s.root := rfl
@[simp] theorem State.freshOutput_tstate : s.freshOutput.tstate = s.tstate := rfl
@[simp] theorem State.freshOutput_ct : s.freshOutput.ct = s.ct := rfl
@[simp] theorem State.freshOutput_pq : s.freshOutput.pq = s.pq := rfl
@[simp] theorem State.freshOutput_ibc : s.freshOutput.ibc = s.ibc := rfl
@[simp] theorem State.freshOutput_obc : s.freshOutput.obc = Obc.cleared := rfl
@[simp] theorem State.freshOutput_pad : s.freshOutput.pad = s.pad := rfl
@[simp] theorem State.freshOutput_ctrl : s.freshOutput.ctrl = s.ctrl := rfl
@[simp] theorem State.freshOutput_status : s.freshOutput.status = s.status := rfl
@[simp] theorem State.freshOutput_errInfo : s.freshOutput.errInfo = s.errInfo := rfl
@[simp] theorem State.freshOutput_errCmd : s.freshOutput.errCmd = s.errCmd := rfl
@[simp] theorem State.freshOutput_inLen : s.freshOutput.inLen = s.inLen := rfl
@[simp] theorem State.freshOutput_outLen : s.freshOutput.outLen = 0 := rfl
@[simp] theorem State.freshOutput_inWin : s.freshOutput.inWin = s.inWin := rfl
@[simp] theorem State.freshOutput_outWin : s.freshOutput.outWin = s.outWin := rfl
@[simp] theorem State.freshOutput_cmd : s.freshOutput.cmd = s.cmd := rfl
@[simp] theorem State.freshOutput_inCap : s.freshOutput.inCap = s.inCap := rfl
@[simp] theorem State.freshOutput_outCap : s.freshOutput.outCap = s.outCap := rfl
@[simp] theorem State.freshOutput_busyLeft : s.freshOutput.busyLeft = s.busyLeft := rfl
@[simp] theorem State.freshOutput_resetPin : s.freshOutput.resetPin = s.resetPin := rfl
@[simp] theorem State.freshOutput_host : s.freshOutput.host = s.host := rfl
@[simp] theorem State.freshOutput_rdata : s.freshOutput.rdata = s.rdata := rfl
@[simp] theorem State.freshOutput_draws : s.freshOutput.draws = s.draws := rfl

end freshOutput

end Sys2Proof.Machine
end

