-- ==== Sys2Proof/Laws/Step.lean ====
section
/-! SUPPORT. What one step can be, and that every command but the two codec commands is precise. -/

namespace Sys2Proof.Machine

/-- A step is a host move, nothing at all, or the captured command (00_scope.md R6; logs 1, 2, 18). -/
theorem step_next {s t : State} (h : step s = .next t) :
    (∃ op l n, s.host = op :: l ∧ t = State.hostOp { s with host := l, busyLeft := n } op ∧
      (s.resetPin = true ∨ s.status.busy = false ∨ s.busyLeft ≠ 0)) ∨
    (s.host = [] ∧ (s.resetPin = true ∨ s.status.busy = false) ∧ t = s) ∨
    (s.resetPin = false ∧ s.status.busy = true ∧ (s.busyLeft = 0 ∨ s.host = []) ∧ s.runCommand = .next t) := by
  have host {u : State} (hu : u.host = s.host) (he : ∃ n, u = { s with busyLeft := n }) (hm : u.hostMoves = .next t) :
      (∃ op l n, s.host = op :: l ∧ t = State.hostOp { s with host := l, busyLeft := n } op) ∨ s.host = [] ∧ t = u := by
    obtain ⟨n, rfl⟩ := he
    unfold State.hostMoves at hm
    split at hm
    next hn => exact .inr ⟨hn, by cases hm; rfl⟩
    next op l hn => exact .inl ⟨op, l, n, hn, by cases hm; rfl⟩
  unfold step State.moves at h
  split at h
  next hb =>
    split at h
    next hr => exact .inr (.inr ⟨hb.1, hb.2, hr, h⟩)
    next hr =>
      rcases host (u := { s with busyLeft := s.busyLeft - 1 }) rfl ⟨_, rfl⟩ h with ⟨op, l, n, ho, ht⟩ | ⟨hn, -⟩
      · exact .inl ⟨op, l, n, ho, ht, .inr (.inr fun h0 => hr (.inl h0))⟩
      · exact absurd (.inr hn) hr
  next hb =>
    have hi : s.resetPin = true ∨ s.status.busy = false := by
      cases hp : s.resetPin <;> cases hs : s.status.busy <;> simp_all
    rcases host (u := s) rfl ⟨_, rfl⟩ h with ⟨op, l, n, ho, ht⟩ | ⟨hn, ht⟩
    · exact .inl ⟨op, l, n, ho, ht, hi.imp id .inl⟩
    · exact .inr (.inl ⟨hn, hi, ht⟩)

/-- A captured word is a command, or raises ILLEGAL (60_exceptions.md R369). -/
theorem State.runCommand_eq (s : State) :
    (∃ i, decode s.cmd = .ok i ∧ s.runCommand = exec i s) ∨
    ((∃ e, decode s.cmd = .error e) ∧ s.runCommand = .next (s.takeFault .illegal)) := by
  unfold State.runCommand
  split
  next i h => exact .inl ⟨i, h, rfl⟩
  next e h => exact .inr ⟨⟨e, h⟩, rfl⟩

/-- Every command but COMPRESS and DECOMPRESS ends precisely (30_encoding.md R127). -/
theorem exec_precise (i : Instr) (s : State) (h1 : i ≠ .compress) (h2 : i ≠ .decompress) :
    ∃ result, exec i s = s.precise result := by
  cases i
  case compress => exact absurd rfl h1
  case decompress => exact absurd rfl h2
  all_goals simp only [exec, execNop, execSrst, execLi, execLui, execMov, execBget, execBset, execBins,
    execBera, execBsnew, execBsfrom, execBsmov, execBssize, execBsempty, execBsat, execBsgetu, execBssetat,
    execBssetu, execBsins, execBsins1, execBsinsr, execBsera, execBsera1, execBspush, execBspop, execBsresize,
    execBsclr, execBsfront, execBsback, execBsword, execPqpush, execPqpop, execPqtop, execPqback, execPqat,
    execPqsize, execPqclr, execFqwr, execFqrd, execFqclr, execCtwr, execCtrd, execCtclr, execHtfreq, execHtfill,
    execHtbuild, execHtdict, execHtsetdata, execHtsetdict, execHtenc, execHtdec, execHtroot, execHtncnt,
    execNdrd, execIbinit, execIbread, execIbnext, execIblast, execIbend, execIbpos, execObinit, execObput,
    execObputx, execObflush, execObcnt]
  all_goals exact ⟨_, rfl⟩

/-- COMPRESS fails its valid-bit checks precisely, and every later check with the effect of 46_codec.md R348. -/
theorem execCompress_eq (s : State) :
    (s.srcValid = false ∧ execCompress s = .next (s.takeFault (.io 0))) ∨
    (s.srcValid = true ∧ s.snkValid = false ∧ execCompress s = .next (s.takeFault (.io 1))) ∨
    (s.srcValid = true ∧ s.snkValid = true ∧ execCompress s = s.compressFailed.imprecise s.compress) := by
  unfold execCompress
  cases s.srcValid <;> cases s.snkValid <;> simp

/-- DECOMPRESS fails its valid-bit checks precisely, and every later check with the effect of 46_codec.md R348. -/
theorem execDecompress_eq (s : State) :
    (s.srcValid = false ∧ execDecompress s = .next (s.takeFault (.io 0))) ∨
    (s.srcValid = true ∧ s.snkValid = false ∧ execDecompress s = .next (s.takeFault (.io 1))) ∨
    (s.srcValid = true ∧ s.snkValid = true ∧ execDecompress s = s.codecFailed.imprecise s.decompress) := by
  unfold execDecompress
  cases s.srcValid <;> cases s.snkValid <;> simp

end Sys2Proof.Machine
end

