-- ==== Sys2Proof/Laws/Tree.lean ====
section
/-! SUPPORT. Counting, leaves, the merge queue, encoding and insertion: what each shared operation of the tree answers
(44_huffman_tree.md). -/

namespace Sys2Proof.Machine

/-! ### Counting and leaves (44_huffman_tree.md R250 to R252) -/

theorem entry_foldl_count (l : List Byte) (f : Vector Word 256) (c : Byte) :
    entry (l.foldl (fun f c => setEntry f c (entry f c + 1)) f) c = entry f c + BitVec.ofNat 32 (l.count c) := by
  induction l generalizing f with
  | nil => simp
  | cons b t ih =>
    rw [List.foldl_cons, ih, entry_setEntry, List.count_cons]
    by_cases h : b = c
    · subst h
      simp only [if_true, beq_self_eq_true, BitVec.ofNat_add]
      rw [BitVec.add_assoc, BitVec.add_comm 1]
      rfl
    · simp [h]

/-- HTFREQ's table: each entry is the number of times its symbol occurs. -/
theorem entry_countBytes (l : List Byte) (c : Byte) : entry (countBytes l) c = BitVec.ofNat 32 (l.count c) := by
  rw [countBytes, entry_foldl_count, entry_replicate]
  simp

/-- HTFILL's leaves, symbol by symbol. -/
theorem fillLeaves_eq (freq : Vector Word 256) :
    fillLeaves freq = (symbols.filter fun c => entry freq c != 0).map fun c => leafNode (entry freq c) c := by
  rw [fillLeaves, entries_eq, List.filter_map, List.map_map]
  rfl

/-- A leaf of HTFILL: one for each symbol with a nonzero count. -/
theorem mem_fillLeaves {freq : Vector Word 256} {n : Node} :
    n ∈ fillLeaves freq ↔ ∃ c, entry freq c ≠ 0 ∧ n = leafNode (entry freq c) c := by
  simp only [fillLeaves_eq, List.mem_map, List.mem_filter, mem_symbols, bne_iff_ne, true_and, ne_eq]
  exact exists_congr fun c => and_congr_right fun _ => eq_comm

/-- The leaves stand in ascending symbol order. -/
theorem fillLeaves_sorted (freq : Vector Word 256) : (fillLeaves freq).Pairwise fun n m => n.sym.toNat < m.sym.toNat := by
  rw [fillLeaves_eq]
  exact List.pairwise_map.2 (symbols_sorted.filter _)

theorem fillLeaves_length (freq : Vector Word 256) : (fillLeaves freq).length ≤ 256 := by
  rw [fillLeaves_eq, List.length_map]
  exact (List.length_filter_le _ _).trans (by simp [symbols])

/-! ### The merge queue (44_huffman_tree.md R253, R254) -/

@[simp] theorem pushLeaves_length (i : Nat) (q : List PqEntry) (nodes : List Node) :
    (pushLeaves i q nodes).length = q.length + nodes.length := by
  induction nodes generalizing i q with
  | nil => rfl
  | cons n t ih => rw [pushLeaves, ih, pqInsert_length, List.length_cons]; omega

theorem pushLeaves_sorted (i : Nat) {q : List PqEntry} (h : pqSorted q) (nodes : List Node) :
    pqSorted (pushLeaves i q nodes) := by
  induction nodes generalizing i q with
  | nil => exact h
  | cons n t ih => exact ih _ (pqInsert_sorted _ h)

@[simp] theorem setParent_length (nodes : List Node) (i p : Nat) : (setParent nodes i p).length = nodes.length := by
  simp [setParent]

/-- With a pass for each merge the loop never stops short: it overflows, or joins everything into one root, one node for
each merge. -/
theorem mergeLoop_eq {fuel : Nat} {q : List PqEntry} (hq : q ≠ []) (hf : q.length ≤ fuel + 1) (nodes : List Node) :
    mergeLoop fuel q nodes = raise (.capacity 0xFFFFFFFF) ∨
    ∃ nodes' r, mergeLoop fuel q nodes = .ok (nodes', some r) ∧ nodes'.length + 1 = nodes.length + q.length := by
  induction fuel generalizing q nodes with
  | zero =>
    match q, hq, hf with
    | [r], _, _ => exact .inr ⟨nodes, _, rfl, rfl⟩
  | succ fuel ih =>
    match q, hq, hf with
    | [r], _, _ => exact .inr ⟨nodes, _, rfl, rfl⟩
    | a :: b :: t, _, hf =>
      rw [mergeLoop]
      split
      · exact .inl rfl
      · have hne : pqInsert t ⟨a.key + b.key, BitVec.ofNat 16 nodes.length⟩ ≠ [] := fun h => by
          have := pqInsert_length t ⟨a.key + b.key, BitVec.ofNat 16 nodes.length⟩
          rw [h] at this
          simp at this
        refine (ih hne (by simp only [pqInsert_length, List.length_cons] at hf ⊢; omega) _).imp id ?_
        rintro ⟨nodes', r, h, hl⟩
        refine ⟨nodes', r, h, ?_⟩
        simp only [pqInsert_length, List.length_append, setParent_length, List.length_cons, List.length_nil] at hl ⊢
        omega

/-- HTBUILD's tree over the leaves: CAPACITY, or the node count of 44_huffman_tree.md R254 to R256. -/
theorem buildTree_eq (nodes : List Node) :
    (nodes = [] ∧ buildTree nodes = .ok ([], none)) ∨
    (2 ≤ nodes.length ∧ buildTree nodes = raise (.capacity 0xFFFFFFFF)) ∨
    (nodes ≠ [] ∧ ∃ nodes' r, buildTree nodes = .ok (nodes', some r) ∧
      nodes'.length = max 2 (2 * nodes.length - 1)) := by
  match nodes with
  | [] => exact .inl ⟨rfl, rfl⟩
  | [n] => exact .inr (.inr ⟨by simp, _, _, rfl, rfl⟩)
  | a :: b :: t =>
    have hlen := pushLeaves_length 0 [] (a :: b :: t)
    have hne : pushLeaves 0 [] (a :: b :: t) ≠ [] := fun h => by rw [h] at hlen; simp at hlen
    rcases mergeLoop_eq (fuel := (a :: b :: t).length) hne (by rw [hlen]; simp) (a :: b :: t) with h | ⟨nodes', r, h, hl⟩
    · exact .inr (.inl ⟨by simp, h⟩)
    · refine .inr (.inr ⟨by simp, nodes', r, h, ?_⟩)
      rw [hlen] at hl
      simp only [List.length_cons, List.length_nil] at hl ⊢
      omega

/-! ### Encoding and insertion (44_huffman_tree.md R262, R265, R266) -/

/-- Encoding concatenates the codes, or raises MALFORMED(0x0F) at the first byte with no code. -/
theorem encodeBytes_eq (table : Vector Bits 256) (l : List Byte) :
    ((∀ c ∈ l, entry table c ≠ []) ∧ encodeBytes table l = .ok (l.flatMap (entry table))) ∨
    (∃ m c n, l = m ++ c :: n ∧ (∀ d ∈ m, entry table d ≠ []) ∧ entry table c = [] ∧
      encodeBytes table l = raise (.malformed 0x0F c.toNat)) := by
  induction l with
  | nil => exact .inl ⟨by simp, rfl⟩
  | cons c t ih =>
    rw [encodeBytes]
    by_cases h : entry table c = []
    · exact .inr ⟨[], c, t, rfl, by simp, h, by simp [h]⟩
    · rw [if_neg (fun he => h (List.length_eq_zero_iff.1 he))]
      rcases ih with ⟨hall, he⟩ | ⟨m, d, n, hl, hm, hd, he⟩
      · exact .inl ⟨by simpa [h] using hall, by simp only [he, List.flatMap_cons]⟩
      · exact .inr ⟨c :: m, d, n, by rw [hl]; rfl, by simpa [h] using hm, hd, by simp only [he, raise]⟩

/-- Inserting a code adds at most one node for each of its bits. -/
theorem insertCode_length {c : Byte} {code : Bits} {j : Nat} {nodes nodes' : List Node}
    (h : insertCode c code j nodes = .ok nodes') :
    nodes.length ≤ nodes'.length ∧ nodes'.length ≤ nodes.length + code.length := by
  induction code generalizing j nodes with
  | nil =>
    simp only [insertCode] at h
    split at h
    · cases h
    · split at h
      · cases h
      · cases h; simp
  | cons b t ih =>
    simp only [insertCode] at h
    split at h
    · cases h
    · split at h
      · cases h
      · split at h
        · have := ih h
          simp only [List.length_cons]
          omega
        · have := ih h
          simp only [List.length_append, List.length_set, List.length_cons, List.length_nil] at this ⊢
          omega

/-- The symbols with a code, symbol by symbol. -/
theorem usedSymbols_eq (table : Vector Bits 256) : usedSymbols table = symbols.filter fun c => entry table c != [] := by
  rw [usedSymbols, entries_eq, List.filter_map, List.map_map]
  exact List.map_id _

/-- The symbols HTSETDICT and COMPRESS go through are those of the container (46_codec.md R325). -/
theorem usedSymbols_eq_coded (table : Vector Bits 256) : usedSymbols table = coded table := by
  simp only [usedSymbols_eq, coded, symbols]
  refine List.filter_congr fun c _ => ?_
  rw [Bool.eq_iff_iff]
  simp

theorem mem_usedSymbols {table : Vector Bits 256} {c : Byte} : c ∈ usedSymbols table ↔ entry table c ≠ [] := by
  simp [usedSymbols_eq, mem_symbols]

end Sys2Proof.Machine
end

