-- ==== Sys2Proof/Tests/Slice0.lean ====
section
/-! SUPPORT. Tests: the ill-formed terms, the words of spec/95_test_vectors.md and of 30_encoding.md R116 through the
decoder, one step of each command with the result spec/95_test_vectors.md gives, and a state that meets the hypotheses of each
obligation. No expected value comes from the model. -/

namespace Sys2Proof.Tests

set_option Elab.async false

open Sys2Proof.Machine

/-- A reset core with IN_CAP = OUT_CAP = 64. -/
def base : State := { State.reset with inCap := 64, outCap := 64 }

/-- A state with X registers set. -/
def xs (l : List (XReg × Word)) (s : State) : State := l.foldl (fun s p => s.setX p.1 p.2) s

/-- A state with IN[0 .. IN_LEN) set. -/
def input (l : List Byte) (s : State) : State :=
  { s with inWin := ⟨(List.range l.length).zip l, 0⟩, inLen := BitVec.ofNat 32 l.length }

/-- A bit string, index 0 first, from zeros and ones. -/
def bits (l : List Nat) : Bits := l.map (· == 1)

/-- A state with bs1 set. -/
def bs1 (l : List Nat) (s : State) : State := s.setBs 1 (bits l)

/-- The state after a command word, accepted and executed (the state before it if the machine stops). -/
def ran (w : Word) (s : State) : State :=
  match (s.issued w).runCommand with
  | .next t => t
  | _ => s

/-- The error state: ERR, ERRCODE, ERRINFO, ERRCMD. -/
def error (s : State) : Bool × ErrCode × Word × Word := (s.status.err, s.status.errCode, s.errInfo, s.errCmd)

/-- The IN bytes "aaab" (spec/95_test_vectors.md). -/
def aaab : State := input [0x61, 0x61, 0x61, 0x62] (xs [(1, 0), (2, 4)] base)

/-- "aaab" after HTFREQ and HTFILL (spec/95_test_vectors.md L2.5, like the three states after it). -/
def aaabLeaves : State :=
  { aaab with
    freq := setEntry (setEntry base.freq 0x61 3) 0x62 1
    nodes := [⟨3, 0x61, true, none, none, none⟩, ⟨1, 0x62, true, none, none, none⟩]
    tstate := .leaves }

/-- "aaab" after HTBUILD. -/
def aaabTree : State :=
  { aaabLeaves with
    nodes := [⟨3, 0x61, true, none, none, some 2⟩, ⟨1, 0x62, true, none, none, some 2⟩,
      ⟨4, 0, false, some 0, some 1, none⟩]
    root := some 2
    tstate := .tree }

/-- "aaab" after HTDICT. -/
def aaabCoded : State :=
  { aaabTree with ct := setEntry (setEntry base.ct 0x61 (bits [0])) 0x62 (bits [1]), tstate := .coded }

/-- "aaab" after HTSETDICT. -/
def aaabDict : State :=
  { aaabCoded with
    nodes := [⟨0, 0, false, some 1, some 2, none⟩, ⟨0, 0x61, true, none, none, some 0⟩,
      ⟨0, 0x62, true, none, none, some 0⟩]
    root := some 0
    tstate := .dict }

/-- The queue of spec/95_test_vectors.md L2.4 after its three pushes. -/
def queue : State := { base with pq := [⟨1, 2⟩, ⟨1, 3⟩, ⟨3, 0⟩] }

/-! ### Ill-formed terms (30_encoding.md R118 (3)) -/

theorem test_illFormed_selector5 : WellFormed (.ndrd 5 1 5) = false := by decide +kernel

theorem test_illFormed_selector15 : WellFormed (.ndrd 0 0 15) = false := by decide +kernel

/-! ### Decoding: words of spec/95_test_vectors.md, or written from 30_encoding.md R111, R112 and R116 -/

/-- Field by field from 30_encoding.md R111: op 0x3B, a 1, b 2, c 1, d 3, e 4, rsv 0, v 0. -/
theorem test_decode_bitByBit :
    decodeTableWord 32 0b00111011_0001_0010_0001_0011_0100_000_0 = some (.bsinsr 1 2 1 3 4) := by decide +kernel

theorem test_decode_control :
    ∀ p ∈ ([(0x00000000, .nop), (0x01000000, .srst), (0x1010FFFF, .li 1 0xFFFF), (0x11101234, .lui 1 0x1234),
      (0x12210000, .mov 2 1)] : List (Nat × Instr)), decodeTableWord 32 p.1 = some p.2 := by decide +kernel

theorem test_decode_bitPrimitives :
    ∀ p ∈ ([(0x20123000, .bget 1 2 3), (0x21123001, .bset 1 2 3 true), (0x22123401, .bins 1 2 3 4 true),
      (0x23123400, .bera 1 2 3 4)] : List (Nat × Instr)), decodeTableWord 32 p.1 = some p.2 := by decide +kernel

theorem test_decode_sequence :
    ∀ p ∈ ([(0x30010000, .bsnew 0 1 false), (0x31123000, .bsfrom 1 2 3), (0x32210000, .bsmov 2 1),
      (0x33110000, .bssize 1 1), (0x34110000, .bsempty 1 1), (0x35112000, .bsat 1 1 2), (0x36112000, .bsgetu 1 1 2),
      (0x37120001, .bssetat 1 2 true), (0x38120001, .bssetu 1 2 true), (0x39123001, .bsins 1 2 3 true),
      (0x3A120000, .bsins1 1 2 false)] : List (Nat × Instr)), decodeTableWord 32 p.1 = some p.2 := by decide +kernel

theorem test_decode_sequence2 :
    ∀ p ∈ ([(0x3B121340, .bsinsr 1 2 1 3 4), (0x3C123000, .bsera 1 2 3), (0x3D120000, .bsera1 1 2),
      (0x3E100001, .bspush 1 true), (0x3F100000, .bspop 1), (0x40120000, .bsresize 1 2 false), (0x41100000, .bsclr 1),
      (0x42110000, .bsfront 1 1), (0x43110000, .bsback 1 1), (0x44110000, .bsword 1 1)] : List (Nat × Instr)),
      decodeTableWord 32 p.1 = some p.2 := by decide +kernel

theorem test_decode_queue :
    ∀ p ∈ ([(0x50120000, .pqpush 1 2), (0x51000000, .pqpop), (0x52340000, .pqtop 3 4), (0x53340000, .pqback 3 4),
      (0x54345000, .pqat 3 4 5), (0x55300000, .pqsize 3), (0x56000000, .pqclr)] : List (Nat × Instr)),
      decodeTableWord 32 p.1 = some p.2 := by decide +kernel

theorem test_decode_tree :
    ∀ p ∈ ([(0x60120000, .fqwr 1 2), (0x61310000, .fqrd 3 1), (0x62000000, .fqclr), (0x63110000, .ctwr 1 1),
      (0x64210000, .ctrd 2 1), (0x65000000, .ctclr), (0x68120000, .htfreq 1 2), (0x69000000, .htfill),
      (0x6A000000, .htbuild)] : List (Nat × Instr)), decodeTableWord 32 p.1 = some p.2 := by decide +kernel

theorem test_decode_tree2 :
    ∀ p ∈ ([(0x6B000000, .htdict), (0x6C120000, .htsetdata 1 2), (0x6D000000, .htsetdict), (0x6E120000, .htenc 1 2),
      (0x6F300000, .htdec 3), (0x70400000, .htroot 4), (0x71400000, .htncnt 4), (0x72510400, .ndrd 5 1 4)] :
      List (Nat × Instr)), decodeTableWord 32 p.1 = some p.2 := by decide +kernel

theorem test_decode_cursors :
    ∀ p ∈ ([(0x80100000, .ibinit 1), (0x81200000, .ibread 2), (0x82000000, .ibnext), (0x83300000, .iblast 3),
      (0x84300000, .ibend 3), (0x85300000, .ibpos 3), (0x88000000, .obinit), (0x89000001, .obput true),
      (0x8A100000, .obputx 1), (0x8B200000, .obflush 2), (0x8C200000, .obcnt 2)] : List (Nat × Instr)),
      decodeTableWord 32 p.1 = some p.2 := by decide +kernel

theorem test_decode_codec :
    ∀ p ∈ ([(0x90000000, .compress), (0x91000000, .decompress)] : List (Nat × Instr)),
      decodeTableWord 32 p.1 = some p.2 := by decide +kernel

/-- The ILLEGAL words of spec/95_test_vectors.md L2.1. -/
theorem test_decode_illegal :
    ∀ w ∈ ([0x00000001, 0x02000000, 0xFF000000, 0x10110005, 0x12211000, 0x30010002, 0x72510500] : List Nat),
      decodeTableWord 32 w = none := by decide +kernel

/-! ### Control and moves (spec/95_test_vectors.md L2.1) -/

theorem test_nop_status : (ran 0x00000000 base).statusWord = 0x0002 := by decide +kernel

theorem test_illegal_errcmd : error (ran 0x00000001 base) = (true, .illegal, 0, 0x00000001) := by decide +kernel

theorem test_srst_after_setdata :
    let t := ran 0x01000000 { aaabCoded with ctrl := 3, outLen := 15 }
    (t.nodes, t.root, t.tstate, entry t.ct 0x61, entry t.freq 0x61) = ([], none, .empty, [], 0) ∧
      (t.ctrl, t.outLen, t.getX 2, t.statusWord) = (3, 15, 4, 2) := by decide +kernel

theorem test_li_no_sign_extension : (ran 0x1010FFFF base).getX 1 = 0x0000FFFF := by decide +kernel

theorem test_lui_keeps_low_half : (ran 0x11101234 (xs [(1, 0x0000FFFF)] base)).getX 1 = 0x1234FFFF := by decide +kernel

theorem test_mov : (ran 0x12210000 (xs [(1, 0x1234FFFF)] base)).getX 2 = 0x1234FFFF := by decide +kernel

/-! ### Bit primitives (spec/95_test_vectors.md L2.2) -/

theorem test_bget_msb : (ran 0x20123000 (xs [(2, 0x80000000), (3, 0)] base)).getX 1 = 1 := by decide +kernel

theorem test_bget_index32 :
    error (ran 0x20123000 (xs [(2, 0x80000000), (3, 32)] base)) = (true, .outOfRange, 32, 0x20123000) := by
  decide +kernel

theorem test_bset_msb : (ran 0x21123001 (xs [(3, 0)] base)).getX 1 = 0x80000000 := by decide +kernel

theorem test_bset_lsb : (ran 0x21123000 (xs [(2, 0xFFFFFFFF), (3, 31)] base)).getX 1 = 0xFFFFFFFE := by decide +kernel

theorem test_bins_middle :
    (ran 0x22123401 (xs [(2, 0x12345678), (3, 4), (4, 8)] base)).getX 1 = 0x1FF23456 := by decide +kernel

theorem test_bins_index_first :
    error (ran 0x22123400 (xs [(3, 33), (4, 0)] base)) = (true, .outOfRange, 33, 0x22123400) := by decide +kernel

theorem test_bera_middle :
    (ran 0x23123400 (xs [(2, 0x12345678), (3, 4), (4, 8)] base)).getX 1 = 0x14567800 := by decide +kernel

theorem test_bera_count :
    error (ran 0x23123400 (xs [(2, 0xFFFFFFFF), (3, 28), (4, 5)] base)) = (true, .outOfRange, 5, 0x23123400) := by
  decide +kernel

/-! ### Bit Sequence Container (spec/95_test_vectors.md L2.3) -/

theorem test_bsnew : (ran 0x30010000 (xs [(1, 4)] base)).getBs 0 = bits [0, 0, 0, 0] := by decide +kernel

theorem test_bsfrom : (ran 0x31123000 (xs [(2, 0xA0000000), (3, 4)] base)).getBs 1 = bits [1, 0, 1, 0] := by
  decide +kernel

theorem test_bsmov : (ran 0x32210000 (bs1 [1, 0, 1, 0] base)).getBs 2 = bits [1, 0, 1, 0] := by decide +kernel

theorem test_bssize : (ran 0x33110000 (bs1 [1, 0, 1, 0] base)).getX 1 = 4 := by decide +kernel

theorem test_bsempty_no : (ran 0x34110000 (bs1 [1, 0, 1, 0] base)).getX 1 = 0 := by decide +kernel

theorem test_bsempty_yes : (ran 0x34110000 base).getX 1 = 1 := by decide +kernel

theorem test_bsat : (ran 0x35112000 (xs [(2, 2)] (bs1 [1, 0, 1, 0] base))).getX 1 = 1 := by decide +kernel

theorem test_bsat_end :
    error (ran 0x35112000 (xs [(2, 4)] (bs1 [1, 0, 1, 0] base))) = (true, .outOfRange, 4, 0x35112000) := by
  decide +kernel

theorem test_bsgetu_inside : (ran 0x36112000 (xs [(2, 3)] (bs1 [1, 0, 1, 0] base))).getX 1 = 0 := by decide +kernel

theorem test_bsgetu_beyond : (ran 0x36112000 (xs [(2, 10)] (bs1 [1, 0, 1, 0] base))).statusWord = 2 := by decide +kernel

theorem test_bssetat : (ran 0x37120001 (xs [(2, 1)] (bs1 [1, 0, 1, 0] base))).getBs 1 = bits [1, 1, 1, 0] := by
  decide +kernel

theorem test_bssetu_beyond : (ran 0x38120001 (xs [(2, 6)] (bs1 [1, 0, 1, 0] base))).getBs 1 = bits [1, 0, 1, 0] := by
  decide +kernel

theorem test_bsins_middle :
    (ran 0x39123001 (xs [(2, 1), (3, 2)] (bs1 [1, 0, 1, 0] base))).getBs 1 = bits [1, 1, 1, 0, 1, 0] := by
  decide +kernel

theorem test_bsins_position_first :
    error (ran 0x39123001 (xs [(2, 5), (3, 1)] (bs1 [1, 0, 1, 0] base))) = (true, .outOfRange, 5, 0x39123001) := by
  decide +kernel

theorem test_bsins1_front : (ran 0x3A120000 (xs [(2, 0)] (bs1 [1, 0, 1, 0] base))).getBs 1 = bits [0, 1, 0, 1, 0] := by
  decide +kernel

theorem test_bsinsr_self :
    (ran 0x3B121340 (xs [(2, 2), (3, 0), (4, 2)] (bs1 [1, 0] base))).getBs 1 = bits [1, 0, 1, 0] := by decide +kernel

theorem test_bsinsr_backwards :
    error (ran 0x3B121340 (xs [(2, 0), (3, 2), (4, 1)] (bs1 [1, 0] base))) = (true, .outOfRange, 2, 0x3B121340) := by
  decide +kernel

theorem test_bsera : (ran 0x3C123000 (xs [(2, 1), (3, 3)] (bs1 [1, 1, 1, 0, 1, 0] base))).getBs 1 = bits [1, 0, 1, 0] := by
  decide +kernel

theorem test_bsera1 : (ran 0x3D120000 (xs [(2, 3)] (bs1 [1, 0, 1, 0] base))).getBs 1 = bits [1, 0, 1] := by
  decide +kernel

theorem test_bspush : (ran 0x3E100001 (bs1 [1, 0, 1, 0] base)).getBs 1 = bits [1, 0, 1, 0, 1] := by decide +kernel

theorem test_bspop : (ran 0x3F100000 (bs1 [1, 0, 1, 0] base)).getBs 1 = bits [1, 0, 1] := by decide +kernel

theorem test_bsresize_longer :
    (ran 0x40120000 (xs [(2, 6)] (bs1 [1, 0, 1, 0] base))).getBs 1 = bits [1, 0, 1, 0, 0, 0] := by decide +kernel

theorem test_bsresize_shorter : (ran 0x40120000 (xs [(2, 1)] (bs1 [1, 0, 1, 0] base))).getBs 1 = bits [1] := by
  decide +kernel

theorem test_bsclr : (ran 0x41100000 (bs1 [1, 0, 1, 0] base)).getBs 1 = [] := by decide +kernel

theorem test_bsfront : (ran 0x42110000 (bs1 [1, 0, 1, 0] base)).getX 1 = 1 := by decide +kernel

theorem test_bsback : (ran 0x43110000 (bs1 [1, 0, 1, 0] base)).getX 1 = 0 := by decide +kernel

theorem test_bsword : (ran 0x44110000 (bs1 [1, 0, 1, 0] base)).getX 1 = 0xA0000000 := by decide +kernel

/-! ### Priority queue (spec/95_test_vectors.md L2.4) -/

theorem test_pqpush_equal_key :
    (ran 0x50120000 (xs [(1, 1), (2, 3)] { base with pq := [⟨1, 2⟩, ⟨3, 0⟩] })).pq = [⟨1, 2⟩, ⟨1, 3⟩, ⟨3, 0⟩] := by
  decide +kernel

theorem test_pqpush_val :
    error (ran 0x50120000 (xs [(1, 1), (2, 0x10000)] base)) = (true, .outOfRange, 0x10000, 0x50120000) := by
  decide +kernel

theorem test_pqpop : (ran 0x51000000 queue).pq = [⟨1, 3⟩, ⟨3, 0⟩] := by decide +kernel

theorem test_pqtop : ((ran 0x52340000 queue).getX 3, (ran 0x52340000 queue).getX 4) = (1, 2) := by decide +kernel

theorem test_pqtop_same_register : (ran 0x52330000 queue).getX 3 = 2 := by decide +kernel

theorem test_pqback : ((ran 0x53340000 queue).getX 3, (ran 0x53340000 queue).getX 4) = (3, 0) := by decide +kernel

theorem test_pqat : (ran 0x54345000 (xs [(5, 1)] queue)).getX 4 = 3 := by decide +kernel

theorem test_pqat_end : error (ran 0x54345000 (xs [(5, 3)] queue)) = (true, .outOfRange, 3, 0x54345000) := by
  decide +kernel

theorem test_pqsize : (ran 0x55300000 queue).getX 3 = 3 := by decide +kernel

theorem test_pqclr : (ran 0x56000000 queue).pq = [] := by decide +kernel

/-! ### Tables and tree (spec/95_test_vectors.md L2.5) -/

theorem test_fqwr : entry (ran 0x60120000 (xs [(1, 0x61), (2, 3)] base)).freq 0x61 = 3 := by decide +kernel

theorem test_fqwr_symbol : error (ran 0x60120000 (xs [(1, 0x100)] base)) = (true, .outOfRange, 256, 0x60120000) := by
  decide +kernel

theorem test_fqrd : (ran 0x61310000 (xs [(1, 0x61)] aaabLeaves)).getX 3 = 3 := by decide +kernel

theorem test_fqclr : entry (ran 0x62000000 aaabLeaves).freq 0x61 = 0 := by decide +kernel

theorem test_ctwr :
    let t := ran 0x63110000 (xs [(1, 0x41)] (bs1 [1, 0] base))
    entry t.ct 0x41 = bits [1, 0] ∧ t.tstate = .empty := by decide +kernel

theorem test_ctrd : (ran 0x64210000 (xs [(1, 0x62)] aaabCoded)).getBs 2 = bits [1] := by decide +kernel

theorem test_ctclr : entry (ran 0x65000000 aaabCoded).ct 0x61 = [] := by decide +kernel

theorem test_htfreq : let t := ran 0x68120000 aaab
    (entry t.freq 0x61, entry t.freq 0x62, entry t.freq 0x63) = (3, 1, 0) := by decide +kernel

theorem test_htfreq_window :
    error (ran 0x68120000 (xs [(1, 2), (2, 3)] aaab)) = (true, .outOfRange, 3, 0x68120000) := by decide +kernel

theorem test_htfill : let t := ran 0x69000000 { aaabLeaves with nodes := [], tstate := .empty }
    (t.nodes, t.root, t.tstate) = (aaabLeaves.nodes, none, .leaves) := by decide +kernel

theorem test_htbuild : let t := ran 0x6A000000 aaabLeaves
    (t.nodes, t.root, t.tstate, t.pq) = (aaabTree.nodes, some 2, .tree, []) := by decide +kernel

theorem test_htbuild_state : error (ran 0x6A000000 aaabTree) = (true, .sequence, 2, 0x6A000000) := by decide +kernel

theorem test_htdict : let t := ran 0x6B000000 aaabTree
    (entry t.ct 0x61, entry t.ct 0x62, entry t.ct 0x63, t.tstate) = (bits [0], bits [1], [], .coded) := by
  decide +kernel

theorem test_htdict_state : error (ran 0x6B000000 aaabLeaves) = (true, .sequence, 1, 0x6B000000) := by decide +kernel

theorem test_htsetdata : let t := ran 0x6C120000 { aaab with pq := [⟨1, 3⟩, ⟨3, 0⟩] }
    (t.nodes.length, t.root, entry t.ct 0x61, entry t.ct 0x62, t.pq) = (3, some 2, bits [0], bits [1], []) := by
  decide +kernel

theorem test_htsetdict : let t := ran 0x6D000000 aaabCoded
    (t.nodes, t.root, t.tstate) = (aaabDict.nodes, some 0, .dict) := by decide +kernel

theorem test_htsetdict_clash :
    error (ran 0x6D000000 { base with ct := setEntry (setEntry base.ct 0x61 (bits [0])) 0x62 (bits [0, 1]) }) =
      (true, .malformed, 0x0B000062, 0x6D000000) := by decide +kernel

theorem test_htenc : let t := ran 0x6E120000 aaabCoded
    (t.obc, t.outLen) = (⟨0x10, 4⟩, 0) := by decide +kernel

theorem test_htenc_no_code :
    error (ran 0x6E120000 { aaab with ct := setEntry base.ct 0x61 (bits [0]) }) =
      (true, .malformed, 0x0F000062, 0x6E120000) := by decide +kernel

theorem test_htdec : let t := ran 0x6F300000 (xs [(3, 4)] (input [0x10] { aaabDict with ibc := ⟨false, 0, 0, 0x10⟩ }))
    (t.outBytes 0 4, t.outLen, t.ibc) = ([0x61, 0x61, 0x61, 0x62], 4, ⟨false, 0, 4, 0x10⟩) := by decide +kernel

theorem test_htdec_exhausted :
    error (ran 0x6F300000 (xs [(3, 9)] (input [0x10] { aaabDict with ibc := ⟨false, 0, 0, 0x10⟩ }))) =
      (true, .malformed, 0x0E000008, 0x6F300000) := by decide +kernel

theorem test_htroot_none : (ran 0x70400000 base).getX 4 = 0xFFFF := by decide +kernel

theorem test_htncnt : (ran 0x71400000 aaabTree).getX 4 = 3 := by decide +kernel

theorem test_ndrd_symbol : (ran 0x72510100 (xs [(1, 0)] aaabTree)).getX 5 = 0x161 := by decide +kernel

theorem test_ndrd_parent : (ran 0x72510400 (xs [(1, 2)] aaabTree)).getX 5 = 0xFFFF := by decide +kernel

/-! ### Bit cursors (spec/95_test_vectors.md L2.6) -/

/-- IN = A5 3C. -/
def stream : State := input [0xA5, 0x3C] base

theorem test_ibinit_start : (ran 0x80100000 (xs [(1, 0)] stream)).ibc = ⟨false, 0, 0, 0xA5⟩ := by decide +kernel

theorem test_ibinit_end : (ran 0x80100000 (xs [(1, 0xFFFFFFFF)] stream)).ibc = ⟨true, 2, 0, 0⟩ := by decide +kernel

theorem test_ibread : (ran 0x81200000 { stream with ibc := ⟨false, 0, 0, 0xA5⟩ }).getX 2 = 1 := by decide +kernel

theorem test_ibread_latched : (ran 0x81200000 { stream with ibc := ⟨false, 1, 7, 0x3C⟩, inWin := ⟨[(1, 0xFF)], 0⟩ }).getX 2 =
    0 := by decide +kernel

theorem test_ibnext_byte : (ran 0x82000000 { stream with ibc := ⟨false, 0, 7, 0xA5⟩ }).ibc = ⟨false, 1, 0, 0x3C⟩ := by
  decide +kernel

theorem test_ibnext_end : (ran 0x82000000 { stream with ibc := ⟨false, 1, 7, 0x3C⟩ }).ibc = ⟨true, 2, 0, 0⟩ := by
  decide +kernel

theorem test_iblast_yes : (ran 0x83300000 { stream with ibc := ⟨false, 1, 3, 0x3C⟩ }).getX 3 = 1 := by decide +kernel

theorem test_iblast_end : (ran 0x83300000 { stream with ibc := ⟨true, 2, 0, 0⟩ }).getX 3 = 0 := by decide +kernel

theorem test_ibend_reset : (ran 0x84300000 base).getX 3 = 1 := by decide +kernel

theorem test_ibpos : (ran 0x85300000 { stream with ibc := ⟨false, 1, 3, 0x3C⟩ }).getX 3 = 11 := by decide +kernel

theorem test_obinit : (ran 0x88000000 { base with obc := ⟨0x80, 1⟩ }).obc = ⟨0, 0⟩ := by decide +kernel

theorem test_obput_completes_byte : let t := ran 0x89000001 { base with obc := ⟨0xA4, 7⟩ }
    (t.outByte 0, t.outLen, t.obc) = (0xA5, 1, ⟨0, 0⟩) := by decide +kernel

theorem test_obput_full :
    error (ran 0x89000001 { base with obc := ⟨0xA4, 7⟩, outLen := 64 }) = (true, .io, 2, 0x89000001) := by
  decide +kernel

theorem test_obputx_value : error (ran 0x8A100000 (xs [(1, 2)] base)) = (true, .outOfRange, 2, 0x8A100000) := by
  decide +kernel

theorem test_obflush : let t := ran 0x8B200000 { base with obc := ⟨0x10, 4⟩ }
    (t.outByte 0, t.outLen, t.getX 2, t.pad, t.obc) = (0x10, 1, 4, 4, ⟨0, 0⟩) := by decide +kernel

theorem test_obflush_empty : let t := ran 0x8B200000 { base with pad := 3 }
    (t.outLen, t.getX 2, t.pad) = (0, 0, 0) := by decide +kernel

theorem test_obcnt : (ran 0x8C200000 { base with obc := ⟨0xE0, 3⟩ }).getX 2 = 3 := by decide +kernel

/-! ### Codec (spec/95_test_vectors.md L1.2, L2.7) -/

theorem test_compress_single : let t := ran 0x90000000 (input [0x7A, 0x7A, 0x7A, 0x7A] { base with ctrl := 3 })
    t.outBytes 0 t.outLen.toNat = [0x48, 0x41, 0x46, 0x46, 0x01, 0x00, 0x0B, 0x00, 0x7A, 0x01, 0x00, 0x04, 0x00] := by
  decide +kernel

theorem test_compress_does_not_fit : let t := ran 0x90000000 { aaab with ctrl := 3, outCap := 14 }
    error t = (true, .io, 2, 0x90000000) ∧ t.outLen = 0 ∧ t.ibc = ⟨true, 0, 0, 0⟩ ∧ t.nodes = [] := by decide +kernel

theorem test_decompress_padding : let t := ran 0x91000000 (input [0x48, 0x41, 0x46, 0x46, 0x02, 0x00, 0x0D, 0x00, 0x61, 0x01,
      0x62, 0x01, 0x7F, 0x04, 0x1F] { base with ctrl := 3 })
    t.outBytes 0 t.outLen.toNat = [0x61, 0x61, 0x61, 0x62] := by decide +kernel

theorem test_decompress_mid_walk : error (ran 0x91000000 (input [0x48, 0x41, 0x46, 0x46, 0x03, 0x00, 0x0F, 0x00, 0x61, 0x02,
      0x62, 0x02, 0x63, 0x01, 0x18, 0x07, 0x00] { base with ctrl := 3 })) = (true, .malformed, 0x0E000001, 0x91000000) := by
  decide +kernel

/-! ### The host (spec/95_test_vectors.md L2.8) -/

/-- A 16-bit and a misaligned read of a window while BUSY = 1 are draws (70_reset_and_hazards.md R410). -/
theorem test_host_busy_window_reads : let s := base.issued 0
    s.hostOp (.read .half 0x40000000) = { s with rdata := Config.drawWord 2, draws := 3 } ∧
      s.hostOp (.read .word 0x80000001) = { s with rdata := Config.drawWord 2, draws := 3 } := ⟨rfl, rfl⟩

theorem test_host_error_blocks_commands : let t := ran 0x35112000 base
    t.statusWord = 0x0104 ∧ (t.hostOp (.write .word 0x014 0)).statusWord = 0x010C := by decide +kernel

theorem test_host_unlisted_offset : base.hostOp (.write .word 0x030 0x1234) = base := rfl

theorem test_host_length_above_capacity : base.hostOp (.write .word 0x018 65) = base := rfl

theorem test_host_half_read : ({ base with ctrl := 3, rdata := 7 }.hostOp (.read .half 0x004)).rdata = 0 := by
  decide +kernel

/-! ### Witnesses: for each obligation, states and operands that meet its hypotheses, clause by clause -/

/-- Whether an answer is a next state with a property. -/
def answers (a : Answer) (p : State → Bool) : Bool :=
  match a with
  | .next t => p t
  | _ => false

theorem answers_next {a : Answer} {p : State → Bool} (h : answers a p = true) : ∃ t, a = .next t ∧ p t = true := by
  unfold answers at h
  split at h
  · exact ⟨_, rfl, h⟩
  · exact absurd h (by decide)

/-- A next state that carries a decidable property. -/
theorem next_with {a : Answer} {p : State → Prop} [DecidablePred p] (h : answers a (fun t => decide (p t)) = true) :
    ∃ t, a = .next t ∧ p t := by
  obtain ⟨t, ha, hp⟩ := answers_next h
  exact ⟨t, ha, of_decide_eq_true hp⟩

/-- A core that executes the NOP it has accepted. -/
def busyNop : State := base.issued 0

theorem base_inv : Inv base := inv_of_check (by decide +kernel)

theorem busyNop_inv : Inv busyNop := inv_of_check (by decide +kernel)

theorem aaab_inv : Inv aaab := inv_of_check (by decide +kernel)

theorem aaab_arenas : Arena base ∧ Arena aaab ∧ Arena aaabLeaves ∧ Arena aaabTree ∧ Arena aaabCoded ∧ Arena aaabDict :=
  ⟨arena_of_check (by decide +kernel), arena_of_check (by decide +kernel), arena_of_check (by decide +kernel),
    arena_of_check (by decide +kernel), arena_of_check (by decide +kernel), arena_of_check (by decide +kernel)⟩

theorem witness_DecodeOfEncode :
    WellFormed (.bsinsr 15 15 15 15 15) = true ∧ WellFormed (.ndrd 15 15 4) = true ∧
      WellFormed (.li 15 0xFFFF) = true := by decide

theorem witness_EncodeOfDecode : decode 0x72FF0400 = .ok (.ndrd 15 15 4) := rfl

/-- One word for each of the three reasons, at the ends of a reserved range. -/
theorem witness_IllegalWordsOnlyFault :
    illegalWord (base.issued 0x02000000).cmd ∧ illegalWord (base.issued 0xFF000000).cmd ∧
      illegalWord (base.issued 0x00000001).cmd ∧ illegalWord (base.issued 0x72510500).cmd := by
  refine ⟨.inl ?_, .inl ?_, .inr (.inl ?_), .inr (.inr ?_)⟩
  · unfold reservedOp; decide
  · unfold reservedOp; decide
  · decide +kernel
  · decide +kernel

/-- The sequencer moves with no access left to land and with no access pending; the host moves while BUSY = 0, while an
access may still land, and while reset is asserted. -/
theorem witness_StepRunsTheDecodedCommand :
    (busyNop.resetPin = false ∧ busyNop.status.busy = true ∧ busyNop.busyLeft = 0 ∧ decode busyNop.cmd = .ok .nop) ∧
    ({ busyNop with busyLeft := 3 }.host = [] ∧ WellFormed .nop = true) ∧
    ({ base with host := [.read .word 0] }.status.busy = false) ∧
    ({ busyNop with busyLeft := 1, host := [.read .word 0] }.busyLeft ≠ 0) ∧
    ({ base with resetPin := true, host := [.reset false] }.resetPin = true) ∧
    (base.host = [] ∧ base.status.busy = false) := by decide +kernel

theorem witness_CommandAcceptance :
    (busyNop.resetPin = false ∧ busyNop.status.busy = true) ∧
    ((ran 0x00000001 base).resetPin = false ∧ (ran 0x00000001 base).status.err = true) ∧
    (base.resetPin = false ∧ base.status.busy = false ∧ base.status.err = false) ∧
    (∃ t, busyNop.runCommand = .next t) := by
  refine ⟨by decide, by decide +kernel, by decide, ?_⟩
  obtain ⟨t, h, -⟩ := next_with (a := busyNop.runCommand) (p := fun t => t.status.done = true) (by decide +kernel)
  exact ⟨t, h⟩

/-- The first and the last listed register, the first and the last byte of IN, the ends of the unlisted ranges, the first
address outside the block, the addresses on both sides of IN, the first of OUT. -/
theorem witness_BusyHazard :
    (busyNop.resetPin = false ∧ busyNop.status.busy = true) ∧
    (listedOffset (0x000 : Word).toNat ∧ listedOffset (0x028 : Word).toNat ∧ listedOffset (0x040 : Word).toNat ∧
      listedOffset (0x07C : Word).toNat) ∧
    (0x40000000 ≤ (0x40000000 : Word).toNat ∧ (0x4000003F : Word).toNat < 0x40000000 + busyNop.inCap.val) ∧
    (¬ listedOffset (0x02C : Word).toNat ∧ ¬ listedOffset (0xFFF : Word).toNat ∧ ¬ listedOffset (0x07D : Word).toNat) ∧
    ((0xFFC : Word).toNat < 0x1000 ∧ (0xFFC : Word).toNat % 4 = 0 ∧ (0x004 : Word) ≠ 0x000) ∧
    (0x1000 ≤ (0x1000 : Word).toNat ∧ ¬ (0x40000000 ≤ (0x3FFFFFFF : Word).toNat) ∧
      ¬ ((0x40000040 : Word).toNat < 0x40000000 + busyNop.inCap.val) ∧
      ¬ ((0x80000000 : Word).toNat < 0x40000000 + busyNop.inCap.val)) := by
  unfold listedOffset
  decide +kernel

theorem witness_AccessesOutsideTheMap :
    (base.resetPin = false ∧ base.status.busy = false) ∧ (busyNop.resetPin = false ∧ busyNop.status.busy = true) ∧
    (Width.half ≠ .word ∧ (0xFFE : Word).toNat % 4 ≠ 0) ∧
    (¬ listedOffset (0x02C : Word).toNat ∧ ¬ listedOffset (0x080 : Word).toNat) ∧
    (0x1000 ≤ (0x1000 : Word).toNat) ∧
    (¬ (0x40000000 ≤ (0x3FFFFFFF : Word).toNat) ∧ ¬ ((0x40000040 : Word).toNat < 0x40000000 + base.inCap.val)) ∧
    (¬ (0x80000000 ≤ (0x7FFFFFFF : Word).toNat) ∧ ¬ ((0x80000040 : Word).toNat < 0x80000000 + base.outCap.val)) := by
  unfold listedOffset
  decide +kernel

theorem witness_RegisterBlockAccess :
    base.resetPin = false ∧ base.status.busy = false ∧ (64 : Word).toNat ≤ base.inCap.val ∧
      base.inCap.val < (65 : Word).toNat ∧ (64 : Word).toNat ≤ base.outCap.val ∧ base.outCap.val < (65 : Word).toNat := by
  decide

theorem witness_StatusRegister : base.resetPin = false ∧ busyNop.resetPin = false ∧ base.status.busy = false := by decide

/-- The last word and the last byte of each window. -/
theorem witness_WindowAccess :
    aaab.inWin.cells.wf ∧ aaab.resetPin = false ∧ aaab.status.busy = false ∧ 63 < aaab.inCap.val ∧ 60 % 4 = 0 ∧
      63 % 4 ≠ 0 ∧ 63 < aaab.outCap.val ∧ ∃ t, exec .nop aaab = .next t :=
  ⟨by decide +kernel, rfl, rfl, by decide +kernel, rfl, by decide, by decide +kernel, _, rfl⟩

/-- Asserted, released, driven deasserted once more; an access while reset is asserted. -/
theorem witness_PowerOnReset :
    { base with resetPin := true }.resetPin = true ∧ base.resetPin = false ∧
    ({ base with resetPin := true, host := [.read .word 0] }.resetPin = true) ∧
      { base with resetPin := true, host := [.read .word 0] }.host = .read .word 0 :: [] := by decide +kernel

theorem witness_StepKeepsInv : Inv busyNop ∧ ∃ t, step busyNop = .next t := by
  refine ⟨busyNop_inv, ?_⟩
  obtain ⟨t, h, -⟩ := next_with (a := step busyNop) (p := fun t => t.status.done = true) (by decide +kernel)
  exact ⟨t, h⟩

theorem witness_StepKeepsArena : Inv (aaabTree.issued 0x6B000000) ∧ Arena (aaabTree.issued 0x6B000000) ∧
    ∃ t, step (aaabTree.issued 0x6B000000) = .next t ∧ t.tstate = .coded :=
  ⟨inv_of_check (by decide +kernel), arena_of_check (by decide +kernel), next_with (by decide +kernel)⟩

theorem witness_NoStepStops : Arena busyNop ∧ Arena (aaabTree.issued 0x6B000000) :=
  ⟨arena_of_check (by decide +kernel), arena_of_check (by decide +kernel)⟩

theorem witness_CommandEnds : Inv { busyNop with busyLeft := 2, host := [.read .word 0, .reset false] } ∧
    Arena { busyNop with busyLeft := 2, host := [.read .word 0, .reset false] } ∧ busyNop.resetPin = false ∧
    busyNop.status.busy = true ∧ HostOp.reset true ∉ [HostOp.read .word 0, .reset false] :=
  ⟨inv_of_check (by decide +kernel), arena_of_check (by decide +kernel), rfl, rfl, by decide⟩

/-- A command that completes and one that faults. -/
theorem witness_CommandsCompleteOrFaultPrecisely :
    (∃ t, exec .nop base = .next t ∧ t.status.done = true) ∧ (∃ t, exec .pqpop base = .next t ∧ t.status.err = true) :=
  ⟨next_with (by decide +kernel), next_with (by decide +kernel)⟩

theorem witness_CommandsRaiseOnlyListedCodes : WellFormed .pqpop = true ∧ Inv base ∧ base.status.err = false ∧
    ∃ t, exec .pqpop base = .next t ∧ t.status.err = true :=
  ⟨rfl, base_inv, rfl, next_with (by decide +kernel)⟩

theorem witness_OnlyListedCommandsWriteX :
    ((∃ t, exec (.pqtop 3 4) queue = .next t ∧ t.status.err = false) ∧ (5 : XReg) ∉ xDests (.pqtop 3 4)) ∧
    (base.status.err = false ∧ ∃ t, exec (.pqtop 3 4) base = .next t ∧ t.status.err = true) ∧
    (queue.status.err = false ∧ (∃ t, exec (.pqtop 3 3) queue = .next t ∧ t.status.err = false) ∧
      (∃ t, exec (.pqback 3 3) queue = .next t ∧ t.status.err = false) ∧
      ∃ t, exec (.pqat 3 3 3) (xs [(3, 1)] queue) = .next t ∧ t.status.err = false) :=
  ⟨⟨next_with (by decide +kernel), by decide⟩, ⟨rfl, next_with (by decide +kernel)⟩, rfl, next_with (by decide +kernel),
    next_with (by decide +kernel), next_with (by decide +kernel)⟩

theorem witness_CommandsLeaveTheHostSide : ∃ t, exec .compress base = .next t ∧ t.status.err = true :=
  next_with (by decide +kernel)

theorem witness_TreeStateTransitions : ∃ t, exec .htdict aaabTree = .next t ∧ t.tstate = .coded :=
  next_with (by decide +kernel)

theorem witness_PadWriters :
    (base.status.err = false ∧ ∃ t, exec (.obflush 2) { base with obc := ⟨0x10, 4⟩ } = .next t ∧ t.pad ≠ base.pad) ∧
      base.resetPin = false ∧ base.status.busy = false :=
  ⟨⟨rfl, next_with (by decide +kernel)⟩, rfl, rfl⟩

theorem witness_SequenceFaults :
    aaabTree.tstate ≠ .leaves ∧ aaabLeaves.tstate ≠ .tree ∧ base.tstate = .empty ∧ aaabLeaves.tstate = .leaves ∧
      base.status.errCode ≠ .sequence ∧ (∃ t, exec .htbuild base = .next t ∧ t.status.errCode = .sequence) ∧
      (∃ t, exec .htdict base = .next t ∧ t.status.errCode = .sequence) ∧
      ∃ t, exec (.htdec 1) base = .next t ∧ t.status.errCode = .sequence :=
  ⟨by decide, by decide, rfl, rfl, by decide, next_with (by decide +kernel), next_with (by decide +kernel),
    next_with (by decide +kernel)⟩

/-- A completed command, a fault and a reset. -/
theorem witness_ErrorRegistersKept :
    (∃ t, step busyNop = .next t ∧ t.errCmd = 0) ∧
      ((base.issued 1).status.err = false ∧ ∃ t, step (base.issued 1) = .next t ∧ t.status.err = true ∧ t.errCmd = 1) ∧
      ∃ t, step { base with errCmd := 7, host := [.reset true] } = .next t ∧ t.errCmd = 0 :=
  ⟨next_with (by decide +kernel), ⟨rfl, next_with (by decide +kernel)⟩, next_with (by decide +kernel)⟩

/-- Index 31, 32 and 33; index and count that add up to 32 and to 33. -/
theorem witness_BitPrimitiveCommands :
    (xs [(3, 31)] base).operand 3 ≤ 31 ∧ 31 < (xs [(3, 32)] base).operand 3 ∧
      (xs [(3, 32), (4, 0)] base).operand 3 + (xs [(3, 32), (4, 0)] base).operand 4 ≤ 32 ∧
      (xs [(3, 0), (4, 32)] base).operand 3 + (xs [(3, 0), (4, 32)] base).operand 4 ≤ 32 ∧
      32 < (xs [(3, 33)] base).operand 3 ∧
      ((xs [(3, 32), (4, 1)] base).operand 3 ≤ 32 ∧
        32 < (xs [(3, 32), (4, 1)] base).operand 3 + (xs [(3, 32), (4, 1)] base).operand 4) := by decide +kernel

theorem witness_BitPrimitiveLaws :
    ((31 : Nat) ≤ 31 ∧ (30 : Nat) ≤ 31 ∧ (30 : Nat) ≠ 31) ∧ (4 + 28 : Nat) ≤ 32 ∧ ((4 : Nat) ≤ 31 ∧ (31 : Nat) < 4 + 28) ∧
      ((4 : Nat) ≤ 23 ∧ (23 : Nat) < 32 - 8) ∧ (32 : Nat) ≤ 32 := by decide

theorem witness_SequenceConstruction :
    (xs [(1, 32)] base).operand 1 ≤ 32 ∧ 32 < (xs [(1, 33)] base).operand 1 ∧ (xs [(2, 32)] base).operand 2 ≤ 32 ∧
      32 < (xs [(2, 33)] base).operand 2 := by decide +kernel

theorem witness_SequenceReads :
    let s := bs1 [1, 0, 1, 0] base
    (s.getBs 1).length ≤ 32 ∧ (s.getBs 1)[(xs [(2, 3)] s).operand 2]? = some false ∧
      (s.getBs 1).length ≤ (xs [(2, 4)] s).operand 2 ∧ s.getBs 1 = true :: bits [0, 1, 0] ∧
      s.getBs 1 = bits [1, 0, 1] ++ [false] ∧ base.getBs 1 = [] := by decide +kernel

theorem witness_UncheckedElementAccess :
    let s := bs1 [1, 0, 1, 0] base
    (s.getBs 1).length ≤ 32 ∧ (s.getBs 1)[(xs [(2, 3)] s).operand 2]? = some false ∧
      ((s.getBs 1).length ≤ (xs [(2, 4)] s).operand 2 ∧ (xs [(2, 31)] s).operand 2 ≤ 31) ∧
      31 < (xs [(2, 32)] s).operand 2 := by decide +kernel

/-- A container of length 32. -/
def full : State := base.setBs 1 (List.replicate 32 true)

theorem witness_SequenceUpdates :
    let s := bs1 [1, 0, 1, 0] base
    (s.getBs 1).length ≤ 32 ∧ (xs [(2, 3)] s).operand 2 < (s.getBs 1).length ∧
      (s.getBs 1).length ≤ (xs [(2, 4)] s).operand 2 ∧ (s.getBs 1).length < 32 ∧ (full.getBs 1).length = 32 ∧
      s.getBs 1 = bits [1, 0, 1] ++ [false] ∧ base.getBs 1 = [] ∧ (xs [(2, 32)] s).operand 2 ≤ 32 ∧
      32 < (xs [(2, 33)] s).operand 2 := by decide +kernel

/-- Each clause of SequenceInsertAndErase at a boundary: the end position, a length of 32, equal range ends. -/
theorem witness_SequenceInsertAndErase :
    let s := bs1 [1, 0, 1, 0] base
    ((s.getBs 1).length ≤ 32 ∧ s.getBs 1 = bits [1, 0, 1, 0] ++ [] ∧ (xs [(2, 4)] s).operand 2 = (bits [1, 0, 1, 0]).length ∧
      (s.getBs 1).length + (xs [(3, 28)] s).operand 3 ≤ 32) ∧
    (s.getBs 1).length < (xs [(2, 5)] s).operand 2 ∧
    (0 ≤ (s.getBs 1).length ∧ 32 < (s.getBs 1).length + (xs [(3, 29)] s).operand 3) ∧
    ((full.getBs 1).length = 32 ∧ (xs [(2, 32)] full).operand 2 ≤ (full.getBs 1).length) ∧
    ((xs [(4, 1), (5, 3)] s).operand 4 ≤ (xs [(4, 1), (5, 3)] s).operand 5 ∧
      (xs [(5, 4)] s).operand 5 ≤ (s.getBs 1).length ∧ (bits [0, 1]).length = 3 - 1 ∧
      ∀ j < 2, (bits [0, 1])[j]? = (s.getBs 1)[1 + j]?) ∧
    ((xs [(4, 2), (5, 1)] s).operand 5 < (xs [(4, 2), (5, 1)] s).operand 4) ∧
    ((s.getBs 1).length < (xs [(5, 5)] s).operand 5) ∧
    (32 < (full.getBs 1).length + ((xs [(4, 31), (5, 32)] full).operand 5 - (xs [(4, 31), (5, 32)] full).operand 4)) ∧
    (s.getBs 1 = bits [1] ++ bits [0, 1] ++ bits [0] ∧ (xs [(2, 1), (3, 3)] s).operand 2 = (bits [1]).length ∧
      (xs [(2, 1), (3, 3)] s).operand 3 = (bits [1]).length + (bits [0, 1]).length) ∧
    ((xs [(2, 3), (3, 2)] s).operand 3 < (xs [(2, 3), (3, 2)] s).operand 2) ∧
    ((s.getBs 1).length < (xs [(3, 5)] s).operand 3) ∧
    (s.getBs 1 = bits [1, 0, 1] ++ [false] ++ [] ∧ (xs [(2, 3)] s).operand 2 = (bits [1, 0, 1]).length) ∧
    ((s.getBs 1).length ≤ (xs [(2, 4)] s).operand 2) := by decide +kernel

theorem witness_EraseUndoesInsert :
    let s := xs [(2, 4), (3, 28), (4, 32)] (bs1 [1, 0, 1, 0] base)
    s.status.err = false ∧ s.operand 2 ≤ (s.getBs 1).length ∧ (s.getBs 1).length + s.operand 3 ≤ 32 ∧
      s.operand 4 = s.operand 2 + s.operand 3 ∧ s.operand 2 = (s.getBs 1).length := by decide +kernel

theorem witness_StorageView :
    let s := xs [(2, 1), (3, 2), (4, 3)] (bs1 [1, 0, 1, 0] base)
    s.status.err = false ∧ (s.getBs 1).length ≤ 32 ∧
      (∃ t, exec (.bsins 1 2 3 true) s = .next t ∧ t.status.err = false) ∧
      ∃ t, exec (.bsera 1 2 4) s = .next t ∧ t.status.err = false :=
  ⟨by decide +kernel, by decide +kernel, next_with (by decide +kernel), next_with (by decide +kernel)⟩

/-- A queue that holds 512 entries. -/
def fullQueue : State := { base with pq := List.replicate 512 ⟨1, 0⟩ }

theorem witness_QueuePush :
    (pqSorted queue.pq ∧ queue.pq.length ≤ 512 ∧ (xs [(2, 0xFFFF)] queue).operand 2 ≤ 0xFFFF ∧ queue.pq.length < 512) ∧
      0xFFFF < (xs [(2, 0x10000)] queue).operand 2 ∧
      (pqSorted fullQueue.pq ∧ fullQueue.pq.length = 512 ∧ fullQueue.operand 2 ≤ 0xFFFF) :=
  ⟨by decide +kernel, by decide +kernel, List.pairwise_replicate.2 (.inr le_rfl), List.length_replicate, by decide⟩

theorem witness_QueueReads :
    queue.pq.length ≤ 512 ∧ queue.pq = ⟨1, 2⟩ :: [⟨1, 3⟩, ⟨3, 0⟩] ∧ queue.pq = [⟨1, 2⟩, ⟨1, 3⟩] ++ [⟨3, 0⟩] ∧
      queue.pq[(xs [(5, 2)] queue).operand 5]? = some ⟨3, 0⟩ ∧ base.pq = [] ∧
      queue.pq.length ≤ (xs [(5, 3)] queue).operand 5 ∧ (3 : XReg) ≠ 4 := by decide +kernel

theorem witness_QueueLaws :
    (pqSorted queue.pq ∧ ∃ t, execAll [.pqpush 1 2, .pqpop, .htfill, .htbuild, .pqpush 1 2] queue = .next t ∧ t.status.err = false) ∧
      (queue.status.err = false ∧ 2 ≤ queue.pq.length) ∧
      (base.status.err = false ∧ base.pq = [] ∧ (xs [(2, 0xFFFF)] base).operand 2 ≤ 0xFFFF) :=
  ⟨⟨by decide +kernel, next_with (by decide +kernel)⟩, by decide +kernel, by decide +kernel⟩

theorem witness_TableCommands :
    (xs [(1, 255)] base).operand 1 = (255 : Byte).toNat ∧ 255 < (xs [(1, 256)] base).operand 1 := by decide +kernel

theorem witness_ScanAndFill :
    aaab.operand 1 + aaab.operand 2 ≤ aaab.inLen.toNat ∧ aaab.inLen.toNat < (xs [(1, 5)] aaab).operand 1 ∧
      ((xs [(1, 4), (2, 1)] aaab).operand 1 ≤ aaab.inLen.toNat ∧
        aaab.inLen.toNat < (xs [(1, 4), (2, 1)] aaab).operand 1 + (xs [(1, 4), (2, 1)] aaab).operand 2) ∧
      entry aaabLeaves.freq 0x61 ≠ 0 := by decide +kernel

/-- Two leaves whose weights add up to 2^32 - 1, and to 2^32. -/
def heavy (w : Word) : State :=
  { base with
    nodes := [⟨0xFFFFFFFE, 0x61, true, none, none, none⟩, ⟨w, 0x62, true, none, none, none⟩], tstate := .leaves }

theorem witness_HuffmanBuild :
    (Arena aaabLeaves ∧ aaabLeaves.tstate = .leaves) ∧
    (Arena (heavy 1) ∧ ((heavy 1).nodes.map fun n => n.weight.toNat).sum < 2 ^ 32) ∧
    (Arena (heavy 2) ∧ 2 ^ 32 ≤ ((heavy 2).nodes.map fun n => n.weight.toNat).sum) :=
  ⟨⟨aaab_arenas.2.2.1, rfl⟩, ⟨arena_of_check (by decide +kernel), by decide +kernel⟩,
    arena_of_check (by decide +kernel), by decide +kernel⟩

theorem witness_HuffmanMergeOrder : Arena aaabLeaves ∧ aaabLeaves.tstate = .leaves ∧ 2 ≤ aaabLeaves.nodes.length ∧
    aaabLeaves.nodes.length ≤ 2 ∧ ∃ t, exec .htbuild aaabLeaves = .next t ∧
      (t.tstate = .tree ∧ t.nodes[2]? = some ⟨4, 0, false, some 0, some 1, none⟩) :=
  ⟨aaab_arenas.2.2.1, rfl, by decide, by decide, next_with (by decide +kernel)⟩

/-- The Fibonacci numbers: F(0) = 0, F(1) = 1. -/
def fib : Nat → Nat × Nat
  | 0 => (0, 1)
  | n + 1 => ((fib n).2, (fib n).1 + (fib n).2)

/-- The leaves of the Fibonacci counts of spec/95_test_vectors.md L2.5: symbol s with count F(s + 1), s = 0..33. -/
def fibLeaves : List Node :=
  (List.range 34).map fun i => ⟨BitVec.ofNat 32 (fib (i + 1)).1, BitVec.ofNat 8 i, true, none, none, some (max 34 (33 + i))⟩

/-- The tree over them: each merge joins the next leaf (RIGHT) and the tree so far (LEFT). -/
def fibTree : State :=
  { base with
    nodes := fibLeaves ++ (List.range 33).map fun i =>
      ⟨BitVec.ofNat 32 (((List.range (i + 2)).map fun k => (fib (k + 1)).1).sum), 0, false,
        some (if i = 0 then 1 else 33 + i), some (if i = 0 then 0 else i + 1), if i = 32 then none else some (35 + i)⟩
    root := some 66
    tstate := .tree }

/-- A tree with no leaf deeper than 32, and one whose symbol 0 lies at depth 33. -/
theorem witness_CodeDerivation :
    (Arena aaabTree ∧ aaabTree.tstate = .tree ∧
      ∀ (r k : Nat) (n : Node) (code : Bits), aaabTree.root = some r → walk aaabTree.nodes r code = some k →
        aaabTree.nodes[k]? = some n → n.leaf = true → code.length ≤ 32) ∧
    (Arena fibTree ∧ fibTree.tstate = .tree ∧ fibTree.root = some 66 ∧
      leadsTo fibTree.nodes 66 (List.replicate 32 false ++ [true]) 0 ∧ 32 < (List.replicate 32 false ++ [true]).length ∧
      ∀ (d : Byte) (other : Bits), leadsTo fibTree.nodes 66 other d → d.toNat < (0 : Byte).toNat → other.length ≤ 32) := by
  refine ⟨⟨aaab_arenas.2.2.2.1, rfl, ?_⟩, arena_of_check (by decide +kernel), rfl, rfl, ?_, by decide, ?_⟩
  · intro r k n code hr hw _ _
    obtain rfl : r = 2 := by simpa [aaabTree, eq_comm] using hr
    match code with
    | [] => simp
    | [_] => simp
    | a :: b :: t => cases a <;> simp [walk, aaabTree] at hw
  · exact ⟨0, ⟨1, 0, true, none, none, some 34⟩, by decide +kernel, by decide +kernel, rfl, rfl⟩
  · intro d _ _ hd
    exact absurd hd (Nat.not_lt_zero _)

theorem witness_DerivedTableIsPrefixFree :
    (Arena aaabTree ∧ ∃ t, exec .htdict aaabTree = .next t ∧ t.status.err = false) ∧
    (Arena aaab ∧ ∃ t, exec (.htsetdata 1 2) aaab = .next t ∧ t.status.err = false) ∧
    (Arena { aaab with ctrl := 3 } ∧ ∃ t, exec .compress { aaab with ctrl := 3 } = .next t ∧ t.status.err = false) :=
  ⟨⟨aaab_arenas.2.2.2.1, next_with (by decide +kernel)⟩, ⟨aaab_arenas.2.1, next_with (by decide +kernel)⟩,
    arena_of_check (by decide +kernel), next_with (by decide +kernel)⟩

theorem witness_SetData :
    (aaab.status.err = false ∧
      ∃ u, execAll [.htfreq 1 2, .htfill, .htbuild, .htdict] aaab = .next u ∧ u.status.err = false) ∧
    (∃ u, execAll [.htfreq 1 2, .htfill, .htbuild, .htdict] (xs [(2, 5)] aaab) = .next u ∧ u.status.err = true) ∧
    (aaab.operand 1 + aaab.operand 2 ≤ aaab.inLen.toNat ∧
      (aaab.inBytes (aaab.operand 1) (aaab.operand 2)).dedup.length ≤ 33) :=
  ⟨⟨rfl, next_with (by decide +kernel)⟩, next_with (by decide +kernel), by decide +kernel, by decide +kernel⟩

theorem aaab_codes (c : Byte) :
    entry aaabCoded.ct c = if 0x62 = c then bits [1] else if 0x61 = c then bits [0] else [] := by
  have h0 : entry base.ct c = [] := entry_replicate _ _
  simp only [aaabCoded, entry_setEntry, h0]

theorem aaab_codes_free : prefixFree aaabCoded.ct := by
  intro c d hcd hc hd hp
  rw [aaab_codes] at hc hp
  rw [aaab_codes] at hd hp
  split at hp <;> split at hp <;> simp_all [bits]

/-- Tables "0" and "01" of spec/95_test_vectors.md L2.5, of which the first begins the second. -/
def clash : State := { base with ct := setEntry (setEntry base.ct 0x61 (bits [0])) 0x62 (bits [0, 1]) }

theorem clash_codes (c : Byte) :
    entry clash.ct c = if 0x62 = c then bits [0, 1] else if 0x61 = c then bits [0] else [] := by
  have h0 : entry base.ct c = [] := entry_replicate _ _
  simp only [clash, entry_setEntry, h0]

theorem witness_TrieFromTable :
    prefixFree aaabCoded.ct ∧ (prefixFree base.ct ∧ coded base.ct = []) ∧
    (entry clash.ct 0x62 ≠ [] ∧
      (∃ c : Byte, c.toNat < (0x62 : Byte).toNat ∧ entry clash.ct c ≠ [] ∧
        (entry clash.ct c <+: entry clash.ct 0x62 ∨ entry clash.ct 0x62 <+: entry clash.ct c)) ∧
      ∀ e c : Byte, e.toNat < (0x62 : Byte).toNat → c.toNat < e.toNat → entry clash.ct c ≠ [] → entry clash.ct e ≠ [] →
        ¬ (entry clash.ct c <+: entry clash.ct e ∨ entry clash.ct e <+: entry clash.ct c)) := by
  refine ⟨aaab_codes_free, ⟨?_, by decide +kernel⟩, by decide +kernel, ⟨0x61, by decide, by decide +kernel, ?_⟩, ?_⟩
  · intro c d _ hc
    exact absurd (entry_replicate _ _) hc
  · rw [clash_codes, clash_codes]; exact .inl ⟨[true], rfl⟩
  · intro e c he hce hc hn
    rw [clash_codes] at hc hn
    split at hn
    · subst e; exact absurd he (by decide)
    · split at hn
      · subst e
        split at hc
        · subst c; exact absurd hce (by decide)
        · split at hc
          · subst c; exact absurd hce (by decide)
          · exact absurd rfl hc
      · exact absurd rfl hn

/-- A byte with no code; a payload that completes a byte and one that does not, with room and with none. -/
theorem witness_EncodeWindow :
    (Inv aaabCoded ∧ aaabCoded.inBytes (aaabCoded.operand 1) (aaabCoded.operand 2) = [0x61, 0x61, 0x61, 0x62] ∧
      aaabCoded.operand 1 + aaabCoded.operand 2 ≤ aaabCoded.inLen.toNat) ∧
    aaabCoded.inLen.toNat < (xs [(1, 5)] aaabCoded).operand 1 ∧
    ((xs [(1, 4), (2, 1)] aaabCoded).operand 1 ≤ aaabCoded.inLen.toNat ∧
      aaabCoded.inLen.toNat < (xs [(1, 4), (2, 1)] aaabCoded).operand 1 + (xs [(1, 4), (2, 1)] aaabCoded).operand 2) ∧
    (([0x61, 0x61, 0x61, 0x62] : List Byte) = [] ++ 0x61 :: [0x61, 0x61, 0x62] ∧ entry base.ct 0x61 = []) ∧
    ((∀ c ∈ ([0x61, 0x61, 0x61, 0x62] : List Byte), entry aaabCoded.ct c ≠ []) ∧
      (Inv { aaabCoded with obc := ⟨0, 4⟩, outLen := 63 } ∧
        63 + ((4 : BitVec 3).toNat + (payload aaabCoded.ct [0x61, 0x61, 0x61, 0x62]).length) / 8 ≤ base.outCap.val) ∧
      Inv { aaabCoded with obc := ⟨0, 4⟩, outLen := 64 } ∧
        base.outCap.val < 64 + ((4 : BitVec 3).toNat + (payload aaabCoded.ct [0x61, 0x61, 0x61, 0x62]).length) / 8) :=
  ⟨⟨inv_of_check (by decide +kernel), by decide +kernel, by decide +kernel⟩, by decide +kernel, by decide +kernel,
    ⟨rfl, by decide +kernel⟩, by decide +kernel, ⟨inv_of_check (by decide +kernel), by decide +kernel⟩,
    inv_of_check (by decide +kernel), by decide +kernel⟩

/-- A one-bit code that leads to a leaf is a first symbol. -/
theorem parses_bit {nodes : List Node} {root : Nat} {b : Bool} {rest : Bits} {c : Byte} {l : List Byte}
    (h : leadsTo nodes root [b] c) (hr : Parses nodes root rest l) : Parses nodes root (b :: rest) (c :: l) :=
  .symbol [b] rest c l (by simp) h (fun m h1 h2 => by simp at h2; omega) hr

/-- "aaab" ready to decode 0001 from IN = 10 (spec/95_test_vectors.md L2.5). -/
def decoding : State := xs [(3, 4), (4, 9), (5, 0)] (input [0x10] { aaabDict with ibc := ⟨false, 0, 0, 0x10⟩ })

/-- A tree with one left step to decode bit 1 from IN = 80, which has no branch (spec/95_test_vectors.md L2.5). -/
def stuckWalk : State :=
  xs [(3, 1)] (input [0x80]
    { base with
      nodes := [⟨0, 0, false, some 1, none, none⟩, ⟨0, 0x7A, true, none, none, some 0⟩], root := some 0
      tstate := .dict, ibc := ⟨false, 0, 0, 0x80⟩ })

theorem witness_DecodePayload :
    (Inv decoding ∧ Arena decoding ∧ decoding.tstate = .dict ∧ decoding.operand 5 = 0 ∧ decoding.operand 3 ≠ 0) ∧
    (Inv { decoding with nodes := [], root := none } ∧ Arena { decoding with nodes := [], root := none }) ∧
    (decoding.root = some 0 ∧ decoding.operand 3 ≤ decoding.streamLeft ∧
      Parses decoding.nodes 0 ((List.range (decoding.operand 3)).map decoding.streamBit) [0x61, 0x61, 0x61, 0x62] ∧
      decoding.outLen.toNat + [0x61, 0x61, 0x61, 0x62].length ≤ decoding.outCap.val ∧
      { decoding with outCap := 3 }.outCap.val < decoding.outLen.toNat + [0x61, 0x61, 0x61, 0x62].length) ∧
    decoding.streamLeft < decoding.operand 4 ∧
    (Inv stuckWalk ∧ Arena stuckWalk ∧ stuckWalk.operand 3 ≠ 0 ∧ stuckWalk.root = some 0 ∧
      ¬ ∃ symbols, Parses stuckWalk.nodes 0 ((List.range (stuckWalk.operand 3)).map stuckWalk.streamBit) symbols) := by
  have ha : leadsTo decoding.nodes 0 [false] 0x61 := ⟨1, _, rfl, rfl, rfl, rfl⟩
  have hb : leadsTo decoding.nodes 0 [true] 0x62 := ⟨2, _, rfl, rfl, rfl, rfl⟩
  have hbits : (List.range (decoding.operand 3)).map decoding.streamBit = [false, false, false, true] := by
    decide +kernel
  have hone : (List.range (stuckWalk.operand 3)).map stuckWalk.streamBit = [true] := by decide +kernel
  refine ⟨⟨inv_of_check (by decide +kernel), arena_of_check (by decide +kernel), rfl, by decide +kernel, by decide +kernel⟩,
    ⟨inv_of_check (by decide +kernel), arena_of_check (by decide +kernel)⟩,
    ⟨rfl, by decide +kernel, ?_, by decide +kernel, by decide +kernel⟩, by decide +kernel,
    ⟨inv_of_check (by decide +kernel), arena_of_check (by decide +kernel), by decide +kernel, rfl, ?_⟩⟩
  · rw [hbits]
    exact parses_bit ha (parses_bit ha (parses_bit ha (parses_bit hb .done)))
  · rw [hone]
    rintro ⟨l, h⟩
    generalize hl : [true] = all at h
    cases h with
    | done => simp at hl
    | symbol code rest c l hc hlead _ _ =>
      obtain ⟨k, n, hw, -⟩ := hlead
      match code with
      | [] => exact hc rfl
      | b :: t =>
        obtain rfl : b = true := by simpa [eq_comm] using congrArg List.head? hl
        simp [walk, stuckWalk, xs, input, State.setX] at hw

/-- The tree of the one code "00" to decode bit 0 from IN = 00: it ends in mid-walk. -/
def midWalk : State :=
  xs [(3, 1)] (input [0x00]
    { base with
      nodes := [⟨0, 0, false, some 1, none, none⟩, ⟨0, 0, false, some 2, none, some 0⟩,
        ⟨0, 0x7A, true, none, none, some 1⟩]
      root := some 0, tstate := .dict, ibc := ⟨false, 0, 0, 0x00⟩ })

/-- The three ways HTDEC can fail to decode (spec/95_test_vectors.md L2.5): a missing branch at bit 0, a source that ends at
bit 8 of 9, and bits that end in mid-walk. -/
theorem witness_DecodePayload_faults :
    DecodeFault stuckWalk.nodes 0 stuckWalk.streamBit stuckWalk.streamLeft (stuckWalk.operand 3) 0x0D 0 ∧
    DecodeFault decoding.nodes 0 decoding.streamBit decoding.streamLeft (decoding.operand 4) 0x0E 8 ∧
    (Inv midWalk ∧ Arena midWalk ∧ midWalk.root = some 0 ∧ midWalk.operand 3 ≠ 0 ∧
      DecodeFault midWalk.nodes 0 midWalk.streamBit midWalk.streamLeft (midWalk.operand 3) 0x0E 1) := by
  have ha : leadsTo decoding.nodes 0 [false] 0x61 := ⟨1, _, rfl, rfl, rfl, rfl⟩
  have hb : leadsTo decoding.nodes 0 [true] 0x62 := ⟨2, _, rfl, rfl, rfl, rfl⟩
  have hbits : (List.range 8).map decoding.streamBit = bits [0, 0, 0, 1, 0, 0, 0, 0] := by decide +kernel
  have hmid : (List.range 1).map midWalk.streamBit = [false] := by decide +kernel
  refine ⟨⟨[], ⟨[], [], rfl, .done, rfl, fun m h h' => absurd h' (by simp; omega)⟩, .inl ⟨rfl, ?_, ?_, ?_⟩⟩,
    ⟨[], ⟨bits [0, 0, 0, 1, 0, 0, 0, 0], [0x61, 0x61, 0x61, 0x62, 0x61, 0x61, 0x61, 0x61], by rw [hbits]; rfl, ?_, rfl,
      fun m h h' => absurd h' (by simp; omega)⟩, .inr (.inl ⟨rfl, ?_, ?_⟩)⟩,
    inv_of_check (by decide +kernel), arena_of_check (by decide +kernel), rfl, by decide +kernel,
    [false], ⟨[], [], by rw [hmid]; rfl, .done, rfl, ?_⟩, .inr (.inr ⟨rfl, ?_, ?_, by simp⟩)⟩
  · decide +kernel
  · decide +kernel
  · decide +kernel
  · exact parses_bit ha (parses_bit ha (parses_bit ha (parses_bit hb
      (parses_bit ha (parses_bit ha (parses_bit ha (parses_bit ha .done)))))))
  · decide +kernel
  · decide +kernel
  · rintro m h h' ⟨d, k, n, hw, hn, hl, -⟩
    obtain rfl : m = 1 := by simp at h'; omega
    obtain rfl : 1 = k := Option.some.inj hw
    obtain rfl := Option.some.inj hn
    exact absurd hl (by decide)
  · decide +kernel
  · decide +kernel

theorem witness_TreeInspection :
    (Arena aaabTree ∧ aaabTree.nodes[(xs [(1, 2)] aaabTree).operand 1]? = some ⟨4, 0, false, some 0, some 1, none⟩) ∧
      ((4 : BitVec 4).toNat ≤ 4 ∧ aaabTree.nodes.length ≤ (xs [(1, 3)] aaabTree).operand 1) ∧ 4 < (5 : BitVec 4).toNat :=
  ⟨⟨aaab_arenas.2.2.2.1, by decide +kernel⟩, by decide +kernel, by decide⟩

/-- The cursor at the last bit of the last byte, at the last bit of the byte before it, before that, and at the end. -/
theorem witness_InputCursor :
    Inv stream ∧ (xs [(1, 1)] stream).operand 1 < stream.inLen.toNat ∧ stream.inLen.toNat ≤ (xs [(1, 2)] stream).operand 1 ∧
      stream.ibc.ended = true ∧
      (Inv { stream with ibc := ⟨false, 1, 7, 0x3C⟩ } ∧ stream.inLen.toNat ≤ (1 : Word).toNat + 1) ∧
      (Inv { stream with ibc := ⟨false, 0, 7, 0xA5⟩ } ∧ (0 : Word).toNat + 1 < stream.inLen.toNat) ∧
      Inv { stream with ibc := ⟨false, 0, 6, 0xA5⟩ } :=
  ⟨inv_of_check (by decide +kernel), by decide +kernel, by decide +kernel, rfl,
    ⟨inv_of_check (by decide +kernel), by decide +kernel⟩, ⟨inv_of_check (by decide +kernel), by decide +kernel⟩,
    inv_of_check (by decide +kernel)⟩

theorem witness_StreamLaw : stream.status.err = false ∧ (xs [(1, 1)] stream).operand 1 < stream.inLen.toNat ∧
    (xs [(1, 1)] stream).operand 1 + 7 / 8 < stream.inLen.toNat := by decide +kernel

/-- Room for the last byte, and none; one pending bit, seven, and none. -/
theorem witness_OutputCursor :
    (Inv { base with obc := ⟨0xA4, 7⟩, outLen := 63 } ∧ (63 : Word).toNat < base.outCap.val) ∧
    (Inv { base with obc := ⟨0xA4, 7⟩, outLen := 64 } ∧ (64 : Word).toNat = base.outCap.val) ∧
    (Inv { base with obc := ⟨0xA4, 6⟩, outLen := 64 } ∧ (6 : BitVec 3).toNat < 7) ∧
    ((xs [(1, 1)] base).operand 1 = true.toNat ∧ (xs [(1, 1)] base).operand 1 ≤ 1 ∧ 1 < (xs [(1, 2)] base).operand 1) ∧
    (base.obc.nb = 0 ∧ (1 : BitVec 3) ≠ 0) :=
  ⟨⟨inv_of_check (by decide +kernel), by decide +kernel⟩, ⟨inv_of_check (by decide +kernel), by decide +kernel⟩,
    ⟨inv_of_check (by decide +kernel), by decide⟩, by decide +kernel, by decide⟩

theorem witness_OutputLaw : Inv base ∧ base.status.err = false ∧ ∃ s0 t u, exec .obinit base = .next s0 ∧
    PutRun s0 [true] t ∧ exec (.obflush 2) t = .next u ∧ u.status.err = false := by
  refine ⟨base_inv, rfl, _, _, _, rfl, .put _ _ _ [] [true] (.obput true) (.start _) rfl ?_ rfl, rfl, ?_⟩
  · decide +kernel
  · decide +kernel

theorem input_bytes (s : State) {l : List Byte} (h : l.length < 2 ^ 32) :
    (input l s).inBytes 0 (input l s).inLen.toNat = l := by
  have hn : (input l s).inLen.toNat = l.length := by
    simp only [input, BitVec.toNat_ofNat]; exact Nat.mod_eq_of_lt h
  rw [hn]
  refine List.ext_getElem? fun k => ?_
  by_cases hk : k < l.length
  · rw [State.inBytes_get? _ hk]
    simp only [State.inByte, input, Window.byte, List.range_eq_range', Memory.get?_zip]
    simp [hk]
  · rw [List.getElem?_eq_none (by simpa using hk), List.getElem?_eq_none (by omega)]

theorem input_inv {s : State} (h : Inv s) {l : List Byte} (hl : l.length ≤ s.inCap.val) : Inv (input l s) := by
  have hlen : l.length < 2 ^ 32 := by have := s.inCap.isLt; omega
  have hz : ((List.range l.length).zip l).map Prod.fst = List.range l.length := List.map_fst_zip (by simp)
  exact {
    bsLen := h.bsLen, ctLen := h.ctLen, pqOrder := h.pqOrder, pqLen := h.pqLen, outLenCap := h.outLenCap
    outWf := h.outWf, outBelow := h.outBelow, ibcEnd := h.ibcEnd, ibcOn := h.ibcOn, obcLow := h.obcLow
    errCode := h.errCode, oneEnd := h.oneEnd, busyClean := h.busyClean, resetIdle := h.resetIdle
    inLenCap := by
      show (BitVec.ofNat 32 l.length).toNat ≤ _
      rw [BitVec.toNat_ofNat, Nat.mod_eq_of_lt hlen]; exact hl
    inWf := by
      show Memory.wf _
      unfold Memory.wf
      rw [show (input l s).inWin.cells = (List.range l.length).zip l from rfl, hz]
      exact List.pairwise_lt_range
    inBelow := fun e he => by
      have : e.1 ∈ ((List.range l.length).zip l).map Prod.fst := List.mem_map_of_mem he
      rw [hz] at this
      exact Nat.lt_of_lt_of_le (List.mem_range.1 this) hl }

/-- Symbol s F(s + 1) times, s = 0..33: the counts of the last HTDICT row of spec/95_test_vectors.md L2.5. -/
def fibInput : List Byte := (List.range 34).flatMap fun i => List.replicate (fib (i + 1)).1 (BitVec.ofNat 8 i)

/-- Its frequency table. -/
def fibFreq : Vector Word 256 := Vector.ofFn fun i => if i.val < 34 then BitVec.ofNat 32 (fib (i.val + 1)).1 else 0

/-- Its leaves as HTFILL leaves them. -/
def fibFill : List Node := fibLeaves.map fun n => { n with parent := none }

theorem fibInput_length : fibInput.length = 14930351 := by
  simp only [fibInput, List.length_flatMap, List.length_replicate]
  decide +kernel

theorem fibInput_counts : countBytes fibInput = fibFreq := by
  apply entry_ext
  intro c
  have hc (c : Byte) : fibInput.count c =
      ((List.range 34).map fun i => if BitVec.ofNat 8 i == c then (fib (i + 1)).1 else 0).sum := by
    simp only [fibInput, List.count_flatMap]
    congr 1
    refine List.map_congr_left fun i _ => ?_
    simp only [Function.comp, List.count_replicate]
  rw [entry_countBytes, hc]
  revert c
  decide +kernel

/-- A core with the largest windows. -/
def wide : State := { base with ctrl := 3, inCap := ⟨268435456, by decide⟩, outCap := ⟨268435456, by decide⟩ }

/-- Those 14930351 bytes in IN, with x1 = IN_LEN. -/
def fibPacking : State := input fibInput wide

theorem fib_fill : fillLeaves fibFreq = fibFill := by decide +kernel

theorem fib_build : (match buildTree fibFill with
    | .ok r => r == (fibTree.nodes, some 66)
    | .error _ => false) = true := by decide +kernel

theorem fib_derive : (match deriveTable fibTree.nodes with
    | .error (.raise r) => r == .outOfRange 33
    | _ => false) = true := by decide +kernel

/-- HTSETDATA over any input with those counts raises OUT_OF_RANGE(33) (spec/95_test_vectors.md L2.5). -/
theorem fib_setdata (s : State) {l : List Byte} (hl : l.length < 2 ^ 32) (hc : countBytes l = fibFreq) :
    exec (.htsetdata 0 1) (((input l s).setX 0 0).setX 1 (input l s).inLen) =
      .next ((((input l s).setX 0 0).setX 1 (input l s).inLen).takeFault (.outOfRange 33)) := by
  have hw : (((input l s).setX 0 0).setX 1 (input l s).inLen).window 0 (input l s).inLen.toNat = .ok l := by
    rw [State.window_ok (by simp)]
    exact congrArg Except.ok (input_bytes s hl)
  have hbuild : buildTree fibFill = .ok (fibTree.nodes, some 66) := by
    have := fib_build
    split at this
    · rw [‹buildTree fibFill = _›, eq_of_beq this]
    · exact absurd this (by decide)
  have hderive : deriveTable fibTree.nodes = raise (.outOfRange 33) := by
    have := fib_derive
    split at this
    · rw [‹deriveTable fibTree.nodes = _›, eq_of_beq this]; rfl
    · exact absurd this (by decide)
  have ho : (((input l s).setX 0 0).setX 1 (input l s).inLen).operand 0 = 0 ∧
      (((input l s).setX 0 0).setX 1 (input l s).inLen).operand 1 = (input l s).inLen.toNat := by
    simp [State.operand, State.getX_setX]
  simp only [exec, execHtsetdata, ho.1, ho.2, State.setData, State.scanFrequencies, hw, hc, State.fillNodes, fib_fill,
    State.buildFromLeaves, hbuild, State.deriveCodes, hderive, ne_eq, not_true, if_false, raise,
    State.precise_error_raise]

/-- The clause of CompressWritesContainer in which the tree has a leaf deeper than 32. -/
theorem witness_CompressWritesContainer_deep :
    Inv fibPacking ∧ fibPacking.status.err = false ∧ fibPacking.ctrl.getLsbD 0 = true ∧ fibPacking.ctrl.getLsbD 1 = true ∧
      fibInput = fibPacking.inBytes 0 fibPacking.inLen.toNat ∧
      ∃ u, exec (.htsetdata 0 1) ((fibPacking.setX 0 0).setX 1 fibPacking.inLen) = .next u ∧ u.status.err = true := by
  have hlen := fibInput_length
  have hwide : Inv wide ∧ wide.ctrl.getLsbD 0 = true ∧ wide.ctrl.getLsbD 1 = true :=
    ⟨inv_of_check (by decide +kernel), by decide, by decide⟩
  have hcap : wide.inCap.val = 268435456 := rfl
  have hfit : fibInput.length ≤ wide.inCap.val := by omega
  exact ⟨input_inv hwide.1 hfit, rfl, hwide.2.1, hwide.2.2, (input_bytes wide (by omega)).symm, _,
    fib_setdata wide (by omega) fibInput_counts, rfl⟩

/-- COMPRESS of "aaab" with OUT_CAP = 15 (it fits exactly) and 14. -/
def packing (cap : Fin (2 ^ 28 + 1)) : State := { aaab with ctrl := 3, outCap := cap }

/-- The container of "aaab" (spec/95_test_vectors.md L1.1). -/
def haff : List Byte :=
  [0x48, 0x41, 0x46, 0x46, 0x02, 0x00, 0x0D, 0x00, 0x61, 0x01, 0x62, 0x01, 0x40, 0x04, 0x10]

/-- DECOMPRESS of a byte string with OUT_CAP = 4, or another. -/
def unpacking (l : List Byte) (cap : Fin (2 ^ 28 + 1)) : State := input l { base with ctrl := 3, outCap := cap }

theorem witness_CompressWritesContainer :
    (Inv (packing 15) ∧ (packing 15).status.err = false ∧ (packing 15).ctrl.getLsbD 0 = true ∧
      (packing 15).ctrl.getLsbD 1 = true ∧ [0x61, 0x61, 0x61, 0x62] = (packing 15).inBytes 0 (packing 15).inLen.toNat ∧
      ∃ u, exec (.htsetdata 0 1) (((packing 15).setX 0 0).setX 1 (packing 15).inLen) = .next u ∧
        (u.status.err = false ∧ (container u.ct [0x61, 0x61, 0x61, 0x62]).length ≤ (packing 15).outCap.val)) ∧
    (Inv (packing 14) ∧
      ∃ u, exec (.htsetdata 0 1) (((packing 14).setX 0 0).setX 1 (packing 14).inLen) = .next u ∧
        (u.status.err = false ∧ (packing 14).outCap.val < (container u.ct [0x61, 0x61, 0x61, 0x62]).length)) ∧
    (Inv (packing 1561) ∧ ((packing 1561).inBytes 0 (packing 1561).inLen.toNat).dedup.length ≤ 33 ∧
      1545 + 4 * (packing 1561).inLen.toNat ≤ (packing 1561).outCap.val) := by
  refine ⟨⟨inv_of_check (by decide +kernel), rfl, by decide, by decide, by decide +kernel, next_with (by decide +kernel)⟩,
    ⟨inv_of_check (by decide +kernel), next_with (by decide +kernel)⟩,
    inv_of_check (by decide +kernel), by decide +kernel, by decide +kernel⟩

/-- "aaab" in a container with padding bits set (spec/95_test_vectors.md L2.7), with room and with none; an empty one. -/
theorem witness_DecompressReadsContainer :
    (Inv (unpacking haff 4) ∧ Inv (unpacking haff 3) ∧ (unpacking haff 4).ctrl.getLsbD 0 = true ∧
      (unpacking haff 4).ctrl.getLsbD 1 = true ∧ prefixFree aaabCoded.ct ∧ (∀ c, (entry aaabCoded.ct c).length ≤ 32) ∧
      (∀ c ∈ ([0x61, 0x61, 0x61, 0x62] : List Byte), entry aaabCoded.ct c ≠ []) ∧
      IsContainer aaabCoded.ct [0x61, 0x61, 0x61, 0x62]
        ((unpacking haff 4).inBytes 0 (unpacking haff 4).inLen.toNat)) ∧
    (prefixFree base.ct ∧ IsContainer base.ct []
      ((unpacking [0x48, 0x41, 0x46, 0x46, 0, 0, 8, 0, 0] 0).inBytes 0 9)) := by
  refine ⟨⟨inv_of_check (by decide +kernel), inv_of_check (by decide +kernel), by decide, by decide, aaab_codes_free, ?_,
    by decide +kernel, [0x40], [0x10], by decide +kernel, by decide +kernel, ?_, by decide +kernel, ?_⟩, ?_,
    [], [], by decide +kernel, by decide +kernel, ?_, by decide +kernel, ?_⟩
  · intro c
    rw [aaab_codes]
    split
    · decide
    · split <;> decide
  · exact List.isPrefixOf_iff_prefix.1 (by decide +kernel)
  · exact List.isPrefixOf_iff_prefix.1 (by decide +kernel)
  · intro c d _ hc
    exact absurd (entry_replicate _ _) hc
  · exact List.isPrefixOf_iff_prefix.1 (by decide +kernel)
  · exact List.isPrefixOf_iff_prefix.1 (by decide +kernel)

/-- Each subcode from 0x01 to 0x0A with the byte string and the detail of spec/95_test_vectors.md L2.7. -/
theorem witness_HeaderChecks :
    ∀ p ∈ ([([0x48, 0x41, 0x46, 0x47, 2, 0, 0x0D, 0, 0x61, 1, 0x62, 1, 0x40, 4, 0x10], 0x01, 0),
        ([0x48, 0x41, 0x46], 0x01, 0), ([0x48, 0x41, 0x46, 0x46, 2, 0], 0x02, 6),
        ([0x48, 0x41, 0x46, 0x46, 1, 1, 0, 0], 0x03, 0x101),
        ([0x48, 0x41, 0x46, 0x46, 2, 0, 0x0D, 0, 0x61, 1], 0x04, 2),
        ([0x48, 0x41, 0x46, 0x46, 2, 0, 0x0D, 0, 0x62, 1, 0x61, 1, 0x40, 4, 0x10], 0x05, 1),
        ([0x48, 0x41, 0x46, 0x46, 2, 0, 0x0D, 0, 0x61, 0, 0x62, 1, 0x40, 4, 0x10], 0x06, 0x61),
        ([0x48, 0x41, 0x46, 0x46, 1, 0, 0x0F, 0, 0x61, 0x21, 0, 0, 0, 0, 0, 0], 0x06, 0x61)] :
        List (List Byte × Nat × Nat)),
      headerFault ((unpacking p.1 4).inBytes 0 (unpacking p.1 4).inLen.toNat) = some p.2 := by decide +kernel

theorem witness_HeaderChecks_table :
    ∀ p ∈ ([([0x48, 0x41, 0x46, 0x46, 2, 0, 0x0D, 0, 0x61, 1, 0x62, 1], 0x07, 2),
        ([0x48, 0x41, 0x46, 0x46, 2, 0, 0x0E, 0, 0x61, 1, 0x62, 1, 0x40, 4, 0x10], 0x08, 0x0E),
        ([0x48, 0x41, 0x46, 0x46, 2, 0, 0x0D, 0, 0x61, 1, 0x62, 1, 0x40], 0x09, 0x0D),
        ([0x48, 0x41, 0x46, 0x46, 2, 0, 0x0D, 0, 0x61, 1, 0x62, 1, 0x40, 8, 0x10], 0x0A, 8),
        ([0x48, 0x41, 0x46, 0x46, 2, 0, 0x0D, 0, 0x61, 1, 0x62, 1, 0x40, 4], 0x0A, 4)] : List (List Byte × Nat × Nat)),
      headerFault ((unpacking p.1 4).inBytes 0 (unpacking p.1 4).inLen.toNat) = some p.2 := by decide +kernel

/-- The container whose codes are "0" and "01", of which the first begins the second. -/
def clashing : List Byte := [0x48, 0x41, 0x46, 0x46, 2, 0, 0x0D, 0, 0x61, 1, 0x62, 2, 0x20, 0]

/-- The container with no entry and eight payload bits. -/
def tableless : List Byte := [0x48, 0x41, 0x46, 0x46, 0, 0, 8, 0, 0, 0xFF]

/-- The container of the one code "0" whose one payload bit is 1. -/
def branchless : List Byte := [0x48, 0x41, 0x46, 0x46, 1, 0, 0x0B, 0, 0x61, 1, 0, 7, 0x80]

/-- The container of the codes "00", "01" and "1" whose one payload bit ends in mid-walk. -/
def cutShort : List Byte :=
  [0x48, 0x41, 0x46, 0x46, 3, 0, 0x0F, 0, 0x61, 2, 0x62, 2, 0x63, 1, 0x18, 7, 0]

/-- The table of `branchless`. -/
def oneCode : Vector Bits 256 := setEntry base.ct 0x61 (bits [0])

/-- The table of `cutShort`. -/
def threeCodes : Vector Bits 256 :=
  setEntry (setEntry (setEntry base.ct 0x61 (bits [0, 0])) 0x62 (bits [0, 1])) 0x63 (bits [1])

theorem oneCode_codes (c : Byte) : entry oneCode c = if 0x61 = c then bits [0] else [] := by
  have h0 : entry base.ct c = [] := entry_replicate _ _
  simp only [oneCode, entry_setEntry, h0]

theorem threeCodes_codes (c : Byte) : entry threeCodes c =
    if 0x63 = c then bits [1] else if 0x62 = c then bits [0, 1] else if 0x61 = c then bits [0, 0] else [] := by
  have h0 : entry base.ct c = [] := entry_replicate _ _
  simp only [threeCodes, entry_setEntry, h0]

theorem oneCode_free : prefixFree oneCode := by
  intro c d hcd hc hd
  rw [oneCode_codes] at hc hd
  split at hc
  · split at hd
    · subst c; exact absurd ‹_› hcd
    · exact absurd rfl hd
  · exact absurd rfl hc

theorem threeCodes_free : prefixFree threeCodes := by
  intro c d hcd hc hd hp
  rw [threeCodes_codes] at hc hp
  rw [threeCodes_codes] at hd hp
  split at hc
  · split at hd <;> (try split at hd) <;> (try split at hd) <;> simp_all [bits]
  · split at hc
    · split at hd <;> (try split at hd) <;> (try split at hd) <;> simp_all [bits]
    · split at hc
      · split at hd <;> (try split at hd) <;> (try split at hd) <;> simp_all [bits]
      · exact hc rfl

/-- Each subcode past the header checks with the byte string of spec/95_test_vectors.md L2.7. -/
theorem witness_HeaderChecks_payload :
    (∀ c ∈ [clashing, tableless, branchless, cutShort], headerFault c = none ∧
      c = (unpacking c 4).inBytes 0 (unpacking c 4).inLen.toNat) ∧
    (tableHeld clashing clash.ct ∧ ¬ prefixFree clash.ct ∧ firstClash clash.ct 0x62) ∧
    (tableHeld tableless base.ct ∧ fieldAt tableless 4 = 0 ∧ payloadHeld tableless ≠ []) ∧
    (tableHeld branchless oneCode ∧ prefixFree oneCode ∧ fieldAt branchless 4 ≠ 0 ∧
      (¬ ∃ l, (∀ x ∈ l, entry oneCode x ≠ []) ∧ payloadHeld branchless = payload oneCode l) ∧
      PayloadFault oneCode (payloadHeld branchless) 0x0D 0) ∧
    (tableHeld cutShort threeCodes ∧ prefixFree threeCodes ∧ PayloadFault threeCodes (payloadHeld cutShort) 0x0E 1) := by
  have hone : payloadHeld branchless = [true] := by decide +kernel
  have hcut : payloadHeld cutShort = [false] := by decide +kernel
  obtain ⟨-, -, hd, hc, hno⟩ := witness_TrieFromTable
  refine ⟨by decide +kernel, ⟨⟨by decide +kernel, by decide +kernel⟩, ?_, ?_, hno⟩,
    ⟨⟨by decide +kernel, by decide +kernel⟩, by decide +kernel, by decide +kernel⟩,
    ⟨⟨by decide +kernel, by decide +kernel⟩, oneCode_free, by decide +kernel, ?_, ?_⟩,
    ⟨by decide +kernel, by decide +kernel⟩, threeCodes_free, ?_⟩
  · intro h
    refine h 0x61 0x62 (by decide) (by decide +kernel) (by decide +kernel) ?_
    rw [clash_codes, clash_codes]
    exact ⟨[true], rfl⟩
  · obtain ⟨c, h1, h2, h3⟩ := hc
    exact ⟨c, h1, h2, hd, h3⟩
  · rintro ⟨l, hl, hp⟩
    rw [hone] at hp
    match l with
    | [] => exact absurd hp (by decide)
    | x :: t =>
      have hx := hl x (by simp)
      rw [payload, List.flatMap_cons] at hp
      rw [oneCode_codes] at hx hp
      split at hp
      · simp [bits] at hp
      · exact hx (if_neg ‹_›)
  · refine ⟨[], [], by simp, Nat.zero_le _, rfl, ⟨0x61, List.nil_prefix, by decide +kernel⟩, .inl ⟨rfl, by decide +kernel, ?_⟩⟩
    rintro ⟨c, hp⟩
    rw [hone, oneCode_codes] at hp
    split at hp <;> simp [bits] at hp
  · refine ⟨[], [false], by simp, by decide +kernel, by rw [hcut]; rfl, ⟨0x61, ?_, by decide +kernel⟩,
      .inr ⟨rfl, by decide +kernel, by simp⟩⟩
    rw [threeCodes_codes]
    exact ⟨[false], rfl⟩

theorem witness_CodecFailure :
    (∃ t, exec .compress (packing 14) = .next t ∧ t.status.err = true) ∧
    (∃ t, exec .decompress (unpacking [0x48, 0x41, 0x46] 4) = .next t ∧ t.status.err = true) ∧
    (packing 14).status.err = false ∧ (base.ctrl.getLsbD 0 = false ∧
      ({ base with ctrl := 1 }.ctrl.getLsbD 0 = true ∧ { base with ctrl := 1 }.ctrl.getLsbD 1 = false)) :=
  ⟨next_with (by decide +kernel), next_with (by decide +kernel), rfl, by decide⟩

theorem witness_CodecRoundTrip : Inv (packing 15) ∧ (packing 15).status.err = false ∧
    (∃ t, exec .compress (packing 15) = .next t ∧
      (t.status.err = false ∧
        (unpacking haff 4).inBytes 0 (unpacking haff 4).inLen.toNat = t.outBytes 0 t.outLen.toNat)) ∧
    Inv (unpacking haff 4) ∧ (unpacking haff 4).ctrl.getLsbD 0 = true ∧ (unpacking haff 4).ctrl.getLsbD 1 = true ∧
    (packing 15).inLen.toNat ≤ (unpacking haff 4).outCap.val :=
  ⟨inv_of_check (by decide +kernel), rfl, next_with (by decide +kernel), inv_of_check (by decide +kernel), by decide,
    by decide, by decide +kernel⟩

/-- IN = 10 for HTDEC of 4 bits from position 0 (x5), with the data tree of "aaab", and with its table alone. -/
def decodingData : State := xs [(3, 4), (5, 0)] (input [0x10] aaabCoded)

theorem witness_EncodeDecodeRoundTrip :
    (Inv aaab ∧ aaab.status.err = false ∧ aaab.obc = ⟨0, 0⟩ ∧
      ∃ t, execAll [.htsetdata 1 2, .htenc 1 2, .obflush 7] aaab = .next t ∧
        (t.status.err = false ∧ t.outBytes aaab.outLen.toNat (t.outLen.toNat - aaab.outLen.toNat) = [0x10] ∧
          decodingData.operand 3 + (t.getX 7).toNat = 8 * ([0x10] : List Byte).length ∧
          decodingData.nodes = t.nodes ∧ decodingData.root = t.root ∧ decodingData.tstate = t.tstate ∧
          decodingData.ct.toList = t.ct.toList)) ∧
    (Inv decodingData ∧ decodingData.status.err = false ∧ decodingData.obc = ⟨0, 0⟩ ∧
      decodingData.inBytes 0 decodingData.inLen.toNat = [0x10] ∧ decodingData.operand 5 = 0 ∧
      decodingData.outLen.toNat + 4 ≤ decodingData.outCap.val) :=
  ⟨⟨aaab_inv, rfl, rfl, next_with (by decide +kernel)⟩, inv_of_check (by decide +kernel), rfl, rfl, by decide +kernel,
    by decide +kernel, by decide +kernel⟩

end Sys2Proof.Tests
end

section
/-! PROOFS. What a host access can touch (00_scope.md R6, 10_state.md R61, 20_memory.md R91). -/

namespace Sys2Proof.Machine

/-! ### Reads -/

/-- A host read changes what the host holds and, where its value is a draw(), the draw counter (20_memory.md R91). -/
theorem State.hostRead_frame (s : State) (w : Width) (addr : Word) :
    ∃ r d, s.hostRead w addr = { s with rdata := r, draws := d } := by
  unfold State.hostRead
  split
  · split
    · exact ⟨_, s.draws, rfl⟩
    · exact ⟨_, s.draws + 1, rfl⟩
  · exact ⟨_, s.draws, rfl⟩

/-! ### Writes -/

/-- `t` is `s` but for the parts a host write may touch: the writable registers, STATUS, IN, and the captured command with
the model's own two counters (10_state.md R39, 20_memory.md R83, R97). -/
def SameButHostWritable (s t : State) : Prop :=
  ∃ x ctrl status inLen outLen inWin cmd n d,
    t = { s with
      x := x, ctrl := ctrl, status := status, inLen := inLen, outLen := outLen, inWin := inWin, cmd := cmd
      busyLeft := n, draws := d }

namespace SameButHostWritable

theorem refl (s : State) : SameButHostWritable s s :=
  ⟨s.x, s.ctrl, s.status, s.inLen, s.outLen, s.inWin, s.cmd, s.busyLeft, s.draws, rfl⟩

theorem trans {s t u : State} (hst : SameButHostWritable s t) (htu : SameButHostWritable t u) :
    SameButHostWritable s u := by
  obtain ⟨_, _, _, _, _, _, _, _, _, rfl⟩ := hst
  obtain ⟨x, ctrl, status, inLen, outLen, inWin, cmd, n, d, rfl⟩ := htu
  exact ⟨x, ctrl, status, inLen, outLen, inWin, cmd, n, d, rfl⟩

theorem ite {s t u : State} {p : Prop} [Decidable p] (ht : SameButHostWritable s t) (hu : SameButHostWritable s u) :
    SameButHostWritable s (if p then t else u) := by
  split
  · exact ht
  · exact hu

theorem of_x (s : State) (x : Vector Word 16) : SameButHostWritable s { s with x := x } :=
  ⟨x, s.ctrl, s.status, s.inLen, s.outLen, s.inWin, s.cmd, s.busyLeft, s.draws, rfl⟩

theorem of_ctrl (s : State) (ctrl : BitVec 4) : SameButHostWritable s { s with ctrl := ctrl } :=
  ⟨s.x, ctrl, s.status, s.inLen, s.outLen, s.inWin, s.cmd, s.busyLeft, s.draws, rfl⟩

theorem of_status (s : State) (status : Status) : SameButHostWritable s { s with status := status } :=
  ⟨s.x, s.ctrl, status, s.inLen, s.outLen, s.inWin, s.cmd, s.busyLeft, s.draws, rfl⟩

theorem of_inLen (s : State) (inLen : Word) : SameButHostWritable s { s with inLen := inLen } :=
  ⟨s.x, s.ctrl, s.status, inLen, s.outLen, s.inWin, s.cmd, s.busyLeft, s.draws, rfl⟩

theorem of_outLen (s : State) (outLen : Word) : SameButHostWritable s { s with outLen := outLen } :=
  ⟨s.x, s.ctrl, s.status, s.inLen, outLen, s.inWin, s.cmd, s.busyLeft, s.draws, rfl⟩

theorem of_inWin (s : State) (inWin : Window) : SameButHostWritable s { s with inWin := inWin } :=
  ⟨s.x, s.ctrl, s.status, s.inLen, s.outLen, inWin, s.cmd, s.busyLeft, s.draws, rfl⟩

end SameButHostWritable

/-- A discarded write sets OVR and no more (10_state.md R42). -/
theorem State.overrun_frame (s : State) : SameButHostWritable s s.overrun := .of_status s _

/-- A write of STATUS clears the bits it names, one after the other, and nothing else (10_state.md R42). -/
theorem State.writeStatus_frame (s : State) (v : Word) : SameButHostWritable s (s.writeStatus v) := by
  have clearIf (t : State) (status : Status) (b : Bool) :
      SameButHostWritable t (if b then { t with status := status } else t) := .ite (.of_status t status) (.refl t)
  exact ((clearIf s _ _).trans (clearIf _ _ _)).trans (clearIf _ _ _)

/-- Acceptance of a command word writes STATUS, the captured word and the model's two counters; the command itself runs in a
later step (70_reset_and_hazards.md R406). -/
theorem State.writeCmd_frame (s : State) (c : Word) : SameButHostWritable s (s.writeCmd c) :=
  .ite s.overrun_frame ⟨s.x, s.ctrl, _, s.inLen, s.outLen, s.inWin, c, _, _, rfl⟩

/-- One case per register of 10_state.md R39. -/
theorem State.writeReg_frame (s : State) (v : Word) (r : Reg) : SameButHostWritable s (s.writeReg v r) := by
  cases r with
  | ctrl => exact .of_ctrl s _
  | status => exact s.writeStatus_frame v
  | cmd => exact s.writeCmd_frame v
  | inLen => exact .ite (.of_inLen s v) (.refl s)
  | outLen => exact .ite (.of_outLen s v) (.refl s)
  | x i => exact .of_x s _
  | id | errInfo | errCmd | pad | inCap | outCap => exact .refl s

/-- A host write while BUSY = 0 reaches one register or IN (20_memory.md R81 to R84). -/
theorem State.writeIdle_frame (s : State) (w : Width) (addr v : Word) :
    SameButHostWritable s (s.writeIdle w addr v) := by
  unfold State.writeIdle
  split
  · split
    · split
      · exact s.writeReg_frame v _
      · exact .refl s
    · exact .refl s
  · exact .of_inWin s _
  · exact .refl s
  · exact .refl s

/-- A host write while BUSY = 1 is discarded: at most OVR is set (70_reset_and_hazards.md R410). -/
theorem State.writeBusy_frame (s : State) (w : Width) (addr : Word) : SameButHostWritable s (s.writeBusy w addr) := by
  unfold State.writeBusy
  split
  · split
    · split
      · exact s.overrun_frame
      · exact .refl s
    · exact .refl s
  · exact s.overrun_frame
  · exact .refl s
  · exact .refl s

theorem State.hostWrite_frame (s : State) (w : Width) (addr v : Word) : SameButHostWritable s (s.hostWrite w addr v) :=
  .ite (s.writeBusy_frame w addr) (s.writeIdle_frame w addr v)

/-! ### Accesses under either level of the reset input -/

/-- While reset is asserted a read returns 0 (70_reset_and_hazards.md R400). -/
theorem State.hostOp_read_frame (s : State) (w : Width) (addr : Word) :
    ∃ r d, s.hostOp (.read w addr) = { s with rdata := r, draws := d } := by
  simp only [State.hostOp]
  split
  · exact ⟨0, s.draws, rfl⟩
  · exact s.hostRead_frame w addr

/-- While reset is asserted a write is ignored (70_reset_and_hazards.md R400). -/
theorem State.hostOp_write_frame (s : State) (w : Width) (addr v : Word) :
    SameButHostWritable s (s.hostOp (.write w addr v)) :=
  .ite (.refl s) (s.hostWrite_frame w addr v)

end Sys2Proof.Machine

namespace Sys2Proof

open Sys2Proof.Machine

/-- Settles O12: a read and a write by the frame of each, for every width, address and value. -/
theorem hostReachesOnlyTheRegisterBlock : Obligations.HostReachesOnlyTheRegisterBlock :=
  ⟨State.hostOp_read_frame, State.hostOp_write_frame⟩

end Sys2Proof
end

section
/-! PROOFS. What a completed command leaves, command by command: the shape of its result (`Effect`), and how a command ends
(`Ended`). Frames and invariants are case splits over these shapes. -/

namespace Sys2Proof.Machine

/-! ### Computations that can stop -/

/-- What the computation gives, if it does not stop, meets the predicate. -/
def Yields {α : Type} (P : α → Prop) (r : Except Stop α) : Prop := ∀ u, r = .ok u → P u

namespace Yields
variable {α : Type} {P : α → Prop}

theorem ok {a : α} (h : P a) : Yields P (.ok a) := by
  rintro _ ⟨⟩
  exact h

theorem error {e : Stop} : Yields P (.error e) := nofun

theorem raise {r : Raise} : Yields P (Machine.raise r) := nofun

theorem stuck : Yields P Machine.stuck := nofun

theorem ite {c : Prop} [Decidable c] {a b : Except Stop α} (ha : c → Yields P a) (hb : ¬ c → Yields P b) :
    Yields P (if c then a else b) := by
  split
  · exact ha ‹_›
  · exact hb ‹_›

/-- A range check: a raise where it fails. -/
theorem check {c : Prop} [Decidable c] {r : Raise} {b : Except Stop α} (hb : ¬ c → Yields P b) :
    Yields P (if c then Machine.raise r else b) := ite (fun _ => raise) hb

end Yields

/-! ### The output side within OUT (20_memory.md R80, R88; 10_state.md R47, R57) -/

theorem Window.write_below {w : Window} {cap a : Nat} (b : Byte) (h : ∀ e ∈ w.cells, e.1 < cap) (ha : a < cap) :
    ∀ e ∈ (w.write a b).cells, e.1 < cap := by
  intro e he
  rcases (Memory.mem_put w.cells a b e.1).1 (List.mem_map_of_mem he) with hk | hk
  · omega
  · obtain ⟨f, hf, hfe⟩ := List.mem_map.1 hk
    exact hfe ▸ h f hf

/-- The output side as the invariant has it: canonical, written below the capacity only, OUT_LEN at most the capacity. -/
structure Sink.Within (cap : Nat) (k : Sink) : Prop extends k.Good where
  below : ∀ e ∈ k.win.cells, e.1 < cap
  len : k.len.toNat ≤ cap

theorem outAppend_within {cap : Nat} (hc : cap < 2 ^ 32) {k : Sink} (h : k.Within cap) (b : Byte) :
    Yields (fun k' => ∀ o : Obc, (∀ i, i + o.nb.toNat < 8 → o.buf.getLsbD i = false) → Sink.Within cap { k' with obc := o })
      (outAppend cap k b) := by
  refine .check fun hl => .ok fun o ho => ?_
  have hl' : (k.len + 1).toNat = k.len.toNat + 1 := by
    rw [BitVec.toNat_add, show (1 : Word).toNat = 1 from rfl, Nat.mod_eq_of_lt (by omega)]
  exact {
    wf := Window.write_wf _ _ _ h.wf
    low := ho
    below := Window.write_below b h.below (by omega)
    len := by rw [hl']; omega }

theorem Obc.cleared_low : ∀ i, i + Obc.cleared.nb.toNat < 8 → Obc.cleared.buf.getLsbD i = false := by
  simp [Obc.cleared]

theorem obcPut_within {cap : Nat} (hc : cap < 2 ^ 32) {k : Sink} (h : k.Within cap) (b : Bool) :
    Yields (Sink.Within cap) (obcPut cap k b) := by
  intro k' hk'
  have hgood : k'.Good := by
    rcases obcPut_eq hc h.toGood b with ⟨-, k1, h1, hp⟩ | ⟨-, -, h1⟩
    · cases h1.symm.trans hk'
      exact hp.good
    · cases h1.symm.trans hk'
  unfold obcPut at hk'
  split at hk'
  · split at hk'
    next k1 h1 =>
      cases hk'
      exact outAppend_within hc h _ k1 h1 _ Obc.cleared_low
    · cases hk'
  · cases hk'
    exact ⟨hgood, h.below, h.len⟩

theorem obcPutBits_within {cap : Nat} (hc : cap < 2 ^ 32) {k : Sink} (h : k.Within cap) (l : Bits) :
    Yields (Sink.Within cap) (obcPutBits cap k l) := by
  induction l generalizing k with
  | nil => exact .ok h
  | cons b t ih =>
    rw [obcPutBits]
    split
    next k' hk' => exact ih (obcPut_within hc h b k' hk')
    · exact .error

theorem obcFlush_within {cap : Nat} (hc : cap < 2 ^ 32) {k : Sink} (h : k.Within cap) :
    Yields (fun r => r.1.Within cap) (obcFlush cap k) := by
  refine .ite (fun _ => .ok h) fun _ => ?_
  split
  next k' hk' => exact .ok (outAppend_within hc h _ k' hk' _ Obc.cleared_low)
  · exact .error

theorem writeContainer_within {cap : Nat} (hc : cap < 2 ^ 32) {k : Sink} (h : k.Within cap) (head : List Byte)
    (codes : Bits) (q : Nat) (payload : Bits) : Yields (Sink.Within cap) (writeContainer cap k head codes q payload) := by
  unfold writeContainer
  split
  · exact .error
  next k1 h1 =>
    have w1 := obcPutBits_within hc h _ k1 h1
    split
    · exact .error
    next k2 h2 =>
      have w2 := obcPutBits_within hc w1 _ k2 h2
      split
      · exact .error
      next k3 _ h3 =>
        have w3 := obcFlush_within hc w2 _ h3
        split
        · exact .error
        next k4 h4 =>
          have w4 := obcPutBits_within hc w3 _ k4 h4
          split
          · exact .error
          next k5 h5 =>
            have w5 := obcPutBits_within hc w4 _ k5 h5
            split
            · exact .error
            next k6 _ h6 => exact .ok (obcFlush_within hc w5 _ h6)

theorem State.outCap_lt (s : State) : s.outCap.val < 2 ^ 32 := by
  have := s.outCap.isLt
  omega

theorem Inv.sink_within {s : State} (h : Inv s) : s.sink.Within s.outCap.val :=
  ⟨h.sink_good, h.outBelow, h.outLenCap⟩

theorem Inv.freshOutput_within {s : State} (h : Inv s) : s.freshOutput.sink.Within s.outCap.val :=
  ⟨⟨h.outWf, Obc.cleared_low⟩, h.outBelow, Nat.zero_le _⟩

/-! ### The input cursor within IN (10_state.md R56) -/

/-- The input cursor as the invariant has it, for a capacity of IN. -/
structure Ibc.Within (cap : Nat) (c : Ibc) : Prop where
  atEnd : c.ended = true → c.bit = 0 ∧ c.cur = 0 ∧ c.pos.toNat ≤ cap
  on : c.ended = false → c.pos.toNat < cap

theorem Inv.ibc_within {s : State} (h : Inv s) : s.ibc.Within s.inCap.val := ⟨h.ibcEnd, h.ibcOn⟩

theorem State.ibcLoad_within {s : State} (h : s.inLen.toNat ≤ s.inCap.val) (p : Nat) :
    (s.ibcLoad p).Within s.inCap.val := by
  have := s.inLen.isLt
  rcases s.ibcLoad_eq p with ⟨hp, he⟩ | ⟨-, he⟩
  · rw [he]
    refine ⟨nofun, fun _ => ?_⟩
    simp only [BitVec.toNat_ofNat]
    omega
  · rw [he]
    exact ⟨fun _ => ⟨rfl, rfl, h⟩, nofun⟩

theorem State.ibcAdvance_within {s : State} (h : s.inLen.toNat ≤ s.inCap.val) {c : Ibc} (hc : c.Within s.inCap.val)
    (he : c.ended = false) : (s.ibcAdvance c).Within s.inCap.val := by
  unfold State.ibcAdvance
  split
  · exact ⟨fun h1 => absurd (h1.symm.trans he) (by simp), fun _ => hc.on he⟩
  · exact s.ibcLoad_within h _

theorem decodeLoop_within {s : State} (h : s.inLen.toNat ≤ s.inCap.val) (nodes : List Node) (root n k j : Nat) (mid : Bool)
    {c : Ibc} (hc : c.Within s.inCap.val) :
    Yields (fun r => r.1.Within s.inCap.val) (decodeLoop s nodes root n k j mid c) := by
  induction n generalizing k j mid c with
  | zero => exact .check fun _ => .ok hc
  | succ n ih =>
    refine .check fun he => ?_
    have hnext := s.ibcAdvance_within h hc (by simpa using he)
    split
    · exact .stuck
    · split
      · exact .raise
      · split
        · exact .stuck
        · refine .ite (fun _ => ?_) fun _ => ih _ _ _ hnext
          split
          · exact .error
          next hr =>
            have hc' := ih _ _ _ hnext _ hr
            exact .ok hc'

/-! ### Codes of at most 32 bits (10_state.md R52) -/

/-- No code of the table is longer than 32 bits. -/
def CodesFit (table : Vector Bits 256) : Prop := ∀ c, (entry table c).length ≤ 32

theorem codesFit_empty : CodesFit (Vector.replicate 256 []) := fun c => by simp

theorem CodesFit.setEntry {table : Vector Bits 256} (h : CodesFit table) (c : Byte) {l : Bits} (hl : l.length ≤ 32) :
    CodesFit (setEntry table c l) := fun d => by
  rw [entry_setEntry]
  split
  · exact hl
  · exact h d

theorem deriveFrom_codesFit (nodes : List Node) (i : Nat) {table : Vector Bits 256} (h : CodesFit table) (l : List Node) :
    Yields CodesFit (deriveFrom nodes i table l) := by
  induction l generalizing i table with
  | nil => exact .ok h
  | cons n t ih =>
    refine .ite (fun _ => ?_) fun _ => ih _ h
    split
    · exact .stuck
    · exact .check fun hl => ih _ (h.setEntry _ (by omega))

theorem deriveTable_codesFit (nodes : List Node) : Yields CodesFit (deriveTable nodes) :=
  deriveFrom_codesFit nodes 0 codesFit_empty nodes

theorem State.readBits_length (s : State) (n : Nat) (c : Ibc) : (s.readBits n c).1.length = n := by
  induction n generalizing c with
  | zero => rfl
  | succ n ih => simp [State.readBits, ih]

theorem State.readTable_codesFit (s : State) {l : List (Byte × Nat)} (hl : ∀ e ∈ l, e.2 ≤ 32) (c : Ibc)
    {table : Vector Bits 256} (h : CodesFit table) : CodesFit (s.readTable l c table) := by
  induction l generalizing c table with
  | nil => exact h
  | cons e t ih =>
    refine ih (fun x hx => hl x (List.mem_cons_of_mem _ hx)) _ (h.setEntry _ ?_)
    rw [State.readBits_length]
    exact hl e List.mem_cons_self

/-- Entries that pass the checks of 46_codec.md R343 have code lengths of at most 32. -/
theorem checkEntries_fit (k : Nat) (before : Option Byte) (l : List (Byte × Nat)) :
    Yields (fun _ => ∀ e ∈ l, e.2 ≤ 32) (checkEntries k before l) := by
  induction l generalizing k before with
  | nil => exact .ok nofun
  | cons e t ih =>
    refine .check fun _ => .check fun hn u hu => List.forall_mem_cons.2 ⟨by omega, ih _ _ u hu⟩

theorem State.parseHeader_fit (s : State) : Yields (fun h => ∀ e ∈ h.entries, e.2 ≤ 32) s.parseHeader := by
  refine .check fun _ => .check fun _ => .check fun _ => .check fun _ => ?_
  split
  · exact .error
  next hu => exact .check fun _ => .check fun _ => .check fun _ => .check fun _ => .ok (checkEntries_fit _ _ _ _ hu)

/-! ### The commands over the tree and the codec (44_huffman_tree.md, 46_codec.md) -/

/-- `t` is `s` with FREQ, the tree of its leaves, and the code table of that tree (44_huffman_tree.md R260). -/
def BuiltFromData (s t : State) : Prop :=
  ∃ freq nodes root table, buildTree (fillLeaves freq) = .ok (nodes, root) ∧ deriveTable nodes = .ok table ∧
    t = { s with freq := freq, nodes := nodes, root := root, pq := [], ct := table, tstate := .coded }

/-- `t` is `s` with the tree of its code table (44_huffman_tree.md R262). -/
def RebuiltFromTable (s t : State) : Prop :=
  ∃ nodes root, rebuildTree s.ct = .ok (nodes, root) ∧ t = { s with nodes := nodes, root := root, tstate := .dict }

/-- `t` is `s` but for the output side and the input cursor, which stay within OUT and IN. -/
def MovesCursors (s t : State) : Prop :=
  ∃ k c, (s.sink.Within s.outCap.val → s.ibc.Within s.inCap.val → s.inLen.toNat ≤ s.inCap.val →
      k.Within s.outCap.val ∧ c.Within s.inCap.val) ∧ t = { s.setSink k with ibc := c }

theorem State.scanFrequencies_yields (s : State) (p n : Nat) :
    Yields (fun t => ∃ freq, t = { s with freq := freq }) (s.scanFrequencies p n) := by
  unfold State.scanFrequencies
  split
  · exact .error
  · exact .ok ⟨_, rfl⟩

theorem State.buildFromLeaves_yields (s : State) :
    Yields (fun t => s.tstate = .leaves ∧ ∃ nodes root, buildTree s.nodes = .ok (nodes, root) ∧
      t = { s with nodes := nodes, root := root, pq := [], tstate := .tree }) s.buildFromLeaves := by
  refine .check fun hl => ?_
  split
  · exact .error
  next nodes root h => exact .ok ⟨by simpa using hl, nodes, root, h, rfl⟩

theorem State.deriveCodes_yields (s : State) :
    Yields (fun t => s.tstate = .tree ∧ ∃ table, deriveTable s.nodes = .ok table ∧
      t = { s with ct := table, tstate := .coded }) s.deriveCodes := by
  refine .check fun ht => ?_
  split
  · exact .error
  next table h => exact .ok ⟨by simpa using ht, table, h, rfl⟩

theorem State.setData_yields (s : State) (p n : Nat) : Yields (BuiltFromData s) (s.setData p n) := by
  unfold State.setData
  split
  · exact .error
  next s1 h1 =>
    obtain ⟨freq, rfl⟩ := s.scanFrequencies_yields p n s1 h1
    split
    · exact .error
    next s2 h2 =>
      obtain ⟨-, nodes, root, hb, rfl⟩ := State.buildFromLeaves_yields _ s2 h2
      intro t ht
      obtain ⟨-, table, hd, rfl⟩ := State.deriveCodes_yields _ t ht
      exact ⟨freq, nodes, root, table, hb, hd, rfl⟩

theorem State.setDict_yields (s : State) : Yields (RebuiltFromTable s) s.setDict := by
  unfold State.setDict
  split
  · exact .error
  next nodes root h => exact .ok ⟨nodes, root, h, rfl⟩

theorem State.encodeWindow_yields (s : State) (p n : Nat) :
    Yields (fun t => ∃ k, (s.sink.Within s.outCap.val → k.Within s.outCap.val) ∧ t = s.setSink k) (s.encodeWindow p n) := by
  unfold State.encodeWindow
  split
  · exact .error
  · split
    · exact .error
    · split
      · exact .error
      · split
        · exact .error
        next k hk => exact .ok ⟨k, fun h => obcPutBits_within s.outCap_lt h _ k hk, rfl⟩

theorem State.decodePayload_yields (s : State) (n : Nat) : Yields (MovesCursors s) (s.decodePayload n) := by
  refine .check fun _ => .ite (fun _ => .ok ⟨s.sink, s.ibc, fun hk hc _ => ⟨hk, hc⟩, rfl⟩) fun _ => ?_
  split
  · exact .raise
  · split
    · exact .error
    next cur l hd =>
      split
      · exact .error
      · split
        · exact .error
        next k hk =>
          exact .ok ⟨k, cur, fun hs hc hl => ⟨obcPutBits_within s.outCap_lt hs _ k hk,
            decodeLoop_within hl _ _ _ _ _ _ hc _ hd⟩, rfl⟩

theorem State.putBit_yields (s : State) (b : Bool) :
    Yields (fun t => ∃ k, (s.sink.Within s.outCap.val → k.Within s.outCap.val) ∧ t = s.setSink k) (s.putBit b) := by
  refine .check fun _ => ?_
  split
  · exact .error
  next k hk => exact .ok ⟨k, fun h => obcPut_within s.outCap_lt h _ k hk, rfl⟩

theorem State.compress_yields (s : State) :
    Yields (fun t => ∃ u k q, BuiltFromData s.freshOutput u ∧ (Inv s → k.Within s.outCap.val) ∧
      t = { u.setSink k with pad := q }) s.compress := by
  unfold State.compress
  split
  · exact .error
  next u hu =>
    have hb := State.setData_yields _ _ _ u hu
    split
    · exact .error
    next k hk =>
      refine .ok ⟨u, k, _, hb, fun h => ?_, rfl⟩
      obtain ⟨freq, nodes, root, table, -, -, rfl⟩ := hb
      exact writeContainer_within s.outCap_lt h.freshOutput_within _ _ _ _ k hk

theorem State.decompress_yields (s : State) :
    Yields (fun t => ∃ table u k c q, CodesFit table ∧ RebuiltFromTable { s.freshOutput with ct := table } u ∧
      (Inv s → k.Within s.outCap.val ∧ c.Within s.inCap.val) ∧ t = { u.setSink k with ibc := c, pad := q })
      s.decompress := by
  unfold State.decompress
  split
  · exact .error
  next h hh =>
    have hfit := s.readTable_codesFit (s.parseHeader_fit h hh) (s.ibcLoad (8 + 2 * h.entries.length)) codesFit_empty
    simp only
    split
    · exact .error
    next u hu =>
      have hr := State.setDict_yields _ u hu
      split
      · exact .error
      next v hv =>
        obtain ⟨k, c, hk, rfl⟩ := State.decodePayload_yields _ _ v hv
        refine .ok ⟨_, u, k, c, _, hfit, hr, fun hi => ?_, rfl⟩
        obtain ⟨nodes, root, -, rfl⟩ := hr
        exact hk hi.freshOutput_within (State.ibcLoad_within hi.inLenCap _) hi.inLenCap

/-! ### The effect of a completed command -/

/-- `Effect s i u`: command `i` turns `s` into `u` before BUSY falls and DONE is set. Each constructor is one shape, with
what the invariant of the state gives of the value written. -/
inductive Effect (s : State) : Instr → State → Prop
  | nothing {i : Instr} : Effect s i s
  | setX {i : Instr} (a : XReg) (v : Word) (hi : xDests i = [a]) : Effect s i (s.setX a v)
  | drawX {i : Instr} (a : XReg) (v : Word) (hi : xDests i = [a]) : Effect s i (s.drawn.setX a v)
  | setEntry {i : Instr} (a b : XReg) (n : PqEntry) (hi : xDests i = [a, b]) : Effect s i (s.setEntryRegs a b n)
  | setBs {i : Instr} (j : BsReg) (l : Bits) (hl : Inv s → l.length ≤ 32) : Effect s i (s.setBs j l)
  | setFreq {i : Instr} (freq : Vector Word 256) : Effect s i { s with freq := freq }
  | setCt {i : Instr} (table : Vector Bits 256) (h : Inv s → CodesFit table) : Effect s i { s with ct := table }
  | setPq {i : Instr} (q : List PqEntry) (h : Inv s → pqSorted q ∧ q.length ≤ 512) : Effect s i { s with pq := q }
  | setIbc {i : Instr} (c : Ibc) (h : Inv s → c.Within s.inCap.val) : Effect s i { s with ibc := c }
  | setSink {i : Instr} (k : Sink) (h : Inv s → k.Within s.outCap.val) : Effect s i (s.setSink k)
  | flush (a : XReg) (k : Sink) (v : Word) (q : BitVec 3) (h : Inv s → k.Within s.outCap.val) :
      Effect s (.obflush a) { (s.setSink k).setX a v with pad := q }
  | softReset : Effect s .srst s.softReset
  | fill : Effect s .htfill s.fillNodes
  | build (nodes : List Node) (root : Link) (hs : s.tstate = .leaves) (h : buildTree s.nodes = .ok (nodes, root)) :
      Effect s .htbuild { s with nodes := nodes, root := root, pq := [], tstate := .tree }
  | derive (table : Vector Bits 256) (hs : s.tstate = .tree) (h : deriveTable s.nodes = .ok table) :
      Effect s .htdict { s with ct := table, tstate := .coded }
  | setData (a b : XReg) (u : State) (h : BuiltFromData s u) : Effect s (.htsetdata a b) u
  | setDict (u : State) (h : RebuiltFromTable s u) : Effect s .htsetdict u
  | decode (a : XReg) (u : State) (h : MovesCursors s u) : Effect s (.htdec a) u
  | compress (u : State) (k : Sink) (q : BitVec 3) (hu : BuiltFromData s.freshOutput u)
      (hk : Inv s → k.Within s.outCap.val) : Effect s .compress { u.setSink k with pad := q }
  | decompress (table : Vector Bits 256) (u : State) (k : Sink) (c : Ibc) (q : BitVec 3) (ht : CodesFit table)
      (hu : RebuiltFromTable { s.freshOutput with ct := table } u)
      (hk : Inv s → k.Within s.outCap.val ∧ c.Within s.inCap.val) :
      Effect s .decompress { u.setSink k with ibc := c, pad := q }

/-- How command `i` ends from `s`: it completes, it faults precisely, or it is a codec command that leaves the failure state
(30_encoding.md R126, R127; 46_codec.md R348). -/
inductive Ended (s : State) : Instr → State → Prop
  | completed {i : Instr} {u : State} (h : Effect s i u) : Ended s i u.complete
  | faulted {i : Instr} (r : Raise) : Ended s i (s.takeFault r)
  | compressFailed (r : Raise) : Ended s .compress (s.compressFailed.takeFault r)
  | decompressFailed (r : Raise) : Ended s .decompress (s.codecFailed.takeFault r)

theorem Ended.of_precise {s t : State} {i : Instr} {r : Except Stop State} (h : s.precise r = .next t)
    (hr : Yields (Effect s i) r) : Ended s i t := by
  rcases State.precise_next h with ⟨u, hu, rfl⟩ | ⟨r, -, rfl⟩
  · exact .completed (hr u hu)
  · exact .faulted r

/-- A command with no check completes. -/
theorem Ended.of_complete {s t u : State} {i : Instr} (h : (Host.Outcome.next u.complete : Answer) = .next t)
    (hu : Effect s i u) : Ended s i t := by
  cases h
  exact .completed hu

theorem Ended.of_compress {s t : State} (h : exec .compress s = .next t) : Ended s .compress t := by
  rcases execCompress_eq s with ⟨-, he⟩ | ⟨-, -, he⟩ | ⟨-, -, he⟩
  · cases he.symm.trans h
    exact .faulted _
  · cases he.symm.trans h
    exact .faulted _
  · rcases State.imprecise_next (he.symm.trans h) with ⟨v, hv, rfl⟩ | ⟨r, -, rfl⟩
    · obtain ⟨u, k, q, hu, hk, rfl⟩ := s.compress_yields v hv
      exact .completed (.compress u k q hu hk)
    · exact .compressFailed r

theorem Ended.of_decompress {s t : State} (h : exec .decompress s = .next t) : Ended s .decompress t := by
  rcases execDecompress_eq s with ⟨-, he⟩ | ⟨-, -, he⟩ | ⟨-, -, he⟩
  · cases he.symm.trans h
    exact .faulted _
  · cases he.symm.trans h
    exact .faulted _
  · rcases State.imprecise_next (he.symm.trans h) with ⟨v, hv, rfl⟩ | ⟨r, -, rfl⟩
    · obtain ⟨table, u, k, c, q, ht, hu, hk, rfl⟩ := s.decompress_yields v hv
      exact .completed (.decompress table u k c q ht hu hk)
    · exact .decompressFailed r

/-! ### Every command -/

@[simp] theorem insertAt_length (l : Bits) (p : Nat) (m : Bits) : (insertAt l p m).length = l.length + m.length := by
  simp only [insertAt, List.length_append, List.length_take, List.length_drop]
  omega

@[simp] theorem wordBits_length (w : Word) (n : Nat) : (wordBits w n).length = n := by simp [wordBits]

theorem eraseRange_length_le (l : Bits) {f g : Nat} (h : f ≤ g) : (eraseRange l f g).length ≤ l.length := by
  simp only [eraseRange, List.length_append, List.length_take, List.length_drop]
  omega

theorem slice_length_le (l : Bits) (f g : Nat) : (slice l f g).length ≤ g - f := by
  simp only [slice, List.length_drop, List.length_take]
  omega

/-- How every command ends: one case for each command, by the checks and the result of its rule. -/
theorem exec_ended {i : Instr} {s t : State} (h : exec i s = .next t) : Ended s i t := by
  cases i with
  | nop => exact .of_complete h .nothing
  | srst => exact .of_complete h .softReset
  | li a | lui a | mov a | bssize a | bsempty a | bsword a | pqsize a | htroot a | htncnt a | iblast a | ibend a
  | ibpos a | obcnt a => exact .of_complete h (.setX a _ rfl)
  | bget a | bset a => exact .of_precise h (.check fun _ => .ok (.setX a _ rfl))
  | bins a | bera a => exact .of_precise h (.check fun _ => .check fun _ => .ok (.setX a _ rfl))
  | bsnew a b v =>
    exact .of_precise h (.check fun hb => .ok (.setBs a _ fun _ => by rw [List.length_replicate]; omega))
  | bsfrom a b c => exact .of_precise h (.check fun hc => .ok (.setBs a _ fun _ => by rw [wordBits_length]; omega))
  | bsmov a b => exact .of_complete h (.setBs a _ fun hi => hi.bsLen b)
  | bsgetu a =>
    refine .of_precise h (.check fun _ => ?_)
    split
    · exact .ok (.setX a _ rfl)
    · exact .ok (.drawX a _ rfl)
  | bssetat a b v =>
    exact .of_precise h (.check fun _ => .ok (.setBs a _ fun hi => by rw [List.length_set]; exact hi.bsLen a))
  | bssetu a b v =>
    exact .of_precise h (.check fun _ => .ite
      (fun _ => .ok (.setBs a _ fun hi => by rw [List.length_set]; exact hi.bsLen a)) fun _ => .ok .nothing)
  | bsins a b c v =>
    refine .of_precise h (.check fun _ => .check fun hc => .ok (.setBs a _ fun hi => ?_))
    have := hi.bsLen a
    rw [insertAt_length, List.length_replicate]
    omega
  | bsins1 a b v =>
    refine .of_precise h (.check fun _ => .check fun hc => .ok (.setBs a _ fun hi => ?_))
    have := hi.bsLen a
    rw [insertAt_length, List.length_singleton]
    omega
  | bsinsr a b c d e =>
    refine .of_precise h (.check fun _ => .check fun _ => .check fun _ => .check fun hc => .ok (.setBs a _ fun hi => ?_))
    have := hi.bsLen a
    have := slice_length_le (s.getBs c) (s.operand d) (s.operand e)
    rw [insertAt_length]
    omega
  | bsera a b c =>
    exact .of_precise h (.check fun hc => .check fun _ => .ok (.setBs a _ fun hi =>
      (eraseRange_length_le _ (by omega)).trans (hi.bsLen a)))
  | bsera1 a b =>
    exact .of_precise h (.check fun _ => .ok (.setBs a _ fun hi =>
      (eraseRange_length_le _ (by omega)).trans (hi.bsLen a)))
  | bspush a v =>
    refine .of_precise h (.check fun hc => .ok (.setBs a _ fun hi => ?_))
    have := hi.bsLen a
    rw [List.length_append, List.length_singleton]
    omega
  | bspop a =>
    exact .of_precise h (.check fun _ => .ok (.setBs a _ fun hi => (List.length_take_le' _ _).trans (hi.bsLen a)))
  | bsresize a b v =>
    refine .of_precise h (.check fun hb => .ite
      (fun _ => .ok (.setBs a _ fun hi => (List.length_take_le' _ _).trans (hi.bsLen a)))
      fun _ => .ok (.setBs a _ fun hi => ?_))
    have := hi.bsLen a
    rw [List.length_append, List.length_replicate]
    omega
  | bsclr a => exact .of_complete h (.setBs a _ fun _ => Nat.zero_le _)
  | bsat a | bsfront a | bsback a =>
    refine .of_precise h ?_
    split
    · exact .raise
    · exact .ok (.setX a _ rfl)
  | pqpush a b =>
    refine .of_precise h (.check fun _ => .check fun hf => .ok (.setPq _ fun hi => ⟨pqInsert_sorted _ hi.pqOrder, ?_⟩))
    have := hi.pqLen
    rw [pqInsert_length]
    omega
  | pqpop =>
    refine .of_precise h ?_
    split
    · exact .raise
    next e q hq =>
      refine .ok (.setPq q fun hi => ?_)
      have ho := hi.pqOrder
      have hl := hi.pqLen
      rw [hq] at ho hl
      exact ⟨ho.tail, Nat.le_of_succ_le hl⟩
  | pqtop a b | pqback a b | pqat a b c =>
    refine .of_precise h ?_
    split
    · exact .raise
    · exact .ok (.setEntry a b _ rfl)
  | pqclr => exact .of_complete h (.setPq [] fun _ => ⟨List.Pairwise.nil, Nat.zero_le _⟩)
  | fqwr a b =>
    refine .of_precise h ?_
    split
    · exact .error
    · exact .ok (.setFreq _)
  | fqrd a b =>
    refine .of_precise h ?_
    split
    · exact .error
    · exact .ok (.setX a _ rfl)
  | fqclr => exact .of_complete h (.setFreq _)
  | ctwr a b =>
    refine .of_precise h ?_
    split
    · exact .error
    · exact .ok (.setCt _ fun hi => CodesFit.setEntry hi.ctLen _ (hi.bsLen b))
  | ctrd a b =>
    refine .of_precise h ?_
    split
    · exact .error
    · exact .ok (.setBs a _ fun hi => hi.ctLen _)
  | ctclr => exact .of_complete h (.setCt _ fun _ => codesFit_empty)
  | htfreq a b =>
    refine .of_precise h fun u hu => ?_
    obtain ⟨freq, rfl⟩ := s.scanFrequencies_yields _ _ u hu
    exact .setFreq freq
  | htfill => exact .of_complete h .fill
  | htbuild =>
    refine .of_precise h fun u hu => ?_
    obtain ⟨hs, nodes, root, hb, rfl⟩ := s.buildFromLeaves_yields u hu
    exact .build nodes root hs hb
  | htdict =>
    refine .of_precise h fun u hu => ?_
    obtain ⟨hs, table, hd, rfl⟩ := s.deriveCodes_yields u hu
    exact .derive table hs hd
  | htsetdata a b => exact .of_precise h fun u hu => .setData a b u (s.setData_yields _ _ u hu)
  | htsetdict => exact .of_precise h fun u hu => .setDict u (s.setDict_yields u hu)
  | htenc a b =>
    refine .of_precise h fun u hu => ?_
    obtain ⟨k, hk, rfl⟩ := s.encodeWindow_yields _ _ u hu
    exact .setSink k fun hi => hk hi.sink_within
  | htdec a => exact .of_precise h fun u hu => .decode a u (s.decodePayload_yields _ u hu)
  | ndrd a b d =>
    refine .of_precise h (.check fun _ => ?_)
    split
    · exact .raise
    · split
      · exact .raise
      · exact .ok (.setX a _ rfl)
  | ibinit a => exact .of_complete h (.setIbc _ fun hi => State.ibcLoad_within hi.inLenCap _)
  | ibread a => exact .of_precise h (.check fun _ => .ok (.setX a _ rfl))
  | ibnext =>
    exact .of_precise h (.check fun he => .ok (.setIbc _ fun hi =>
      State.ibcAdvance_within hi.inLenCap hi.ibc_within (by simpa using he)))
  | obinit =>
    exact .of_complete h (.setSink { s.sink with obc := Obc.cleared } fun hi =>
      ⟨⟨hi.outWf, Obc.cleared_low⟩, hi.outBelow, hi.outLenCap⟩)
  | obput v =>
    refine .of_precise h fun u hu => ?_
    obtain ⟨k, hk, rfl⟩ := s.putBit_yields v u hu
    exact .setSink k fun hi => hk hi.sink_within
  | obputx a =>
    refine .of_precise h (.check fun _ u hu => ?_)
    obtain ⟨k, hk, rfl⟩ := s.putBit_yields _ u hu
    exact .setSink k fun hi => hk hi.sink_within
  | obflush a =>
    refine .of_precise h (.check fun _ => ?_)
    split
    · exact .error
    next k q hk => exact .ok (.flush a k _ _ fun hi => obcFlush_within s.outCap_lt hi.sink_within _ hk)
  | compress => exact .of_compress h
  | decompress => exact .of_decompress h

end Sys2Proof.Machine
end

section
/-! PROOFS. What no command writes, and what each part of the state is left with: X, PAD, TSTATE, the error registers
(10_state.md R33, R38, R41, R43, R44, R46, R51). -/

namespace Sys2Proof.Machine

/-! ### The host's side of a command -/

/-- What the effect of a command leaves alone: the registers the host or the end of a command writes, IN, the parameters and
the model's own fields. -/
structure HostSide where
  ctrl : BitVec 4
  status : Status
  errInfo : Word
  errCmd : Word
  inLen : Word
  inWin : Window
  inCap : Fin (2 ^ 28 + 1)
  outCap : Fin (2 ^ 28 + 1)
  cmd : Word
  busyLeft : Nat
  resetPin : Bool
  host : List HostOp
  rdata : Word

def State.hostSide (s : State) : HostSide :=
  ⟨s.ctrl, s.status, s.errInfo, s.errCmd, s.inLen, s.inWin, s.inCap, s.outCap, s.cmd, s.busyLeft, s.resetPin, s.host,
    s.rdata⟩

/-- `u` differs from `s` at most in the tree, the tables, the queue, BS, the cursors and OUT. -/
structure SameVisible (s u : State) : Prop where
  hostSide : u.hostSide = s.hostSide
  x : u.x = s.x
  pad : u.pad = s.pad

theorem BuiltFromData.visible {s u : State} (h : BuiltFromData s u) : SameVisible s u := by
  obtain ⟨_, _, _, _, -, -, rfl⟩ := h
  exact ⟨rfl, rfl, rfl⟩

theorem RebuiltFromTable.visible {s u : State} (h : RebuiltFromTable s u) : SameVisible s u := by
  obtain ⟨_, _, -, rfl⟩ := h
  exact ⟨rfl, rfl, rfl⟩

theorem MovesCursors.visible {s u : State} (h : MovesCursors s u) : SameVisible s u := by
  obtain ⟨_, _, -, rfl⟩ := h
  exact ⟨rfl, rfl, rfl⟩

theorem Effect.hostSide {s u : State} {i : Instr} (h : Effect s i u) : u.hostSide = s.hostSide := by
  cases h with
  | setData _ _ _ h => exact h.visible.hostSide
  | setDict _ h => exact h.visible.hostSide
  | decode _ _ h => exact h.visible.hostSide
  | compress _ _ _ h => exact h.visible.hostSide
  | decompress _ _ _ _ _ _ h => exact h.visible.hostSide
  | _ => rfl

/-- The end of a command writes STATUS, and on a fault ERRINFO and ERRCMD (30_encoding.md R126, 60_exceptions.md R362). -/
theorem Ended.hostSide {s t : State} {i : Instr} (h : Ended s i t) :
    t.hostSide = { s.hostSide with status := { s.status with busy := false, done := true } } ∨
    ∃ r : Raise, t.hostSide =
      { s.hostSide with
        status := { s.status with err := true, errCode := r.code, busy := false }
        errInfo := r.info
        errCmd := s.cmd } := by
  cases h with
  | @completed _ u h =>
    refine .inl ?_
    rw [← h.hostSide, ← show u.status = s.status from congrArg HostSide.status h.hostSide]
    rfl
  | faulted r | compressFailed r | decompressFailed r => exact .inr ⟨r, rfl⟩

theorem Raise.code_ne_none (r : Raise) : r.code ≠ .none := by cases r <;> simp [Raise.code]

/-! ### X (10_state.md R33) -/

theorem State.getX_congr {s t : State} (h : t.x = s.x) (r : XReg) : t.getX r = s.getX r := by rw [State.getX, h]; rfl

theorem State.getX_setX_of_ne (s : State) {a r : XReg} (v : Word) (h : r ≠ a) : (s.setX a v).getX r = s.getX r := by
  rw [State.getX_setX, if_neg (Ne.symm h)]

theorem Effect.getX {s u : State} {i : Instr} (h : Effect s i u) {r : XReg} (hr : r ∉ xDests i) :
    u.getX r = s.getX r := by
  cases h with
  | setX a v hi | drawX a v hi => exact State.getX_setX_of_ne _ v (by simpa [hi] using hr)
  | setEntry a b n hi =>
    rw [hi, List.mem_cons, List.mem_singleton, not_or] at hr
    exact (State.getX_setX_of_ne _ _ hr.2).trans (State.getX_setX_of_ne _ _ hr.1)
  | flush a k v => exact State.getX_setX_of_ne (s.setSink k) v (by simpa [xDests] using hr)
  | setData _ _ _ h => exact State.getX_congr h.visible.x r
  | setDict _ h => exact State.getX_congr h.visible.x r
  | decode _ _ h => exact State.getX_congr h.visible.x r
  | compress _ _ _ h => exact State.getX_congr h.visible.x r
  | decompress _ _ _ _ _ _ h => exact State.getX_congr h.visible.x r
  | _ => rfl

theorem Ended.getX {s t : State} {i : Instr} (h : Ended s i t) {r : XReg} (hr : r ∉ xDests i) : t.getX r = s.getX r := by
  cases h with
  | completed h => exact h.getX hr
  | _ => rfl

/-- A command that ends with ERR where there was none has faulted. -/
theorem Ended.getX_of_err {s t : State} {i : Instr} (h : Ended s i t) (hs : s.status.err = false)
    (ht : t.status.err = true) (r : XReg) : t.getX r = s.getX r := by
  cases h with
  | @completed _ u h =>
    have hu : u.status = s.status := congrArg HostSide.status h.hostSide
    rw [State.complete_status, hu] at ht
    exact absurd (ht.symm.trans hs) (by simp)
  | _ => rfl

/-- A precise command that ends without ERR has completed. -/
theorem State.precise_completed {s t : State} {result : Except Stop State} (h : s.precise result = .next t)
    (ht : t.status.err = false) : ∃ u, result = .ok u ∧ t = u.complete := by
  rcases State.precise_next h with hu | ⟨r, -, rfl⟩
  · exact hu
  · exact absurd ht (by simp)

/-! ### PAD (10_state.md R38) -/

theorem Effect.pad {s u : State} {i : Instr} (h : Effect s i u) (hp : u.pad ≠ s.pad) :
    (∃ a, i = .obflush a) ∨ i = .compress ∨ i = .decompress ∨ (i = .srst ∧ u.pad = 0) := by
  cases h with
  | flush a => exact .inl ⟨a, rfl⟩
  | compress => exact .inr (.inl rfl)
  | decompress => exact .inr (.inr (.inl rfl))
  | softReset => exact .inr (.inr (.inr ⟨rfl, rfl⟩))
  | setData _ _ _ h => exact absurd h.visible.pad hp
  | setDict _ h => exact absurd h.visible.pad hp
  | decode _ _ h => exact absurd h.visible.pad hp
  | _ => exact absurd rfl hp

theorem Ended.pad {s t : State} {i : Instr} (h : Ended s i t) (hs : s.status.err = false) (hp : t.pad ≠ s.pad) :
    t.status.err = false ∧ ((∃ a, i = .obflush a) ∨ i = .compress ∨ i = .decompress ∨ (i = .srst ∧ t.pad = 0)) := by
  cases h with
  | @completed _ u h =>
    have hu : u.status = s.status := congrArg HostSide.status h.hostSide
    exact ⟨by rw [State.complete_status, hu]; exact hs, h.pad hp⟩
  | _ => exact absurd rfl hp

/-! ### TSTATE (10_state.md R51, 46_codec.md R348) -/

theorem Effect.tstate {s u : State} {i : Instr} (h : Effect s i u) :
    u.tstate = s.tstate ∨ tstateMoves i s.tstate u.tstate := by
  cases h with
  | softReset | fill => exact .inr rfl
  | build _ _ hs | derive _ hs => exact .inr ⟨hs, rfl⟩
  | setData _ _ _ h =>
    obtain ⟨_, _, _, _, -, -, rfl⟩ := h
    exact .inr rfl
  | setDict _ h =>
    obtain ⟨_, _, -, rfl⟩ := h
    exact .inr rfl
  | decode _ _ h =>
    obtain ⟨_, _, -, rfl⟩ := h
    exact .inl rfl
  | compress _ _ _ h =>
    obtain ⟨_, _, _, _, -, -, rfl⟩ := h
    exact .inr (.inl rfl)
  | decompress _ _ _ _ _ _ h =>
    obtain ⟨_, _, -, rfl⟩ := h
    exact .inr (.inl rfl)
  | _ => exact .inl rfl

theorem Ended.tstate {s t : State} {i : Instr} (h : Ended s i t) :
    t.tstate = s.tstate ∨ tstateMoves i s.tstate t.tstate := by
  cases h with
  | completed h => exact h.tstate
  | faulted => exact .inl rfl
  | compressFailed | decompressFailed => exact .inr (.inr rfl)

/-! ### Host writes (10_state.md R39 to R47, 70_reset_and_hazards.md R410) -/

theorem State.ite_clearDone (s : State) (b : Bool) :
    (if b then s.clearDone else s) = { s with status := { s.status with done := s.status.done && !b } } := by
  cases b <;> simp [State.clearDone]

theorem State.ite_clearError (s : State) (b : Bool) :
    (if b then s.clearError else s) =
      { s with
        status := { s.status with err := s.status.err && !b, errCode := if b then .none else s.status.errCode } } := by
  cases b <;> simp [State.clearError]

theorem State.ite_clearOverrun (s : State) (b : Bool) :
    (if b then s.clearOverrun else s) = { s with status := { s.status with ovr := s.status.ovr && !b } } := by
  cases b <;> simp [State.clearOverrun]

/-- A host write of STATUS, bit by bit (10_state.md R42). -/
theorem State.writeStatus_eq (s : State) (v : Word) :
    s.writeStatus v =
      { s with
        status :=
          { busy := s.status.busy
            done := s.status.done && !v.getLsbD 1
            err := s.status.err && !v.getLsbD 2
            ovr := s.status.ovr && !v.getLsbD 3
            errCode := if v.getLsbD 2 then .none else s.status.errCode } } := by
  simp only [State.writeStatus, State.ite_clearDone, State.ite_clearError, State.ite_clearOverrun]

/-- What a host write of `v` can leave. -/
inductive HostWrote (s : State) (v : Word) : State → Prop
  | ignored : HostWrote s v s
  | overrun : HostWrote s v s.overrun
  | reg (hp : s.resetPin = false) (hb : s.status.busy = false) (r : Reg) : HostWrote s v (s.writeReg v r)
  | window (a n : Nat) : HostWrote s v { s with inWin := writeWindow s.inWin s.inCap.val a v n }

theorem State.writeIdle_wrote (s : State) (w : Width) (addr v : Word) (hp : s.resetPin = false)
    (hb : s.status.busy = false) : HostWrote s v (s.writeIdle w addr v) := by
  unfold State.writeIdle
  split
  · split
    · split
      · exact .reg hp hb _
      · exact .ignored
    · exact .ignored
  · exact .window _ _
  · exact .ignored
  · exact .ignored

theorem State.writeBusy_wrote (s : State) (w : Width) (addr v : Word) : HostWrote s v (s.writeBusy w addr) := by
  unfold State.writeBusy
  split
  · split
    · split
      · exact .overrun
      · exact .ignored
    · exact .ignored
  · exact .overrun
  · exact .ignored
  · exact .ignored

theorem State.hostOp_write_wrote (s : State) (w : Width) (addr v : Word) :
    HostWrote s v (s.hostOp (.write w addr v)) := by
  simp only [State.hostOp, State.hostWrite]
  split
  · exact .ignored
  · split
    · exact s.writeBusy_wrote w addr v
    · exact s.writeIdle_wrote w addr v (by simpa using ‹¬ s.resetPin = true›) (by simpa using ‹¬ s.status.busy = true›)

/-- No host write sets ERR. -/
theorem HostWrote.err {s t : State} {v : Word} (h : HostWrote s v t) (ht : t.status.err = true) :
    s.status.err = true := by
  cases h with
  | ignored | overrun | window => exact ht
  | reg _ _ r =>
    cases r with
    | status =>
      rw [State.writeReg, State.writeStatus_eq] at ht
      exact (Bool.and_eq_true_iff.1 ht).1
    | cmd | inLen | outLen =>
      simp only [State.writeReg, State.writeCmd] at ht
      split at ht <;> exact ht
    | _ => exact ht

/-! ### Steps -/

/-- The captured word ends as its command does, or raises ILLEGAL (60_exceptions.md R369). -/
theorem State.runCommand_next {s t : State} (h : s.runCommand = .next t) :
    (∃ i, Ended s i t) ∨ t = s.takeFault .illegal := by
  rcases s.runCommand_eq with ⟨i, -, he⟩ | ⟨-, he⟩
  · exact .inl ⟨i, exec_ended (he.symm.trans h)⟩
  · exact .inr (by cases he.symm.trans h; rfl)

/-- The end of the captured command completes, leaving the error registers, or is a fault entry. -/
theorem State.runCommand_errors {s t : State} (h : s.runCommand = .next t) :
    (t.status.err = s.status.err ∧ t.errInfo = s.errInfo ∧ t.errCmd = s.errCmd) ∨
      (t.status.err = true ∧ t.status.errCode ≠ .none ∧ t.errCmd = s.cmd) := by
  rcases State.runCommand_next h with ⟨i, h⟩ | rfl
  · rcases h.hostSide with h | ⟨r, h⟩
    · refine .inl ⟨?_, congrArg HostSide.errInfo h, congrArg HostSide.errCmd h⟩
      rw [show t.status = _ from congrArg HostSide.status h]
    · refine .inr ⟨?_, ?_, congrArg HostSide.errCmd h⟩ <;> rw [show t.status = _ from congrArg HostSide.status h]
      exact r.code_ne_none
  · exact .inr ⟨rfl, nofun, rfl⟩

/-- A host access leaves the error registers, or is a level on the reset input that clears them; it never sets ERR. -/
theorem State.hostOp_errors (s : State) (op : HostOp) :
    ((s.hostOp op).errInfo = s.errInfo ∧ (s.hostOp op).errCmd = s.errCmd ∨
      ∃ b, op = .reset b ∧ (s.hostOp op).errInfo = 0 ∧ (s.hostOp op).errCmd = 0) ∧
    ((s.hostOp op).status.err = true → s.status.err = true) := by
  cases op with
  | read w addr =>
    obtain ⟨r, d, h⟩ := s.hostOp_read_frame w addr
    rw [h]
    exact ⟨.inl ⟨rfl, rfl⟩, id⟩
  | write w addr v =>
    refine ⟨.inl ?_, (s.hostOp_write_wrote w addr v).err⟩
    obtain ⟨_, _, _, _, _, _, _, _, _, h⟩ := s.hostOp_write_frame w addr v
    rw [h]
    exact ⟨rfl, rfl⟩
  | reset b =>
    simp only [State.hostOp, State.setReset]
    split
    · exact ⟨.inr ⟨b, rfl, rfl, rfl⟩, nofun⟩
    · exact ⟨.inl ⟨rfl, rfl⟩, id⟩

/-! ### Registers over the bus with BUSY = 0 (10_state.md R39) -/

/-- Every listed offset lies in the register block, 4-byte aligned. -/
theorem regAt_form {n : Nat} {r : Reg} (h : regAt n = some r) : n < 0x1000 ∧ n % 4 = 0 := by
  have := (regAt_isSome n).1 (by rw [h]; rfl)
  simp only [List.mem_cons, List.not_mem_nil, or_false] at this
  omega

theorem State.hostOp_read_reg {s : State} (hp : s.resetPin = false) (hb : s.status.busy = false) {addr : Word} {r : Reg}
    (h : regAt addr.toNat = some r) : s.hostOp (.read .word addr) = { s with rdata := s.readReg r } := by
  obtain ⟨hlt, h4⟩ := regAt_form h
  simp [State.hostOp, hp, State.hostRead, hb, State.readIdle, s.place_block hlt, blockForm, h4, h]

theorem State.hostOp_write_reg {s : State} (hp : s.resetPin = false) (hb : s.status.busy = false) {addr : Word} (v : Word)
    {r : Reg} (h : regAt addr.toNat = some r) : s.hostOp (.write .word addr v) = s.writeReg v r := by
  obtain ⟨hlt, h4⟩ := regAt_form h
  simp [State.hostOp, hp, State.hostWrite, hb, State.writeIdle, s.place_block hlt, blockForm, h4, h]

/-- The registers of 20_memory.md R94 read their value at any BUSY. -/
theorem State.hostOp_read_readable {s : State} (hp : s.resetPin = false) {addr : Word} {r : Reg}
    (h : regAt addr.toNat = some r) (hr : r.readableBusy = true) :
    s.hostOp (.read .word addr) = { s with rdata := s.readReg r } := by
  cases hb : s.status.busy with
  | false => exact State.hostOp_read_reg hp hb h
  | true =>
    obtain ⟨hlt, h4⟩ := regAt_form h
    simp [State.hostOp, hp, State.hostRead, hb, State.readBusy, s.place_block hlt, blockForm, h4, h, hr]

theorem regAt_xOffset (i : XReg) : regAt (BitVec.ofNat 32 (0x040 + 4 * i.val)).toNat = some (.x i) := by
  rw [BitVec.toNat_ofNat, Nat.mod_eq_of_lt (by omega), regAt_x]

/-- The fields of STATUS in the word the host reads (10_state.md R42). -/
theorem State.statusWord_fields (s : State) :
    s.statusWord.getLsbD 0 = s.status.busy ∧ s.statusWord.getLsbD 1 = s.status.done ∧
    s.statusWord.getLsbD 2 = s.status.err ∧ s.statusWord.getLsbD 3 = s.status.ovr ∧ s.statusWord.getLsbD 7 = false ∧
    s.statusWord.extractLsb' 16 16 = 0 ∧ s.statusWord.extractLsb' 4 3 = s.tstate.code ∧
    s.statusWord.extractLsb' 8 8 = s.status.errCode.code := by
  unfold State.statusWord
  refine ⟨?_, ?_, ?_, ?_, ?_, ?_, ?_, ?_⟩
  case refine_6 =>
    simp (disch := omega) only [extract_append_high, Nat.reduceSub, extract_all]
    rfl
  case refine_7 | refine_8 =>
    simp (disch := omega) only [extract_append_high, extract_append_low, Nat.reduceSub, extract_all]
  all_goals
    simp only [BitVec.getLsbD_append, BitVec.getLsbD_ofBool, Nat.reduceLT, Nat.reduceSub, if_true, if_false]
    simp

end Sys2Proof.Machine
end

section
/-! PROOFS. The invariant of registers, tables, queue, windows, cursors and status: one rule for each operation of a command
and of the host, then over a step (10_state.md R34, R42, R46, R47, R52, R54, R56, R57). -/

namespace Sys2Proof.Machine

/-! ### What a command writes -/

theorem Inv.setSink {s : State} (h : Inv s) {k : Sink} (hk : k.Within s.outCap.val) : Inv (s.setSink k) :=
  { h with outLenCap := hk.len, outWf := hk.wf, outBelow := hk.below, obcLow := hk.low }

theorem Inv.setIbc {s : State} (h : Inv s) {c : Ibc} (hc : c.Within s.inCap.val) : Inv { s with ibc := c } :=
  { h with ibcEnd := hc.atEnd, ibcOn := hc.on }

theorem Inv.setBs {s : State} (h : Inv s) (j : BsReg) {l : Bits} (hl : l.length ≤ 32) : Inv (s.setBs j l) :=
  { h with
    bsLen := fun r => by
      rw [State.getBs_setBs]
      split
      · exact hl
      · exact h.bsLen r }

theorem Inv.freshOutput {s : State} (h : Inv s) : Inv s.freshOutput :=
  { h with outLenCap := Nat.zero_le _, obcLow := Obc.cleared_low }

theorem Ibc.cleared_within (cap : Nat) : Ibc.cleared.Within cap := ⟨fun _ => ⟨rfl, rfl, Nat.zero_le _⟩, nofun⟩

theorem Inv.softReset {s : State} (h : Inv s) : Inv s.softReset :=
  { h with
    bsLen := fun j => by simp [State.getBs, State.softReset]
    ctLen := codesFit_empty
    pqOrder := List.Pairwise.nil
    pqLen := Nat.zero_le _
    obcLow := Obc.cleared_low
    ibcEnd := (Ibc.cleared_within _).atEnd
    ibcOn := (Ibc.cleared_within _).on }

theorem Inv.builtFromData {s u : State} (h : Inv s) (hu : BuiltFromData s u) : Inv u := by
  obtain ⟨freq, nodes, root, table, -, hd, rfl⟩ := hu
  exact { h with ctLen := deriveTable_codesFit _ _ hd, pqOrder := List.Pairwise.nil, pqLen := Nat.zero_le _ }

theorem Inv.rebuiltFromTable {s u : State} (h : Inv s) (hu : RebuiltFromTable s u) : Inv u := by
  obtain ⟨nodes, root, -, rfl⟩ := hu
  exact { h with }

/-- A command's effect keeps the invariant. -/
theorem Inv.effect {s u : State} {i : Instr} (h : Inv s) (he : Effect s i u) : Inv u := by
  cases he with
  | nothing | setX | drawX | setEntry | setFreq | fill => exact { h with }
  | setBs j l hl => exact h.setBs j (hl h)
  | setCt table ht => exact { h with ctLen := ht h }
  | setPq q hq => exact { h with pqOrder := (hq h).1, pqLen := (hq h).2 }
  | setIbc c hc => exact h.setIbc (hc h)
  | setSink k hk => exact h.setSink (hk h)
  | flush a k v q hk => exact { h.setSink (hk h) with }
  | softReset => exact h.softReset
  | build => exact { h with pqOrder := List.Pairwise.nil, pqLen := Nat.zero_le _ }
  | derive table _ hd => exact { h with ctLen := deriveTable_codesFit _ _ hd }
  | setData _ _ _ hu => exact h.builtFromData hu
  | setDict _ hu => exact h.rebuiltFromTable hu
  | decode _ _ hu =>
    obtain ⟨k, c, hk, rfl⟩ := hu
    obtain ⟨hk, hc⟩ := hk h.sink_within h.ibc_within h.inLenCap
    exact (h.setSink hk).setIbc hc
  | compress u k q hu hk =>
    have hout : u.outCap = s.outCap := congrArg HostSide.outCap hu.visible.hostSide
    have := (h.freshOutput.builtFromData hu).setSink (k := k) (hout ▸ hk h)
    exact { this with }
  | decompress table u k c q ht hu hk =>
    have hout : u.outCap = s.outCap := congrArg HostSide.outCap hu.visible.hostSide
    have hin : u.inCap = s.inCap := congrArg HostSide.inCap hu.visible.hostSide
    have h0 : Inv { s.freshOutput with ct := table } := { h.freshOutput with ctLen := ht }
    have := ((h0.rebuiltFromTable hu).setSink (k := k) (hout ▸ (hk h).1)).setIbc (c := c) (hin ▸ (hk h).2)
    exact { this with }

/-! ### How a command ends -/

theorem Inv.complete {s : State} (h : Inv s) (hb : s.status.busy = true) : Inv s.complete :=
  { h with
    oneEnd := fun he => by simpa [(h.busyClean hb).2] using he.2
    busyClean := nofun
    resetIdle := fun _ => rfl }

theorem Inv.takeFault {s : State} (h : Inv s) (hb : s.status.busy = true) (r : Raise) : Inv (s.takeFault r) :=
  { h with
    errCode := by simp [r.code_ne_none]
    oneEnd := fun he => by simpa [(h.busyClean hb).1] using he.1
    busyClean := nofun
    resetIdle := fun _ => rfl }

theorem Inv.codecFailed {s : State} (h : Inv s) : Inv s.codecFailed :=
  { h with
    ctLen := codesFit_empty
    pqOrder := List.Pairwise.nil
    pqLen := Nat.zero_le _
    outLenCap := Nat.zero_le _
    outWf := Window.drawn_wf _
    outBelow := nofun
    obcLow := Obc.cleared_low
    ibcEnd := (Ibc.cleared_within _).atEnd
    ibcOn := (Ibc.cleared_within _).on }

theorem Inv.ended {s t : State} {i : Instr} (h : Inv s) (hb : s.status.busy = true) (he : Ended s i t) : Inv t := by
  cases he with
  | @completed _ u he =>
    have hu : u.status = s.status := congrArg HostSide.status he.hostSide
    exact (h.effect he).complete (hu ▸ hb)
  | faulted r => exact h.takeFault hb r
  | compressFailed r => exact Inv.takeFault (s := s.compressFailed) { h.codecFailed with } hb r
  | decompressFailed r => exact h.codecFailed.takeFault hb r

/-! ### The host and the reset input -/

theorem inv_reset : Inv State.reset where
  bsLen := fun j => by simp [State.getBs, State.reset]
  ctLen := codesFit_empty
  pqOrder := List.Pairwise.nil
  pqLen := Nat.zero_le _
  inLenCap := Nat.zero_le _
  outLenCap := Nat.zero_le _
  inWf := reset_memory_wf.1
  inBelow := nofun
  outWf := reset_memory_wf.2
  outBelow := nofun
  ibcEnd := (Ibc.cleared_within _).atEnd
  ibcOn := (Ibc.cleared_within _).on
  obcLow := Obc.cleared_low
  errCode := ⟨fun _ => rfl, fun _ => rfl⟩
  oneEnd := nofun
  busyClean := nofun
  resetIdle := nofun

theorem inv_powerOn (s : State) (pin : Bool) : Inv { s.powerOn with resetPin := pin } :=
  { inv_reset with
    inLenCap := Nat.zero_le _
    outLenCap := Nat.zero_le _
    inWf := Window.drawn_wf _
    inBelow := nofun
    outWf := Window.drawn_wf _
    outBelow := nofun
    ibcEnd := (Ibc.cleared_within _).atEnd
    ibcOn := (Ibc.cleared_within _).on
    resetIdle := fun _ => rfl }

theorem writeWindow_below {w : Window} {cap : Nat} (h : ∀ e ∈ w.cells, e.1 < cap) (a : Nat) (v : Word) (n : Nat) :
    ∀ e ∈ (writeWindow w cap a v n).cells, e.1 < cap := by
  induction n generalizing w a v with
  | zero => exact h
  | succ n ih =>
    refine ih ?_ _ _
    split
    · exact Window.write_below _ h ‹_›
    · exact h

theorem Inv.writeReg {s : State} (h : Inv s) (hp : s.resetPin = false) (hb : s.status.busy = false) (v : Word) (r : Reg) :
    Inv (s.writeReg v r) := by
  cases r with
  | status =>
    rw [State.writeReg, State.writeStatus_eq]
    have h1 := h.errCode
    have h2 := h.oneEnd
    exact { h with
      errCode := by cases v.getLsbD 2 <;> simp [h1]
      oneEnd := fun he => h2 ⟨(Bool.and_eq_true_iff.1 he.1).1, (Bool.and_eq_true_iff.1 he.2).1⟩
      busyClean := fun hb' => absurd (hb'.symm.trans hb) (by simp) }
  | cmd =>
    rw [State.writeReg, State.writeCmd]
    split
    · exact { h with }
    next he =>
      exact { h with
        oneEnd := nofun
        busyClean := fun _ => ⟨rfl, by simpa using he⟩
        resetIdle := fun hp' => absurd (hp'.symm.trans hp) (by simp) }
  | inLen =>
    rw [State.writeReg]
    split
    next hv => exact { h with inLenCap := hv }
    · exact h
  | outLen =>
    rw [State.writeReg]
    split
    next hv => exact { h with outLenCap := hv }
    · exact h
  | _ => exact { h with }

theorem Inv.hostWrote {s t : State} {v : Word} (h : Inv s) (ht : HostWrote s v t) : Inv t := by
  cases ht with
  | ignored => exact h
  | overrun => exact { h with }
  | reg hp hb r => exact h.writeReg hp hb v r
  | window a n => exact { h with inWf := writeWindow_wf _ _ _ _ _ h.inWf, inBelow := writeWindow_below h.inBelow _ _ _ }

theorem Inv.hostOp {s : State} (h : Inv s) (op : HostOp) : Inv (s.hostOp op) := by
  cases op with
  | read w addr =>
    obtain ⟨r, d, he⟩ := s.hostOp_read_frame w addr
    rw [he]
    exact { h with }
  | write w addr v => exact h.hostWrote (s.hostOp_write_wrote w addr v)
  | reset asserted =>
    rw [State.hostOp, State.setReset]
    split
    · exact inv_powerOn s asserted
    · exact h

/-! ### A step -/

theorem Inv.step {s t : State} (h : Inv s) (hs : step s = .next t) : Inv t := by
  rcases step_next hs with ⟨op, l, n, -, rfl, -⟩ | ⟨-, -, rfl⟩ | ⟨-, hb, -, hr⟩
  · exact Inv.hostOp (s := { s with host := l, busyLeft := n }) { h with } op
  · exact h
  · rcases State.runCommand_next hr with ⟨i, he⟩ | rfl
    · exact h.ended hb he
    · exact h.takeFault hb _

end Sys2Proof.Machine
end

section
/-! PROOFS. The arena as a forest: its parent links, its child links and its symbols, what each change of the node list does
to them, and the tree each of the two constructions ends in (10_state.md R48 to R51, 44_huffman_tree.md R240). -/

namespace Sys2Proof.Machine

/-! ### Views of a node list -/

/-- The PARENT of a node, none also where there is no node. -/
def parentOf (nodes : List Node) (j : Nat) : Link := nodes[j]?.bind Node.parent

/-- Node p exists and its LEFT or RIGHT names k. -/
def IsChild (nodes : List Node) (p k : Nat) : Prop := ∃ m, nodes[p]? = some m ∧ (m.left = some k ∨ m.right = some k)

/-- The symbol of a leaf. -/
def Node.leafSym (n : Node) : Option Byte := if n.leaf then some n.sym else none

/-- The symbol of the leaf at an index, none where no leaf is. -/
def symAt (nodes : List Node) (i : Nat) : Option Byte := nodes[i]?.bind Node.leafSym

/-- What 10_state.md R49 says of a node alone: a leaf has no child, an internal node has SYM = 0, and LEFT is not RIGHT. -/
structure Node.Shaped (n : Node) : Prop where
  bare : n.leaf = true → n.left = none ∧ n.right = none
  sym : n.leaf = false → n.sym = 0
  two : ∀ k, n.left = some k → n.right ≠ some k

theorem parentOf_some {nodes : List Node} {j p : Nat} :
    parentOf nodes j = some p ↔ ∃ n, nodes[j]? = some n ∧ n.parent = some p := Option.bind_eq_some_iff

theorem parentOf_get {nodes : List Node} {j : Nat} {n : Node} (h : nodes[j]? = some n) : parentOf nodes j = n.parent := by
  rw [parentOf, h]
  rfl

theorem symAt_get {nodes : List Node} {j : Nat} {n : Node} (h : nodes[j]? = some n) : symAt nodes j = n.leafSym := by
  rw [symAt, h]
  rfl

theorem lt_length_of_parentOf {nodes : List Node} {j p : Nat} (h : parentOf nodes j = some p) : j < nodes.length := by
  obtain ⟨n, hn, -⟩ := parentOf_some.1 h
  exact (List.getElem?_eq_some_iff.1 hn).1

theorem lt_length_of_isChild {nodes : List Node} {p k : Nat} (h : IsChild nodes p k) : p < nodes.length := by
  obtain ⟨m, hm, -⟩ := h
  exact (List.getElem?_eq_some_iff.1 hm).1

/-! ### Changes of a node list -/

/-- The nodes with one more at the end. -/
theorem append_get? (nodes : List Node) (n : Node) (i : Nat) :
    (nodes ++ [n])[i]? = if i = nodes.length then some n else nodes[i]? := by
  split
  next h => simp [h]
  next h =>
    rcases Nat.lt_or_ge i nodes.length with hi | hi
    · exact List.getElem?_append_left hi
    · rw [List.getElem?_eq_none hi, List.getElem?_eq_none (by simp; omega)]

theorem parentOf_append (nodes : List Node) (n : Node) (j : Nat) :
    parentOf (nodes ++ [n]) j = if j = nodes.length then n.parent else parentOf nodes j := by
  rw [parentOf, append_get?]
  split <;> rfl

theorem symAt_append (nodes : List Node) (n : Node) (j : Nat) :
    symAt (nodes ++ [n]) j = if j = nodes.length then n.leafSym else symAt nodes j := by
  rw [symAt, append_get?]
  split <;> rfl

theorem isChild_append {nodes : List Node} {n : Node} {p k : Nat} :
    IsChild (nodes ++ [n]) p k ↔ IsChild nodes p k ∨ (p = nodes.length ∧ (n.left = some k ∨ n.right = some k)) := by
  simp only [IsChild, append_get?]
  split
  next h =>
    subst h
    simp
  next h => simp [h]

theorem symAt_length (nodes : List Node) : symAt nodes nodes.length = none := by simp [symAt]

theorem parentOf_length (nodes : List Node) : parentOf nodes nodes.length = none := by simp [parentOf]

theorem setParent_get? (nodes : List Node) (i p j : Nat) :
    (setParent nodes i p)[j]? = nodes[j]?.map fun n => if i = j then { n with parent := some p } else n := by
  rw [setParent, List.getElem?_modify]
  rfl

theorem parentOf_setParent {nodes : List Node} {i : Nat} (p j : Nat) (h : i < nodes.length) :
    parentOf (setParent nodes i p) j = if j = i then some p else parentOf nodes j := by
  rw [parentOf, setParent_get?]
  split
  next hj =>
    subst hj
    simp [List.getElem?_eq_getElem h]
  next hj =>
    cases hn : nodes[j]? <;> simp [parentOf, hn, Ne.symm hj]

theorem symAt_setParent (nodes : List Node) (i p j : Nat) : symAt (setParent nodes i p) j = symAt nodes j := by
  rw [symAt, symAt, setParent_get?]
  cases nodes[j]? with
  | none => rfl
  | some n =>
    simp only [Option.map_some, Option.bind_some]
    split <;> rfl

theorem isChild_setParent {nodes : List Node} {i p q k : Nat} :
    IsChild (setParent nodes i p) q k ↔ IsChild nodes q k := by
  simp only [IsChild, setParent_get?]
  cases nodes[q]? with
  | none => simp
  | some n =>
    simp only [Option.map_some, Option.some.injEq, exists_eq_left']
    split <;> rfl

theorem mem_setParent {nodes : List Node} {i p : Nat} {m : Node} (h : m ∈ setParent nodes i p) :
    ∃ n ∈ nodes, ∃ q, m = { n with parent := q } := by
  obtain ⟨j, hj⟩ := List.mem_iff_getElem?.1 h
  rw [setParent_get?, Option.map_eq_some_iff] at hj
  obtain ⟨n, hn, rfl⟩ := hj
  refine ⟨n, List.mem_of_getElem? hn, ?_⟩
  split
  · exact ⟨some p, rfl⟩
  · exact ⟨n.parent, rfl⟩

theorem weight_setParent (nodes : List Node) (i p j : Nat) :
    (setParent nodes i p)[j]?.map Node.weight = nodes[j]?.map Node.weight := by
  rw [setParent_get?, Option.map_map]
  congr 1
  funext n
  simp only [Function.comp_apply]
  split <;> rfl

/-- A node in place of another one, with the same PARENT. -/
theorem parentOf_set {nodes : List Node} {i : Nat} {n n' : Node} (hn : nodes[i]? = some n) (h : n'.parent = n.parent)
    (j : Nat) : parentOf (nodes.set i n') j = parentOf nodes j := by
  have hi := (List.getElem?_eq_some_iff.1 hn).1
  rw [parentOf, List.getElem?_set]
  split
  next hj => rw [← hj, parentOf_get hn]; exact h
  next hj => rfl

theorem symAt_set {nodes : List Node} {i : Nat} (hi : i < nodes.length) (n : Node) (j : Nat) :
    symAt (nodes.set i n) j = if j = i then n.leafSym else symAt nodes j := by
  rw [symAt, List.getElem?_set]
  by_cases hj : i = j
  · simp [← hj, hi]
  · simp [hj, Ne.symm hj, symAt]

theorem isChild_set {nodes : List Node} {i : Nat} (hi : i < nodes.length) {n : Node} {p k : Nat} :
    IsChild (nodes.set i n) p k ↔ if p = i then n.left = some k ∨ n.right = some k else IsChild nodes p k := by
  rw [IsChild, List.getElem?_set]
  by_cases hp : i = p
  · simp [← hp, hi]
  · simp [hp, Ne.symm hp, IsChild]

/-! ### Forests -/

/-- The links of a node list agree, every parent link goes in the direction `up`, and the nodes with no parent are those of
`isRoot` (10_state.md R49). -/
structure Linked (nodes : List Node) (isRoot : Nat → Prop) (up : Nat → Nat → Prop) : Prop where
  shaped : ∀ n ∈ nodes, n.Shaped
  links : ∀ k p, parentOf nodes k = some p ↔ IsChild nodes p k
  order : ∀ k p, parentOf nodes k = some p → up k p
  roots : ∀ j, j < nodes.length → (parentOf nodes j = none ↔ isRoot j)
  symOnce : ∀ i j c, symAt nodes i = some c → symAt nodes j = some c → i = j

theorem Linked.rooted {nodes : List Node} {root : Nat} {up : Nat → Nat → Prop} (h : Linked nodes (· = root) up)
    (hr : root < nodes.length) : Rooted nodes root up where
  rootLt := hr
  onlyRoot := fun j n hj => by
    rw [← parentOf_get hj]
    exact h.roots j (List.getElem?_eq_some_iff.1 hj).1
  leafBare := fun n hn => (h.shaped n hn).bare
  internalSym := fun n hn => (h.shaped n hn).sym
  parentNames := fun j p n hj hp => (h.links j p).1 ((parentOf_get hj).trans hp)
  childNames := fun p k m hp hk => parentOf_some.1 ((h.links k p).2 ⟨m, hp, hk⟩)
  twoChildren := fun n hn => (h.shaped n hn).two
  symOnce := fun i j n m hi hj hl hl' hs => by
    refine h.symOnce i j n.sym ?_ ?_
    · rw [symAt_get hi, Node.leafSym, if_pos hl]
    · rw [symAt_get hj, Node.leafSym, if_pos hl', hs]
  order := fun j p n hj hp => h.order j p ((parentOf_get hj).trans hp)

/-- `nodes'` has the links of `nodes` and those of `E`, a child and its parent, on both sides; the leaves are the same. -/
structure AddsLinks (nodes nodes' : List Node) (E : Nat → Nat → Prop) : Prop where
  parent : ∀ k p, parentOf nodes' k = some p ↔ parentOf nodes k = some p ∨ E k p
  child : ∀ p k, IsChild nodes' p k ↔ IsChild nodes p k ∨ E k p
  syms : ∀ i, symAt nodes' i = symAt nodes i

theorem Linked.addLinks {nodes nodes' : List Node} {isRoot isRoot' : Nat → Prop} {up E : Nat → Nat → Prop}
    (h : Linked nodes isRoot up) (ha : AddsLinks nodes nodes' E) (hE : ∀ k p, E k p → up k p)
    (hs : ∀ n ∈ nodes', n.Shaped) (hr : ∀ j, j < nodes'.length → (parentOf nodes' j = none ↔ isRoot' j)) :
    Linked nodes' isRoot' up where
  shaped := hs
  links := fun k p => by rw [ha.parent, ha.child, h.links]
  order := fun k p hp => ((ha.parent k p).1 hp).elim (h.order k p) (hE k p)
  roots := hr
  symOnce := fun i j c hi hj => h.symOnce i j c (ha.syms i ▸ hi) (ha.syms j ▸ hj)

/-! ### Joining two trees under a new root (44_huffman_tree.md R253) -/

/-- The nodes after a merge: `a` becomes RIGHT and `b` LEFT of a new node of weight `w`. -/
def joined (nodes : List Node) (a b : Nat) (w : Word) : List Node :=
  setParent (setParent nodes a nodes.length) b nodes.length ++ [⟨w, 0, false, some b, some a, none⟩]

@[simp] theorem joined_length (nodes : List Node) (a b : Nat) (w : Word) :
    (joined nodes a b w).length = nodes.length + 1 := by simp [joined]

section joined
variable {nodes : List Node} {a b : Nat} (w : Word) (ha : a < nodes.length) (hb : b < nodes.length)
include ha hb

theorem parentOf_joined (j : Nat) :
    parentOf (joined nodes a b w) j = if j = a ∨ j = b then some nodes.length else parentOf nodes j := by
  rw [joined, parentOf_append, setParent_length, setParent_length, parentOf_setParent _ _ (by simpa using hb),
    parentOf_setParent _ _ ha]
  by_cases hl : j = nodes.length
  · rw [if_pos hl, if_neg (by omega), hl, parentOf_length]
  · rw [if_neg hl]
    by_cases hja : j = a <;> by_cases hjb : j = b <;> simp [hja, hjb]

theorem joined_addsLinks (hra : parentOf nodes a = none) (hrb : parentOf nodes b = none) :
    AddsLinks nodes (joined nodes a b w) fun k p => p = nodes.length ∧ (k = a ∨ k = b) where
  parent := fun k p => by
    rw [parentOf_joined w ha hb]
    split
    next hk =>
      have : parentOf nodes k = none := by rcases hk with rfl | rfl <;> assumption
      simp only [this, reduceCtorEq, false_or, hk, and_true, Option.some_inj]
      exact eq_comm
    next hk => simp [hk]
  child := fun p k => by
    rw [joined, isChild_append, isChild_setParent, isChild_setParent, setParent_length, setParent_length,
      Option.some_inj, Option.some_inj, or_comm (a := b = k), eq_comm (a := a), eq_comm (a := b)]
  syms := fun i => by
    rw [joined, symAt_append, symAt_setParent, symAt_setParent, setParent_length, setParent_length]
    split
    next h => rw [h, symAt_length]; rfl
    · rfl

end joined

theorem mem_joined {nodes : List Node} {a b : Nat} {w : Word} {n : Node} (h : n ∈ joined nodes a b w) :
    (∃ m ∈ nodes, ∃ p, n = { m with parent := p }) ∨ n = ⟨w, 0, false, some b, some a, none⟩ := by
  rcases List.mem_append.1 h with h | h
  · obtain ⟨m, hm, p, rfl⟩ := mem_setParent h
    obtain ⟨m', hm', q, rfl⟩ := mem_setParent hm
    exact .inl ⟨m', hm', p, rfl⟩
  · exact .inr (List.mem_singleton.1 h)

theorem weight_joined {nodes : List Node} {i : Nat} (a b : Nat) (w : Word) (hi : i < nodes.length) :
    (joined nodes a b w)[i]?.map Node.weight = nodes[i]?.map Node.weight := by
  rw [joined, append_get?, setParent_length, setParent_length, if_neg (by omega), weight_setParent, weight_setParent]

theorem linkWeight_some (nodes : List Node) (i : Nat) :
    linkWeight nodes (some i) = (nodes[i]?.map Node.weight).elim 0 BitVec.toNat := by
  rw [linkWeight, Option.bind_some]
  cases nodes[i]? <;> rfl

theorem linkWeight_joined {nodes : List Node} {l : Link} (a b : Nat) (w : Word) (hl : ∀ i, l = some i → i < nodes.length) :
    linkWeight (joined nodes a b w) l = linkWeight nodes l := by
  cases l with
  | none => rfl
  | some i => rw [linkWeight_some, linkWeight_some, weight_joined a b w (hl i rfl)]

/-! ### The merge loop (44_huffman_tree.md R254) -/

theorem symAt_some {nodes : List Node} {i : Nat} {c : Byte} :
    symAt nodes i = some c ↔ ∃ n, nodes[i]? = some n ∧ n.leaf = true ∧ n.sym = c := by
  rw [symAt, Option.bind_eq_some_iff]
  refine exists_congr fun n => and_congr_right fun _ => ?_
  rw [Node.leafSym]
  split <;> simp [*]

theorem leavesAscend_iff {nodes : List Node} : leavesAscend nodes ↔
    ∀ i j c d, i < j → symAt nodes i = some c → symAt nodes j = some d → c.toNat < d.toNat := by
  constructor
  · intro h i j c d hij hi hj
    obtain ⟨n, hn, hl, rfl⟩ := symAt_some.1 hi
    obtain ⟨m, hm, hl', rfl⟩ := symAt_some.1 hj
    exact h i j n m hij hn hm hl hl'
  · intro h i j n m hij hn hm hl hl'
    exact h i j _ _ hij (symAt_some.2 ⟨n, hn, hl, rfl⟩) (symAt_some.2 ⟨m, hm, hl', rfl⟩)

/-- The merge loop between two passes: the nodes are a forest whose roots are the entries of the queue, each under the weight
of its node. -/
structure Forest (nodes : List Node) (q : List PqEntry) : Prop where
  linked : Linked nodes (fun j => ∃ e ∈ q, e.val.toNat = j) (· < ·)
  ascend : leavesAscend nodes
  full : ∀ n ∈ nodes, n.leaf = false →
    n.left.isSome ∧ n.right.isSome ∧ n.weight.toNat = linkWeight nodes n.left + linkWeight nodes n.right
  distinct : (q.map fun e => e.val.toNat).Nodup
  keys : ∀ e ∈ q, nodes[e.val.toNat]?.map Node.weight = some e.key
  size : nodes.length + q.length ≤ 512

theorem Linked.child_lt {nodes : List Node} {isRoot : Nat → Prop} {up : Nat → Nat → Prop} (h : Linked nodes isRoot up)
    {n : Node} (hn : n ∈ nodes) {k : Nat} (hk : n.left = some k ∨ n.right = some k) : k < nodes.length := by
  obtain ⟨p, hp⟩ := List.mem_iff_getElem?.1 hn
  exact lt_length_of_parentOf ((h.links k p).2 ⟨n, hp, hk⟩)

theorem Forest.lt_length {nodes : List Node} {q : List PqEntry} (h : Forest nodes q) {e : PqEntry} (he : e ∈ q) :
    e.val.toNat < nodes.length := by
  obtain ⟨n, hn, -⟩ := Option.map_eq_some_iff.1 (h.keys e he)
  exact (List.getElem?_eq_some_iff.1 hn).1

theorem Forest.isRoot {nodes : List Node} {q : List PqEntry} (h : Forest nodes q) {e : PqEntry} (he : e ∈ q) :
    parentOf nodes e.val.toNat = none := (h.linked.roots _ (h.lt_length he)).2 ⟨e, he, rfl⟩

theorem Forest.merge {nodes : List Node} {a b : PqEntry} {t : List PqEntry} (h : Forest nodes (a :: b :: t))
    (hw : a.key.toNat + b.key.toNat ≤ 0xFFFFFFFF) :
    Forest (joined nodes a.val.toNat b.val.toNat (a.key + b.key))
      (pqInsert t ⟨a.key + b.key, BitVec.ofNat 16 nodes.length⟩) := by
  have ha := h.lt_length (e := a) (by simp)
  have hb := h.lt_length (e := b) (by simp)
  have hsize := h.size
  simp only [List.length_cons] at hsize
  have hlen : (BitVec.ofNat 16 nodes.length).toNat = nodes.length := by
    rw [BitVec.toNat_ofNat, Nat.mod_eq_of_lt (by omega)]
  have hd := h.distinct
  simp only [List.map_cons, List.nodup_cons, List.mem_cons, List.mem_map, not_or, not_exists, not_and] at hd
  obtain ⟨⟨hab, hat⟩, hbt, hdt⟩ := hd
  have hlinks := joined_addsLinks (a.key + b.key) ha hb (h.isRoot (by simp)) (h.isRoot (by simp))
  constructor
  case linked =>
    refine h.linked.addLinks hlinks ?_ ?_ ?_
    · rintro k p ⟨rfl, rfl | rfl⟩ <;> assumption
    · intro n hn
      rcases mem_joined hn with ⟨m, hm, p, rfl⟩ | rfl
      · exact ⟨(h.linked.shaped m hm).bare, (h.linked.shaped m hm).sym, (h.linked.shaped m hm).two⟩
      · exact ⟨nofun, fun _ => rfl, fun k hk hk' => hab (Option.some_inj.1 (hk'.trans hk.symm))⟩
    · intro j hj
      rw [joined_length] at hj
      rw [parentOf_joined _ ha hb]
      simp only [mem_pqInsert, exists_eq_or_imp, hlen]
      by_cases hl : j = nodes.length
      · rw [if_neg (by omega), hl, parentOf_length]
        simp
      have hr := h.linked.roots j (by omega)
      simp only [List.mem_cons, exists_eq_or_imp] at hr
      split
      next hj =>
        refine iff_of_false nofun ?_
        rintro (hj' | ⟨e, he, rfl⟩)
        · exact hl hj'.symm
        · exact hj.elim (hat e he) (hbt e he)
      next hj =>
        rw [not_or] at hj
        simp [hr, Ne.symm hj.1, Ne.symm hj.2, Ne.symm hl]
  case ascend =>
    rw [leavesAscend_iff]
    simpa only [hlinks.syms] using leavesAscend_iff.1 h.ascend
  case full =>
    intro n hn hl
    rcases mem_joined hn with ⟨m, hm, p, rfl⟩ | rfl
    · obtain ⟨h1, h2, h3⟩ := h.full m hm hl
      refine ⟨h1, h2, ?_⟩
      rw [linkWeight_joined _ _ _ fun i hi => h.linked.child_lt hm (.inl hi),
        linkWeight_joined _ _ _ fun i hi => h.linked.child_lt hm (.inr hi)]
      exact h3
    · refine ⟨rfl, rfl, ?_⟩
      rw [linkWeight_some, linkWeight_some, weight_joined _ _ _ ha, weight_joined _ _ _ hb, h.keys a (by simp),
        h.keys b (by simp)]
      simp only [Option.elim_some, BitVec.toNat_add]
      omega
  case distinct =>
    rw [((pqInsert_perm _ _).map _).nodup_iff, List.map_cons, List.nodup_cons]
    refine ⟨fun hm => ?_, hdt⟩
    obtain ⟨e, he, hev⟩ := List.mem_map.1 hm
    have := h.lt_length (e := e) (by simp [he])
    simp only [hlen] at hev
    omega
  case keys =>
    intro e he
    rcases mem_pqInsert.1 he with rfl | he
    · simp [hlen, joined]
    · rw [weight_joined _ _ _ (h.lt_length (by simp [he])), h.keys e (by simp [he])]
  case size =>
    rw [joined_length, pqInsert_length]
    omega

/-- With a pass for each merge the loop ends in one tree, or overflows. -/
theorem mergeLoop_forest {fuel : Nat} {q : List PqEntry} {nodes : List Node} (h : Forest nodes q) (hq : q ≠ []) :
    Yields (fun r => ∃ e : PqEntry, r.2 = some e.val.toNat ∧ Forest r.1 [e]) (mergeLoop fuel q nodes) := by
  induction fuel generalizing q nodes with
  | zero =>
    match q, hq with
    | [e], _ => exact .ok ⟨e, rfl, h⟩
    | _ :: _ :: _, _ => exact .stuck
  | succ fuel ih =>
    match q, hq with
    | [e], _ => exact .ok ⟨e, rfl, h⟩
    | a :: b :: t, _ =>
      refine .check fun hw => ih (h.merge (by omega)) fun hnil => ?_
      have := pqInsert_length t ⟨a.key + b.key, BitVec.ofNat 16 nodes.length⟩
      rw [hnil] at this
      simp at this

/-! ### The queue of the leaves -/

/-- The leaves HTFILL leaves (44_huffman_tree.md R251): no links, ascending symbols, at most one for each symbol. -/
structure LeafArena (nodes : List Node) : Prop where
  count : nodes.length ≤ 256
  ascend : leavesAscend nodes
  bare : ∀ n ∈ nodes, n.leaf = true ∧ n.left = none ∧ n.right = none ∧ n.parent = none

/-- The entries of leaves numbered from `i` on. -/
def leafEntries (i : Nat) (nodes : List Node) : List PqEntry :=
  (nodes.zipIdx i).map fun e => ⟨e.1.weight, BitVec.ofNat 16 e.2⟩

theorem pushLeaves_perm (i : Nat) (q : List PqEntry) (nodes : List Node) :
    (pushLeaves i q nodes).Perm (leafEntries i nodes ++ q) := by
  induction nodes generalizing i q with
  | nil => exact .refl _
  | cons n t ih =>
    have hp := (ih (i + 1) (pqInsert q ⟨n.weight, BitVec.ofNat 16 i⟩)).trans ((pqInsert_perm q _).append_left _)
    exact hp.trans List.perm_middle

theorem leafEntries_vals {nodes : List Node} (h : nodes.length ≤ 256) :
    (leafEntries 0 nodes).map (fun e => e.val.toNat) = List.range nodes.length := by
  rw [leafEntries, List.map_map, List.range_eq_range', ← List.zipIdx_map_snd 0 nodes]
  refine List.map_congr_left fun e he => ?_
  have := List.snd_lt_of_mem_zipIdx he
  simp only [Function.comp_apply, BitVec.toNat_ofNat]
  omega

theorem LeafArena.parentOf_none {nodes : List Node} (h : LeafArena nodes) (j : Nat) : parentOf nodes j = none := by
  rw [parentOf, Option.bind_eq_none_iff]
  exact fun n hn => (h.bare n (List.mem_of_getElem? hn)).2.2.2

theorem LeafArena.forest {nodes : List Node} (h : LeafArena nodes) : Forest nodes (pushLeaves 0 [] nodes) := by
  have hperm : (pushLeaves 0 [] nodes).Perm (leafEntries 0 nodes) := by simpa using pushLeaves_perm 0 [] nodes
  have hvals := (hperm.map fun e => e.val.toNat).trans (.of_eq (leafEntries_vals h.count))
  constructor
  case linked =>
    constructor
    case shaped =>
      intro n hn
      obtain ⟨hl, hleft, hright, -⟩ := h.bare n hn
      exact ⟨fun _ => ⟨hleft, hright⟩, by simp [hl], by simp [hleft]⟩
    case links =>
      intro k p
      refine iff_of_false (by simp [h.parentOf_none]) ?_
      rintro ⟨m, hm, hc⟩
      obtain ⟨-, hleft, hright, -⟩ := h.bare m (List.mem_of_getElem? hm)
      simp [hleft, hright] at hc
    case order => simp [h.parentOf_none]
    case roots =>
      intro j hj
      refine iff_of_true (h.parentOf_none j) ?_
      exact List.mem_map.1 (hvals.mem_iff.2 (List.mem_range.2 hj))
    case symOnce =>
      intro i j c hi hj
      have hlt := leavesAscend_iff.1 h.ascend
      rcases Nat.lt_trichotomy i j with hij | hij | hij
      · exact absurd (hlt i j c c hij hi hj) (by omega)
      · exact hij
      · exact absurd (hlt j i c c hij hj hi) (by omega)
  case ascend => exact h.ascend
  case full => exact fun n hn hl => absurd ((h.bare n hn).1.symm.trans hl) (by simp)
  case distinct => exact hvals.nodup_iff.2 List.nodup_range
  case keys =>
    intro e he
    obtain ⟨⟨n, i⟩, hn, rfl⟩ := List.mem_map.1 (hperm.mem_iff.1 he)
    have hi := List.mk_mem_zipIdx_iff_getElem?.1 hn
    have hlt := (List.getElem?_eq_some_iff.1 hi).1
    have hc := h.count
    simp only [BitVec.toNat_ofNat, Nat.mod_eq_of_lt (show i < 2 ^ 16 by omega), hi, Option.map_some]
  case size =>
    have := h.count
    simp only [pushLeaves_length, List.length_nil]
    omega

/-! ### The tree built from data (44_huffman_tree.md R254 to R256) -/

/-- The arena of a tree built from data, as the invariant has it. -/
def DataArena (nodes : List Node) (root : Link) : Prop :=
  (nodes = [] ∧ root = none) ∨
  (root = some (nodes.length - 1) ∧ nodes.length ≤ 511 ∧ Rooted nodes (nodes.length - 1) (· < ·) ∧ leavesAscend nodes ∧
    ∀ n ∈ nodes, n.leaf = false →
      n.left.isSome ∧ (n.right.isSome ∨ nodes.length = 2) ∧
        n.weight.toNat = linkWeight nodes n.left + linkWeight nodes n.right)

/-- A forest of one tree has its root last. -/
theorem Forest.dataArena {nodes : List Node} {e : PqEntry} (h : Forest nodes [e]) :
    DataArena nodes (some e.val.toNat) := by
  have hlt := h.lt_length (e := e) (by simp)
  have hsize := h.size
  have hlast : parentOf nodes (nodes.length - 1) = none := by
    by_contra hne
    obtain ⟨p, hp⟩ := Option.ne_none_iff_exists'.1 hne
    have := h.linked.order _ _ hp
    have := lt_length_of_isChild ((h.linked.links _ _).1 hp)
    omega
  have hroot : e.val.toNat = nodes.length - 1 := by simpa using (h.linked.roots _ (by omega)).1 hlast
  have hl : Linked nodes (· = nodes.length - 1) (· < ·) :=
    { h.linked with roots := fun j hj => (h.linked.roots j hj).trans (by simp [hroot, eq_comm]) }
  refine .inr ⟨by rw [hroot], Nat.le_of_succ_le_succ hsize, hl.rooted (by omega), h.ascend, fun n hn hleaf => ?_⟩
  obtain ⟨h1, h2, h3⟩ := h.full n hn hleaf
  exact ⟨h1, .inl h2, h3⟩

theorem single_dataArena {n : Node} (hl : n.leaf = true) (hleft : n.left = none) (hright : n.right = none) :
    DataArena [{ n with parent := some 1 }, ⟨n.weight, 0, false, some 0, none, none⟩] (some 1) := by
  refine .inr ⟨rfl, by simp, ?_, ?_, ?_⟩
  · have := rooted_of_check (nodes := [{ n with parent := some 1 }, ⟨n.weight, 0, false, some 0, none, none⟩]) (root := 1)
      (up := fun j p => decide (j < p)) (by simp [rootedCheck, nodesAll, hl, hleft, hright])
    simpa using this
  · exact ascend_of_check (by simp [ascendCheck, nodesAll, hl])
  · intro m hm hml
    simp only [List.mem_cons, List.not_mem_nil, or_false] at hm
    rcases hm with rfl | rfl
    · simp [hl] at hml
    · simp [linkWeight]

theorem LeafArena.buildTree {nodes : List Node} (h : LeafArena nodes) :
    Yields (fun r => DataArena r.1 r.2) (buildTree nodes) := by
  match nodes, h with
  | [], _ => exact .ok (.inl ⟨rfl, rfl⟩)
  | [n], h =>
    obtain ⟨hl, hleft, hright, -⟩ := h.bare n (by simp)
    exact .ok (single_dataArena hl hleft hright)
  | a :: b :: t, h =>
    have hlen := pushLeaves_length 0 [] (a :: b :: t)
    intro r hr
    obtain ⟨e, he, hf⟩ := mergeLoop_forest h.forest (fun hnil => by rw [hnil] at hlen; simp at hlen) r hr
    rw [he]
    exact hf.dataArena

theorem fillLeaves_leafArena (freq : Vector Word 256) : LeafArena (fillLeaves freq) where
  count := fillLeaves_length freq
  ascend := by
    intro i j n m hij hi hj _ _
    obtain ⟨hi', rfl⟩ := List.getElem?_eq_some_iff.1 hi
    obtain ⟨hj', rfl⟩ := List.getElem?_eq_some_iff.1 hj
    exact List.pairwise_iff_getElem.1 (fillLeaves_sorted freq) i j hi' hj' hij
  bare := fun n hn => by
    obtain ⟨c, -, rfl⟩ := mem_fillLeaves.1 hn
    exact ⟨rfl, rfl, rfl, rfl⟩

end Sys2Proof.Machine
end

section
/-! PROOFS. The arena rebuilt from a code table: each branch and each mark keeps a trie (44_huffman_tree.md R262). -/

namespace Sys2Proof.Machine

/-- The nodes of HTSETDICT between two insertions: one tree with root 0, parents before their children, no weights, and no
leaf for a symbol that is not in `used`. -/
structure Trie (nodes : List Node) (used : Byte → Prop) : Prop where
  linked : Linked nodes (· = 0) fun j p => p < j
  weights : ∀ n ∈ nodes, n.weight = 0
  syms : ∀ i c, symAt nodes i = some c → used c
  nonempty : 0 < nodes.length

theorem trie_root : Trie [branchNode none] fun _ => False where
  linked := {
    shaped := by
      intro n hn
      obtain rfl := List.mem_singleton.1 hn
      exact ⟨nofun, fun _ => rfl, nofun⟩
    links := by
      intro k p
      refine iff_of_false ?_ ?_
      · cases k <;> simp [parentOf, branchNode]
      · cases p <;> simp [IsChild, branchNode]
    order := by
      intro k p h
      cases k <;> simp [parentOf, branchNode] at h
    roots := by
      intro j hj
      obtain rfl : j = 0 := by simpa using hj
      exact iff_of_true rfl rfl
    symOnce := by
      intro i j c hi
      cases i <;> simp [symAt, branchNode, Node.leafSym] at hi }
  weights := fun n hn => by rw [List.mem_singleton.1 hn]; rfl
  syms := by
    intro i c hi
    cases i <;> simp [symAt, branchNode, Node.leafSym] at hi
  nonempty := Nat.one_pos

/-! ### Branching -/

theorem Node.setChild_names {n : Node} {b : Bool} (h : n.child b = none) (i k : Nat) :
    ((n.setChild b i).left = some k ∨ (n.setChild b i).right = some k) ↔ (n.left = some k ∨ n.right = some k) ∨ k = i := by
  cases b with
  | false =>
    have hl : n.left = none := h
    simp [Node.setChild, hl, eq_comm, or_comm]
  | true =>
    have hr : n.right = none := h
    simp [Node.setChild, hr, eq_comm]

theorem Node.setChild_fields (n : Node) (b : Bool) (i : Nat) :
    (n.setChild b i).parent = n.parent ∧ (n.setChild b i).weight = n.weight ∧ (n.setChild b i).leaf = n.leaf ∧
      (n.setChild b i).sym = n.sym := by
  cases b <;> exact ⟨rfl, rfl, rfl, rfl⟩

theorem Node.setChild_shaped {n : Node} {b : Bool} {i : Nat} (h : n.Shaped) (hl : n.leaf = false)
    (hlt : ∀ k, n.left = some k ∨ n.right = some k → k < i) : (n.setChild b i).Shaped := by
  obtain ⟨-, -, hleaf, hsym⟩ := n.setChild_fields b i
  refine ⟨fun h1 => absurd (h1.symm.trans (hleaf.trans hl)) (by simp), fun _ => hsym.trans (h.sym hl), fun k hk hk' => ?_⟩
  cases b with
  | false =>
    obtain rfl : i = k := Option.some_inj.1 hk
    exact absurd (hlt i (.inr hk')) (by omega)
  | true =>
    obtain rfl : i = k := Option.some_inj.1 hk'
    exact absurd (hlt i (.inl hk)) (by omega)

/-- The nodes after a missing child of node `j` has been added. -/
def branched (nodes : List Node) (j : Nat) (n : Node) (b : Bool) : List Node :=
  nodes.set j (n.setChild b nodes.length) ++ [branchNode (some j)]

section branched
variable {nodes : List Node} {j : Nat} {n : Node} {b : Bool} (hj : nodes[j]? = some n)
include hj

theorem parentOf_branched (k : Nat) :
    parentOf (branched nodes j n b) k = if k = nodes.length then some j else parentOf nodes k := by
  rw [branched, parentOf_append, List.length_set, parentOf_set hj (n.setChild_fields b _).1]
  rfl

theorem branched_addsLinks (hb : n.child b = none) :
    AddsLinks nodes (branched nodes j n b) fun k p => p = j ∧ k = nodes.length where
  parent := fun k p => by
    rw [parentOf_branched hj]
    split
    next hk =>
      rw [hk, parentOf_length]
      simp [eq_comm]
    next hk => simp [hk]
  child := fun p k => by
    have hlt := (List.getElem?_eq_some_iff.1 hj).1
    rw [branched, isChild_append, isChild_set hlt]
    split
    next hp =>
      subst hp
      rw [Node.setChild_names hb]
      simp [IsChild, hj, branchNode]
    next hp => simp [hp, branchNode]
  syms := fun i => by
    have hlt := (List.getElem?_eq_some_iff.1 hj).1
    obtain ⟨-, -, hleaf, hsym⟩ := n.setChild_fields b nodes.length
    rw [branched, symAt_append, symAt_set hlt, List.length_set]
    split
    next hi => rw [hi, symAt_length]; rfl
    · split
      next hi => rw [hi, symAt_get hj, Node.leafSym, Node.leafSym, hleaf, hsym]
      · rfl

theorem Trie.branch {used : Byte → Prop} (h : Trie nodes used) (hl : n.leaf = false) (hb : n.child b = none) :
    Trie (branched nodes j n b) used := by
  have hlt := (List.getElem?_eq_some_iff.1 hj).1
  have hn := List.mem_of_getElem? hj
  have hlinks := branched_addsLinks hj hb
  have hlen : (branched nodes j n b).length = nodes.length + 1 := by simp [branched]
  have hmem {m : Node} (hm : m ∈ branched nodes j n b) :
      m ∈ nodes ∨ m = n.setChild b nodes.length ∨ m = branchNode (some j) := by
    rcases List.mem_append.1 hm with hm | hm
    · exact (List.mem_or_eq_of_mem_set hm).imp_right .inl
    · exact .inr (.inr (List.mem_singleton.1 hm))
  constructor
  case linked =>
    refine h.linked.addLinks hlinks ?_ ?_ ?_
    · rintro k p ⟨rfl, rfl⟩
      exact hlt
    · intro m hm
      rcases hmem hm with hm | rfl | rfl
      · exact h.linked.shaped m hm
      · exact Node.setChild_shaped (h.linked.shaped n hn) hl fun k hk => h.linked.child_lt hn hk
      · exact ⟨nofun, fun _ => rfl, nofun⟩
    · intro i hi
      rw [parentOf_branched hj]
      split
      next hk => exact iff_of_false nofun (by have := h.nonempty; omega)
      next hk => exact h.linked.roots i (by omega)
  case weights =>
    intro m hm
    rcases hmem hm with hm | rfl | rfl
    · exact h.weights m hm
    · rw [(n.setChild_fields b _).2.1, h.weights n hn]
    · rfl
  case syms => exact fun i c hi => h.syms i c (hlinks.syms i ▸ hi)
  case nonempty => omega

/-! ### Marking the terminal node -/

theorem Trie.mark {used : Byte → Prop} (h : Trie nodes used) {c : Byte} (hc : ¬ used c) (hl : n.left = none)
    (hr : n.right = none) :
    Trie (nodes.set j { n with leaf := true, sym := c }) fun d => d = c ∨ used d := by
  have hlt := (List.getElem?_eq_some_iff.1 hj).1
  have hparent := parentOf_set (n' := { n with leaf := true, sym := c }) hj rfl
  have hsym (i : Nat) : symAt (nodes.set j { n with leaf := true, sym := c }) i = if i = j then some c else symAt nodes i :=
    symAt_set hlt _ i
  constructor
  case linked =>
    constructor
    case shaped =>
      intro m hm
      rcases List.mem_or_eq_of_mem_set hm with hm | rfl
      · exact h.linked.shaped m hm
      · exact ⟨fun _ => ⟨hl, hr⟩, nofun, by simp [hl]⟩
    case links =>
      intro k p
      rw [hparent, h.linked.links, isChild_set hlt]
      split
      next hp => simp [hp, IsChild, hj]
      · rfl
    case order => exact fun k p hk => h.linked.order k p (hparent k ▸ hk)
    case roots =>
      intro i hi
      rw [hparent]
      exact h.linked.roots i (by simpa using hi)
    case symOnce =>
      intro i k d hi hk
      rw [hsym] at hi hk
      split at hi
      next hij =>
        split at hk
        next hkj => rw [hij, hkj]
        next => exact absurd (h.syms k d hk) (Option.some_inj.1 hi ▸ hc)
      next =>
        split at hk
        next => exact absurd (h.syms i d hi) (Option.some_inj.1 hk ▸ hc)
        next => exact h.linked.symOnce i k d hi hk
  case weights =>
    intro m hm
    rcases List.mem_or_eq_of_mem_set hm with hm | rfl
    · exact h.weights m hm
    · exact h.weights n (List.mem_of_getElem? hj)
  case syms =>
    intro i d hi
    rw [hsym] at hi
    split at hi
    · exact .inl (Option.some_inj.1 hi).symm
    · exact .inr (h.syms i d hi)
  case nonempty => simpa using h.nonempty

end branched

/-! ### Inserting the codes of a table -/

theorem insertCode_trie {c : Byte} {used : Byte → Prop} (hc : ¬ used c) (code : Bits) (j : Nat) {nodes : List Node}
    (h : Trie nodes used) : Yields (Trie · fun d => d = c ∨ used d) (insertCode c code j nodes) := by
  induction code generalizing j nodes with
  | nil =>
    rw [insertCode]
    split
    · exact .stuck
    next n hj =>
      refine .check fun hn => .ok ?_
      simp only [Bool.or_eq_true, not_or, Bool.not_eq_true, Option.isSome_eq_false_iff, Option.isNone_iff_eq_none] at hn
      obtain ⟨⟨-, hl⟩, hr⟩ := hn
      exact h.mark hj hc hl hr
  | cons b t ih =>
    rw [insertCode]
    split
    · exact .stuck
    next n hj =>
      refine .check fun hl => ?_
      split
      · exact ih _ h
      next hb => exact ih _ (h.branch hj (by simpa using hl) hb)

theorem insertCodes_trie {table : Vector Bits 256} {l : List Byte} (hl : l.Nodup) {used : Byte → Prop}
    (hu : ∀ c ∈ l, ¬ used c) {nodes : List Node} (h : Trie nodes used) :
    Yields (fun nodes' => ∃ used', Trie nodes' used') (insertCodes table l nodes) := by
  induction l generalizing used nodes with
  | nil => exact .ok ⟨used, h⟩
  | cons c t ih =>
    obtain ⟨hct, ht⟩ := List.nodup_cons.1 hl
    rw [insertCodes]
    split
    · exact .error
    next nodes' hn =>
      refine ih ht (fun d hd => ?_) (insertCode_trie (hu c (by simp)) _ _ h nodes' hn)
      rintro (rfl | hd')
      · exact hct hd
      · exact hu d (List.mem_cons_of_mem _ hd) hd'

theorem insertCodes_length {table : Vector Bits 256} (hf : CodesFit table) (l : List Byte) (nodes : List Node) :
    Yields (fun nodes' => nodes'.length ≤ nodes.length + 32 * l.length) (insertCodes table l nodes) := by
  induction l generalizing nodes with
  | nil => exact .ok (Nat.le_refl _)
  | cons c t ih =>
    rw [insertCodes]
    split
    · exact .error
    next nodes' hn =>
      intro nodes'' hn'
      have h1 := insertCode_length hn
      have h2 := ih nodes' nodes'' hn'
      have h3 := hf c
      rw [List.length_cons]
      omega

/-- The arena of a tree rebuilt from a table, as the invariant has it. -/
def DictArena (nodes : List Node) (root : Link) : Prop :=
  (nodes = [] ∧ root = none) ∨
  (root = some 0 ∧ nodes.length ≤ 8193 ∧ Rooted nodes 0 (fun j p => p < j) ∧ ∀ n ∈ nodes, n.weight = 0)

theorem usedSymbols_nodup (table : Vector Bits 256) : (usedSymbols table).Nodup := by
  rw [usedSymbols_eq]
  refine List.Nodup.filter _ (symbols_sorted.imp ?_)
  rintro c d h rfl
  exact Nat.lt_irrefl _ h

theorem usedSymbols_length (table : Vector Bits 256) : (usedSymbols table).length ≤ 256 := by
  rw [usedSymbols_eq]
  exact (List.length_filter_le _ _).trans (by simp [symbols])

theorem rebuildTree_dictArena {table : Vector Bits 256} (hf : CodesFit table) :
    Yields (fun r => DictArena r.1 r.2) (rebuildTree table) := by
  unfold rebuildTree
  split
  · exact .ok (.inl ⟨rfl, rfl⟩)
  · split
    · exact .error
    next nodes hn =>
      obtain ⟨used, ht⟩ := insertCodes_trie (usedSymbols_nodup table) (fun _ _ => id) trie_root nodes hn
      have hlen := insertCodes_length hf _ _ nodes hn
      have hused := usedSymbols_length table
      have hcap : nodes.length ≤ 8193 := by
        rw [List.length_singleton] at hlen
        omega
      exact .ok (.inr ⟨rfl, hcap, ht.linked.rooted ht.nonempty, ht.weights⟩)

/-! ### The arena over a step (10_state.md R51) -/

theorem Arena.of_empty {s : State} (ht : s.tstate = .empty) (hn : s.nodes = []) (hr : s.root = none) : Arena s :=
  ⟨fun _ => ⟨hn, hr⟩, by simp [ht], by simp [ht], by simp [ht]⟩

theorem Arena.of_leaves {s : State} (ht : s.tstate = .leaves) (h : LeafArena s.nodes) (hr : s.root = none) : Arena s :=
  ⟨by simp [ht], fun _ => ⟨hr, h.count, h.ascend, h.bare⟩, by simp [ht], by simp [ht]⟩

theorem Arena.of_data {s : State} (ht : s.tstate = .tree ∨ s.tstate = .coded) (h : DataArena s.nodes s.root) : Arena s := by
  rcases ht with ht | ht <;> exact ⟨by simp [ht], by simp [ht], fun _ => h, by simp [ht]⟩

theorem Arena.of_dict {s : State} (ht : s.tstate = .dict) (h : DictArena s.nodes s.root) : Arena s :=
  ⟨by simp [ht], by simp [ht], by simp [ht], fun _ => h⟩

theorem Arena.leafArena {s : State} (h : Arena s) (ht : s.tstate = .leaves) : LeafArena s.nodes := by
  obtain ⟨-, hc, ha, hb⟩ := h.leaves ht
  exact ⟨hc, ha, hb⟩

theorem BuiltFromData.arena {s u : State} (h : BuiltFromData s u) : Arena u := by
  obtain ⟨freq, nodes, root, table, hb, -, rfl⟩ := h
  exact .of_data (.inr rfl) ((fillLeaves_leafArena freq).buildTree _ hb)

theorem RebuiltFromTable.arena {s u : State} (hf : CodesFit s.ct) (h : RebuiltFromTable s u) : Arena u := by
  obtain ⟨nodes, root, hb, rfl⟩ := h
  exact .of_dict rfl (rebuildTree_dictArena hf _ hb)

theorem Arena.effect {s u : State} {i : Instr} (hi : Inv s) (h : Arena s) (he : Effect s i u) : Arena u := by
  cases he with
  | nothing | setX | drawX | setEntry | setBs | setFreq | setCt | setPq | setIbc | setSink | flush => exact { h with }
  | softReset => exact .of_empty rfl rfl rfl
  | fill => exact .of_leaves rfl (fillLeaves_leafArena _) rfl
  | build nodes root hs hb => exact .of_data (.inl rfl) ((h.leafArena hs).buildTree _ hb)
  | derive table hs => exact .of_data (.inr rfl) (h.data (.inl hs))
  | setData _ _ _ hu => exact hu.arena
  | setDict _ hu => exact hu.arena hi.ctLen
  | decode _ _ hu =>
    obtain ⟨_, _, -, rfl⟩ := hu
    exact { h with }
  | compress u k q hu => exact { hu.arena with }
  | decompress table u k c q ht hu => exact { hu.arena ht with }

theorem Arena.ended {s t : State} {i : Instr} (hi : Inv s) (h : Arena s) (he : Ended s i t) : Arena t := by
  cases he with
  | completed he => exact { h.effect hi he with }
  | faulted => exact { h with }
  | compressFailed | decompressFailed => exact .of_empty rfl rfl rfl

theorem arena_reset : Arena State.reset := .of_empty rfl rfl rfl

theorem Arena.hostOp {s : State} (h : Arena s) (op : HostOp) : Arena (s.hostOp op) := by
  cases op with
  | read w addr =>
    obtain ⟨_, _, he⟩ := s.hostOp_read_frame w addr
    rw [he]
    exact { h with }
  | write w addr v =>
    obtain ⟨_, _, _, _, _, _, _, _, _, he⟩ := s.hostOp_write_frame w addr v
    rw [he]
    exact { h with }
  | reset asserted =>
    rw [State.hostOp, State.setReset]
    split
    · exact { arena_reset with }
    · exact h

theorem Arena.step {s t : State} (hi : Inv s) (h : Arena s) (hs : step s = .next t) : Arena t := by
  rcases step_next hs with ⟨op, l, n, -, rfl, -⟩ | ⟨-, -, rfl⟩ | ⟨-, -, -, hr⟩
  · exact Arena.hostOp (s := { s with host := l, busyLeft := n }) { h with } op
  · exact h
  · rcases State.runCommand_next hr with ⟨i, he⟩ | rfl
    · exact h.ended hi he
    · exact { h with }

end Sys2Proof.Machine
end

section
/-! PROOFS. The statements of 10_state.md. -/

namespace Sys2Proof

open Sys2Proof.Machine

/-- Settles O15, from the rule of each operation that a step is made of. -/
theorem stepKeepsInv : Obligations.StepKeepsInv := fun _ _ h hs => h.step hs

/-- Settles O16: the effects that write the tree end in the shape of their TSTATE, and nothing else touches it. -/
theorem stepKeepsArena : Obligations.StepKeepsArena := fun _ _ hi h hs => h.step hi hs

/-- Settles O21: the frame of X by the effect of each command, and the register written last by PQTOP, PQBACK and PQAT. -/
theorem onlyListedCommandsWriteX : Obligations.OnlyListedCommandsWriteX := by
  refine ⟨fun i s t r h hr => (exec_ended h).getX hr, fun i s t r hs h ht => (exec_ended h).getX_of_err hs ht r,
    fun a c i s t _ h ht => ⟨?_, ?_, ?_⟩⟩
  all_goals
    rintro rfl
    obtain ⟨u, hu, rfl⟩ := State.precise_completed h ht
    split at hu <;> cases hu
  next e l hq => exact ⟨e, l, hq, State.getX_setX_same _ _ _⟩
  next e hq =>
    obtain ⟨l, hl⟩ := List.getLast?_eq_some_iff.1 hq
    exact ⟨e, l, hl, State.getX_setX_same _ _ _⟩
  next e hq => exact ⟨e, hq, State.getX_setX_same _ _ _⟩

/-- Settles O22, from what the end of a command leaves of the host's side. -/
theorem commandsLeaveTheHostSide : Obligations.CommandsLeaveTheHostSide := by
  intro i s t h
  rcases (exec_ended h).hostSide with h | ⟨r, h⟩
  all_goals
    simp only [State.hostSide, HostSide.mk.injEq] at h
    obtain ⟨hctrl, hstatus, -, -, hinLen, hinWin, hinCap, houtCap, hcmd, hbusy, hpin, hhost, hrdata⟩ := h
    exact ⟨hctrl, hinLen, fun a => by rw [State.inByte, hinWin]; rfl, by rw [hstatus], hinCap, houtCap, hcmd, hbusy, hpin,
      hhost, hrdata⟩

/-- Settles O23, from the TSTATE each effect and each failure leaves. -/
theorem treeStateTransitions : Obligations.TreeStateTransitions := fun _ _ _ h => (exec_ended h).tstate

/-- Settles O24: PAD by the effect of each command, the frame of a host write, and the host's read. -/
theorem padWriters : Obligations.PadWriters := by
  refine ⟨fun i s t hs h hp => (exec_ended h).pad hs hp, fun s w addr v => ?_, fun s hp hb => ?_⟩
  · obtain ⟨_, _, _, _, _, _, _, _, _, h⟩ := s.hostOp_write_frame w addr v
    rw [h]
  · refine ⟨s.pad.setWidth 32, State.hostOp_read_reg hp hb (addr := 0x020) (r := .pad) rfl, ?_, ?_⟩
    · rw [BitVec.extractLsb'_setWidth_of_le (by decide), extract_all]
    · ext i hi
      simp

/-- Settles O26: one case for each kind of step, a host access, an idle step and the end of a command. -/
theorem errorRegistersKept : Obligations.ErrorRegistersKept := by
  intro s t h
  rcases step_next h with ⟨op, l, n, ho, rfl, -⟩ | ⟨-, -, rfl⟩ | ⟨-, hb, -, hr⟩
  · obtain ⟨hreg, herr⟩ := State.hostOp_errors { s with host := l, busyLeft := n } op
    refine ⟨?_, fun hs ht => absurd ((herr ht).symm.trans hs) (by simp)⟩
    rcases hreg with hreg | ⟨b, rfl, hreg⟩
    · exact .inl hreg
    · exact .inr (.inr ⟨b, l, ho, hreg⟩)
  · exact ⟨.inl ⟨rfl, rfl⟩, fun hs ht => absurd (ht.symm.trans hs) (by simp)⟩
  · rcases State.runCommand_errors hr with ⟨he, hreg⟩ | hf
    · exact ⟨.inl hreg, fun hs ht => absurd (ht.symm.trans (he.trans hs)) (by simp)⟩
    · exact ⟨.inr (.inl ⟨hb, hf⟩), fun _ _ => ⟨hb, hf.2⟩⟩

/-- Settles O9, register by register. -/
theorem registerBlockAccess : Obligations.RegisterBlockAccess := by
  intro s v hp hb
  have hread {addr : Word} {r : Reg} (h : regAt addr.toNat = some r) := State.hostOp_read_reg hp hb h
  have hwrite {addr : Word} {r : Reg} (h : regAt addr.toNat = some r) := State.hostOp_write_reg hp hb v h
  refine ⟨?_, fun i => hread (regAt_xOffset i), ?_, ?_, ?_, ?_, ?_, ?_, fun i => hwrite (regAt_xOffset i)⟩
  · simp only [List.forall_mem_cons]
    exact ⟨hread (r := .id) rfl, hread (r := .ctrl) rfl, hread (r := .status) rfl, hread (r := .errInfo) rfl,
      hread (r := .errCmd) rfl, hread (r := .cmd) rfl, hread (r := .inLen) rfl, hread (r := .outLen) rfl,
      hread (r := .pad) rfl, hread (r := .inCap) rfl, hread (r := .outCap) rfl, nofun⟩
  · simp only [List.forall_mem_cons]
    exact ⟨hwrite (r := .id) rfl, hwrite (r := .errInfo) rfl, hwrite (r := .errCmd) rfl, hwrite (r := .pad) rfl,
      hwrite (r := .inCap) rfl, hwrite (r := .outCap) rfl, nofun⟩
  · rw [hwrite (r := .ctrl) rfl, State.writeReg, BitVec.setWidth_eq_extractLsb' (by decide)]
  · exact fun hv => (hwrite (r := .inLen) rfl).trans (if_pos hv)
  · exact fun hv => (hwrite (r := .inLen) rfl).trans (if_neg (Nat.not_le.2 hv))
  · exact fun hv => (hwrite (r := .outLen) rfl).trans (if_pos hv)
  · exact fun hv => (hwrite (r := .outLen) rfl).trans (if_neg (Nat.not_le.2 hv))

/-- Settles O10, from the fields of the STATUS word and the write-one-to-clear form of a write. -/
theorem statusRegister : Obligations.StatusRegister := by
  refine ⟨fun s hp => ?_, fun s v hp hb => ?_, fun s => ?_⟩
  · obtain ⟨h0, h1, h2, h3, h7, h16, h4, h8⟩ := s.statusWord_fields
    refine ⟨s.statusWord, State.hostOp_read_readable hp (addr := 0x008) (r := .status) rfl rfl, h0, h1, h2, h3, h7, h16,
      ?_, ?_⟩
    · rw [h4]
      cases s.tstate <;> simp [TState.code]
    · rw [h8]
      cases s.status.errCode <;> simp [ErrCode.code]
  · rw [State.hostOp_write_reg hp hb v (addr := 0x008) (r := .status) rfl, State.writeReg, State.writeStatus_eq]
  · obtain ⟨-, h1, h2, -⟩ := s.statusWord_fields
    simp only [State.irq, State.ieDone, State.ieErr, h1, h2, Bool.or_eq_true, Bool.and_eq_true]

/-- Settles O14, field by field of the reset values. -/
theorem resetMeetsInvariants : Obligations.ResetMeetsInvariants := ⟨inv_reset, arena_reset⟩

end Sys2Proof
end

section
/-! PROOFS. Host accesses with reset deasserted: what the address map leaves out, and the two windows (20_memory.md R81 to
R84, 10_state.md R59). -/

namespace Sys2Proof.Machine

/-! ### What each place answers -/

theorem State.hostOp_read_idle {s : State} (hp : s.resetPin = false) (hb : s.status.busy = false) (w : Width)
    (addr : Word) : s.hostOp (.read w addr) = { s with rdata := s.readIdle w addr } := by
  simp [State.hostOp, hp, State.hostRead, hb]

theorem State.hostOp_write_idle {s : State} (hp : s.resetPin = false) (hb : s.status.busy = false) (w : Width)
    (addr v : Word) : s.hostOp (.write w addr v) = s.writeIdle w addr v := by
  simp [State.hostOp, hp, State.hostWrite, hb]

/-- The forms of 20_memory.md R82. -/
theorem blockForm_eq_false {w : Width} {off : Nat} (h : w ≠ .word ∨ off % 4 ≠ 0) : blockForm w off = false := by
  simpa [blockForm, Decidable.imp_iff_not_or] using h

theorem regAt_eq_none {n : Nat} (h : ¬ listedOffset n) : regAt n = none :=
  Option.not_isSome_iff_eq_none.1 fun hs => h ((regAt_isSome n).1 hs)

/-- A register-block access of no legal form, whatever BUSY is (20_memory.md R82; log 9). -/
theorem State.hostOp_of_blockForm_false {s : State} (hp : s.resetPin = false) {w : Width} {addr : Word}
    (hlt : addr.toNat < 0x1000) (hf : blockForm w addr.toNat = false) (v : Word) :
    s.hostOp (.write w addr v) = s ∧ s.hostOp (.read w addr) = { s with rdata := 0 } := by
  cases hb : s.status.busy with
  | false =>
    rw [hostOp_write_idle hp hb, hostOp_read_idle hp hb]
    simp [State.writeIdle, State.readIdle, s.place_block hlt, hf]
  | true =>
    simp [State.hostOp, hp, State.hostWrite, State.hostRead, hb, State.writeBusy, State.readBusy, s.place_block hlt, hf]

/-- An access of an unlisted offset of the block (10_state.md R59). -/
theorem State.hostOp_of_unlisted {s : State} (hp : s.resetPin = false) (hb : s.status.busy = false) {addr : Word}
    (hlt : addr.toNat < 0x1000) (hr : regAt addr.toNat = none) (w : Width) (v : Word) :
    s.hostOp (.write w addr v) = s ∧ s.hostOp (.read w addr) = { s with rdata := 0 } := by
  rw [hostOp_write_idle hp hb, hostOp_read_idle hp hb]
  simp [State.writeIdle, State.readIdle, s.place_block hlt, hr]

/-- An access outside the map (20_memory.md R81). -/
theorem State.hostOp_of_unmapped {s : State} (hp : s.resetPin = false) (hb : s.status.busy = false) {addr : Word}
    (h : s.place addr = .unmapped) (w : Width) (v : Word) :
    s.hostOp (.write w addr v) = s ∧ s.hostOp (.read w addr) = { s with rdata := 0 } := by
  rw [hostOp_write_idle hp hb, hostOp_read_idle hp hb]
  simp [State.writeIdle, State.readIdle, h]

/-! ### The windows by window address (20_memory.md R83, R84) -/

theorem State.place_inAddr {s : State} {a : Nat} (h : a < s.inCap.val) :
    s.place (BitVec.ofNat 32 (0x40000000 + a)) = .inWin a := by
  have := s.inCap.isLt
  have haddr : (BitVec.ofNat 32 (0x40000000 + a)).toNat = 0x40000000 + a := by
    rw [BitVec.toNat_ofNat, Nat.mod_eq_of_lt (by omega)]
  rw [s.place_inWin (by omega) (by omega), haddr, Nat.add_sub_cancel_left]

theorem State.place_outAddr {s : State} {a : Nat} (h : a < s.outCap.val) :
    s.place (BitVec.ofNat 32 (0x80000000 + a)) = .outWin a := by
  have := s.outCap.isLt
  have haddr : (BitVec.ofNat 32 (0x80000000 + a)).toNat = 0x80000000 + a := by
    rw [BitVec.toNat_ofNat, Nat.mod_eq_of_lt (by omega)]
  rw [s.place_outWin (by omega) (by omega), haddr, Nat.add_sub_cancel_left]

theorem windowBytes_word {a : Nat} (h : a % 4 = 0) : windowBytes .word a = 4 := if_pos h

/-- The accesses that move no byte: 16 bits wide, or a misaligned word. -/
theorem windowBytes_eq_zero {w : Width} {a : Nat} (h : w = .half ∨ (w = .word ∧ a % 4 ≠ 0)) : windowBytes w a = 0 := by
  rcases h with rfl | ⟨rfl, h⟩
  · rfl
  · exact if_neg h

theorem readWindow_byteAccess (w : Window) {cap a : Nat} (h : a < cap) :
    readWindow w cap a (windowBytes .byte a) = (w.byte a).setWidth 32 := by
  simp [windowBytes, readWindow, h]

theorem readWindow_wordAccess (w : Window) (cap : Nat) {a k : Nat} (h4 : a % 4 = 0) (hk : k < 4) :
    (readWindow w cap a (windowBytes .word a)).extractLsb' (8 * k) 8 = if a + k < cap then w.byte (a + k) else 0 := by
  rw [windowBytes_word h4]
  exact readWindow_byte w cap a 4 k hk le_rfl

section access

variable {s : State} (hp : s.resetPin = false) (hb : s.status.busy = false) (w : Width) {a : Nat} (v : Word)
include hp hb

theorem State.hostOp_write_in (h : a < s.inCap.val) : s.hostOp (.write w (BitVec.ofNat 32 (0x40000000 + a)) v) =
    { s with inWin := writeWindow s.inWin s.inCap.val a v (windowBytes w a) } := by
  simp only [hostOp_write_idle hp hb, State.writeIdle, place_inAddr h]

theorem State.hostOp_read_in (h : a < s.inCap.val) : s.hostOp (.read w (BitVec.ofNat 32 (0x40000000 + a))) =
    { s with rdata := readWindow s.inWin s.inCap.val a (windowBytes w a) } := by
  simp only [hostOp_read_idle hp hb, State.readIdle, place_inAddr h]

theorem State.hostOp_write_out (h : a < s.outCap.val) :
    s.hostOp (.write w (BitVec.ofNat 32 (0x80000000 + a)) v) = s := by
  simp only [hostOp_write_idle hp hb, State.writeIdle, place_outAddr h]

theorem State.hostOp_read_out (h : a < s.outCap.val) : s.hostOp (.read w (BitVec.ofNat 32 (0x80000000 + a))) =
    { s with rdata := readWindow s.outWin s.outCap.val a (windowBytes w a) } := by
  simp only [hostOp_read_idle hp hb, State.readIdle, place_outAddr h]

/-- What IN holds after a host write at `a`, byte by byte. -/
theorem State.inByte_hostOp_write_in (hwf : s.inWin.cells.wf) (h : a < s.inCap.val) (b : Nat) :
    (s.hostOp (.write w (BitVec.ofNat 32 (0x40000000 + a)) v)).inByte b =
      if a ≤ b ∧ b < a + windowBytes w a ∧ b < s.inCap.val then v.extractLsb' (8 * (b - a)) 8 else s.inByte b := by
  have hbytes : windowBytes w a ≤ 4 := by
    cases w <;> simp only [windowBytes]
    case word => split <;> omega
    all_goals omega
  rw [hostOp_write_in hp hb w v h]
  exact writeWindow_byte hwf s.inCap.val a v _ b hbytes

end access

end Sys2Proof.Machine
end

section
/-! PROOFS. The statements of 20_memory.md. -/

namespace Sys2Proof

open Sys2Proof.Machine

/-- Settles O11: a window access by the number of bytes it moves, and the frame of the commands. -/
theorem windowAccess : Obligations.WindowAccess := by
  refine ⟨fun s a v hwf hp hb ha => ?_, fun s a v hp hb ha => ?_, fun i s t h => ?_⟩
  · have hread := fun w => State.hostOp_read_in hp hb w ha
    have hwrite := fun w => State.hostOp_write_in hp hb w v ha
    have hbyte := fun w => State.inByte_hostOp_write_in hp hb w v hwf ha
    refine ⟨fun w => ⟨_, hwrite w⟩, fun b => ?_, ?_, fun h4 b => ?_,
      fun h4 => ⟨_, hread .word, fun k hk => readWindow_wordAccess _ _ h4 hk⟩, fun w hw => ⟨?_, ?_⟩⟩
    · have hone : (a ≤ b ∧ b < a + windowBytes .byte a ∧ b < s.inCap.val) ↔ b = a := by
        simp only [windowBytes]
        omega
      rw [hbyte .byte]
      simp only [hone]
      split
      · rw [‹b = a›, Nat.sub_self]
      · rfl
    · rw [hread .byte, readWindow_byteAccess _ ha]
      rfl
    · rw [hbyte .word, windowBytes_word h4]
    · rw [hwrite w, windowBytes_eq_zero hw]
      rfl
    · rw [hread w, windowBytes_eq_zero hw]
      rfl
  · have hread := fun w => State.hostOp_read_out hp hb w ha
    refine ⟨fun w => State.hostOp_write_out hp hb w v ha, ?_,
      fun h4 => ⟨_, hread .word, fun k hk => readWindow_wordAccess _ _ h4 hk⟩, fun w hw => ?_⟩
    · rw [hread .byte, readWindow_byteAccess _ ha]
      rfl
    · rw [hread w, windowBytes_eq_zero hw]
      rfl
  · obtain ⟨-, -, hin, -⟩ := commandsLeaveTheHostSide i s t h
    exact hin

/-- Settles O8, one rule for each way an access names nothing. -/
theorem accessesOutsideTheMap : Obligations.AccessesOutsideTheMap :=
  ⟨fun _ _ _ v hp hlt hform => State.hostOp_of_blockForm_false hp hlt (blockForm_eq_false hform) v,
    fun _ _ v hp hb hlt hlisted => State.hostOp_of_unlisted hp hb hlt (regAt_eq_none hlisted) .word v,
    fun s w _ v hp hb hblock hin hout => State.hostOp_of_unmapped hp hb (s.place_unmapped hblock hin hout) w v⟩

end Sys2Proof
end

section
/-! PROOFS. The encoder, the decoder and the masks field by field: what `decode` accepts, that every row of the opcode map
encodes what it builds, and what a row's mask tests (30_encoding.md R114, R118, R119, R121). -/

namespace Sys2Proof

/-! ### A word and its fields (30_encoding.md R111, R112) -/

/-- The two halves of an append are free of each other. -/
theorem append_eq_append_iff {m n : Nat} {x x' : BitVec m} {y y' : BitVec n} : x ++ y = x' ++ y' ↔ x = x' ∧ y = y' := by
  refine ⟨fun h => ⟨?_, ?_⟩, fun ⟨hx, hy⟩ => hx ▸ hy ▸ rfl⟩
  · simpa [extract_append_high] using congrArg (BitVec.extractLsb' n m) h
  · simpa [extract_append_low] using congrArg (BitVec.extractLsb' 0 n) h

theorem ofBool_getLsbD (w : Word) (k : Nat) : BitVec.ofBool (w.getLsbD k) = w.extractLsb' k 1 := by
  ext i hi
  obtain rfl : i = 0 := by omega
  simp

/-- A word is the append of its format R fields. -/
theorem append_fieldsR (w : Word) :
    (fieldsOf w).op ++ (fieldsOf w).a ++ (fieldsOf w).b ++ (fieldsOf w).c ++ (fieldsOf w).d ++ (fieldsOf w).e ++
      (fieldsOf w).rsv ++ BitVec.ofBool (fieldsOf w).v = w := by
  simp only [fieldsOf, ofBool_getLsbD]
  simp (disch := rfl) only [BitVec.extractLsb'_append_extractLsb'_eq_extractLsb', extract_all]

/-- A word is the append of its format I fields. -/
theorem append_fieldsI (w : Word) :
    (fieldsOf w).op ++ (fieldsOf w).a ++ (fieldsOf w).b ++ (fieldsOf w).imm16 = w := by
  simp only [fieldsOf]
  simp (disch := rfl) only [BitVec.extractLsb'_append_extractLsb'_eq_extractLsb', extract_all]

theorem encodeR_fieldsOf {w : Word} (h : (fieldsOf w).rsv = 0) :
    encodeR (fieldsOf w).op (fieldsOf w).a (fieldsOf w).b (fieldsOf w).c (fieldsOf w).d (fieldsOf w).e (fieldsOf w).v =
      w := by
  conv_rhs => rw [← append_fieldsR w, h]
  rfl

theorem encodeI_fieldsOf {w : Word} (h : (fieldsOf w).b = 0) :
    encodeI (fieldsOf w).op (fieldsOf w).a (fieldsOf w).imm16 = w := by
  conv_rhs => rw [← append_fieldsI w, h]
  rfl

/-! ### What the decoder accepts (30_encoding.md R118) -/

theorem opcodes_nodup : (opcodeMap.map Row.op).Nodup := by decide +kernel

theorem rowOf_some_op {op : BitVec 8} {r : Row} (h : rowOf op = some r) : r.op = op := by
  simpa using List.find?_some h

theorem rowOf_eq_some_iff {op : BitVec 8} {r : Row} : rowOf op = some r ↔ r ∈ opcodeMap ∧ r.op = op := by
  refine ⟨fun h => ⟨List.mem_of_find?_eq_some h, rowOf_some_op h⟩, ?_⟩
  rintro ⟨hr, rfl⟩
  cases hq : rowOf r.op with
  | none => simpa using List.find?_eq_none.1 hq r hr
  | some q =>
    rw [List.inj_on_of_nodup_map opcodes_nodup (List.mem_of_find?_eq_some hq) hr (rowOf_some_op hq)]

theorem decode_eq_ok_iff {w : Word} {i : Instr} :
    decode w = .ok i ↔ ∃ r, rowOf (fieldsOf w).op = some r ∧ r.unusedZero (fieldsOf w) = true ∧
      ¬ ((fieldsOf w).op = 0x72 ∧ 4 < (fieldsOf w).d.toNat) ∧ r.build (fieldsOf w) = i := by
  unfold decode
  cases rowOf (fieldsOf w).op with
  | none => simp
  | some r =>
    simp only [Option.some.injEq, exists_eq_left']
    split
    next hu => simp [hu]
    next hu =>
      split
      next hd => simp [hd.1, hd.2]
      next hd => simp only [Bool.eq_true_of_not_eq_false hu, hd, not_false_eq_true, true_and, Except.ok.injEq]

/-- NDRD with f > 4 is the only term that is no legal command (30_encoding.md R118 (3)). -/
theorem wellFormed_eq_false {i : Instr} (h : WellFormed i = false) : ∃ a b d, i = .ndrd a b d ∧ 4 < d.toNat := by
  cases i with
  | ndrd a b d => exact ⟨a, b, d, rfl, by simpa [WellFormed] using h⟩
  | _ => cases h

/-! ### The word of a command (30_encoding.md R121) -/

open Laws.RowBuilds in
/-- Each command's row builds it again from its word. -/
theorem rowBuilds : ∀ i : Instr, Statement i
  | .nop => nop | .srst => srst | .li a imm => li a imm | .lui a imm => lui a imm | .mov a b => mov a b
  | .bget a b c => bget a b c | .bset a b c v => bset a b c v | .bins a b c d v => bins a b c d v
  | .bera a b c d => bera a b c d | .bsnew a b v => bsnew a b v | .bsfrom a b c => bsfrom a b c
  | .bsmov a b => bsmov a b | .bssize a b => bssize a b | .bsempty a b => bsempty a b | .bsat a b c => bsat a b c
  | .bsgetu a b c => bsgetu a b c | .bssetat a b v => bssetat a b v | .bssetu a b v => bssetu a b v
  | .bsins a b c v => bsins a b c v | .bsins1 a b v => bsins1 a b v | .bsinsr a b c d e => bsinsr a b c d e
  | .bsera a b c => bsera a b c | .bsera1 a b => bsera1 a b | .bspush a v => bspush a v | .bspop a => bspop a
  | .bsresize a b v => bsresize a b v | .bsclr a => bsclr a | .bsfront a b => bsfront a b | .bsback a b => bsback a b
  | .bsword a b => bsword a b | .pqpush a b => pqpush a b | .pqpop => pqpop | .pqtop a b => pqtop a b
  | .pqback a b => pqback a b | .pqat a b c => pqat a b c | .pqsize a => pqsize a | .pqclr => pqclr
  | .fqwr a b => fqwr a b | .fqrd a b => fqrd a b | .fqclr => fqclr | .ctwr a b => ctwr a b | .ctrd a b => ctrd a b
  | .ctclr => ctclr | .htfreq a b => htfreq a b | .htfill => htfill | .htbuild => htbuild | .htdict => htdict
  | .htsetdata a b => htsetdata a b | .htsetdict => htsetdict | .htenc a b => htenc a b | .htdec a => htdec a
  | .htroot a => htroot a | .htncnt a => htncnt a | .ndrd a b d => ndrd a b d | .ibinit a => ibinit a
  | .ibread a => ibread a | .ibnext => ibnext | .iblast a => iblast a | .ibend a => ibend a | .ibpos a => ibpos a
  | .obinit => obinit | .obput v => obput v | .obputx a => obputx a | .obflush a => obflush a | .obcnt a => obcnt a
  | .compress => compress | .decompress => decompress

/-- Only NDRD has the opcode 0x72, and its field d is its selector. -/
theorem ndrd_of_op {i : Instr} (h : (fieldsOf (encode i)).op = 0x72) :
    ∃ a b, i = .ndrd a b (fieldsOf (encode i)).d := by
  obtain ⟨r, hr, -, hb⟩ := rowBuilds i
  rw [h] at hr
  cases hr
  exact ⟨_, _, hb.symm⟩

/-- The NDRD check does not reject the word of a legal command. -/
theorem selector_of_wellFormed {i : Instr} (h : WellFormed i = true) :
    ¬ ((fieldsOf (encode i)).op = 0x72 ∧ 4 < (fieldsOf (encode i)).d.toNat) := by
  rintro ⟨hop, hd⟩
  obtain ⟨a, b, hi⟩ := ndrd_of_op hop
  rw [hi, WellFormed, decide_eq_true_iff] at h
  omega

theorem decode_encode {i : Instr} (h : WellFormed i = true) : decode (encode i) = .ok i := by
  obtain ⟨r, hr, hu, hb⟩ := rowBuilds i
  exact decode_eq_ok_iff.2 ⟨r, hr, hu, selector_of_wellFormed h, hb⟩

/-! ### Every row encodes what it builds (30_encoding.md R114, R116, R121) -/

/-- The word a row makes of fields: those it uses in their places, 0 elsewhere. -/
def Row.assemble (r : Row) (f : Fields) : Word :=
  match r.fmt with
  | .R => encodeR r.op (if r.uses.a then f.a else 0) (if r.uses.b then f.b else 0) (if r.uses.c then f.c else 0)
      (if r.uses.d then f.d else 0) (if r.uses.e then f.e else 0) (r.uses.v && f.v)
  | .I => encodeI r.op f.a f.imm16

/-- Row by row, a command is encoded as the fields it was built from. -/
theorem encode_build : ∀ r ∈ opcodeMap, ∀ f, encode (r.build f) = r.assemble f := by
  intro r hr f
  fin_cases hr
  all_goals simp [Row.r, Row.i, Row.assemble, encode, Uses.first]

theorem ite_used {used : Bool} {x : BitVec 4} (h : (used || x == 0) = true) : (if used then x else 0) = x := by
  cases used with
  | true => rfl
  | false => exact (beq_iff_eq.1 h).symm

theorem and_used {used v : Bool} (h : (used || !v) = true) : (used && v) = v := by
  cases used with
  | true => rfl
  | false => simpa using h

/-- A row whose unused fields are 0 in a word of its opcode assembles that word (30_encoding.md R114). -/
theorem Row.assemble_fieldsOf {r : Row} {w : Word} (hop : r.op = (fieldsOf w).op)
    (hu : r.unusedZero (fieldsOf w) = true) : r.assemble (fieldsOf w) = w := by
  unfold Row.assemble
  unfold Row.unusedZero at hu
  split at hu
  next hf =>
    simp only [Bool.and_eq_true] at hu
    obtain ⟨⟨⟨⟨⟨⟨ha, hb⟩, hc⟩, hd⟩, he⟩, hrsv⟩, hv⟩ := hu
    simp only [hf, ite_used ha, ite_used hb, ite_used hc, ite_used hd, ite_used he, and_used hv, hop]
    exact encodeR_fieldsOf (beq_iff_eq.1 hrsv)
  next hf =>
    simp only [hf, hop]
    exact encodeI_fieldsOf (beq_iff_eq.1 hu)

theorem encode_of_decode {w : Word} {i : Instr} (h : decode w = .ok i) : encode i = w ∧ WellFormed i = true := by
  obtain ⟨r, hr, hu, hd, rfl⟩ := decode_eq_ok_iff.1 h
  obtain ⟨hmem, hop⟩ := rowOf_eq_some_iff.1 hr
  have hw : encode (r.build (fieldsOf w)) = w := (encode_build r hmem _).trans (Row.assemble_fieldsOf hop hu)
  refine ⟨hw, Bool.of_not_eq_false fun hf => hd ?_⟩
  obtain ⟨a, b, d, hi, h4⟩ := wellFormed_eq_false hf
  rw [← hw, hi, encode, fieldsOf_encodeR]
  exact ⟨rfl, h4⟩

/-! ### Masks and reserved opcodes (30_encoding.md R117 to R119) -/

theorem and_append_eq_append_iff {m n : Nat} {x mask x' : BitVec m} {y mask' y' : BitVec n} :
    (x ++ y) &&& (mask ++ mask') = x' ++ y' ↔ x &&& mask = x' ∧ y &&& mask' = y' := by
  rw [BitVec.and_append, append_eq_append_iff]

theorem and_ones {n : Nat} {mask : BitVec n} (h : mask = BitVec.allOnes n) (x : BitVec n) : x &&& mask = x :=
  h ▸ BitVec.and_allOnes

theorem and_maskNibble_eq_zero (x : BitVec 4) (used : Bool) :
    x &&& maskNibble used = 0#4 ↔ (used || x == 0) = true := by
  cases used with
  | true => simp [maskNibble]
  | false => simp [maskNibble, and_ones (mask := 0xF#4) rfl]

theorem ofBool_and_not_eq_zero_iff (v used : Bool) : BitVec.ofBool (v && !used) = 0#1 ↔ used = true ∨ v = false := by
  cases v <;> cases used <;> decide

/-- `op × 2^24` over the fields of format R. -/
theorem Row.word_eq_fieldsR (r : Row) : r.word = r.op ++ 0#4 ++ 0#4 ++ 0#4 ++ 0#4 ++ 0#4 ++ 0#3 ++ 0#1 := by
  apply BitVec.eq_of_toNat_eq
  unfold Row.word
  repeat rw [BitVec.toNat_append]
  simp [← Nat.shiftLeft_add]

/-- `op × 2^24` over the fields of format I. -/
theorem Row.word_eq_fieldsI (r : Row) : r.word = r.op ++ 0#4 ++ 0#4 ++ 0#16 := by
  apply BitVec.eq_of_toNat_eq
  unfold Row.word
  repeat rw [BitVec.toNat_append]
  simp [← Nat.shiftLeft_add]

/-- A word matches a row's mask exactly when it has the row's opcode and 0 in every field the row does not use
(30_encoding.md R119). -/
theorem Row.and_mask_eq_word_iff (r : Row) (w : Word) :
    w &&& r.mask = r.word ↔ (fieldsOf w).op = r.op ∧ r.unusedZero (fieldsOf w) = true := by
  unfold Row.mask Row.unusedZero
  cases r.fmt with
  | R =>
    conv_lhs => rw [← append_fieldsR w, r.word_eq_fieldsR]
    iterate 7 rw [and_append_eq_append_iff]
    simp [and_ones (mask := 0xFF#8) rfl, and_ones (mask := 7#3) rfl, and_maskNibble_eq_zero, ofBool_and_not_eq_zero_iff,
      and_assoc]
  | I =>
    conv_lhs => rw [← append_fieldsI w, r.word_eq_fieldsI]
    iterate 3 rw [and_append_eq_append_iff]
    simp [and_ones (mask := 0xFF#8) rfl, and_ones (mask := 0xF#4) rfl]

theorem Row.word_op (r : Row) : r.word.extractLsb' 24 8 = r.op := by
  rw [Row.word, extract_append_high _ _ _ _ le_rfl]
  exact extract_all _

/-- The reserved opcodes are those with no row (30_encoding.md R117). -/
theorem rowOf_eq_none_iff (op : BitVec 8) : rowOf op = none ↔ Machine.reservedOp op.toNat := by
  unfold Machine.reservedOp
  revert op
  decide +kernel

/-- Row by row, spec/opcode_table.json has the model's `match` and `mask`. -/
theorem masks_eq_map : Machine.masks = opcodeMap.map fun r => (r.word, r.mask) := by decide +kernel

/-- The three reasons of 30_encoding.md R118 over the decoder's rows. -/
theorem illegalWord_iff (w : Word) :
    Machine.illegalWord w ↔ rowOf (fieldsOf w).op = none ∨
      (∃ r, rowOf (fieldsOf w).op = some r ∧ r.unusedZero (fieldsOf w) = false) ∨
      ((fieldsOf w).op = 0x72 ∧ 4 < (fieldsOf w).d.toNat) := by
  have hmask : (∃ p ∈ Machine.masks, p.1.extractLsb' 24 8 = (fieldsOf w).op ∧ w &&& p.2 ≠ p.1) ↔
      ∃ r, rowOf (fieldsOf w).op = some r ∧ r.unusedZero (fieldsOf w) = false := by
    simp only [masks_eq_map, List.mem_map, exists_exists_and_eq_and, Row.word_op, ne_eq, Row.and_mask_eq_word_iff,
      rowOf_eq_some_iff, and_assoc]
    refine exists_congr fun r => and_congr_right fun _ => and_congr_right fun hop => ?_
    simp [hop]
  rw [rowOf_eq_none_iff, ← hmask]
  rfl

theorem illegalWord_iff_not_decodes (w : Word) : Machine.illegalWord w ↔ ¬ ∃ i, decode w = .ok i := by
  simp only [illegalWord_iff, decode_eq_ok_iff]
  cases rowOf (fieldsOf w).op with
  | none => simp
  | some r => cases hu : r.unusedZero (fieldsOf w) <;> simp [hu]

end Sys2Proof
end

section
/-! PROOFS. How a command ends, in the terms of Safety (30_encoding.md R126, R127; 60_exceptions.md R362). -/

namespace Sys2Proof.Machine

/-- Fault entry is precise (60_exceptions.md R362). -/
theorem State.takeFault_faults (s : State) (r : Raise) : Faults r.code r.info.toNat s (s.takeFault r) where
  x _ _ := rfl
  bs _ _ := rfl
  freq := .inr rfl
  tree := .inr ⟨rfl, rfl, rfl⟩
  ct := .inr rfl
  pq := .inr rfl
  ibc := .inr rfl
  obc := .inr rfl
  pad := .inr rfl
  out := .inr ⟨rfl, fun _ => rfl⟩
  draws := .inr rfl
  ctrl := rfl
  inLen := rfl
  inByte _ := rfl
  inCap := rfl
  outCap := rfl
  cmd := rfl
  busyLeft := rfl
  resetPin := rfl
  host := rfl
  rdata := rfl
  status := rfl
  errInfo := (Nat.mod_eq_of_lt r.info.isLt).symm
  errCmd := rfl

/-- A completed command sets DONE and no other flag, and leaves the error registers (30_encoding.md R126). -/
theorem Effect.complete_flags {s u : State} {i : Instr} (h : Effect s i u) :
    u.complete.status = { s.status with busy := false, done := true } ∧ u.complete.errInfo = s.errInfo ∧
      u.complete.errCmd = s.errCmd := by
  have hs := h.hostSide
  simp only [State.hostSide, HostSide.mk.injEq] at hs
  obtain ⟨-, hstatus, herrInfo, herrCmd, -⟩ := hs
  exact ⟨by rw [← hstatus]; rfl, herrInfo, herrCmd⟩

end Sys2Proof.Machine
end

section
/-! PROOFS. The statements of 30_encoding.md. -/

namespace Sys2Proof

open Sys2Proof.Machine

/-- Settles O1: the row of the word's opcode builds the command again, and the check of NDRD's selector passes. -/
theorem decodeOfEncode : Obligations.DecodeOfEncode := fun _ => decode_encode

/-- Settles O2: the row of the opcode encodes what it builds, so the word is its fields put together again. -/
theorem encodeOfDecode : Obligations.EncodeOfDecode := fun _ _ => encode_of_decode

/-- Settles O3: the masks row by row against the decoder's own rows, and the fault entry of a word that does not decode. -/
theorem illegalWordsOnlyFault : Obligations.IllegalWordsOnlyFault := by
  refine ⟨illegalWord_iff_not_decodes, fun s hw => ?_⟩
  rcases s.runCommand_eq with ⟨i, hi, -⟩ | ⟨-, he⟩
  · exact absurd ⟨i, hi⟩ ((illegalWord_iff_not_decodes _).1 hw)
  · exact ⟨_, he, s.takeFault_faults .illegal⟩

/-- Settles O19, by the ways a command can end; the failure states belong to the two codec commands. -/
theorem commandsCompleteOrFaultPrecisely : Obligations.CommandsCompleteOrFaultPrecisely := by
  intro i s t hc hd h
  cases exec_ended h with
  | completed he => exact .inl he.complete_flags
  | faulted r => exact .inr ⟨r.code, r.info.toNat, r.code_ne_none, s.takeFault_faults r⟩
  | compressFailed => exact absurd rfl hc
  | decompressFailed => exact absurd rfl hd

/-- Settles O4, by decoding each word. -/
theorem specWordsDecode : Obligations.SpecWordsDecode := ⟨rfl, rfl, rfl, rfl, rfl, rfl, rfl, rfl⟩

end Sys2Proof
end

section
/-! PROOFS. What a completed command leaves, in the terms of Safety: the frame of no change and of a register write, and
how a frame completes (30_encoding.md R126, 70_reset_and_hazards.md R406). -/

namespace Sys2Proof.Machine

section frame
variable {xs : List XReg} {bss : List BsReg} {parts : List Part} {s u : State}

theorem SameBut.refl (s : State) : SameBut xs bss parts s s where
  x _ _ := rfl
  bs _ _ := rfl
  freq := .inr rfl
  tree := .inr ⟨rfl, rfl, rfl⟩
  ct := .inr rfl
  pq := .inr rfl
  ibc := .inr rfl
  obc := .inr rfl
  pad := .inr rfl
  out := .inr ⟨rfl, fun _ => rfl⟩
  draws := .inr rfl
  ctrl := rfl
  inLen := rfl
  inByte _ := rfl
  inCap := rfl
  outCap := rfl
  cmd := rfl
  busyLeft := rfl
  resetPin := rfl
  host := rfl
  rdata := rfl

/-- A write to a named register stays within the frame. -/
theorem SameBut.setX (h : SameBut xs bss parts s u) {a : XReg} (ha : a ∈ xs) (v : Word) :
    SameBut xs bss parts s (u.setX a v) :=
  { h with
    x := fun r hr => by
      rw [State.getX_setX, if_neg (ne_of_mem_of_not_mem ha hr)]
      exact h.x r hr }

/-- A result within a frame that leaves STATUS and the error registers completes within that frame. -/
theorem SameBut.completes (h : SameBut xs bss parts s u) (hs : u.status = s.status) (hi : u.errInfo = s.errInfo)
    (hc : u.errCmd = s.errCmd) : Completes xs bss parts s u.complete :=
  { h with
    status := by rw [State.complete_status, hs]
    errInfo := hi
    errCmd := hc }

end frame

@[simp] theorem State.getX_complete (s : State) (r : XReg) : s.complete.getX r = s.getX r := rfl

theorem State.setX_completes (s : State) (a : XReg) (v : Word) : Completes [a] [] [] s (s.setX a v).complete :=
  ((SameBut.refl s).setX List.mem_cons_self v).completes rfl rfl rfl

end Sys2Proof.Machine
end

section
/-! PROOFS. The results of the control commands (40_control.md R141 to R144). -/

namespace Sys2Proof.Machine

@[simp] theorem immLow_toNat (imm : BitVec 16) : (immLow imm).toNat = imm.toNat :=
  BitVec.toNat_setWidth_of_le (by decide)

/-- LUI keeps the low half of the register (40_control.md R143). -/
@[simp] theorem immHigh_toNat (imm : BitVec 16) (old : Word) :
    (immHigh imm old).toNat = imm.toNat * 2 ^ 16 + old.toNat % 2 ^ 16 := by
  have hlow : (old.extractLsb' 0 16).toNat = old.toNat % 2 ^ 16 := by simp
  calc (immHigh imm old).toNat
      = imm.toNat <<< 16 ||| (old.extractLsb' 0 16).toNat := BitVec.toNat_append imm (old.extractLsb' 0 16)
    _ = imm.toNat <<< 16 + (old.extractLsb' 0 16).toNat :=
        (Nat.shiftLeft_add_eq_or_of_lt (old.extractLsb' 0 16).isLt _).symm
    _ = imm.toNat * 2 ^ 16 + old.toNat % 2 ^ 16 := by rw [hlow, Nat.shiftLeft_eq]

@[simp] theorem State.getBs_softReset (s : State) (j : BsReg) : s.softReset.getBs j = [] := by
  simp [State.getBs, State.softReset]

/-- SRST leaves X, CTRL and both windows with their lengths (40_control.md R141). -/
theorem State.softReset_sameBut (s : State) :
    SameBut [] [0, 1, 2, 3, 4, 5, 6, 7, 8, 9, 10, 11, 12, 13, 14, 15] [.freq, .tree, .ct, .pq, .ibc, .obc, .pad] s
      s.softReset :=
  { SameBut.refl (bss := []) s with
    bs := fun j hj => absurd (List.mem_finRange j) hj
    freq := .inl (by decide)
    tree := .inl (by decide)
    ct := .inl (by decide)
    pq := .inl (by decide)
    ibc := .inl (by decide)
    obc := .inl (by decide)
    pad := .inl (by decide) }

end Sys2Proof.Machine

namespace Sys2Proof

open Sys2Proof.Machine

/-- Settles O27, command by command: NOP's result is the state itself, SRST's the cleared state, and LI, LUI and MOV each
write one register. -/
theorem controlCommands : Obligations.ControlCommands := by
  refine fun s a b imm => ⟨⟨_, rfl, ?nop⟩, ⟨_, rfl, ?srst, ?cleared⟩, ⟨_, rfl, ?li, ?liValue⟩, ⟨_, rfl, ?lui, ?luiValue⟩,
    ⟨_, rfl, ?mov, ?movValue⟩⟩
  case nop => exact (SameBut.refl s).completes rfl rfl rfl
  case srst => exact s.softReset_sameBut.completes rfl rfl rfl
  case cleared =>
    exact ⟨s.getBs_softReset, entry_replicate 0, entry_replicate [], rfl, rfl, rfl, rfl, rfl, rfl, rfl⟩
  case li | lui | mov => exact s.setX_completes a _
  case liValue | luiValue | movValue => simp

end Sys2Proof
end

section
/-! PROOFS. How a command that only writes one X register answers, and how it answers OUT_OF_RANGE
(30_encoding.md R126, R127; 60_exceptions.md R361, R362). -/

namespace Sys2Proof.Machine

/-- ERRINFO of OUT_OF_RANGE is the offending value (60_exceptions.md R361). -/
theorem State.takeFault_outOfRange_faults (s : State) (n : Nat) :
    Faults .outOfRange n s (s.takeFault (.outOfRange n)) :=
  { s.takeFault_faults (.outOfRange n) with errInfo := BitVec.toNat_ofNat n 32 }

variable {s : State} {answer : Answer}

theorem State.precise_outOfRange {n : Nat} (h : answer = s.precise (raise (.outOfRange n))) :
    ∃ t, answer = .next t ∧ Faults .outOfRange n s t :=
  ⟨_, h, s.takeFault_outOfRange_faults n⟩

/-- A write of `x[a]` completes, and leaves whatever holds of every state with that value in `x[a]`. -/
theorem State.precise_setX {a : XReg} {w : Word} {Q : State → Prop} (h : answer = s.precise (.ok (s.setX a w)))
    (hw : ∀ t : State, t.getX a = w → Q t) : ∃ t, answer = .next t ∧ Completes [a] [] [] s t ∧ Q t :=
  ⟨_, h, s.setX_completes a w, hw _ (by simp)⟩

end Sys2Proof.Machine
end

section
/-! PROOFS. The bit primitives: the answer of each command in and out of its range (41_bit_primitives.md R155 to R158), and
the laws that the index-by-index lemmas of Laws/Bits.lean give (R154). -/

namespace Sys2Proof.Machine

/-! ### The range check of BINS and BERA -/

/-- The index and count checks that BINS and BERA share (41_bit_primitives.md R157, R158). -/
def checkRange (i n : Nat) (result : State) : Except Stop State :=
  if 32 < i then raise (.outOfRange i) else if 32 - i < n then raise (.outOfRange n) else .ok result

theorem checkRange_inRange {i n : Nat} (h : i + n ≤ 32) (u : State) : checkRange i n u = .ok u := by
  rw [checkRange, if_neg (by omega), if_neg (by omega)]

theorem checkRange_index {i : Nat} (h : 32 < i) (n : Nat) (u : State) : checkRange i n u = raise (.outOfRange i) :=
  if_pos h

theorem checkRange_count {i n : Nat} (hi : i ≤ 32) (h : 32 < i + n) (u : State) :
    checkRange i n u = raise (.outOfRange n) := by
  rw [checkRange, if_neg (by omega), if_pos (by omega)]

/-! ### The four commands -/

section answers
variable {s : State} {a b c d : XReg} {v : Bool}

theorem exec_bget_inRange (h : s.operand c ≤ 31) :
    exec (.bget a b c) s = s.precise (.ok (s.setX a (bitWord (getBit (s.getX b) (s.operand c))))) :=
  congrArg s.precise (if_neg h.not_gt)

theorem exec_bget_outOfRange (h : 31 < s.operand c) :
    exec (.bget a b c) s = s.precise (raise (.outOfRange (s.operand c))) :=
  congrArg s.precise (if_pos h)

theorem exec_bset_inRange (h : s.operand c ≤ 31) :
    exec (.bset a b c v) s = s.precise (.ok (s.setX a (setBit (s.getX b) (s.operand c) v))) :=
  congrArg s.precise (if_neg h.not_gt)

theorem exec_bset_outOfRange (h : 31 < s.operand c) :
    exec (.bset a b c v) s = s.precise (raise (.outOfRange (s.operand c))) :=
  congrArg s.precise (if_pos h)

theorem exec_bins : exec (.bins a b c d v) s = s.precise (checkRange (s.operand c) (s.operand d)
    (s.setX a (insertBits (s.getX b) (s.operand c) (s.operand d) v))) := rfl

theorem exec_bera : exec (.bera a b c d) s = s.precise (checkRange (s.operand c) (s.operand d)
    (s.setX a (eraseBits (s.getX b) (s.operand c) (s.operand d)))) := rfl

end answers

/-- `getBit` as the number 0 or 1 (00_scope.md R11, 41_bit_primitives.md R150). -/
theorem bitWord_getBit_toNat (w : Word) (i : Nat) : (bitWord (getBit w i)).toNat = w.toNat / 2 ^ (31 - i) % 2 := by
  have hbit (x : Bool) : (bitWord x).toNat = x.toNat := by cases x <;> rfl
  rw [hbit, getBit, BitVec.getLsbD, Nat.toNat_testBit]

/-! ### The laws (41_bit_primitives.md R154) -/

section laws
variable {w : Word} {i c : Nat} {b : Bool}

/-- Erase undoes insert on every bit that insert did not push out. -/
theorem eraseBits_insertBits (h : i + c ≤ 32) : eraseBits (insertBits w i c b) i c = w &&& hi (32 - c) := by
  refine word_ext fun j hj => ?_
  rw [getBit_eraseBits _ _ _ _ h hj, getBit_and, getBit_hi _ _ (by omega) hj]
  by_cases hji : j < i
  · rw [if_pos hji, getBit_insertBits _ _ _ _ _ h hj, if_pos hji]
    simp [show j < 32 - c by omega]
  · rw [if_neg hji]
    by_cases hkept : j + c < 32
    · rw [if_pos hkept, getBit_insertBits _ _ _ _ _ h hkept, if_neg (by omega), if_neg (by omega)]
      simp [show j < 32 - c by omega]
    · simp [hkept, show ¬ j < 32 - c by omega]

theorem insertBits_zero (h : i ≤ 32) : insertBits w i 0 b = w := by
  refine word_ext fun j hj => ?_
  rw [getBit_insertBits _ _ _ _ _ h hj]
  by_cases hji : j < i <;> simp [hji]

theorem eraseBits_zero (h : i ≤ 32) : eraseBits w i 0 = w := by
  refine word_ext fun j hj => ?_
  rw [getBit_eraseBits _ _ _ _ h hj]
  simp [hj]

/-- Inserting 32 bits at index 0 leaves none of the word. -/
theorem insertBits_all : insertBits w 0 32 b = if b then 0xFFFFFFFF else 0 := by
  have hones : (if b then 0xFFFFFFFF else 0 : Word) = if b then hi 32 else 0#32 := by cases b <;> rfl
  refine word_ext fun j hj => ?_
  rw [hones, getBit_insertBits _ _ _ _ _ le_rfl hj, if_neg (by omega), if_pos (by omega)]
  cases b
  case false => simp
  case true => simp [getBit_hi _ _ le_rfl hj, hj]

theorem eraseBits_all : eraseBits w 0 32 = 0 := by
  refine word_ext fun j hj => ?_
  rw [getBit_eraseBits _ _ _ _ le_rfl hj, if_neg (by omega), if_neg (by omega)]
  exact (getBit_zero j).symm

end laws

end Sys2Proof.Machine

namespace Sys2Proof

open Sys2Proof.Machine

/-- Settles O28: each command is its range check and a write of `x[a]`, and the bits of the value written are those of
`getBit_setBit`, `getBit_insertBits` and `getBit_eraseBits`. -/
theorem bitPrimitiveCommands : Obligations.BitPrimitiveCommands := by
  refine fun s a b c d v => ⟨fun h => ?bget, fun h => ?bgetFault, fun h => ?bset, fun h => ?bsetFault,
    fun h => ⟨?bins, ?bera⟩, fun h => ⟨?binsIndex, ?beraIndex⟩, fun hc h => ⟨?binsCount, ?beraCount⟩⟩
  case bget => exact State.precise_setX (exec_bget_inRange h) fun t ht => ht ▸ bitWord_getBit_toNat _ _
  case bset =>
    exact State.precise_setX (exec_bset_inRange h) fun t ht j hj => ht ▸ getBit_setBit _ _ j v (by omega) hj
  case bins =>
    exact State.precise_setX (exec_bins.trans (congrArg _ (checkRange_inRange h _)))
      fun t ht j hj => ht ▸ getBit_insertBits _ _ _ j v h hj
  case bera =>
    exact State.precise_setX (exec_bera.trans (congrArg _ (checkRange_inRange h _)))
      fun t ht j hj => ht ▸ getBit_eraseBits _ _ _ j h hj
  case bgetFault => exact State.precise_outOfRange (exec_bget_outOfRange h)
  case bsetFault => exact State.precise_outOfRange (exec_bset_outOfRange h)
  case binsIndex => exact State.precise_outOfRange (exec_bins.trans (congrArg _ (checkRange_index h _ _)))
  case beraIndex => exact State.precise_outOfRange (exec_bera.trans (congrArg _ (checkRange_index h _ _)))
  case binsCount => exact State.precise_outOfRange (exec_bins.trans (congrArg _ (checkRange_count hc h _)))
  case beraCount => exact State.precise_outOfRange (exec_bera.trans (congrArg _ (checkRange_count hc h _)))

/-- Settles O29: each law reads off what one index of the result holds, or compares the two words at every index. -/
theorem bitPrimitiveLaws : Obligations.BitPrimitiveLaws := by
  refine fun w b => ⟨fun i hi => ⟨?same, fun j hj hne => ?other⟩,
    fun i c h => ⟨fun j hij hj => ?inserted, fun j hij hj => ?moved, eraseBits_insertBits h⟩,
    fun i hi => ⟨insertBits_zero hi, eraseBits_zero hi⟩, insertBits_all, eraseBits_all⟩
  case same => rw [getBit_setBit _ _ _ _ (by omega) (by omega), if_pos rfl]
  case other => rw [getBit_setBit _ _ _ _ (by omega) (by omega), if_neg hne]
  case inserted => rw [getBit_insertBits _ _ _ _ _ h (by omega), if_neg (by omega), if_pos hj]
  case moved =>
    rw [getBit_insertBits _ _ _ _ _ h (by omega), if_neg (by omega), if_neg (by omega), Nat.add_sub_cancel]

end Sys2Proof
end

section
/-! PROOFS. How a command answers that runs through its checks and then writes one BS register
(30_encoding.md R126, R127; 42_bit_sequence.md R171). -/

namespace Sys2Proof.Machine

/-! ### A check of a rule -/

section checks
variable {s : State} {answer : Answer} {p : Prop} [Decidable p] {result : Except Stop State}

/-- A check that a rule makes first and that fails is the command's fault. -/
theorem State.precise_check_faults {n : Nat} (h : answer = s.precise (if p then raise (.outOfRange n) else result))
    (hp : p) : ∃ t, answer = .next t ∧ Faults .outOfRange n s t :=
  State.precise_outOfRange (h.trans (congrArg s.precise (if_pos hp)))

/-- A check that does not fail leaves the command to the rest of its rule. -/
theorem State.precise_check_passed {r : Raise} (h : answer = s.precise (if p then raise r else result)) (hp : ¬ p) :
    answer = s.precise result :=
  h.trans (congrArg s.precise (if_neg hp))

/-- A command that ends without ERR has passed its check. -/
theorem State.precise_check_completed {t : State} {r : Raise} (h : s.precise (if p then raise r else result) = .next t)
    (ht : t.status.err = false) : ¬ p ∧ s.precise result = .next t := by
  by_cases hp : p
  · rw [if_pos hp] at h
    obtain ⟨u, hu, -⟩ := State.precise_completed h ht
    exact nomatch hu
  · exact ⟨hp, by rwa [if_neg hp] at h⟩

end checks

/-! ### A write of one BS register -/

/-- A write to a named BS register stays within the frame. -/
theorem SameBut.setBs {xs : List XReg} {bss : List BsReg} {parts : List Part} {s u : State}
    (h : SameBut xs bss parts s u) {a : BsReg} (ha : a ∈ bss) (l : Bits) : SameBut xs bss parts s (u.setBs a l) :=
  { h with
    bs := fun j hj => by
      rw [State.getBs_setBs, if_neg (ne_of_mem_of_not_mem ha hj)]
      exact h.bs j hj }

@[simp] theorem State.getBs_complete (s : State) (a : BsReg) : s.complete.getBs a = s.getBs a := rfl

/-- A command that completes after one that completed sets the flags that stand already. -/
@[simp] theorem State.complete_setBs_complete (s : State) (a : BsReg) (l : Bits) :
    (s.complete.setBs a l).complete = (s.setBs a l).complete := rfl

@[simp] theorem State.setBs_setBs_same (s : State) (a : BsReg) (l m : Bits) :
    (s.setBs a l).setBs a m = s.setBs a m := by
  simp [State.setBs]

/-- Writing what a BS register holds changes nothing. -/
@[simp] theorem State.setBs_getBs (s : State) (a : BsReg) : s.setBs a (s.getBs a) = s := by
  simp [State.setBs, State.getBs]

theorem State.setBs_completes (s : State) (a : BsReg) (l : Bits) : Completes [] [a] [] s (s.setBs a l).complete :=
  ((SameBut.refl s).setBs List.mem_cons_self l).completes rfl rfl rfl

/-- A write of `bs[a]` completes, and leaves whatever holds of every state with that string in `bs[a]`. -/
theorem State.precise_setBs {s : State} {answer : Answer} {a : BsReg} {l : Bits} {Q : State → Prop}
    (h : answer = s.precise (.ok (s.setBs a l))) (hl : ∀ t : State, t.getBs a = l → Q t) :
    ∃ t, answer = .next t ∧ Completes [] [a] [] s t ∧ Q t :=
  ⟨_, h, s.setBs_completes a l, hl _ (by simp)⟩

end Sys2Proof.Machine
end

section
/-! PROOFS. The bit strings that the sequence commands leave, part by part and index by index
(42_bit_sequence.md R173, R181 to R184, R188). -/

namespace Sys2Proof.Machine

@[simp] theorem bitWord_toNat (b : Bool) : (bitWord b).toNat = b.toNat := by cases b <;> rfl

theorem wordBits_get? (w : Word) {n i : Nat} (h : i < n) : (wordBits w n)[i]? = some (w.getLsbD (31 - i)) := by
  simp [wordBits, getBit, h]

/-! ### Insertion and erasure -/

section strings
variable {l m r : Bits} {p f g j : Nat}

theorem insertAt_append (l m n : Bits) : insertAt (l ++ n) l.length m = l ++ m ++ n := by simp [insertAt]

theorem insertAt_end (l m : Bits) : insertAt l l.length m = l ++ m := by simp [insertAt]

theorem eraseRange_append (l m n : Bits) : eraseRange (l ++ m ++ n) l.length (l.length + m.length) = l ++ n := by
  simp [eraseRange]

/-- Erasing what was inserted gives the string before (42_bit_sequence.md R181, R184). -/
theorem eraseRange_insertAt (h : p ≤ l.length) (m : Bits) : eraseRange (insertAt l p m) p (p + m.length) = l := by
  have hp : (l.take p).length = p := List.length_take_of_le h
  calc eraseRange (insertAt l p m) p (p + m.length)
      = eraseRange (l.take p ++ m ++ l.drop p) (l.take p).length ((l.take p).length + m.length) := by rw [hp]; rfl
    _ = l := by rw [eraseRange_append, List.take_append_drop]

theorem eraseRange_length (hfg : f ≤ g) (hg : g ≤ l.length) : (eraseRange l f g).length = l.length - (g - f) := by
  simp only [eraseRange, List.length_append, List.length_take, List.length_drop]
  omega

theorem insertAt_get? (h : p ≤ l.length) (m : Bits) (j : Nat) :
    (insertAt l p m)[j]? = if j < p then l[j]? else if j < p + m.length then m[j - p]? else l[j - m.length]? := by
  simp only [insertAt, List.getElem?_append, List.getElem?_take, List.getElem?_drop, List.length_append,
    List.length_take_of_le h]
  by_cases hp : j < p
  · simp [hp, show j < p + m.length by omega]
  · by_cases hm : j < p + m.length
    · simp [hp, hm]
    · simp [hp, hm, show p + (j - (p + m.length)) = j - m.length by omega]

theorem eraseRange_get? (hfg : f ≤ g) (hg : g ≤ l.length) (j : Nat) :
    (eraseRange l f g)[j]? = if j < f then l[j]? else l[j + (g - f)]? := by
  simp only [eraseRange, List.getElem?_append, List.getElem?_take, List.getElem?_drop,
    List.length_take_of_le (hfg.trans hg)]
  by_cases hf : j < f
  · simp [hf]
  · simp [hf, show g + (j - f) = j + (g - f) by omega]

/-- A string with the bits of `r[f..g)` in order is that range (42_bit_sequence.md R183). -/
theorem eq_slice (hm : m.length = g - f) (h : ∀ j, j < m.length → m[j]? = r[f + j]?) :
    m = slice r f g := by
  refine List.ext_getElem? fun j => ?_
  simp only [slice, List.getElem?_drop, List.getElem?_take]
  by_cases hj : j < m.length
  · rw [h j hj, if_pos (by omega)]
  · rw [List.getElem?_eq_none (by omega), if_neg (by omega)]

/-! ### The other updates -/

theorem set_get? (l : Bits) (p : Nat) (v : Bool) (h : j < l.length) :
    (l.set p v)[j]? = if j = p then some v else l[j]? := by
  by_cases hp : j = p
  · rw [if_pos hp, hp, List.getElem?_set_self (hp ▸ h)]
  · rw [if_neg hp, List.getElem?_set_ne (Ne.symm hp)]

/-- The string that BSRESIZE leaves (42_bit_sequence.md R188). -/
def resized (l : Bits) (n : Nat) (v : Bool) : Bits :=
  if n ≤ l.length then l.take n else l ++ List.replicate (n - l.length) v

theorem resized_length (l : Bits) (k : Nat) (v : Bool) : (resized l k v).length = k := by
  unfold resized
  split
  · simpa
  · rw [List.length_append, List.length_replicate]
    omega

theorem resized_get? (l : Bits) {k : Nat} (v : Bool) (h : j < k) : (resized l k v)[j]? = some (l.getD j v) := by
  unfold resized
  split
  · simp [h, show j < l.length by omega]
  · by_cases hj : j < l.length
    · simp [List.getElem?_append_left hj, hj]
    · simp [List.getElem?_append, hj, show j - l.length < k - l.length by omega]

/-! ### The storage view (42_bit_sequence.md R171) -/

theorem getBit_seqWord_of_lt (hl : l.length ≤ 32) (h : j < l.length) : l[j]? = some (getBit (seqWord l) j) := by
  rw [getBit_seqWord l j hl (by omega), List.getD_eq_getElem _ _ h, List.getElem?_eq_getElem h]

theorem insertAt_storage (hp : p ≤ l.length) {k : Nat} (hk : l.length + k ≤ 32) (v : Bool) (hj : j < l.length + k) :
    (insertAt l p (List.replicate k v))[j]? = some (getBit (insertBits (seqWord l) p k v) j) := by
  rw [insertAt_get? hp, getBit_insertBits _ _ _ _ _ (by omega) (by omega), List.length_replicate]
  by_cases hjp : j < p
  · rw [if_pos hjp, if_pos hjp, getBit_seqWord_of_lt (by omega) (by omega)]
  · rw [if_neg hjp, if_neg hjp]
    by_cases hjk : j < p + k
    · rw [if_pos hjk, if_pos hjk, List.getElem?_replicate, if_pos (by omega)]
    · rw [if_neg hjk, if_neg hjk, getBit_seqWord_of_lt (by omega) (by omega)]

theorem eraseRange_storage (hfg : f ≤ g) (hg : g ≤ l.length) (hl : l.length ≤ 32) (hj : j < l.length - (g - f)) :
    (eraseRange l f g)[j]? = some (getBit (eraseBits (seqWord l) f (g - f)) j) := by
  rw [eraseRange_get? hfg hg, getBit_eraseBits _ _ _ _ (by omega) (by omega)]
  by_cases hjf : j < f
  · rw [if_pos hjf, if_pos hjf, getBit_seqWord_of_lt hl (by omega)]
  · rw [if_neg hjf, if_neg hjf, if_pos (by omega), getBit_seqWord_of_lt hl (by omega)]

end strings

end Sys2Proof.Machine
end

section
/-! PROOFS. What a sequence command answers past its checks, where its rule goes on with a case of its own or more than one
statement needs it, and runs of sequence commands (42_bit_sequence.md R177, R178, R181 to R184, R186, R188, R190, R191). -/

namespace Sys2Proof.Machine

section answers
variable {s : State} {a : BsReg} {b c x : XReg} {v : Bool}

/-! ### The commands that read one bit -/

theorem exec_bsat_of_some (h : (s.getBs a)[s.operand c]? = some v) :
    exec (.bsat x a c) s = s.precise (.ok (s.setX x (bitWord v))) := by
  show execBsat x a c s = _
  rw [execBsat, h]

theorem exec_bsat_of_none (h : (s.getBs a)[s.operand c]? = none) :
    exec (.bsat x a c) s = s.precise (raise (.outOfRange (s.operand c))) := by
  show execBsat x a c s = _
  rw [execBsat, h]

theorem exec_bsgetu_of_some (hc : s.operand c ≤ 31) (h : (s.getBs a)[s.operand c]? = some v) :
    exec (.bsgetu x a c) s = s.precise (.ok (s.setX x (bitWord v))) := by
  show execBsgetu x a c s = _
  rw [execBsgetu, if_neg hc.not_gt, h]

theorem exec_bsgetu_of_none (hc : s.operand c ≤ 31) (h : (s.getBs a)[s.operand c]? = none) :
    exec (.bsgetu x a c) s = s.precise (.ok (s.drawn.setX x (bitWord (Config.drawBit s.draws)))) := by
  show execBsgetu x a c s = _
  rw [execBsgetu, if_neg hc.not_gt, h]

theorem exec_bsfront_cons {l : Bits} (h : s.getBs a = v :: l) :
    exec (.bsfront x a) s = s.precise (.ok (s.setX x (bitWord v))) := by
  show execBsfront x a s = _
  rw [execBsfront, h]

theorem exec_bsfront_nil (h : s.getBs a = []) : exec (.bsfront x a) s = s.precise (raise (.outOfRange 0)) := by
  show execBsfront x a s = _
  rw [execBsfront, h]

theorem exec_bsback_append {l : Bits} (h : s.getBs a = l ++ [v]) :
    exec (.bsback x a) s = s.precise (.ok (s.setX x (bitWord v))) := by
  show execBsback x a s = _
  rw [execBsback, h, List.getLast?_concat]

theorem exec_bsback_nil (h : s.getBs a = []) : exec (.bsback x a) s = s.precise (raise (.outOfRange 0)) := by
  show execBsback x a s = _
  rw [execBsback, h, List.getLast?_nil]

/-- A drawn bit moves only the draw counter on besides its register (42_bit_sequence.md R177; log 6). -/
theorem State.drawn_setX_completes (s : State) (x : XReg) (w : Word) :
    Completes [x] [] [.draws] s (s.drawn.setX x w).complete :=
  have hdrawn : SameBut [x] [] [.draws] s s.drawn := { SameBut.refl s with draws := .inl List.mem_cons_self }
  (hdrawn.setX List.mem_cons_self w).completes rfl rfl rfl

/-! ### The commands that write one container -/

theorem exec_bsins_inRange (hb : s.operand b ≤ (s.getBs a).length) (hc : (s.getBs a).length + s.operand c ≤ 32) :
    exec (.bsins a b c v) s =
      s.precise (.ok (s.setBs a (insertAt (s.getBs a) (s.operand b) (List.replicate (s.operand c) v)))) :=
  State.precise_check_passed (State.precise_check_passed rfl hb.not_gt) (by omega)

theorem exec_bsins1_inRange (hb : s.operand b ≤ (s.getBs a).length) (hlen : (s.getBs a).length < 32) :
    exec (.bsins1 a b v) s = s.precise (.ok (s.setBs a (insertAt (s.getBs a) (s.operand b) [v]))) :=
  State.precise_check_passed (State.precise_check_passed rfl hb.not_gt) hlen.ne

theorem exec_bsinsr_inRange {r : BsReg} {d e : XReg} (hb : s.operand b ≤ (s.getBs a).length)
    (hde : s.operand d ≤ s.operand e) (he : s.operand e ≤ (s.getBs r).length)
    (hlen : (s.getBs a).length + (s.operand e - s.operand d) ≤ 32) :
    exec (.bsinsr a b r d e) s = s.precise
      (.ok (s.setBs a (insertAt (s.getBs a) (s.operand b) (slice (s.getBs r) (s.operand d) (s.operand e))))) :=
  State.precise_check_passed (State.precise_check_passed (State.precise_check_passed
    (State.precise_check_passed rfl hb.not_gt) hde.not_gt) he.not_gt) (by omega)

theorem exec_bsera_inRange (hbc : s.operand b ≤ s.operand c) (hc : s.operand c ≤ (s.getBs a).length) :
    exec (.bsera a b c) s = s.precise (.ok (s.setBs a (eraseRange (s.getBs a) (s.operand b) (s.operand c)))) :=
  State.precise_check_passed (State.precise_check_passed rfl hbc.not_gt) hc.not_gt

theorem exec_bspush_inRange (h : (s.getBs a).length < 32) :
    exec (.bspush a v) s = s.precise (.ok (s.setBs a (s.getBs a ++ [v]))) :=
  State.precise_check_passed rfl h.ne

theorem exec_bsresize_inRange (h : s.operand b ≤ 32) :
    exec (.bsresize a b v) s = s.precise (.ok (s.setBs a (resized (s.getBs a) (s.operand b) v))) := by
  refine (State.precise_check_passed rfl h.not_gt).trans (congrArg s.precise ?_)
  unfold resized
  split <;> rfl

end answers

/-! ### Runs of several commands -/

/-- A command that ends without ERR leaves the run to the commands after it. -/
theorem execAll_cons {i : Instr} {l : List Instr} {s t : State} (h : exec i s = .next t) (ht : t.status.err = false) :
    execAll (i :: l) s = execAll l t := by
  rw [execAll, h]
  simp [ht]

@[simp] theorem State.operand_complete (s : State) (i : XReg) : s.complete.operand i = s.operand i := rfl

@[simp] theorem State.operand_setBs (s : State) (a : BsReg) (l : Bits) (i : XReg) :
    (s.setBs a l).operand i = s.operand i := rfl

/-- BSERA of the range just inserted leaves the state of a command that wrote nothing (42_bit_sequence.md R184). -/
theorem exec_bsera_insertAt {s : State} {a : BsReg} {b d : XReg} {m : Bits} (hb : s.operand b ≤ (s.getBs a).length)
    (hd : s.operand d = s.operand b + m.length) :
    exec (.bsera a b d) (s.setBs a (insertAt (s.getBs a) (s.operand b) m)).complete = .next s.complete := by
  rw [exec_bsera_inRange (by simp [hd]) (by simpa [hd] using hb)]
  simp [hd, eraseRange_insertAt hb]

/-- n times BSPUSH appends n bits (42_bit_sequence.md R186). -/
theorem execAll_replicate_bspush {s : State} {a : BsReg} (v : Bool) {n : Nat} (hs : s.status.err = false)
    (h : (s.getBs a).length + n ≤ 32) :
    execAll (List.replicate n (.bspush a v)) s.complete =
      .next (s.setBs a (s.getBs a ++ List.replicate n v)).complete := by
  induction n generalizing s with
  | zero => simp [execAll]
  | succ n ih =>
    have hpush : exec (.bspush a v) s.complete = .next (s.setBs a (s.getBs a ++ [v])).complete :=
      exec_bspush_inRange (s := s.complete) (by rw [State.getBs_complete]; omega)
    rw [List.replicate_succ, execAll_cons hpush hs, ih (s := s.setBs a _) hs (by simp; omega)]
    simp [List.replicate_succ]

end Sys2Proof.Machine
end

section
/-! PROOFS. The statements of 42_bit_sequence.md about each command. -/

namespace Sys2Proof

open Sys2Proof.Machine

/-- Settles O30: each command is at most one check and a write of `bs[a]`. -/
theorem sequenceConstruction : Obligations.SequenceConstruction := by
  refine fun s a a' b c v => ⟨fun h => ?new, fun h => ?newFault, fun h => ?ofWord, fun h => ?ofWordFault, ?mov, ?clr⟩
  case new =>
    refine State.precise_setBs (State.precise_check_passed rfl h.not_gt) fun t ht => ?_
    simp [ht]
  case ofWord =>
    refine State.precise_setBs (State.precise_check_passed rfl h.not_gt) fun t ht => ?_
    exact ⟨by simp [ht], fun i hi => ht ▸ wordBits_get? _ hi⟩
  case newFault | ofWordFault => exact State.precise_check_faults rfl h
  case mov | clr => exact State.precise_setBs rfl fun _ ht => ht

/-- Settles O31: each command reads the container as the clause describes it, and writes that value or faults. -/
theorem sequenceReads : Obligations.SequenceReads := by
  refine fun s a b c hb => ⟨?size, ?empty, fun v h => ?elem, fun h => ?elemFault, fun v l h => ?front, fun v l h => ?back,
    fun h => ⟨?frontFault, ?backFault⟩, ?word⟩
  case size => exact State.precise_setX rfl fun t ht => ht ▸ Nat.mod_eq_of_lt (by omega)
  case empty =>
    refine State.precise_setX rfl fun t ht => ?_
    rw [ht, bitWord_toNat]
    cases s.getBs b <;> rfl
  case elem => exact State.precise_setX (exec_bsat_of_some h) fun t ht => ht ▸ bitWord_toNat v
  case elemFault => exact State.precise_outOfRange (exec_bsat_of_none (List.getElem?_eq_none h))
  case front => exact State.precise_setX (exec_bsfront_cons h) fun t ht => ht ▸ bitWord_toNat v
  case back => exact State.precise_setX (exec_bsback_append h) fun t ht => ht ▸ bitWord_toNat v
  case frontFault => exact State.precise_outOfRange (exec_bsfront_nil h)
  case backFault => exact State.precise_outOfRange (exec_bsback_nil h)
  case word => exact State.precise_setX rfl fun t ht j hj => ht ▸ getBit_seqWord _ j hb hj

/-- Settles O32, by the three ranges of the index; the drawn bit is a bit, whichever it is. -/
theorem uncheckedElementAccess : Obligations.UncheckedElementAccess := by
  refine fun s a r c v hr => ⟨fun x h => ?within, fun hlen hc => ⟨?readBeyond, ?writeBeyond⟩,
    fun h => ⟨State.precise_check_faults rfl h, State.precise_check_faults rfl h⟩⟩
  case within =>
    have hlt : s.operand c < (s.getBs r).length := (List.getElem?_eq_some_iff.1 h).1
    have hc : s.operand c ≤ 31 := by omega
    have hset : exec (.bssetu r c v) s = s.precise (.ok (s.setBs r ((s.getBs r).set (s.operand c) v))) :=
      (State.precise_check_passed rfl hc.not_gt).trans (congrArg s.precise (if_pos hlt))
    refine ⟨State.precise_setX (exec_bsgetu_of_some hc h) fun t ht => ht ▸ bitWord_toNat x,
      State.precise_setBs hset fun t ht => ?_⟩
    rw [ht]
    exact ⟨List.length_set, fun j hj => set_get? _ _ v hj⟩
  case readBeyond =>
    refine ⟨_, exec_bsgetu_of_none hc (List.getElem?_eq_none hlen), s.drawn_setX_completes a _, ?_⟩
    rw [State.getX_complete, State.getX_setX_same, bitWord_toNat]
    cases Config.drawBit s.draws
    · exact .inl rfl
    · exact .inr rfl
  case writeBeyond =>
    exact ⟨_, (State.precise_check_passed rfl hc.not_gt).trans (congrArg s.precise (if_neg hlen.not_gt)),
      (SameBut.refl s).completes rfl rfl rfl⟩

/-- Settles O33: each command is one check and a write of `bs[a]`. -/
theorem sequenceUpdates : Obligations.SequenceUpdates := by
  refine fun s a b v ha => ⟨fun h => ?set, fun h => ?setFault, fun h => ?push, fun h => ?pushFault,
    fun l x h => ?pop, fun h => ?popFault, fun h => ?resize, fun h => ?resizeFault⟩
  case set =>
    refine State.precise_setBs (State.precise_check_passed rfl h.not_ge) fun t ht => ?_
    rw [ht]
    exact ⟨List.length_set, fun j hj => set_get? _ _ v hj⟩
  case push => exact State.precise_setBs (exec_bspush_inRange h) fun _ ht => ht
  case pop =>
    refine State.precise_setBs (State.precise_check_passed rfl (by simp [h])) fun t ht => ?_
    simp [ht, h]
  case resize =>
    refine State.precise_setBs (exec_bsresize_inRange h) fun t ht => ?_
    rw [ht]
    exact ⟨resized_length _ _ v, fun j hj => resized_get? _ v hj⟩
  case popFault => exact State.precise_check_faults rfl (List.length_eq_zero_iff.2 h)
  case setFault | pushFault | resizeFault => exact State.precise_check_faults rfl h

/-- Settles O34: each fault is the first check of its rule that fails, and past the checks the container is taken apart at
the position. -/
theorem sequenceInsertAndErase : Obligations.SequenceInsertAndErase := by
  intro s a r b c d e v l m n ha
  have hsplit {k : Bits} (h : s.getBs a = l ++ k) (hb : s.operand b = l.length) :
      s.operand b ≤ (s.getBs a).length := by simp [h, hb]
  refine ⟨fun h hb hc => ?ins, fun h => ⟨?insPosition, ?ins1Position, ?insrPosition⟩, fun hb h => ?insCount,
    fun h hb hc => ?ins1, fun hb h => ?ins1Count, fun h hb hde he hc hm hbits => ?insr, fun hb h => ?insrFirst,
    fun hb hde h => ?insrLast, fun hb hde he h => ?insrCount, fun h hb hc => ?era, fun h => ?eraFirst,
    fun hbc h => ?eraLast, fun h hb => ?era1, fun h => ?era1Position⟩
  case ins =>
    refine State.precise_setBs (exec_bsins_inRange (hsplit h hb) hc) fun t ht => ?_
    rw [ht, h, hb, insertAt_append]
  case ins1 =>
    refine State.precise_setBs (exec_bsins1_inRange (hsplit h hb) hc) fun t ht => ?_
    rw [ht, h, hb, insertAt_append]
  case insr =>
    refine State.precise_setBs (exec_bsinsr_inRange (hsplit h hb) hde he hc) fun t ht => ?_
    rw [ht, ← eq_slice hm hbits, h, hb, insertAt_append]
  case era =>
    refine State.precise_setBs (exec_bsera_inRange (by omega) (by simp [h, hc])) fun t ht => ?_
    rw [ht, h, hb, hc, eraseRange_append]
  case era1 =>
    refine State.precise_setBs (State.precise_check_passed rfl (by simp [h, hb])) fun t ht => ?_
    rw [ht, h, hb]
    exact eraseRange_append l [v] n
  case insPosition | ins1Position | insrPosition | eraFirst | era1Position => exact State.precise_check_faults rfl h
  case insCount =>
    exact State.precise_check_faults (State.precise_check_passed rfl hb.not_gt) (Nat.sub_lt_left_of_lt_add ha h)
  case ins1Count | insrFirst => exact State.precise_check_faults (State.precise_check_passed rfl hb.not_gt) h
  case eraLast => exact State.precise_check_faults (State.precise_check_passed rfl hbc.not_gt) h
  case insrLast =>
    exact State.precise_check_faults
      (State.precise_check_passed (State.precise_check_passed rfl hb.not_gt) hde.not_gt) h
  case insrCount =>
    exact State.precise_check_faults (State.precise_check_passed (State.precise_check_passed
      (State.precise_check_passed rfl hb.not_gt) hde.not_gt) he.not_gt) (Nat.sub_lt_left_of_lt_add ha h)

/-- Settles O35: erasing the inserted range writes back the string that stood there before, and inserting at the end is
appending. -/
theorem eraseUndoesInsert : Obligations.EraseUndoesInsert := by
  intro s a b c d v hs hb hc
  have hins := exec_bsins_inRange (v := v) hb hc
  refine ⟨fun hd => ?undo, fun hend => ⟨_, hins, ?push⟩⟩
  case undo =>
    have hera := exec_bsera_insertAt (m := List.replicate (s.operand c) v) hb (by rw [hd, List.length_replicate])
    exact ⟨_, (execAll_cons hins hs).trans (execAll_cons hera hs), (SameBut.refl s).completes rfl rfl rfl⟩
  case push =>
    rw [execAll_cons (t := s.complete) rfl hs, execAll_replicate_bspush v hs hc, hend, insertAt_end]

/-- Settles O36: both sides hold the same bit at each index, below, in and above the range. -/
theorem storageView : Obligations.StorageView := by
  intro s t a b c v _ hlen ht
  refine ⟨fun h => ?ins, fun h => ?era⟩
  case ins =>
    obtain ⟨hb, h⟩ := State.precise_check_completed h ht
    obtain ⟨hc, h⟩ := State.precise_check_completed h ht
    obtain rfl := Host.Outcome.next.inj h
    rw [State.getBs_complete, State.getBs_setBs_same, insertAt_length, List.length_replicate]
    exact fun j hj => insertAt_storage (Nat.not_lt.1 hb) (by omega) v hj
  case era =>
    obtain ⟨hb, h⟩ := State.precise_check_completed h ht
    obtain ⟨hc, h⟩ := State.precise_check_completed h ht
    obtain rfl := Host.Outcome.next.inj h
    rw [State.getBs_complete, State.getBs_setBs_same, eraseRange_length (Nat.not_lt.1 hb) (Nat.not_lt.1 hc)]
    exact fun j hj => eraseRange_storage (Nat.not_lt.1 hb) (Nat.not_lt.1 hc) hlen hj

end Sys2Proof
end

section
/-! PROOFS. Insertion at upper_bound splits the queue, and a command that writes only PQ, or only the two registers of an
entry, completes within that frame (43_priority_queue.md R221, R223, R225). -/

namespace Sys2Proof.Machine

/-- In a sorted queue `upper_bound` is one split: the keys up to the new one stand before it, the greater keys after it. -/
theorem pqInsert_eq_append {q : List PqEntry} (n : PqEntry) (h : pqSorted q) :
    ∃ l r, q = l ++ r ∧ pqInsert q n = l ++ [n] ++ r ∧ (∀ f ∈ l, f.key.toNat ≤ n.key.toNat) ∧
      ∀ f ∈ r, n.key.toNat < f.key.toNat := by
  induction q with
  | nil => exact ⟨[], [], rfl, rfl, by simp, by simp⟩
  | cons e q ih =>
    obtain ⟨he, hq⟩ := List.pairwise_cons.1 h
    by_cases hlt : n.key < e.key
    · have hne : n.key.toNat < e.key.toNat := hlt
      refine ⟨[], e :: q, rfl, if_pos hlt, by simp, ?_⟩
      exact List.forall_mem_cons.2 ⟨hne, fun f hf => hne.trans_le (he f hf)⟩
    · obtain ⟨l, r, hsplit, hins, hl, hr⟩ := ih hq
      refine ⟨e :: l, r, congrArg (e :: ·) hsplit, (if_neg hlt).trans (congrArg (e :: ·) hins), ?_, hr⟩
      exact List.forall_mem_cons.2 ⟨Nat.not_lt.1 hlt, hl⟩

/-- ERRINFO of CAPACITY at the queue is its capacity (60_exceptions.md R361, 10_state.md R54). -/
theorem State.takeFault_queueFull_faults (s : State) : Faults .capacity 512 s (s.takeFault (.capacity 512)) :=
  s.takeFault_faults (.capacity 512)

/-- A command that writes only PQ leaves the rest of the state. -/
theorem State.setPq_completes (s : State) (q : List PqEntry) :
    Completes [] [] [.pq] s ({ s with pq := q } : State).complete :=
  have h : SameBut [] [] [.pq] s { s with pq := q } := { SameBut.refl s with pq := .inl List.mem_cons_self }
  h.completes rfl rfl rfl

theorem State.precise_setPq {s : State} {answer : Answer} {q : List PqEntry}
    (h : answer = s.precise (.ok { s with pq := q })) :
    ∃ t, answer = .next t ∧ Completes [] [] [.pq] s t ∧ t.pq = q :=
  ⟨_, h, s.setPq_completes q, rfl⟩

/-! ### The key and the val of an entry in two registers (43_priority_queue.md R225) -/

theorem State.getX_setEntryRegs_key {a b : XReg} (hab : a ≠ b) (s : State) (e : PqEntry) :
    (s.setEntryRegs a b e).getX a = e.key := by
  rw [State.setEntryRegs, State.getX_setX_of_ne _ _ hab, State.getX_setX_same]

@[simp] theorem State.getX_setEntryRegs_val (s : State) (a b : XReg) (e : PqEntry) :
    (s.setEntryRegs a b e).getX b = e.val.setWidth 32 := State.getX_setX_same _ b _

theorem State.getX_setEntryRegs_of_ne {a b r : XReg} (ha : r ≠ a) (hb : r ≠ b) (s : State) (e : PqEntry) :
    (s.setEntryRegs a b e).getX r = s.getX r :=
  (State.getX_setX_of_ne _ _ hb).trans (State.getX_setX_of_ne _ _ ha)

/-- The val of an entry holds a register's value up to 0xFFFF (10_state.md R54, 43_priority_queue.md R223). -/
theorem zext_val {w : Word} (h : w.toNat ≤ 0xFFFF) : (BitVec.ofNat 16 w.toNat).setWidth 32 = w := by
  refine BitVec.eq_of_toNat_eq ?_
  rw [BitVec.toNat_setWidth_of_le (by decide), BitVec.toNat_ofNat, Nat.mod_eq_of_lt (by omega)]

/-- A write of an entry completes: the key where the two registers differ, the val in any case. -/
theorem State.precise_setEntryRegs {s : State} {answer : Answer} {a b : XReg} {e : PqEntry}
    (h : answer = s.precise (.ok (s.setEntryRegs a b e))) :
    ∃ t, answer = .next t ∧ Completes [a, b] [] [] s t ∧ (a ≠ b → t.getX a = e.key) ∧
      (t.getX b).toNat = e.val.toNat := by
  have hframe : SameBut [a, b] [] [] s (s.setEntryRegs a b e) :=
    ((SameBut.refl s).setX (by simp) _).setX (by simp) _
  refine ⟨_, h, hframe.completes rfl rfl rfl, fun hab => State.getX_setEntryRegs_key hab s e, ?_⟩
  rw [State.getX_complete, State.getX_setEntryRegs_val, BitVec.toNat_setWidth_of_le (by decide)]

end Sys2Proof.Machine
end

section
/-! PROOFS. What each queue command answers, by the shape of the queue (43_priority_queue.md R223 to R227). -/

namespace Sys2Proof.Machine

variable {s : State} {a b c : XReg} {e : PqEntry} {q : List PqEntry}

theorem exec_pqpush_inRange (hb : s.operand b ≤ 0xFFFF) (hlen : s.pq.length < 512) :
    exec (.pqpush a b) s =
      s.precise (.ok { s with pq := pqInsert s.pq ⟨s.getX a, BitVec.ofNat 16 (s.operand b)⟩ }) :=
  State.precise_check_passed (State.precise_check_passed rfl hb.not_gt) hlen.ne

theorem exec_pqpush_full (hb : s.operand b ≤ 0xFFFF) (hlen : s.pq.length = 512) :
    exec (.pqpush a b) s = s.precise (raise (.capacity 512)) :=
  (State.precise_check_passed rfl hb.not_gt).trans (congrArg s.precise (if_pos hlen))

theorem exec_pqpop_cons (h : s.pq = e :: q) : exec .pqpop s = s.precise (.ok { s with pq := q }) := by
  show execPqpop s = _
  rw [execPqpop, h]

theorem exec_pqpop_nil (h : s.pq = []) : exec .pqpop s = s.precise (raise (.outOfRange 0)) := by
  show execPqpop s = _
  rw [execPqpop, h]

theorem exec_pqtop_cons (h : s.pq = e :: q) : exec (.pqtop a b) s = s.precise (.ok (s.setEntryRegs a b e)) := by
  show execPqtop a b s = _
  rw [execPqtop, h]

theorem exec_pqtop_nil (h : s.pq = []) : exec (.pqtop a b) s = s.precise (raise (.outOfRange 0)) := by
  show execPqtop a b s = _
  rw [execPqtop, h]

theorem exec_pqback_append (h : s.pq = q ++ [e]) :
    exec (.pqback a b) s = s.precise (.ok (s.setEntryRegs a b e)) := by
  show execPqback a b s = _
  rw [execPqback, h, List.getLast?_concat]

theorem exec_pqback_nil (h : s.pq = []) : exec (.pqback a b) s = s.precise (raise (.outOfRange 0)) := by
  show execPqback a b s = _
  rw [execPqback, h, List.getLast?_nil]

theorem exec_pqat_of_some (h : s.pq[s.operand c]? = some e) :
    exec (.pqat a b c) s = s.precise (.ok (s.setEntryRegs a b e)) := by
  show execPqat a b c s = _
  rw [execPqat, h]

theorem exec_pqat_of_none (h : s.pq[s.operand c]? = none) :
    exec (.pqat a b c) s = s.precise (raise (.outOfRange (s.operand c))) := by
  show execPqat a b c s = _
  rw [execPqat, h]

/-- PQTOP and then PQPOP, on a queue with an entry, take the front out into two registers (43_priority_queue.md R224,
R225). -/
theorem execAll_pqtop_pqpop {l : List Instr} (hs : s.status.err = false) (h : s.pq = e :: q) :
    execAll (.pqtop a b :: .pqpop :: l) s = execAll l ({ s.setEntryRegs a b e with pq := q } : State).complete := by
  have htop : exec (.pqtop a b) s = .next (s.setEntryRegs a b e).complete := exec_pqtop_cons h
  have hpop : exec .pqpop (s.setEntryRegs a b e).complete =
      .next ({ s.setEntryRegs a b e with pq := q } : State).complete := exec_pqpop_cons h
  rw [execAll_cons htop hs, execAll_cons hpop hs]

end Sys2Proof.Machine
end

section
/-! PROOFS. What any command does to the queue, from every state (43_priority_queue.md R222). The shapes of `Effect` give
the queue only under the invariant of the whole state; here the order of the queue alone is the premise. -/

namespace Sys2Proof.Machine

/-- What one command makes of PQ: it stays, or is emptied, or takes an entry at upper_bound, or loses its front. -/
inductive QueueMoves : List PqEntry → List PqEntry → Prop
  | kept {q : List PqEntry} : QueueMoves q q
  | cleared {q : List PqEntry} : QueueMoves q []
  | pushed {q : List PqEntry} (e : PqEntry) : QueueMoves q (pqInsert q e)
  | popped {q : List PqEntry} (e : PqEntry) : QueueMoves (e :: q) q

theorem QueueMoves.sorted {q q' : List PqEntry} (h : QueueMoves q q') (hq : pqSorted q) : pqSorted q' := by
  cases h with
  | kept => exact hq
  | cleared => exact List.Pairwise.nil
  | pushed e => exact pqInsert_sorted e hq
  | popped e => exact hq.tail

/-- A fault leaves PQ, so the result of a precise command tells what it does to PQ. -/
theorem QueueMoves.of_precise {s t : State} {r : Except Stop State} (h : s.precise r = .next t)
    (hr : Yields (fun u => QueueMoves s.pq u.pq) r) : QueueMoves s.pq t.pq := by
  rcases State.precise_next h with ⟨u, hu, rfl⟩ | ⟨r, -, rfl⟩
  · exact hr u hu
  · exact .kept

/-- A command with no check completes. -/
theorem QueueMoves.of_complete {s t u : State} (h : (Host.Outcome.next u.complete : Answer) = .next t)
    (hu : QueueMoves s.pq u.pq) : QueueMoves s.pq t.pq := by
  cases h
  exact hu

/-- COMPRESS builds its tree with the queue, and leaves it empty (44_huffman_tree.md R254, 46_codec.md R348). -/
theorem QueueMoves.of_compress {s t : State} (h : exec .compress s = .next t) : QueueMoves s.pq t.pq := by
  rcases execCompress_eq s with ⟨-, he⟩ | ⟨-, -, he⟩ | ⟨-, -, he⟩
  · cases he.symm.trans h
    exact .kept
  · cases he.symm.trans h
    exact .kept
  · rcases State.imprecise_next (he.symm.trans h) with ⟨v, hv, rfl⟩ | ⟨r, -, rfl⟩
    · obtain ⟨u, k, q, ⟨_, _, _, _, -, -, rfl⟩, -, rfl⟩ := s.compress_yields v hv
      exact .cleared
    · exact .cleared

/-- DECOMPRESS leaves PQ, and empties it where it fails (46_codec.md R348). -/
theorem QueueMoves.of_decompress {s t : State} (h : exec .decompress s = .next t) : QueueMoves s.pq t.pq := by
  rcases execDecompress_eq s with ⟨-, he⟩ | ⟨-, -, he⟩ | ⟨-, -, he⟩
  · cases he.symm.trans h
    exact .kept
  · cases he.symm.trans h
    exact .kept
  · rcases State.imprecise_next (he.symm.trans h) with ⟨v, hv, rfl⟩ | ⟨r, -, rfl⟩
    · obtain ⟨table, u, k, c, q, -, ⟨_, _, -, rfl⟩, -, rfl⟩ := s.decompress_yields v hv
      exact .kept
    · exact .cleared

/-- What every command does to PQ: one case for each form of its rule. -/
theorem exec_queueMoves {i : Instr} {s t : State} (h : exec i s = .next t) : QueueMoves s.pq t.pq := by
  cases i with
  | nop | li | lui | mov | bsmov | bssize | bsempty | bsword | bsclr | pqsize | fqclr | ctclr | htfill | htroot | htncnt
  | ibinit | iblast | ibend | ibpos | obinit | obcnt => exact .of_complete h .kept
  | srst | pqclr => exact .of_complete h .cleared
  | bget | bset | bsnew | bsfrom | bssetat | bsera1 | bspush | bspop | ibread | ibnext =>
    exact .of_precise h (.check fun _ => .ok .kept)
  | bins | bera | bsins | bsins1 | bsera => exact .of_precise h (.check fun _ => .check fun _ => .ok .kept)
  | bsinsr => exact .of_precise h (.check fun _ => .check fun _ => .check fun _ => .check fun _ => .ok .kept)
  | bssetu | bsresize => exact .of_precise h (.check fun _ => .ite (fun _ => .ok .kept) fun _ => .ok .kept)
  | bsgetu =>
    refine .of_precise h (.check fun _ => ?_)
    split
    · exact .ok .kept
    · exact .ok .kept
  | bsat | bsfront | bsback | pqtop | pqback | pqat | fqwr | fqrd | ctwr | ctrd =>
    refine .of_precise h ?_
    split
    · exact .error
    · exact .ok .kept
  | pqpush => exact .of_precise h (.check fun _ => .check fun _ => .ok (.pushed _))
  | pqpop =>
    refine .of_precise h ?_
    split
    · exact .raise
    next e q hq => exact .ok (hq ▸ .popped e)
  | htfreq =>
    refine .of_precise h fun u hu => ?_
    obtain ⟨freq, rfl⟩ := s.scanFrequencies_yields _ _ u hu
    exact .kept
  | htbuild =>
    refine .of_precise h fun u hu => ?_
    obtain ⟨-, nodes, root, -, rfl⟩ := s.buildFromLeaves_yields u hu
    exact .cleared
  | htdict =>
    refine .of_precise h fun u hu => ?_
    obtain ⟨-, table, -, rfl⟩ := s.deriveCodes_yields u hu
    exact .kept
  | htsetdata =>
    refine .of_precise h fun u hu => ?_
    obtain ⟨freq, nodes, root, table, -, -, rfl⟩ := s.setData_yields _ _ u hu
    exact .cleared
  | htsetdict =>
    refine .of_precise h fun u hu => ?_
    obtain ⟨nodes, root, -, rfl⟩ := s.setDict_yields u hu
    exact .kept
  | htenc =>
    refine .of_precise h fun u hu => ?_
    obtain ⟨k, -, rfl⟩ := s.encodeWindow_yields _ _ u hu
    exact .kept
  | htdec =>
    refine .of_precise h fun u hu => ?_
    obtain ⟨k, c, -, rfl⟩ := s.decodePayload_yields _ u hu
    exact .kept
  | ndrd =>
    refine .of_precise h (.check fun _ => ?_)
    split
    · exact .raise
    · split
      · exact .raise
      · exact .ok .kept
  | obput =>
    refine .of_precise h fun u hu => ?_
    obtain ⟨k, -, rfl⟩ := s.putBit_yields _ u hu
    exact .kept
  | obputx =>
    refine .of_precise h (.check fun _ u hu => ?_)
    obtain ⟨k, -, rfl⟩ := s.putBit_yields _ u hu
    exact .kept
  | obflush =>
    refine .of_precise h (.check fun _ => ?_)
    split
    · exact .error
    · exact .ok .kept
  | compress => exact .of_compress h
  | decompress => exact .of_decompress h

/-- Every run keeps the order of the queue, also where its last command faults (43_priority_queue.md R222). -/
theorem execAll_sorted {l : List Instr} {s t : State} (hs : pqSorted s.pq) (h : execAll l s = .next t) : pqSorted t.pq := by
  induction l generalizing s with
  | nil =>
    cases h
    exact hs
  | cons i l ih =>
    rw [execAll] at h
    split at h
    next u hu =>
      have hsorted : pqSorted u.pq := (exec_queueMoves hu).sorted hs
      split at h
      · cases h
        exact hsorted
      · exact ih hsorted h
    · cases h
    · cases h

end Sys2Proof.Machine
end

section
/-! PROOFS. The statements of 43_priority_queue.md. -/

namespace Sys2Proof

open Sys2Proof.Machine

/-- Settles O37: the result inserts at the one split of the sorted queue, and each fault is the first check that fails. -/
theorem queuePush : Obligations.QueuePush := by
  refine fun s a b hs hlen => ⟨fun hb hroom => ?push, fun hb => State.precise_check_faults rfl hb, fun hb hfull => ?full⟩
  case push =>
    obtain ⟨l, r, hsplit, hins, hl, hr⟩ := pqInsert_eq_append ⟨s.getX a, BitVec.ofNat 16 (s.operand b)⟩ hs
    exact ⟨_, l, r, _, exec_pqpush_inRange hb hroom, s.setPq_completes _, hsplit, hins, rfl,
      Nat.mod_eq_of_lt (by omega), hl, hr, pqInsert_sorted _ hs⟩
  case full => exact ⟨_, exec_pqpush_full hb hfull, s.takeFault_queueFull_faults⟩

/-- Settles O38: each command answers by the shape of the queue, and writes PQ, the two registers of an entry, or the
size. -/
theorem queueReads : Obligations.QueueReads := by
  refine fun s a b c hlen => ⟨fun e l h => ⟨?pop, ?top⟩, fun e l h => ?back, fun e h => ?atPos,
    fun h => ⟨?popFault, ?topFault, ?backFault⟩, fun h => ?atFault, ?size, ?clr⟩
  case pop => exact State.precise_setPq (exec_pqpop_cons h)
  case top => exact State.precise_setEntryRegs (exec_pqtop_cons h)
  case back => exact State.precise_setEntryRegs (exec_pqback_append h)
  case atPos => exact State.precise_setEntryRegs (exec_pqat_of_some h)
  case popFault => exact State.precise_outOfRange (exec_pqpop_nil h)
  case topFault => exact State.precise_outOfRange (exec_pqtop_nil h)
  case backFault => exact State.precise_outOfRange (exec_pqback_nil h)
  case atFault => exact State.precise_outOfRange (exec_pqat_of_none (List.getElem?_eq_none h))
  case size => exact State.precise_setX rfl fun t ht => ht ▸ Nat.mod_eq_of_lt (by omega)
  case clr => exact State.precise_setPq rfl

/-- Settles O39: one command keeps the order, hence every run does; the two laws about pops run their three commands on a
queue of known shape. -/
theorem queueLaws : Obligations.QueueLaws := by
  refine ⟨fun l s t => execAll_sorted, fun s a b c d hs hsorted hlen hab hac had hcd => ?pops,
    fun s a b c d hs hnil hb hcd => ?pushPop⟩
  case pops =>
    match hq : s.pq, hlen with
    | e :: f :: l, _ =>
      have hef : e.key.toNat ≤ f.key.toNat := (List.pairwise_cons.1 (hq ▸ hsorted)).1 f List.mem_cons_self
      refine ⟨_, (execAll_pqtop_pqpop hs hq).trans (execAll_cons (exec_pqtop_cons rfl) hs), hs, ?_⟩
      have ha := (State.getX_setEntryRegs_of_ne hac had _ f).trans (State.getX_setEntryRegs_key hab s e)
      have hc := State.getX_setEntryRegs_key hcd (s.setEntryRegs a b e) f
      exact (congrArg₂ (·.toNat ≤ ·.toNat) ha hc).mpr hef
  case pushPop =>
    have hpush : exec (.pqpush a b) s =
        .next ({ s with pq := [⟨s.getX a, BitVec.ofNat 16 (s.operand b)⟩] } : State).complete := by
      rw [exec_pqpush_inRange hb (by simp [hnil]), hnil]
      rfl
    refine ⟨_, (execAll_cons hpush hs).trans (execAll_pqtop_pqpop hs rfl), hs, rfl, ?_, ?_⟩
    · exact State.getX_setEntryRegs_key hcd _ _
    · exact (State.getX_setEntryRegs_val _ c d _).trans (zext_val hb)

end Sys2Proof
end

section
/-! PROOFS. HTBUILD's merge loop as a run of merges: what it keeps of the nodes it starts from, the sum of the weights, and
the order in which it takes the nodes (44_huffman_tree.md R253 to R256, 43_priority_queue.md R221). -/

namespace Sys2Proof.Machine

/-! ### Nodes kept and nodes added -/

/-- `nodes'` is `nodes` with internal nodes appended, and with parents given to nodes that had none. -/
structure Extends (nodes nodes' : List Node) : Prop where
  kept : ∀ (i : Nat) (n : Node), nodes[i]? = some n →
    ∃ p, nodes'[i]? = some { n with parent := p } ∧ (n.parent ≠ none → p = n.parent)
  added : ∀ (i : Nat) (n : Node), nodes.length ≤ i → nodes'[i]? = some n → n.leaf = false

theorem Extends.refl (nodes : List Node) : Extends nodes nodes where
  kept _ n hn := ⟨n.parent, hn, fun _ => rfl⟩
  added _ _ hi hn := absurd (List.getElem?_eq_some_iff.1 hn).1 hi.not_gt

theorem Extends.trans {l m r : List Node} (h : Extends l m) (h' : Extends m r) : Extends l r where
  kept i n hn := by
    obtain ⟨p, hm, hp⟩ := h.kept i n hn
    obtain ⟨q, hr, hq⟩ := h'.kept i _ hm
    exact ⟨q, hr, fun hne => (hq (by rwa [hp hne])).trans (hp hne)⟩
  added i n hi hn := by
    rcases Nat.lt_or_ge i m.length with him | him
    · obtain ⟨q, hr, -⟩ := h'.kept i _ (List.getElem?_eq_getElem him)
      obtain rfl := Option.some_inj.1 (hr.symm.trans hn)
      exact h.added i m[i] hi (List.getElem?_eq_getElem him)
    · exact h'.added i n him hn

theorem Extends.linkWeight {nodes nodes' : List Node} (h : Extends nodes nodes') {i : Nat} (hi : i < nodes.length) :
    linkWeight nodes' (some i) = linkWeight nodes (some i) := by
  obtain ⟨p, hp, -⟩ := h.kept i _ (List.getElem?_eq_getElem hi)
  rw [linkWeight_some, linkWeight_some, hp, List.getElem?_eq_getElem hi]
  rfl

theorem joined_get? (nodes : List Node) (a b : Nat) (w : Word) (i : Nat) :
    (joined nodes a b w)[i]? = if i = nodes.length then some ⟨w, 0, false, some b, some a, none⟩
      else nodes[i]?.map fun n => if a = i ∨ b = i then { n with parent := some nodes.length } else n := by
  rw [joined, append_get?, setParent_length, setParent_length, setParent_get?, setParent_get?, Option.map_map]
  split
  · rfl
  · congr 1
    funext n
    by_cases ha : a = i <;> by_cases hb : b = i <;> simp [ha, hb]

theorem joined_extends {nodes : List Node} {a b : Nat} (w : Word) (hra : parentOf nodes a = none)
    (hrb : parentOf nodes b = none) : Extends nodes (joined nodes a b w) where
  kept i n hn := by
    have hi := (List.getElem?_eq_some_iff.1 hn).1
    rw [joined_get?, if_neg hi.ne, hn, Option.map_some]
    split
    next hab =>
      have hroot : n.parent = none := by
        rw [← parentOf_get hn]
        rcases hab with rfl | rfl <;> assumption
      exact ⟨some nodes.length, rfl, fun hne => absurd hroot hne⟩
    next => exact ⟨n.parent, rfl, fun _ => rfl⟩
  added i n hi hn := by
    have hlen := (List.getElem?_eq_some_iff.1 hn).1
    rw [joined_length] at hlen
    rw [joined_get?, if_pos (by omega)] at hn
    rw [← Option.some_inj.1 hn]

/-! ### The run of the loop -/

/-- A run of merges from a queue over some nodes to the one entry that is left, over the nodes of the tree. -/
inductive Merges : List PqEntry → List Node → PqEntry → List Node → Prop
  | done (e : PqEntry) (nodes : List Node) : Merges [e] nodes e nodes
  | merge {a b e : PqEntry} {t : List PqEntry} {nodes nodes' : List Node}
      (hw : a.key.toNat + b.key.toNat ≤ 0xFFFFFFFF)
      (h : Merges (pqInsert t ⟨a.key + b.key, BitVec.ofNat 16 nodes.length⟩)
        (joined nodes a.val.toNat b.val.toNat (a.key + b.key)) e nodes') :
      Merges (a :: b :: t) nodes e nodes'

theorem pqInsert_ne_nil (q : List PqEntry) (n : PqEntry) : pqInsert q n ≠ [] :=
  List.ne_nil_of_mem (mem_pqInsert.2 (.inl rfl))

/-- What the loop gives is the end of a run of merges. -/
theorem mergeLoop_merges {fuel : Nat} {q : List PqEntry} {nodes : List Node} (hq : q ≠ []) :
    Yields (fun r => ∃ e : PqEntry, r.2 = some e.val.toNat ∧ Merges q nodes e r.1) (mergeLoop fuel q nodes) := by
  induction fuel generalizing q nodes with
  | zero =>
    match q, hq with
    | [e], _ => exact .ok ⟨e, rfl, .done e nodes⟩
    | _ :: _ :: _, _ => exact .stuck
  | succ fuel ih =>
    match q, hq with
    | [e], _ => exact .ok ⟨e, rfl, .done e nodes⟩
    | a :: b :: t, _ =>
      refine .check fun hw r hr => ?_
      obtain ⟨e, he, hm⟩ := ih (pqInsert_ne_nil _ _) r hr
      exact ⟨e, he, .merge (by omega) hm⟩

theorem Merges.forest {q : List PqEntry} {nodes nodes' : List Node} {e : PqEntry} (h : Merges q nodes e nodes')
    (hf : Forest nodes q) : Forest nodes' [e] := by
  induction h with
  | done => exact hf
  | merge hw _ ih => exact ih (hf.merge hw)

theorem Forest.extends_joined {nodes : List Node} {a b : PqEntry} {t : List PqEntry} (h : Forest nodes (a :: b :: t)) :
    Extends nodes (joined nodes a.val.toNat b.val.toNat (a.key + b.key)) :=
  joined_extends _ (h.isRoot (by simp)) (h.isRoot (by simp))

theorem Merges.extends {q : List PqEntry} {nodes nodes' : List Node} {e : PqEntry} (h : Merges q nodes e nodes')
    (hf : Forest nodes q) : Extends nodes nodes' := by
  induction h with
  | done => exact .refl _
  | merge hw _ ih => exact hf.extends_joined.trans (ih (hf.merge hw))

/-! ### The sum of the weights -/

/-- The weights of the nodes a queue holds, added up. -/
def keySum (q : List PqEntry) : Nat := (q.map fun e => e.key.toNat).sum

theorem keySum_perm {q r : List PqEntry} (h : q.Perm r) : keySum q = keySum r := (h.map _).sum_eq

@[simp] theorem keySum_cons (e : PqEntry) (q : List PqEntry) : keySum (e :: q) = e.key.toNat + keySum q := rfl

@[simp] theorem keySum_pqInsert (q : List PqEntry) (e : PqEntry) : keySum (pqInsert q e) = e.key.toNat + keySum q :=
  keySum_perm (pqInsert_perm q e)

/-- A merge that does not overflow keeps the sum. -/
theorem keySum_merge {a b : PqEntry} (t : List PqEntry) (v : BitVec 16) (hw : a.key.toNat + b.key.toNat ≤ 0xFFFFFFFF) :
    keySum (pqInsert t ⟨a.key + b.key, v⟩) = keySum (a :: b :: t) := by
  simp only [keySum_pqInsert, keySum_cons, BitVec.toNat_add]
  omega

/-- The whole weight stands at the root. -/
theorem Merges.key {q : List PqEntry} {nodes nodes' : List Node} {e : PqEntry} (h : Merges q nodes e nodes') :
    e.key.toNat = keySum q := by
  induction h with
  | done e => simp [keySum]
  | merge hw _ ih => rw [ih, keySum_merge _ _ hw]

/-- The loop overflows only where the sum does not fit a word. -/
theorem keySum_of_capacity {fuel : Nat} {q : List PqEntry} {nodes : List Node}
    (h : mergeLoop fuel q nodes = raise (.capacity 0xFFFFFFFF)) : 2 ^ 32 ≤ keySum q := by
  induction fuel generalizing q nodes with
  | zero =>
    match q, h with
    | [], h | [_], h | _ :: _ :: _, h => exact nomatch h
  | succ fuel ih =>
    match q, h with
    | [], h | [_], h => exact nomatch h
    | a :: b :: t, h =>
      rw [mergeLoop] at h
      split at h
      · simp only [keySum_cons]
        omega
      · rw [← keySum_merge t (BitVec.ofNat 16 nodes.length) (by omega)]
        exact ih h

/-- The queue of the leaves holds their whole weight. -/
theorem keySum_pushLeaves (nodes : List Node) :
    keySum (pushLeaves 0 [] nodes) = (nodes.map fun n => n.weight.toNat).sum := by
  rw [keySum_perm (pushLeaves_perm 0 [] nodes), List.append_nil, keySum, leafEntries, List.map_map]
  have hmap : (nodes.zipIdx.map fun e => e.1.weight.toNat) = nodes.map fun n => n.weight.toNat := by
    rw [show (fun e : Node × Nat => e.1.weight.toNat) = (fun n => n.weight.toNat) ∘ Prod.fst from rfl, ← List.map_map,
      List.zipIdx_map_fst]
  exact congrArg List.sum hmap

/-! ### The tree over the leaves (44_huffman_tree.md R254 to R256) -/

/-- What HTBUILD makes of its leaves: the count of the nodes, the root with the whole weight, the leaves in place. -/
structure Built (leaves nodes : List Node) (root : Link) : Prop where
  extends_leaves : Extends leaves nodes
  arena : DataArena nodes root
  nil : leaves.length = 0 → nodes = [] ∧ root = none
  count : 1 ≤ leaves.length → nodes.length = max 2 (2 * leaves.length - 1)
  atRoot : 1 ≤ leaves.length → root = some (nodes.length - 1) ∧
    linkWeight nodes root = (leaves.map fun n => n.weight.toNat).sum

theorem DataArena.root_eq {nodes : List Node} {root : Link} (h : DataArena nodes root) (hn : nodes ≠ []) :
    root = some (nodes.length - 1) := by
  rcases h with ⟨hnil, -⟩ | ⟨hr, -⟩
  · exact absurd hnil hn
  · exact hr

theorem built_nil : Built [] [] none :=
  ⟨.refl _, .inl ⟨rfl, rfl⟩, fun _ => ⟨rfl, rfl⟩, by simp, by simp⟩

theorem built_single {n : Node} (h : LeafArena [n]) :
    Built [n] [{ n with parent := some 1 }, ⟨n.weight, 0, false, some 0, none, none⟩] (some 1) where
  extends_leaves := {
    kept := fun i m hm => by
      obtain ⟨hi, rfl⟩ := List.getElem?_eq_some_iff.1 hm
      obtain rfl : i = 0 := by simpa using hi
      have hroot := (h.bare n (by simp)).2.2.2
      exact ⟨some 1, rfl, fun hne => absurd hroot hne⟩
    added := fun i m hi hm => by
      obtain ⟨hlt, rfl⟩ := List.getElem?_eq_some_iff.1 hm
      obtain rfl : i = 1 := by simp at hi hlt; omega
      rfl }
  arena := by
    obtain ⟨hl, hleft, hright, -⟩ := h.bare n (by simp)
    exact single_dataArena hl hleft hright
  nil := by simp
  count := by simp
  atRoot := by simp [linkWeight]

theorem pushLeaves_ne_nil {nodes : List Node} (h : nodes ≠ []) : pushLeaves 0 [] nodes ≠ [] := fun hnil => by
  have := pushLeaves_length 0 [] nodes
  rw [hnil] at this
  exact h (List.length_eq_zero_iff.1 (by simpa using this.symm))

theorem Merges.built {leaves nodes : List Node} {e : PqEntry} (h : LeafArena leaves)
    (hm : Merges (pushLeaves 0 [] leaves) leaves e nodes)
    (hc : nodes.length = max 2 (2 * leaves.length - 1)) : Built leaves nodes (some e.val.toNat) where
  extends_leaves := hm.extends h.forest
  arena := (hm.forest h.forest).dataArena
  nil h0 := by
    rw [List.length_eq_zero_iff.1 h0] at hm
    exact nomatch hm
  count _ := hc
  atRoot _ := by
    have hf := hm.forest h.forest
    refine ⟨hf.dataArena.root_eq ?_, ?_⟩
    · rintro rfl
      simp at hc
      omega
    · rw [linkWeight_some, hf.keys e (by simp), Option.elim_some, hm.key, keySum_pushLeaves]

/-- HTBUILD over leaves: the tree, or CAPACITY, by whether the whole weight fits a word. -/
theorem LeafArena.buildTree_eq {leaves : List Node} (h : LeafArena leaves) :
    ((leaves.map fun n => n.weight.toNat).sum < 2 ^ 32 ∧
      ∃ nodes root, Machine.buildTree leaves = .ok (nodes, root) ∧ Built leaves nodes root) ∨
    (2 ^ 32 ≤ (leaves.map fun n => n.weight.toNat).sum ∧
      Machine.buildTree leaves = raise (.capacity 0xFFFFFFFF)) := by
  match leaves, h with
  | [], _ => exact .inl ⟨by simp, _, _, rfl, built_nil⟩
  | [n], h => exact .inl ⟨by simpa using n.weight.isLt, _, _, rfl, built_single h⟩
  | a :: b :: t, h =>
    have hne := pushLeaves_ne_nil (nodes := a :: b :: t) (by simp)
    rw [← keySum_pushLeaves]
    rcases Machine.buildTree_eq (a :: b :: t) with ⟨hnil, -⟩ | ⟨-, hb⟩ | ⟨-, nodes, r, hb, hc⟩
    · exact nomatch hnil
    · exact .inr ⟨keySum_of_capacity (fuel := (a :: b :: t).length) (nodes := a :: b :: t) hb, hb⟩
    · obtain ⟨e, he, hm⟩ := mergeLoop_merges (fuel := (a :: b :: t).length) (nodes := a :: b :: t) hne _ hb
      have hkey := hm.key
      refine .inl ⟨by have := e.key.isLt; omega, nodes, some r, hb, ?_⟩
      rw [show some r = some e.val.toNat from he]
      exact hm.built h hc

/-! ### The order of the merges (43_priority_queue.md R221) -/

/-- Entry `e` comes before entry `f`: the lighter one, of two equal ones that of the earlier node. -/
def PqEntry.Before (e f : PqEntry) : Prop :=
  e.key.toNat < f.key.toNat ∨ e.key.toNat = f.key.toNat ∧ e.val.toNat < f.val.toNat

/-- Node `a` comes before node `b` by weight, then by index. -/
def Precedes (nodes : List Node) (a b : Nat) : Prop :=
  linkWeight nodes (some a) < linkWeight nodes (some b) ∨
    (linkWeight nodes (some a) = linkWeight nodes (some b) ∧ a < b)

/-- An entry of a later node than all of the queue keeps the order at `upper_bound`. -/
theorem pqInsert_before {q : List PqEntry} {n : PqEntry} (h : q.Pairwise PqEntry.Before)
    (hn : ∀ e ∈ q, e.val.toNat < n.val.toNat) : (pqInsert q n).Pairwise PqEntry.Before := by
  induction q with
  | nil => simp [pqInsert]
  | cons e t ih =>
    obtain ⟨he, ht⟩ := List.pairwise_cons.1 h
    obtain ⟨hen, htn⟩ := List.forall_mem_cons.1 hn
    rw [pqInsert]
    split
    next hlt =>
      rw [BitVec.lt_def] at hlt
      refine List.pairwise_cons.2 ⟨List.forall_mem_cons.2 ⟨.inl hlt, fun f hf => .inl ?_⟩, h⟩
      have := he f hf
      unfold PqEntry.Before at this
      omega
    next hge =>
      rw [BitVec.lt_def] at hge
      refine List.pairwise_cons.2 ⟨fun f hf => ?_, ih ht htn⟩
      rcases mem_pqInsert.1 hf with rfl | hf
      · unfold PqEntry.Before
        omega
      · exact he f hf

theorem pushLeaves_before {i : Nat} {q : List PqEntry} {nodes : List Node} (h : q.Pairwise PqEntry.Before)
    (hq : ∀ e ∈ q, e.val.toNat < i) (hi : i + nodes.length ≤ 2 ^ 16) :
    (pushLeaves i q nodes).Pairwise PqEntry.Before := by
  induction nodes generalizing i q with
  | nil => exact h
  | cons n t ih =>
    rw [List.length_cons] at hi
    have hval : (BitVec.ofNat 16 i).toNat = i := by rw [BitVec.toNat_ofNat, Nat.mod_eq_of_lt (by omega)]
    refine ih (pqInsert_before h fun e he => by rw [hval]; exact hq e he) (fun e he => ?_) (by omega)
    rcases mem_pqInsert.1 he with rfl | he
    · rw [hval]
      omega
    · exact (hq e he).trans (Nat.lt_succ_self i)

theorem Forest.merge_before {nodes : List Node} {a b : PqEntry} {t : List PqEntry} (h : Forest nodes (a :: b :: t))
    (hq : (a :: b :: t).Pairwise PqEntry.Before) (w : Word) :
    (pqInsert t ⟨w, BitVec.ofNat 16 nodes.length⟩).Pairwise PqEntry.Before := by
  refine pqInsert_before (List.pairwise_cons.1 (List.pairwise_cons.1 hq).2).2 fun e he => ?_
  have hlt := h.lt_length (e := e) (by simp [he])
  have hsize := h.size
  rw [BitVec.toNat_ofNat, Nat.mod_eq_of_lt (by omega)]
  exact hlt

/-- The weight of an entry's node is its key, in every later arena too. -/
theorem Forest.linkWeight {nodes nodes' : List Node} {q : List PqEntry} (h : Forest nodes q) (hx : Extends nodes nodes')
    {e : PqEntry} (he : e ∈ q) : linkWeight nodes' (some e.val.toNat) = e.key.toNat := by
  rw [hx.linkWeight (h.lt_length he), linkWeight_some, h.keys e he, Option.elim_some]

theorem Forest.precedes {nodes nodes' : List Node} {q : List PqEntry} (h : Forest nodes q) (hx : Extends nodes nodes')
    {e f : PqEntry} (he : e ∈ q) (hf : f ∈ q) (hef : e.Before f) : Precedes nodes' e.val.toNat f.val.toNat := by
  rw [Precedes, h.linkWeight hx he, h.linkWeight hx hf]
  exact hef

/-- A node whose parent comes later, or never, stands in the queue. -/
theorem Forest.mem_queue {nodes nodes' : List Node} {q : List PqEntry} (h : Forest nodes q) (hx : Extends nodes nodes')
    {k : Nat} {n : Node} (hk : k < nodes.length) (hn : nodes'[k]? = some n)
    (hp : ∀ p, n.parent = some p → nodes.length < p) : ∃ e ∈ q, e.val.toNat = k := by
  refine (h.linked.roots k hk).1 ?_
  by_contra hne
  obtain ⟨p, hpar⟩ := Option.ne_none_iff_exists'.1 hne
  have hlt := lt_length_of_isChild ((h.linked.links k p).1 hpar)
  obtain ⟨m, hm, hmp⟩ := parentOf_some.1 hpar
  obtain ⟨p', hn', hp'⟩ := hx.kept k m hm
  obtain rfl := Option.some_inj.1 (hn'.symm.trans hn)
  have := hp p ((hp' (by simp [hmp])).trans hmp)
  omega

/-- Every node a run of merges appends joins the two nodes that come first among those with no parent yet. -/
theorem Merges.joins_first {q : List PqEntry} {nodes nodes' : List Node} {e : PqEntry} (h : Merges q nodes e nodes')
    (hf : Forest nodes q) (hq : q.Pairwise PqEntry.Before) {p a b : Nat} {m : Node} (hp : nodes.length ≤ p)
    (hm : nodes'[p]? = some m) (hr : m.right = some a) (hl : m.left = some b) :
    Precedes nodes' a b ∧ ∀ k n, k < p → k ≠ a → k ≠ b → nodes'[k]? = some n →
      (∀ c, n.parent = some c → p < c) → Precedes nodes' b k := by
  induction h with
  | done => exact absurd (List.getElem?_eq_some_iff.1 hm).1 hp.not_gt
  | @merge x y e t nodes nodes' hw h ih =>
    have hf' := hf.merge hw
    rcases hp.eq_or_lt with rfl | hlt
    · have hx' := h.extends hf'
      have hx := hf.extends_joined.trans hx'
      obtain ⟨c, hc, -⟩ := hx'.kept nodes.length _ ((joined_get? _ _ _ _ _).trans (if_pos rfl))
      obtain rfl := Option.some_inj.1 (hc.symm.trans hm)
      obtain rfl : x.val.toNat = a := Option.some_inj.1 hr
      obtain rfl : y.val.toNat = b := Option.some_inj.1 hl
      obtain ⟨hfirst, hrest⟩ := List.pairwise_cons.1 hq
      refine ⟨hf.precedes hx (by simp) (by simp) (hfirst y (by simp)), fun k n hk hka hkb hn hpar => ?_⟩
      obtain ⟨f, hfq, rfl⟩ := hf.mem_queue hx hk hn hpar
      have hft : f ∈ t := by
        rcases List.mem_cons.1 hfq with rfl | hfq
        · exact absurd rfl hka
        · rcases List.mem_cons.1 hfq with rfl | hfq
          · exact absurd rfl hkb
          · exact hfq
      exact hf.precedes hx (by simp) (by simp [hft]) ((List.pairwise_cons.1 hrest).1 f hft)
    · exact ih hf' (hf.merge_before hq _) (by rw [joined_length]; omega) hm

/-! ### HTBUILD -/

/-- The state HTBUILD leaves before it completes. -/
def State.withTree (s : State) (nodes : List Node) (root : Link) : State :=
  { s with nodes := nodes, root := root, pq := [], tstate := .tree }

section build
variable {s : State} (hs : s.tstate = .leaves)
include hs

theorem State.buildFromLeaves_ok {nodes : List Node} {root : Link} (h : buildTree s.nodes = .ok (nodes, root)) :
    s.buildFromLeaves = .ok (s.withTree nodes root) := by
  rw [State.buildFromLeaves, if_neg (not_not.2 hs), h]
  rfl

theorem State.buildFromLeaves_raise {r : Raise} (h : buildTree s.nodes = raise r) : s.buildFromLeaves = raise r := by
  rw [State.buildFromLeaves, if_neg (not_not.2 hs), h]
  rfl

theorem exec_htbuild_ok {nodes : List Node} {root : Link} (h : buildTree s.nodes = .ok (nodes, root)) :
    exec .htbuild s = .next (s.withTree nodes root).complete := congrArg s.precise (State.buildFromLeaves_ok hs h)

theorem exec_htbuild_raise {r : Raise} (h : buildTree s.nodes = raise r) : exec .htbuild s = .next (s.takeFault r) :=
  congrArg s.precise (State.buildFromLeaves_raise hs h)

end build

theorem State.withTree_completes (s : State) (nodes : List Node) (root : Link) :
    Completes [] [] [.tree, .pq] s (s.withTree nodes root).complete :=
  have h : SameBut [] [] [.tree, .pq] s (s.withTree nodes root) :=
    { SameBut.refl s with tree := .inl (by decide), pq := .inl (by decide) }
  h.completes rfl rfl rfl

end Sys2Proof.Machine

namespace Sys2Proof

open Sys2Proof.Machine

/-- Settles O42: the sum of the queue's keys is the whole weight in every pass of the merge loop, so the loop overflows
exactly where that weight does not fit a word, and else ends in the tree `Built` describes. -/
theorem huffmanBuild : Obligations.HuffmanBuild := by
  rintro s total harena hs rfl
  rcases (harena.leafArena hs).buildTree_eq with ⟨hlt, nodes, root, hb, hbuilt⟩ | ⟨hge, hb⟩
  · refine ⟨fun _ => ⟨_, exec_htbuild_ok hs hb, s.withTree_completes nodes root, rfl, rfl, hbuilt.nil, ?single,
      ?several, hbuilt.atRoot, ?leaves, ?parents, .of_data (.inl rfl) hbuilt.arena⟩, fun h => absurd hlt h.not_gt⟩
    case single => exact fun h1 => (hbuilt.count h1.ge).trans (by rw [h1]; rfl)
    case several => exact fun h2 => (hbuilt.count (by omega)).trans (by omega)
    case leaves =>
      intro i n hn
      obtain ⟨p, hp, -⟩ := hbuilt.extends_leaves.kept i n hn
      exact ⟨_, hp, ((harena.leafArena hs).bare n (List.mem_of_getElem? hn)).1, rfl, rfl⟩
    case parents => exact fun i m hm hi => hbuilt.extends_leaves.added i m hi hm
  · exact ⟨fun h => absurd h hge.not_gt, fun _ => ⟨_, exec_htbuild_raise hs hb, s.takeFault_faults (.capacity 0xFFFFFFFF)⟩⟩

/-- Settles O43: the queue stays in the order of `PqEntry.Before`, since each new node has the greatest index, so its first
two entries come before all other nodes with no parent. -/
theorem huffmanMergeOrder : Obligations.HuffmanMergeOrder := by
  intro s t p a b m harena hs hexec ht h2 hp hm hr hl
  have hleaves := harena.leafArena hs
  rcases hleaves.buildTree_eq with ⟨-, nodes, root, hb, -⟩ | ⟨-, hb⟩
  · cases (exec_htbuild_ok hs hb).symm.trans hexec
    match hn : s.nodes, h2 with
    | x :: y :: l, _ =>
      rw [hn] at hb hp hleaves
      obtain ⟨e, -, hmerges⟩ := mergeLoop_merges (fuel := (x :: y :: l).length) (pushLeaves_ne_nil (by simp)) _ hb
      exact hmerges.joins_first hleaves.forest
        (pushLeaves_before .nil (by simp) (by have := hleaves.count; omega)) hp hm hr hl
  · cases (exec_htbuild_raise hs hb).symm.trans hexec
    exact absurd (hs.symm.trans ht) (by decide)

end Sys2Proof
end

section
/-! PROOFS. Codes as paths: a walk step by step, the one path from the root to each node, and that no leaf stands on the path
to another (10_state.md R49, 44_huffman_tree.md R259, R261, R263). -/

namespace Sys2Proof.Machine

/-! ### A walk step by step -/

/-- The child of node `j` that a bit selects, none also where there is no node. -/
def childOf (nodes : List Node) (j : Nat) (b : Bool) : Link := nodes[j]?.bind fun n => n.child b

theorem childOf_get {nodes : List Node} {j : Nat} {n : Node} (h : nodes[j]? = some n) (b : Bool) :
    childOf nodes j b = n.child b := by
  rw [childOf, h]
  rfl

theorem childOf_some {nodes : List Node} {j k : Nat} {b : Bool} :
    childOf nodes j b = some k ↔ ∃ n, nodes[j]? = some n ∧ n.child b = some k := Option.bind_eq_some_iff

@[simp] theorem walk_nil (nodes : List Node) (j : Nat) : walk nodes j [] = some j := rfl

theorem walk_cons (nodes : List Node) (j : Nat) (b : Bool) (w : Bits) :
    walk nodes j (b :: w) = (childOf nodes j b).bind fun k => walk nodes k w := by
  rw [walk, childOf]
  cases nodes[j]? with
  | none => rfl
  | some n =>
    change (match n.child b with | none => none | some k => walk nodes k w) = (n.child b).bind _
    cases n.child b <;> rfl

theorem walk_append (nodes : List Node) (j : Nat) (w w' : Bits) :
    walk nodes j (w ++ w') = (walk nodes j w).bind fun k => walk nodes k w' := by
  induction w generalizing j with
  | nil => rfl
  | cons b w ih =>
    rw [List.cons_append, walk_cons, walk_cons, Option.bind_assoc]
    exact congrArg _ (funext fun k => ih k)

theorem walk_concat (nodes : List Node) (j : Nat) (w : Bits) (b : Bool) :
    walk nodes j (w ++ [b]) = (walk nodes j w).bind fun k => childOf nodes k b := by
  rw [walk_append]
  refine congrArg _ (funext fun k => ?_)
  rw [walk_cons]
  cases childOf nodes k b <;> rfl

theorem walk_concat_some {nodes : List Node} {j k : Nat} {w : Bits} {b : Bool} :
    walk nodes j (w ++ [b]) = some k ↔ ∃ i, walk nodes j w = some i ∧ childOf nodes i b = some k := by
  rw [walk_concat, Option.bind_eq_some_iff]

/-- A walk that leads somewhere does so all along. -/
theorem walk_isSome_of_prefix {nodes : List Node} {j : Nat} {w w' : Bits} (h : w <+: w') (hw : (walk nodes j w').isSome) :
    (walk nodes j w).isSome := by
  obtain ⟨r, rfl⟩ := h
  rw [walk_append] at hw
  exact Option.isSome_of_isSome_bind hw

theorem leadsTo_iff {nodes : List Node} {root : Nat} {w : Bits} {c : Byte} :
    leadsTo nodes root w c ↔ ∃ k, walk nodes root w = some k ∧ symAt nodes k = some c := by
  refine exists_congr fun k => ?_
  rw [symAt_some, ← exists_and_left]

/-! ### Paths of a rooted arena -/

section rooted
variable {nodes : List Node} {root : Nat} {up : Nat → Nat → Prop} (h : Rooted nodes root up)
include h

theorem Rooted.parentOf_childOf {p k : Nat} {b : Bool} (hk : childOf nodes p b = some k) : parentOf nodes k = some p := by
  obtain ⟨m, hm, hmk⟩ := childOf_some.1 hk
  refine parentOf_some.2 (h.childNames p k m hm ?_)
  cases b with
  | false => exact .inl hmk
  | true => exact .inr hmk

theorem Rooted.childOf_lt_length {p k : Nat} {b : Bool} (hk : childOf nodes p b = some k) : k < nodes.length :=
  lt_length_of_parentOf (h.parentOf_childOf hk)

theorem Rooted.up_childOf {p k : Nat} {b : Bool} (hk : childOf nodes p b = some k) : up k p := by
  obtain ⟨n, hn, hp⟩ := parentOf_some.1 (h.parentOf_childOf hk)
  exact h.order k p n hn hp

theorem Rooted.parentOf_root : parentOf nodes root = none := by
  rw [parentOf_get (List.getElem?_eq_getElem h.rootLt)]
  exact (h.onlyRoot root _ (List.getElem?_eq_getElem h.rootLt)).2 rfl

/-- Every node but the root is the child of a node, on one side only. -/
theorem Rooted.exists_childOf {k : Nat} (hk : k < nodes.length) (hr : k ≠ root) : ∃ p b, childOf nodes p b = some k := by
  have hn := List.getElem?_eq_getElem hk
  obtain ⟨p, hp⟩ := Option.ne_none_iff_exists'.1 fun hnone => hr ((h.onlyRoot k _ hn).1 hnone)
  obtain ⟨m, hm, hl | hr⟩ := h.parentNames k p _ hn hp
  · exact ⟨p, false, childOf_some.2 ⟨m, hm, hl⟩⟩
  · exact ⟨p, true, childOf_some.2 ⟨m, hm, hr⟩⟩

theorem Rooted.childOf_inj {p k : Nat} {b b' : Bool} (hb : childOf nodes p b = some k) (hb' : childOf nodes p b' = some k) :
    b = b' := by
  obtain ⟨m, hm, hmb⟩ := childOf_some.1 hb
  rw [childOf_get hm] at hb'
  have htwo := h.twoChildren m (List.mem_of_getElem? hm) k
  cases b <;> cases b'
  · rfl
  · exact absurd hb' (htwo hmb)
  · exact absurd hmb (htwo hb')
  · rfl

theorem Rooted.walk_lt_length {w : Bits} {j k : Nat} (hj : j < nodes.length) (hw : walk nodes j w = some k) :
    k < nodes.length := by
  cases w using List.reverseRecOn with
  | nil => exact Option.some_inj.1 hw ▸ hj
  | append_singleton w b =>
    obtain ⟨i, -, hi⟩ := walk_concat_some.1 hw
    exact h.childOf_lt_length hi

/-- One path leads to each node. -/
theorem Rooted.walk_unique {w w' : Bits} {k : Nat} (hw : walk nodes root w = some k) (hw' : walk nodes root w' = some k) :
    w = w' := by
  induction w using List.reverseRecOn generalizing w' k with
  | nil =>
    obtain rfl : root = k := Option.some_inj.1 hw
    cases w' using List.reverseRecOn with
    | nil => rfl
    | append_singleton w' b =>
      obtain ⟨i, -, hi⟩ := walk_concat_some.1 hw'
      exact nomatch h.parentOf_root.symm.trans (h.parentOf_childOf hi)
  | append_singleton w b ih =>
    obtain ⟨i, hwi, hi⟩ := walk_concat_some.1 hw
    cases w' using List.reverseRecOn with
    | nil =>
      obtain rfl : root = k := Option.some_inj.1 hw'
      exact nomatch h.parentOf_root.symm.trans (h.parentOf_childOf hi)
    | append_singleton w' b' =>
      obtain ⟨i', hwi', hi'⟩ := walk_concat_some.1 hw'
      obtain rfl : i = i' := Option.some_inj.1 ((h.parentOf_childOf hi).symm.trans (h.parentOf_childOf hi'))
      rw [ih hwi hwi', h.childOf_inj hi hi']

/-- A path leads to each node, where some measure falls from each node to its parent. -/
theorem Rooted.exists_walk (μ : Nat → Nat) (hμ : ∀ j p, p < nodes.length → up j p → μ p < μ j) {k : Nat}
    (hk : k < nodes.length) : ∃ w, walk nodes root w = some k := by
  induction hm : μ k using Nat.strong_induction_on generalizing k with
  | h m ih =>
    by_cases hr : k = root
    · exact ⟨[], by rw [hr]; rfl⟩
    · obtain ⟨p, b, hp⟩ := h.exists_childOf hk hr
      have hlt : p < nodes.length := by
        obtain ⟨n, hn, -⟩ := childOf_some.1 hp
        exact (List.getElem?_eq_some_iff.1 hn).1
      obtain ⟨w, hw⟩ := ih (μ p) (hm ▸ hμ k p hlt (h.up_childOf hp)) hlt rfl
      exact ⟨w ++ [b], walk_concat_some.2 ⟨p, hw, hp⟩⟩

/-- A walk ends at a leaf. -/
theorem Rooted.childOf_leaf {k : Nat} {c : Byte} (hk : symAt nodes k = some c) (b : Bool) : childOf nodes k b = none := by
  obtain ⟨n, hn, hl, -⟩ := symAt_some.1 hk
  obtain ⟨hleft, hright⟩ := h.leafBare n (List.mem_of_getElem? hn) hl
  rw [childOf_get hn]
  cases b with
  | false => exact hleft
  | true => exact hright

theorem Rooted.walk_leaf {k j : Nat} {c : Byte} {w : Bits} (hk : symAt nodes k = some c) (hw : walk nodes k w = some j) :
    w = [] := by
  cases w with
  | nil => rfl
  | cons b w =>
    rw [walk_cons, h.childOf_leaf hk] at hw
    exact nomatch hw

/-- No leaf stands on the path to another one (44_huffman_tree.md R261). -/
theorem Rooted.leadsTo_prefix {w w' : Bits} {c d : Byte} (hw : leadsTo nodes root w c) (hw' : leadsTo nodes root w' d)
    (hp : w <+: w') : w = w' ∧ c = d := by
  obtain ⟨k, hk, hkc⟩ := leadsTo_iff.1 hw
  obtain ⟨j, hj, hjd⟩ := leadsTo_iff.1 hw'
  obtain ⟨r, rfl⟩ := hp
  rw [walk_append, hk, Option.bind_some] at hj
  obtain rfl := h.walk_leaf hkc hj
  obtain rfl : k = j := Option.some_inj.1 hj
  exact ⟨(List.append_nil w).symm, Option.some_inj.1 (hkc.symm.trans hjd)⟩

/-- A symbol has one path. -/
theorem Rooted.leadsTo_unique {w w' : Bits} {c : Byte} (hw : leadsTo nodes root w c) (hw' : leadsTo nodes root w' c) :
    w = w' := by
  obtain ⟨k, hk, hkc⟩ := leadsTo_iff.1 hw
  obtain ⟨j, hj, hjc⟩ := leadsTo_iff.1 hw'
  obtain ⟨n, hn, hnl, hns⟩ := symAt_some.1 hkc
  obtain ⟨m, hm, hml, hms⟩ := symAt_some.1 hjc
  obtain rfl := h.symOnce k j n m hn hm hnl hml (hns.trans hms.symm)
  exact h.walk_unique hk hj

/-- CodeOf is the path from the root, read upwards (44_huffman_tree.md R259). -/
theorem Rooted.codeOf_of_walk {w : Bits} {k fuel : Nat} (hw : walk nodes root w = some k) (hf : w.length < fuel)
    (acc : Bits) : codeOf nodes fuel k acc = some (w ++ acc) := by
  induction w using List.reverseRecOn generalizing k fuel acc with
  | nil =>
    obtain rfl : root = k := Option.some_inj.1 hw
    obtain ⟨fuel, rfl⟩ := Nat.exists_eq_add_of_lt hf
    have hn := List.getElem?_eq_getElem h.rootLt
    simp only [codeOf, hn, (h.onlyRoot root _ hn).2 rfl, List.nil_append]
  | append_singleton w b ih =>
    obtain ⟨p, hwp, hp⟩ := walk_concat_some.1 hw
    rw [List.length_append, List.length_singleton] at hf
    match fuel, hf with
    | fuel + 1, hf =>
      obtain ⟨n, hn, hnp⟩ := parentOf_some.1 (h.parentOf_childOf hp)
      obtain ⟨m, hm, -⟩ := childOf_some.1 hp
      have hright : (m.right == some k) = b := by
        rw [Bool.eq_iff_iff, beq_iff_eq]
        refine ⟨fun hr => h.childOf_inj (b := true) (childOf_some.2 ⟨m, hm, hr⟩) hp ▸ rfl, ?_⟩
        rintro rfl
        exact (childOf_get hm true).symm.trans hp
      have hrest := ih (fuel := fuel) hwp (by omega) (b :: acc)
      simp only [codeOf, hn, hnp, hm, hright, hrest, List.append_assoc, List.singleton_append]

end rooted

/-! ### Paths where the children come before their parents -/

section data
variable {nodes : List Node} {root : Nat} (h : Rooted nodes root (· < ·))
include h

/-- Each step down goes to a smaller index. -/
theorem Rooted.walk_length_le {w : Bits} {j k : Nat} (hw : walk nodes j w = some k) : w.length + k ≤ j := by
  induction w generalizing j with
  | nil => exact (Nat.zero_add k).trans_le (Option.some_inj.1 hw).ge
  | cons b w ih =>
    rw [walk_cons, Option.bind_eq_some_iff] at hw
    obtain ⟨i, hi, hw⟩ := hw
    have := h.up_childOf hi
    have := ih hw
    rw [List.length_cons]
    omega

/-- A path passes through internal nodes only, and the first `leaves` nodes are leaves. -/
theorem Rooted.walk_length_leaves {leaves : Nat} (hl : ∀ i, i < leaves → symAt nodes i ≠ none) {w : Bits} {j k : Nat}
    (hw : walk nodes j w = some k) : w = [] ∨ w.length + leaves ≤ j + 1 := by
  induction w generalizing j with
  | nil => exact .inl rfl
  | cons b w ih =>
    rw [walk_cons, Option.bind_eq_some_iff] at hw
    obtain ⟨i, hi, hw⟩ := hw
    have hlt := h.up_childOf hi
    have hj : leaves ≤ j := by
      by_contra hjl
      obtain ⟨c, hc⟩ := Option.ne_none_iff_exists'.1 (hl j (by omega))
      exact nomatch (h.childOf_leaf hc b).symm.trans hi
    right
    rw [List.length_cons]
    rcases ih hw with rfl | hle
    · rw [List.length_nil]
      omega
    · omega

theorem Rooted.exists_walk_data {k : Nat} (hk : k < nodes.length) : ∃ w, walk nodes root w = some k :=
  h.exists_walk (fun i => nodes.length - i) (fun j p hp hjp => by show nodes.length - p < nodes.length - j; omega) hk

theorem Rooted.codeOf_eq {w : Bits} {k : Nat} (hw : walk nodes root w = some k) :
    codeOf nodes nodes.length k [] = some w := by
  have hlen := h.walk_length_le hw
  have hroot := h.rootLt
  rw [h.codeOf_of_walk hw (by omega), List.append_nil]

/-- Below every node stands a leaf, where each internal node has a LEFT child. -/
theorem Rooted.exists_leaf_below (hleft : ∀ n ∈ nodes, n.leaf = false → n.left.isSome) {j : Nat} (hj : j < nodes.length) :
    ∃ w k c, walk nodes j w = some k ∧ symAt nodes k = some c := by
  induction j using Nat.strong_induction_on with
  | h j ih =>
    have hn := List.getElem?_eq_getElem hj
    cases hl : nodes[j].leaf with
    | true => exact ⟨[], j, nodes[j].sym, rfl, symAt_some.2 ⟨_, hn, hl, rfl⟩⟩
    | false =>
      obtain ⟨i, hi⟩ := Option.isSome_iff_exists.1 (hleft _ (List.getElem_mem hj) hl)
      have hc : childOf nodes j false = some i := childOf_some.2 ⟨_, hn, hi⟩
      obtain ⟨w, k, c, hw, hk⟩ := ih i (h.up_childOf hc) (h.childOf_lt_length hc)
      exact ⟨false :: w, k, c, by rw [walk_cons, hc]; exact hw, hk⟩

end data

end Sys2Proof.Machine
end

section
/-! PROOFS. HTDICT: the table it derives holds the path of each leaf, or it faults on the first leaf that lies too deep
(44_huffman_tree.md R258, R259, R261). -/

namespace Sys2Proof.Machine

/-! ### The table of an arena -/

/-- A code the container cannot hold, at a leaf before which every leaf's code fits; `i` is where the derivation starts. -/
structure FirstDeep (nodes : List Node) (root i k : Nat) (w : Bits) : Prop where
  from_start : i ≤ k
  path : walk nodes root w = some k
  leaf : symAt nodes k ≠ none
  deep : 32 < w.length
  before : ∀ j v, i ≤ j → j < k → symAt nodes j ≠ none → walk nodes root v = some j → v.length ≤ 32

/-- The table holds the path of every leaf from node `i` on, and is `old` elsewhere. -/
structure DerivedFrom (nodes : List Node) (root i : Nat) (old table : Vector Bits 256) : Prop where
  code : ∀ k w c, i ≤ k → walk nodes root w = some k → symAt nodes k = some c → entry table c = w
  rest : ∀ c, (∀ k, i ≤ k → symAt nodes k ≠ some c) → entry table c = entry old c

theorem FirstDeep.pred {nodes : List Node} {root i k : Nat} {w : Bits} (h : FirstDeep nodes root (i + 1) k w)
    (hi : ∀ v, symAt nodes i ≠ none → walk nodes root v = some i → v.length ≤ 32) : FirstDeep nodes root i k w :=
  { h with
    from_start := (Nat.le_succ i).trans h.from_start
    before := fun j v hij hjk hj hv => by
      rcases hij.eq_or_lt with rfl | hlt
      · exact hi v hj hv
      · exact h.before j v hlt hjk hj hv }

/-- A node that is no leaf adds nothing. -/
theorem DerivedFrom.pred_internal {nodes : List Node} {root i : Nat} {old table : Vector Bits 256}
    (h : DerivedFrom nodes root (i + 1) old table) (hi : symAt nodes i = none) : DerivedFrom nodes root i old table where
  code k w c hk hw hc := by
    refine h.code k w c (hk.lt_of_ne ?_) hw hc
    rintro rfl
    exact nomatch hi.symm.trans hc
  rest c hc := h.rest c fun k hk => hc k (by omega)

/-- A leaf adds its path, which no later leaf replaces. -/
theorem DerivedFrom.pred_leaf {nodes : List Node} {root i : Nat} {up : Nat → Nat → Prop} (hr : Rooted nodes root up)
    {old table : Vector Bits 256} {w : Bits} {c : Byte} (h : DerivedFrom nodes root (i + 1) (setEntry old c w) table)
    (hw : walk nodes root w = some i) (hc : symAt nodes i = some c) : DerivedFrom nodes root i old table where
  code k v d hk hv hd := by
    rcases hk.eq_or_lt with rfl | hlt
    · obtain rfl := Option.some_inj.1 (hc.symm.trans hd)
      rw [h.rest c fun k hk hkc => ?_, entry_setEntry, if_pos rfl, hr.walk_unique hw hv]
      obtain ⟨n, hn, hnl, hns⟩ := symAt_some.1 hkc
      obtain ⟨m, hm, hml, hms⟩ := symAt_some.1 hc
      have := hr.symOnce k i n m hn hm hnl hml (hns.trans hms.symm)
      omega
    · exact h.code k v d hlt hv hd
  rest d hd := by
    rw [h.rest d fun k hk => hd k (by omega), entry_setEntry, if_neg]
    rintro rfl
    exact hd i le_rfl hc

theorem deriveFrom_eq {nodes : List Node} {root : Nat} (h : Rooted nodes root (· < ·)) {pre l : List Node}
    (hl : nodes = pre ++ l) (old : Vector Bits 256) :
    (∃ k w, FirstDeep nodes root pre.length k w ∧
      deriveFrom nodes pre.length old l = raise (.outOfRange w.length)) ∨
    ∃ table, deriveFrom nodes pre.length old l = .ok table ∧ DerivedFrom nodes root pre.length old table := by
  induction l generalizing pre old with
  | nil =>
    refine .inr ⟨old, rfl, fun k w c hk _ hc => ?_, fun _ _ => rfl⟩
    obtain ⟨n, hn, -⟩ := symAt_some.1 hc
    have := (List.getElem?_eq_some_iff.1 hn).1
    rw [hl, List.append_nil] at this
    omega
  | cons n t ih =>
    have hn : nodes[pre.length]? = some n := by simp [hl]
    have hlt := (List.getElem?_eq_some_iff.1 hn).1
    have hsym := symAt_get hn
    have hnext := ih (pre := pre ++ [n]) (by simp [hl])
    rw [List.length_append, List.length_singleton] at hnext
    rw [deriveFrom]
    split
    next hleaf =>
      obtain ⟨w, hw⟩ := h.exists_walk_data hlt
      rw [Node.leafSym, if_pos hleaf] at hsym
      simp only [h.codeOf_eq hw]
      split
      next hdeep =>
        exact .inl ⟨_, w, ⟨le_rfl, hw, by simp [hsym], hdeep, fun j _ hj hj' => absurd hj hj'.not_ge⟩, rfl⟩
      next hfits =>
        rcases hnext (setEntry old n.sym w) with ⟨k, v, hk, he⟩ | ⟨table, he, ht⟩
        · refine .inl ⟨k, v, hk.pred fun u _ hu => ?_, he⟩
          rw [h.walk_unique hu hw]
          omega
        · exact .inr ⟨table, he, ht.pred_leaf h hw hsym⟩
    next hleaf =>
      rw [Node.leafSym, if_neg hleaf] at hsym
      rcases hnext old with ⟨k, v, hk, he⟩ | ⟨table, he, ht⟩
      · exact .inl ⟨k, v, hk.pred fun u hu => absurd hsym hu, he⟩
      · exact .inr ⟨table, he, ht.pred_internal hsym⟩

/-- The table holds the path of every leaf of the tree, and no other code. -/
structure Derived (nodes : List Node) (root : Link) (table : Vector Bits 256) : Prop where
  code : ∀ r k w c, root = some r → walk nodes r w = some k → symAt nodes k = some c → entry table c = w
  leads : ∀ k c, symAt nodes k = some c → ∃ r, root = some r ∧ walk nodes r (entry table c) = some k
  empty : ∀ c, (∀ k, symAt nodes k ≠ some c) → entry table c = []

/-- HTDICT on a tree built from data: the table of its leaves, or OUT_OF_RANGE with the depth of the first that lies too
deep. -/
theorem DataArena.deriveTable_eq {nodes : List Node} {root : Link} (h : DataArena nodes root) :
    (∃ r k w, root = some r ∧ FirstDeep nodes r 0 k w ∧ deriveTable nodes = raise (.outOfRange w.length)) ∨
    ∃ table, deriveTable nodes = .ok table ∧ Derived nodes root table := by
  rcases h with ⟨rfl, rfl⟩ | ⟨rfl, -, hr, -⟩
  · exact .inr ⟨_, rfl, by simp, by simp [symAt], by simp⟩
  · rcases deriveFrom_eq hr (pre := []) rfl (Vector.replicate 256 []) with ⟨k, w, hk, he⟩ | ⟨table, he, ht⟩
    · exact .inl ⟨_, k, w, rfl, hk, he⟩
    · have hcode (k : Nat) (w : Bits) (c : Byte) (hw : walk nodes (nodes.length - 1) w = some k)
          (hc : symAt nodes k = some c) : entry table c = w := ht.code k w c k.zero_le hw hc
      refine .inr ⟨table, he, ?_, fun k c hc => ⟨_, rfl, ?_⟩, fun c hc => ?_⟩
      · rintro _ k w c ⟨⟩
        exact hcode k w c
      · obtain ⟨n, hn, -⟩ := symAt_some.1 hc
        obtain ⟨w, hw⟩ := hr.exists_walk_data (List.getElem?_eq_some_iff.1 hn).1
        rwa [hcode k w c hw hc]
      · rw [ht.rest c fun k _ => hc k, entry_replicate]

theorem DataArena.derived {nodes : List Node} {root : Link} (h : DataArena nodes root) {table : Vector Bits 256}
    (ht : deriveTable nodes = .ok table) : Derived nodes root table := by
  rcases h.deriveTable_eq with ⟨r, k, w, -, -, he⟩ | ⟨table', he, hd⟩
  · exact nomatch he.symm.trans ht
  · cases he.symm.trans ht
    exact hd

/-! ### No code of the table begins another (44_huffman_tree.md R261) -/

theorem Derived.leadsTo {nodes : List Node} {root : Link} {table : Vector Bits 256} (h : Derived nodes root table) {c : Byte}
    (hc : entry table c ≠ []) : ∃ r, root = some r ∧ leadsTo nodes r (entry table c) c := by
  by_contra hno
  refine hc (h.empty c fun k hk => hno ?_)
  obtain ⟨r, hr, hw⟩ := h.leads k c hk
  exact ⟨r, hr, leadsTo_iff.2 ⟨k, hw, hk⟩⟩

theorem Derived.entry_eq {nodes : List Node} {r : Nat} {table : Vector Bits 256} (h : Derived nodes (some r) table)
    {w : Bits} {c : Byte} (hw : Machine.leadsTo nodes r w c) : entry table c = w := by
  obtain ⟨k, hk, hc⟩ := leadsTo_iff.1 hw
  exact h.code r k w c rfl hk hc

theorem Derived.prefixFree {nodes : List Node} {root : Link} {table : Vector Bits 256} (h : Derived nodes root table)
    (ha : DataArena nodes root) : prefixFree table := by
  intro c d hcd hc hd hp
  obtain ⟨r, rfl, hlc⟩ := h.leadsTo hc
  obtain ⟨_, ⟨⟩, hld⟩ := h.leadsTo hd
  rcases ha with ⟨-, hr⟩ | ⟨⟨⟩, -, hr, -⟩
  · exact nomatch hr
  · exact hcd (hr.leadsTo_prefix hlc hld hp).2

/-- The bit that leads to the one child of the root of a single-symbol tree (44_huffman_tree.md R255). -/
theorem Rooted.single_path {nodes : List Node} (h : Rooted nodes 1 (· < ·))
    (hleft : ∀ n, nodes[1]? = some n → n.leaf = false → n.left.isSome) {b : Bool} {w : Bits} {k : Nat}
    (hw : walk nodes 1 (b :: w) = some k) : b :: w = [false] := by
  have hlen := h.walk_length_le hw
  rw [List.length_cons] at hlen
  obtain rfl : w = [] := List.length_eq_zero_iff.1 (by omega)
  obtain rfl : k = 0 := by omega
  rw [walk_cons, Option.bind_eq_some_iff] at hw
  obtain ⟨_, hb, ⟨⟩⟩ := hw
  obtain ⟨n, hn, -⟩ := childOf_some.1 hb
  cases hl : n.leaf with
  | true => exact nomatch (h.childOf_leaf (symAt_some.2 ⟨n, hn, hl, rfl⟩) b).symm.trans hb
  | false =>
    obtain ⟨i, hi⟩ := Option.isSome_iff_exists.1 (hleft n hn hl)
    have hf : childOf nodes 1 false = some i := childOf_some.2 ⟨n, hn, hi⟩
    have := h.up_childOf hf
    obtain rfl : i = 0 := by omega
    rw [h.childOf_inj hb hf]

theorem mem_coded {table : Vector Bits 256} {c : Byte} : c ∈ coded table ↔ entry table c ≠ [] := by
  rw [← usedSymbols_eq_coded, mem_usedSymbols]

/-- A table with one code only has the code "0": a root with two children has a leaf on either side. -/
theorem Derived.single {nodes : List Node} {root : Link} {table : Vector Bits 256} (h : Derived nodes root table)
    (ha : DataArena nodes root) {c : Byte} (hc : coded table = [c]) : entry table c = [false] := by
  have hne : entry table c ≠ [] := mem_coded.1 (by simp [hc])
  obtain ⟨r, rfl, hlead⟩ := h.leadsTo hne
  rcases ha with ⟨-, hr⟩ | ⟨⟨⟩, -, hr, -, hfull⟩
  · exact nomatch hr
  have hlast := hr.rootLt
  obtain ⟨b, w, hbw⟩ := List.exists_cons_of_ne_nil hne
  obtain ⟨k, hk, -⟩ := leadsTo_iff.1 hlead
  rw [hbw] at hk ⊢
  have hn := List.getElem?_eq_getElem hlast
  by_cases h2 : nodes.length = 2
  · rw [h2] at hk hr
    exact hr.single_path (fun n hn hl => (hfull n (List.mem_of_getElem? hn) hl).1) hk
  exfalso
  have hinternal : nodes[nodes.length - 1].leaf = false := by
    by_contra hleaf
    rw [Bool.not_eq_false] at hleaf
    exact nomatch hr.walk_leaf (symAt_some.2 ⟨_, hn, hleaf, rfl⟩) hk
  obtain ⟨hleft, hright, -⟩ := hfull _ (List.getElem_mem hlast) hinternal
  have hboth : (childOf nodes (nodes.length - 1) (!b)).isSome := by
    rw [childOf_get hn]
    cases b with
    | false => exact hright.resolve_right h2
    | true => exact hleft
  obtain ⟨i, hi⟩ := Option.isSome_iff_exists.1 hboth
  obtain ⟨v, j, d, hv, hd⟩ :=
    hr.exists_leaf_below (fun n hn hl => (hfull n hn hl).1) (hr.childOf_lt_length hi)
  have hentry : entry table d = (!b) :: v := h.entry_eq (leadsTo_iff.2 ⟨j, by rw [walk_cons, hi]; exact hv, hd⟩)
  have hmem : d ∈ coded table := mem_coded.2 (by simp [hentry])
  obtain rfl : d = c := by simpa [hc] using hmem
  exact absurd (List.cons.inj (hbw.symm.trans hentry)).1 (by simp)

/-- A codec command that ends without ERR has completed. -/
theorem State.imprecise_completed {s t : State} {result : Except Stop State} (h : s.imprecise result = .next t)
    (ht : t.status.err = false) : ∃ u, result = .ok u ∧ t = u.complete := by
  rcases State.imprecise_next h with hu | ⟨r, -, rfl⟩
  · exact hu
  · exact absurd ht (by simp)

/-! ### HTDICT -/

/-- The state HTDICT leaves before it completes. -/
def State.withCodes (s : State) (table : Vector Bits 256) : State := { s with ct := table, tstate := .coded }

theorem State.withCodes_completes (s : State) (table : Vector Bits 256) :
    Completes [] [] [.tree, .ct] s (s.withCodes table).complete :=
  have h : SameBut [] [] [.tree, .ct] s (s.withCodes table) :=
    { SameBut.refl s with tree := .inl (by decide), ct := .inl (by decide) }
  h.completes rfl rfl rfl

section derive
variable {s : State} (hs : s.tstate = .tree)
include hs

theorem State.deriveCodes_ok {table : Vector Bits 256} (h : deriveTable s.nodes = .ok table) :
    s.deriveCodes = .ok (s.withCodes table) := by
  rw [State.deriveCodes, if_neg (not_not.2 hs), h]
  rfl

theorem State.deriveCodes_raise {r : Raise} (h : deriveTable s.nodes = raise r) : s.deriveCodes = raise r := by
  rw [State.deriveCodes, if_neg (not_not.2 hs), h]
  rfl

theorem exec_htdict_ok {table : Vector Bits 256} (h : deriveTable s.nodes = .ok table) :
    exec .htdict s = .next (s.withCodes table).complete := congrArg s.precise (State.deriveCodes_ok hs h)

theorem exec_htdict_raise {r : Raise} (h : deriveTable s.nodes = raise r) : exec .htdict s = .next (s.takeFault r) :=
  congrArg s.precise (State.deriveCodes_raise hs h)

end derive

/-- The first leaf that lies too deep is that of the smallest symbol that does (44_huffman_tree.md R252, R258). -/
theorem FirstDeep.eq_of_smallest {nodes : List Node} {r k : Nat} {w : Bits} (h : FirstDeep nodes r 0 k w)
    (ha : leavesAscend nodes) {up : Nat → Nat → Prop} (hr : Rooted nodes r up) {c : Byte} {code : Bits}
    (hlead : leadsTo nodes r code c) (hdeep : 32 < code.length)
    (hsmall : ∀ (d : Byte) (other : Bits), leadsTo nodes r other d → d.toNat < c.toNat → other.length ≤ 32) :
    w = code := by
  obtain ⟨j, hj, hjc⟩ := leadsTo_iff.1 hlead
  obtain ⟨d, hd⟩ := Option.ne_none_iff_exists'.1 h.leaf
  rcases Nat.lt_trichotomy j k with hlt | rfl | hlt
  · exact absurd (h.before j code j.zero_le hlt (by simp [hjc]) hj) hdeep.not_ge
  · exact hr.walk_unique h.path hj
  · have hsym := leavesAscend_iff.1 ha k j d c hlt hd hjc
    exact absurd (hsmall d w (leadsTo_iff.2 ⟨k, h.path, hd⟩) hsym) h.deep.not_ge

end Sys2Proof.Machine

namespace Sys2Proof

open Sys2Proof.Machine

/-- Settles O44: CodeOf reads the one path from the root to its leaf, no later leaf has the same symbol, and the leaves stand
in symbol order, so the first one too deep is the smallest symbol's. -/
theorem codeDerivation : Obligations.CodeDerivation := by
  intro s harena hs
  have hdata : DataArena s.nodes s.root := harena.data (.inl hs)
  rcases hdata.deriveTable_eq with ⟨r, k, w, hr, hfirst, he⟩ | ⟨table, he, ht⟩
  · refine ⟨fun hfit => ?fits, fun r' c code hr' hlead hdeep hsmall => ?deep⟩
    case fits =>
      obtain ⟨c, hc⟩ := Option.ne_none_iff_exists'.1 hfirst.leaf
      obtain ⟨n, hn, hl, -⟩ := symAt_some.1 hc
      exact absurd (hfit r k n w hr hfirst.path hn hl) hfirst.deep.not_ge
    case deep =>
      obtain rfl := Option.some_inj.1 (hr'.symm.trans hr)
      rcases hdata with ⟨-, hnone⟩ | ⟨hlast, -, hrooted, hascend, -⟩
      · exact nomatch hnone.symm.trans hr
      · obtain rfl := Option.some_inj.1 (hlast.symm.trans hr)
        rw [← hfirst.eq_of_smallest hascend hrooted hlead hdeep hsmall]
        exact ⟨_, exec_htdict_raise hs he, s.takeFault_outOfRange_faults w.length⟩
  · refine ⟨fun _ => ⟨_, exec_htdict_ok hs he, s.withCodes_completes table, rfl, rfl, rfl, ?code, ?leads, ?empty⟩,
      fun r c code hr hlead hdeep _ => ?fits⟩
    case code =>
      intro r k n code hr hw hn hl
      exact ht.code r k code n.sym hr hw (symAt_some.2 ⟨n, hn, hl, rfl⟩)
    case leads =>
      intro n hn hl
      obtain ⟨k, hk⟩ := List.mem_iff_getElem?.1 hn
      have hsym : symAt s.nodes k = some n.sym := symAt_some.2 ⟨n, hk, hl, rfl⟩
      obtain ⟨r, hr, hw⟩ := ht.leads k n.sym hsym
      exact ⟨r, hr, leadsTo_iff.2 ⟨k, hw, hsym⟩⟩
    case empty =>
      intro c hc
      refine ht.empty c fun k hk => ?_
      obtain ⟨n, hn, hl, hnc⟩ := symAt_some.1 hk
      exact hc n (List.mem_of_getElem? hn) hl hnc
    case fits =>
      obtain ⟨k, hk, hkc⟩ := leadsTo_iff.1 hlead
      have hfit := deriveTable_codesFit s.nodes table he c
      rw [ht.code r k code c hr hk hkc] at hfit
      exact absurd hfit hdeep.not_ge

/-- Settles O45: all three commands leave the table of a tree built from data, whose codes are the paths to distinct
leaves. -/
theorem derivedTableIsPrefixFree : Obligations.DerivedTableIsPrefixFree := by
  intro i s t hi harena hexec ht
  have htable : ∃ nodes root, DataArena nodes root ∧ Derived nodes root t.ct := by
    rcases hi with rfl | ⟨a, b, rfl⟩ | rfl
    · obtain ⟨u, hu, rfl⟩ := State.precise_completed (result := s.deriveCodes) hexec ht
      obtain ⟨htree, table, hd, rfl⟩ := s.deriveCodes_yields u hu
      have hdata : DataArena s.nodes s.root := harena.data (.inl htree)
      exact ⟨_, _, hdata, hdata.derived hd⟩
    · obtain ⟨u, hu, rfl⟩ := State.precise_completed (result := s.setData (s.operand a) (s.operand b)) hexec ht
      obtain ⟨freq, nodes, root, table, hb, hd, rfl⟩ := s.setData_yields _ _ u hu
      have hdata := (fillLeaves_leafArena freq).buildTree _ hb
      exact ⟨_, _, hdata, hdata.derived hd⟩
    · rcases execCompress_eq s with ⟨-, he⟩ | ⟨-, -, he⟩ | ⟨-, -, he⟩
      · cases he.symm.trans hexec
        exact nomatch ht
      · cases he.symm.trans hexec
        exact nomatch ht
      · obtain ⟨v, hv, rfl⟩ := State.imprecise_completed (he.symm.trans hexec) ht
        obtain ⟨u, k, q, ⟨freq, nodes, root, table, hb, hd, rfl⟩, -, rfl⟩ := s.compress_yields v hv
        have hdata := (fillLeaves_leafArena freq).buildTree _ hb
        exact ⟨_, _, hdata, hdata.derived hd⟩
  obtain ⟨nodes, root, hdata, hderived⟩ := htable
  exact ⟨hderived.prefixFree hdata, fun c hc => hderived.single hdata hc⟩

end Sys2Proof
end

section
/-! PROOFS. HTFREQ, HTFILL and HTSETDATA: the counts of a window, the leaves of the counts, and that few leaves give short
codes (44_huffman_tree.md R250 to R252, R258, R260). -/

namespace Sys2Proof.Machine

/-! ### Counts -/

/-- The counts of a table, added up. -/
def countSum (freq : Vector Word 256) : Nat := (symbols.map fun c => (entry freq c).toNat).sum

theorem entry_countBytes_toNat {l : List Byte} (h : l.length < 2 ^ 32) (c : Byte) :
    (entry (countBytes l) c).toNat = l.count c := by
  have hle := List.count_le_length (a := c) (l := l)
  rw [entry_countBytes, BitVec.toNat_ofNat, Nat.mod_eq_of_lt (by omega)]

theorem symbols_nodup : symbols.Nodup := symbols_sorted.imp fun h he => h.ne (congrArg BitVec.toNat he)

/-- The counts of a byte string add up to its length. -/
theorem countSum_countBytes {l : List Byte} (h : l.length < 2 ^ 32) : countSum (countBytes l) = l.length := by
  have hsum := Multiset.sum_count_eq_card (s := symbols.toFinset) (m := (l : Multiset Byte))
    fun c _ => List.mem_toFinset.2 (mem_symbols c)
  rw [List.sum_toFinset _ symbols_nodup, Multiset.coe_card] at hsum
  simp only [Multiset.coe_count] at hsum
  simpa only [countSum, entry_countBytes_toNat h] using hsum

theorem sum_map_filter_of_zero {α : Type} {p : α → Bool} {f : α → Nat} (l : List α)
    (h : ∀ x, p x = false → f x = 0) : ((l.filter p).map f).sum = (l.map f).sum := by
  induction l with
  | nil => rfl
  | cons x l ih =>
    cases hp : p x with
    | true => simp [hp, ih]
    | false => simp [hp, ih, h x hp]

/-- The leaves of a table carry its whole count. -/
theorem sum_fillLeaves (freq : Vector Word 256) :
    ((fillLeaves freq).map fun n => n.weight.toNat).sum = countSum freq := by
  rw [fillLeaves_eq, List.map_map]
  refine sum_map_filter_of_zero symbols fun c hc => ?_
  rw [bne_eq_false_iff_eq] at hc
  simp [leafNode, hc]

/-- A leaf for each byte that occurs. -/
theorem fillLeaves_countBytes_length {l : List Byte} (h : l.length < 2 ^ 32) :
    (fillLeaves (countBytes l)).length = l.dedup.length := by
  rw [fillLeaves_eq, List.length_map]
  refine ((List.perm_ext_iff_of_nodup (symbols_nodup.filter _) l.nodup_dedup).2 fun c => ?_).length_eq
  have hcount : entry (countBytes l) c ≠ 0 ↔ l.count c ≠ 0 := by
    rw [← entry_countBytes_toNat h, Ne, Ne, BitVec.toNat_eq]
    rfl
  rw [List.mem_filter, bne_iff_ne, hcount, List.mem_dedup, Ne, List.count_eq_zero, not_not]
  exact and_iff_right (mem_symbols c)

/-! ### The leaves of a built tree -/

theorem Extends.symAt_eq {nodes nodes' : List Node} (h : Extends nodes nodes') (k : Nat) :
    symAt nodes' k = symAt nodes k := by
  rcases Nat.lt_or_ge k nodes.length with hk | hk
  · obtain ⟨p, hp, -⟩ := h.kept k _ (List.getElem?_eq_getElem hk)
    rw [symAt_get hp, symAt_get (List.getElem?_eq_getElem hk)]
    rfl
  · have hnone : symAt nodes k = none := by simp [symAt, hk]
    rw [hnone]
    by_contra hne
    obtain ⟨c, hc⟩ := Option.ne_none_iff_exists'.1 hne
    obtain ⟨n, hn, hl, -⟩ := symAt_some.1 hc
    exact absurd (hl.symm.trans (h.added k n hk hn)) (by decide)

theorem LeafArena.symAt_ne_none {leaves : List Node} (h : LeafArena leaves) {i : Nat} (hi : i < leaves.length) :
    symAt leaves i ≠ none := by
  have hl := (h.bare _ (List.getElem_mem hi)).1
  simp [symAt_get (List.getElem?_eq_getElem hi), Node.leafSym, hl]

theorem lt_length_of_symAt {nodes : List Node} {i : Nat} {c : Byte} (h : symAt nodes i = some c) : i < nodes.length := by
  obtain ⟨n, hn, -⟩ := symAt_some.1 h
  exact (List.getElem?_eq_some_iff.1 hn).1

theorem Built.rooted {leaves nodes : List Node} {r : Nat} (h : Built leaves nodes (some r)) :
    Rooted nodes r (· < ·) ∧ 1 ≤ leaves.length ∧ leaves.length ≤ r ∧ r ≤ max 1 (2 * (leaves.length - 1)) := by
  have hpos : 1 ≤ leaves.length := by
    by_contra h0
    exact nomatch (h.nil (by omega)).2
  have hcount := h.count hpos
  rcases h.arena with ⟨-, hr⟩ | ⟨⟨⟩, -, hr, -⟩
  · exact nomatch hr
  · exact ⟨hr, hpos, by omega, by omega⟩

/-- A tree over n leaves has no leaf deeper than n - 1, or than 1 where n = 1. -/
theorem Built.walk_length_le {leaves nodes : List Node} {r k : Nat} {w : Bits} (h : Built leaves nodes (some r))
    (ha : LeafArena leaves) (hw : walk nodes r w = some k) : w.length ≤ max 1 (leaves.length - 1) := by
  obtain ⟨hr, hpos, -, hroot⟩ := h.rooted
  have hsym (i : Nat) (hi : i < leaves.length) : symAt nodes i ≠ none := by
    rw [h.extends_leaves.symAt_eq]
    exact ha.symAt_ne_none hi
  rcases hr.walk_length_leaves hsym hw with rfl | hle
  · exact Nat.zero_le _
  · omega

/-- The codes of the table are those of the leaves. -/
theorem Built.entry_ne_nil_iff {leaves nodes : List Node} {root : Link} {table : Vector Bits 256}
    (h : Built leaves nodes root) (hd : Derived nodes root table) {c : Byte} :
    entry table c ≠ [] ↔ ∃ k, symAt leaves k = some c := by
  simp only [← h.extends_leaves.symAt_eq]
  constructor
  · intro hne
    obtain ⟨r, -, hlead⟩ := hd.leadsTo hne
    obtain ⟨k, -, hk⟩ := leadsTo_iff.1 hlead
    exact ⟨k, hk⟩
  · rintro ⟨k, hk⟩ hnil
    obtain ⟨r, rfl, hw⟩ := hd.leads k c hk
    rw [hnil] at hw
    obtain rfl := Option.some_inj.1 hw
    have hlt := lt_length_of_symAt ((h.extends_leaves.symAt_eq _).symm.trans hk)
    obtain ⟨-, -, hleaves, -⟩ := h.rooted
    omega

theorem symAt_fillLeaves {freq : Vector Word 256} {c : Byte} :
    (∃ k, symAt (fillLeaves freq) k = some c) ↔ entry freq c ≠ 0 := by
  constructor
  · rintro ⟨k, hk⟩
    obtain ⟨n, hn, -, rfl⟩ := symAt_some.1 hk
    obtain ⟨d, hd, rfl⟩ := mem_fillLeaves.1 (List.mem_of_getElem? hn)
    exact hd
  · intro hc
    obtain ⟨k, hk⟩ := List.mem_iff_getElem?.1 (mem_fillLeaves.2 ⟨c, hc, rfl⟩)
    exact ⟨k, symAt_some.2 ⟨_, hk, rfl, rfl⟩⟩

/-! ### HTFREQ and HTFILL -/

/-- The state HTFREQ leaves before it completes. -/
def State.withFreq (s : State) (freq : Vector Word 256) : State := { s with freq := freq }

theorem State.withFreq_completes (s : State) (freq : Vector Word 256) :
    Completes [] [] [.freq] s (s.withFreq freq).complete :=
  have h : SameBut [] [] [.freq] s (s.withFreq freq) := { SameBut.refl s with freq := .inl (by decide) }
  h.completes rfl rfl rfl

theorem State.fillNodes_completes (s : State) : Completes [] [] [.tree] s s.fillNodes.complete :=
  have h : SameBut [] [] [.tree] s s.fillNodes := { SameBut.refl s with tree := .inl (by decide) }
  h.completes rfl rfl rfl

/-- HTFREQ counts a window that lies in the input, and raises what the check of the window raises. -/
theorem State.scanFrequencies_ok {s : State} {p n : Nat} (h : p + n ≤ s.inLen.toNat) :
    s.scanFrequencies p n = .ok (s.withFreq (countBytes (s.inBytes p n))) := by
  rw [State.scanFrequencies, State.window_ok h]
  rfl

theorem State.scanFrequencies_raise {s : State} {p n : Nat} {r : Raise} (h : s.window p n = raise r) :
    s.scanFrequencies p n = raise r := by
  rw [State.scanFrequencies, h]
  rfl

theorem exec_htfreq_ok {s : State} {a b : XReg} (h : s.operand a + s.operand b ≤ s.inLen.toNat) :
    exec (.htfreq a b) s =
      .next (s.withFreq (countBytes (s.inBytes (s.operand a) (s.operand b)))).complete :=
  congrArg s.precise (State.scanFrequencies_ok h)

theorem exec_htfreq_raise {s : State} {a b : XReg} {r : Raise} (h : s.window (s.operand a) (s.operand b) = raise r) :
    exec (.htfreq a b) s = .next (s.takeFault r) :=
  congrArg s.precise (State.scanFrequencies_raise h)

theorem exec_htfill (s : State) : exec .htfill s = .next s.fillNodes.complete := rfl

theorem State.window_raise_or_inside (s : State) (p n : Nat) :
    (∃ r, s.window p n = raise r) ∨ p + n ≤ s.inLen.toNat := by
  rcases s.window_eq p n with ⟨-, hw⟩ | ⟨-, -, hw⟩ | ⟨hw, -⟩
  · exact .inl ⟨_, hw⟩
  · exact .inl ⟨_, hw⟩
  · exact .inr hw

theorem State.window_position {s : State} {p : Nat} (n : Nat) (h : s.inLen.toNat < p) :
    s.window p n = raise (.outOfRange p) := if_pos h

theorem State.window_length {s : State} {p n : Nat} (hp : p ≤ s.inLen.toNat) (h : s.inLen.toNat < p + n) :
    s.window p n = raise (.outOfRange n) := (if_neg hp.not_gt).trans (if_pos (by omega))

/-! ### HTSETDATA -/

/-- The state HTSETDATA leaves before it completes. -/
def State.withData (s : State) (freq : Vector Word 256) (nodes : List Node) (root : Link) (table : Vector Bits 256) :
    State :=
  ((s.withFreq freq).fillNodes.withTree nodes root).withCodes table

theorem State.withData_completes (s : State) (freq : Vector Word 256) (nodes : List Node) (root : Link)
    (table : Vector Bits 256) :
    Completes [] [] [.freq, .tree, .ct, .pq] s (s.withData freq nodes root table).complete :=
  have h : SameBut [] [] [.freq, .tree, .ct, .pq] s (s.withData freq nodes root table) :=
    { SameBut.refl s with
      freq := .inl (by decide)
      tree := .inl (by decide)
      ct := .inl (by decide)
      pq := .inl (by decide) }
  h.completes rfl rfl rfl

theorem State.setData_raise_scan {s : State} {p n : Nat} {r : Raise} (h : s.scanFrequencies p n = raise r) :
    s.setData p n = raise r := by
  rw [State.setData, h]
  rfl

section setData
variable {s : State} {p n : Nat} {freq : Vector Word 256} (hscan : s.scanFrequencies p n = .ok (s.withFreq freq))
include hscan

theorem State.setData_raise_build {r : Raise} (h : buildTree (fillLeaves freq) = raise r) : s.setData p n = raise r := by
  have hbuild : (s.withFreq freq).fillNodes.buildFromLeaves = raise r := State.buildFromLeaves_raise rfl h
  simp only [State.setData, hscan, hbuild]
  rfl

variable {nodes : List Node} {root : Link} (hb : buildTree (fillLeaves freq) = .ok (nodes, root))
include hb

theorem State.setData_of_build : s.setData p n = ((s.withFreq freq).fillNodes.withTree nodes root).deriveCodes := by
  have hbuild : (s.withFreq freq).fillNodes.buildFromLeaves = .ok ((s.withFreq freq).fillNodes.withTree nodes root) :=
    State.buildFromLeaves_ok rfl hb
  simp only [State.setData, hscan, hbuild]

theorem State.setData_raise_codes {r : Raise} (h : deriveTable nodes = raise r) : s.setData p n = raise r :=
  (State.setData_of_build hscan hb).trans (State.deriveCodes_raise rfl h)

theorem State.setData_ok {table : Vector Bits 256} (h : deriveTable nodes = .ok table) :
    s.setData p n = .ok (s.withData freq nodes root table) :=
  (State.setData_of_build hscan hb).trans (State.deriveCodes_ok rfl h)

end setData

/-- A command that faults ends the run. -/
theorem execAll_faulted {i : Instr} {l : List Instr} {s v : State} {r : Raise} (h : exec i s = .next (v.takeFault r)) :
    execAll (i :: l) s = .next (v.takeFault r) := by
  rw [execAll, h]
  rfl

/-- HTBUILD and HTDICT in a row over leaves: the first fault, or the tree and its table. -/
theorem execAll_htbuild_htdict {s u : State} (h : execAll [.htbuild, .htdict] s = .next u) (hl : LeafArena s.nodes)
    (ht : s.tstate = .leaves) (hs : s.status.err = false) :
    (∃ r, buildTree s.nodes = raise r ∧ u = s.takeFault r) ∨
    ∃ nodes root, buildTree s.nodes = .ok (nodes, root) ∧
      ((∃ r, deriveTable nodes = raise r ∧ u = (s.withTree nodes root).complete.takeFault r) ∨
        ∃ table, deriveTable nodes = .ok table ∧ u = ((s.withTree nodes root).withCodes table).complete) := by
  rcases hl.buildTree_eq with ⟨-, nodes, root, hb, hbuilt⟩ | ⟨-, hb⟩
  · rw [execAll_cons (exec_htbuild_ok ht hb) hs] at h
    refine .inr ⟨nodes, root, hb, ?_⟩
    rcases hbuilt.arena.deriveTable_eq with ⟨-, -, w, -, -, hd⟩ | ⟨table, hd, -⟩
    · have hdict := exec_htdict_raise (s := (s.withTree nodes root).complete) rfl hd
      rw [execAll_faulted hdict] at h
      cases h
      exact .inl ⟨_, hd, rfl⟩
    · have hdict := exec_htdict_ok (s := (s.withTree nodes root).complete) rfl hd
      rw [execAll_cons hdict hs] at h
      cases h
      exact .inr ⟨table, hd, rfl⟩
  · rw [execAll_faulted (exec_htbuild_raise ht hb)] at h
    cases h
    exact .inl ⟨_, hb, rfl⟩

/-- HTFREQ, HTFILL, HTBUILD and HTDICT in a row end as HTSETDATA does (44_huffman_tree.md R260). -/
theorem State.setData_of_execAll {s u : State} {a b : XReg} (hs : s.status.err = false)
    (h : execAll [.htfreq a b, .htfill, .htbuild, .htdict] s = .next u) :
    (u.status.err = false ∧ ∃ v : State, s.setData (s.operand a) (s.operand b) = .ok v ∧ u = v.complete) ∨
    (u.status.err = true ∧
      ∃ (v : State) (r : Raise), s.setData (s.operand a) (s.operand b) = raise r ∧ u = v.takeFault r) := by
  rcases s.window_raise_or_inside (s.operand a) (s.operand b) with ⟨r, hw⟩ | hw
  · rw [execAll_faulted (exec_htfreq_raise hw)] at h
    cases h
    exact .inr ⟨rfl, s, r, State.setData_raise_scan (State.scanFrequencies_raise hw), rfl⟩
  have hscan := State.scanFrequencies_ok hw
  rw [execAll_cons (exec_htfreq_ok hw) hs, execAll_cons (exec_htfill _) (by exact hs)] at h
  rcases execAll_htbuild_htdict h (fillLeaves_leafArena _) rfl hs with
    ⟨r, hb, rfl⟩ | ⟨nodes, root, hb, ⟨r, hd, rfl⟩ | ⟨table, hd, rfl⟩⟩
  · exact .inr ⟨rfl, _, r, State.setData_raise_build hscan hb, rfl⟩
  · exact .inr ⟨rfl, _, r, State.setData_raise_codes hscan hb hd, rfl⟩
  · exact .inl ⟨hs, _, State.setData_ok hscan hb hd, rfl⟩

/-- Over a window of at most 33 distinct bytes the tree is built and every code fits (44_huffman_tree.md R258, R260). -/
theorem buildTree_countBytes {l : List Byte} (hl : l.length < 2 ^ 32) (h : l.dedup.length ≤ 33) :
    ∃ nodes root table, buildTree (fillLeaves (countBytes l)) = .ok (nodes, root) ∧ deriveTable nodes = .ok table ∧
      Built (fillLeaves (countBytes l)) nodes root ∧ Derived nodes root table := by
  have harena := fillLeaves_leafArena (countBytes l)
  have hsum := (sum_fillLeaves (countBytes l)).trans (countSum_countBytes hl)
  have hlen := fillLeaves_countBytes_length hl
  rcases harena.buildTree_eq with ⟨-, nodes, root, hb, hbuilt⟩ | ⟨hge, -⟩
  · rcases hbuilt.arena.deriveTable_eq with ⟨r, k, w, rfl, hfirst, -⟩ | ⟨table, hd, hderived⟩
    · have := hbuilt.walk_length_le harena hfirst.path
      have := hfirst.deep
      exfalso
      omega
    · exact ⟨nodes, root, table, hb, hd, hbuilt, hderived⟩
  · exfalso
    omega

end Sys2Proof.Machine

namespace Sys2Proof

open Sys2Proof.Machine

/-- Settles O41: HTFREQ's entries are the counts of its window, and the counts of all 256 symbols add up to its length;
HTFILL's leaves are the symbols in ascending order with the zero counts left out. -/
theorem scanAndFill : Obligations.ScanAndFill := by
  refine ⟨fun s a b => ⟨fun h => ?counted, fun h => ?position, fun hp h => ?length⟩, fun s => ?filled⟩
  case counted =>
    have hlen : (s.inBytes (s.operand a) (s.operand b)).length < 2 ^ 32 := by
      rw [State.inBytes_length]
      exact s.operand_lt b
    have hsum := countSum_countBytes hlen
    rw [State.inBytes_length, countSum, symbols, List.map_map] at hsum
    exact ⟨_, exec_htfreq_ok h, s.withFreq_completes _, entry_countBytes_toNat hlen, hsum⟩
  case position =>
    exact State.precise_outOfRange (exec_htfreq_raise (State.window_position _ h))
  case length =>
    exact State.precise_outOfRange (exec_htfreq_raise (State.window_length hp h))
  case filled =>
    refine ⟨_, rfl, s.fillNodes_completes, rfl, rfl, fun n hn => ?_, fun c hc => ?_, fillLeaves_sorted s.freq⟩
    · obtain ⟨c, hc, rfl⟩ := mem_fillLeaves.1 hn
      exact ⟨rfl, rfl, rfl, rfl, rfl, hc⟩
    · exact ⟨_, mem_fillLeaves.2 ⟨c, hc, rfl⟩, rfl⟩

/-- Settles O46: each of the four commands is the matching step of HTSETDATA; a tree over n leaves is at most n - 1 deep, so
33 leaves give codes that fit. -/
theorem setData : Obligations.SetData := by
  refine ⟨fun s u a b hs h => ?inARow, fun s a b hw hd => ?completes⟩
  case inARow =>
    rcases State.setData_of_execAll hs h with ⟨hu, v, hset, rfl⟩ | ⟨hu, v, r, hset, rfl⟩
    · exact ⟨fun _ => congrArg s.precise hset, fun he => (nomatch hu.symm.trans he)⟩
    · exact ⟨fun he => (nomatch hu.symm.trans he),
        fun _ => ⟨_, congrArg s.precise hset, s.takeFault_faults r⟩⟩
  case completes =>
    have hlen : (s.inBytes (s.operand a) (s.operand b)).length < 2 ^ 32 := by
      rw [State.inBytes_length]
      exact s.operand_lt b
    obtain ⟨nodes, root, table, hb, hd, hbuilt, hderived⟩ := buildTree_countBytes hlen hd
    have hset := State.setData_ok (State.scanFrequencies_ok hw) hb hd
    refine ⟨_, congrArg s.precise hset, s.withData_completes _ _ _ _, rfl, rfl, entry_countBytes_toNat hlen, fun c => ?_⟩
    have hcount := entry_countBytes_toNat hlen c
    refine (hbuilt.entry_ne_nil_iff hderived).trans (symAt_fillLeaves.trans ?_)
    rw [Ne, BitVec.toNat_eq, hcount]
    exact List.count_eq_zero.not_left

end Sys2Proof
end

section
/-! PROOFS. HTSETDICT: the trie between two insertions holds the codes inserted so far and the path being inserted, so an
insertion fails exactly where its code clashes with an earlier one (44_huffman_tree.md R262, R263). -/

namespace Sys2Proof.Machine

/-! ### Branching and marking, path by path -/

theorem Node.child_setChild (n : Node) (b b' : Bool) (i : Nat) :
    (n.setChild b i).child b' = if b' = b then some i else n.child b' := by
  cases b <;> cases b' <;> rfl

section paths
variable {nodes : List Node} {j : Nat} {n : Node} (hj : nodes[j]? = some n)
include hj

theorem childOf_branched (b : Bool) (p : Nat) (b' : Bool) :
    childOf (branched nodes j n b) p b' = if p = j ∧ b' = b then some nodes.length else childOf nodes p b' := by
  have hlt := (List.getElem?_eq_some_iff.1 hj).1
  rw [childOf, branched, append_get?, List.length_set]
  by_cases hp : p = nodes.length
  · rw [if_pos hp, if_neg (by omega), childOf, hp, List.getElem?_eq_none le_rfl]
    cases b' <;> rfl
  · rw [if_neg hp, List.getElem?_set]
    by_cases hpj : j = p
    · subst hpj
      rw [if_pos rfl, if_pos hlt, childOf_get hj, Option.bind_some, Node.child_setChild]
      simp
    · rw [if_neg hpj, if_neg (fun h => hpj h.1.symm), childOf]

theorem childOf_mark (c : Byte) (p : Nat) (b : Bool) :
    childOf (nodes.set j { n with leaf := true, sym := c }) p b = childOf nodes p b := by
  have hlt := (List.getElem?_eq_some_iff.1 hj).1
  rw [childOf, List.getElem?_set]
  by_cases hpj : j = p
  · subst hpj
    rw [if_pos rfl, if_pos hlt, childOf_get hj]
    rfl
  · rw [if_neg hpj, childOf]

theorem walk_mark (c : Byte) (i : Nat) (w : Bits) :
    walk (nodes.set j { n with leaf := true, sym := c }) i w = walk nodes i w := by
  induction w generalizing i with
  | nil => rfl
  | cons b w ih => simp only [walk_cons, childOf_mark hj, ih]

/-- Branching at the end of a path adds the one path that goes on with the bit. -/
theorem walk_branched {up : Nat → Nat → Prop} {root : Nat} (h : Rooted nodes root up) {pre : Bits} {b : Bool}
    (hpre : walk nodes root pre = some j) (hb : n.child b = none) (w : Bits) :
    walk (branched nodes j n b) root w = if w = pre ++ [b] then some nodes.length else walk nodes root w := by
  have hend : walk nodes root (pre ++ [b]) = none := by
    rw [walk_concat, hpre, Option.bind_some, childOf_get hj, hb]
  have hlt := (List.getElem?_eq_some_iff.1 hj).1
  induction w using List.reverseRecOn with
  | nil => rw [if_neg (by simp)]; rfl
  | append_singleton w b' ih =>
    rw [walk_concat, ih]
    by_cases hw : w = pre ++ [b]
    · subst hw
      have hnone : childOf nodes nodes.length b' = none := by simp [childOf]
      rw [if_pos rfl, Option.bind_some, childOf_branched hj, if_neg (by omega), hnone, if_neg (by simp), walk_concat, hend,
        Option.bind_none]
    · rw [if_neg hw, walk_concat]
      cases hp : walk nodes root w with
      | none =>
        rw [Option.bind_none, if_neg, Option.bind_none]
        rintro heq
        obtain ⟨rfl, -⟩ := List.append_singleton_inj.1 heq
        exact nomatch hp.symm.trans hpre
      | some p =>
        have hwp : p = j ↔ w = pre :=
          ⟨fun he => h.walk_unique (he ▸ hp) hpre, fun he => Option.some_inj.1 (hp.symm.trans (he ▸ hpre))⟩
        simp only [Option.bind_some, childOf_branched hj, List.append_singleton_inj, hwp]

end paths

/-! ### The trie of some codes of a table -/

/-- One of the two symbols' codes begins the other's. -/
def Clash (table : Vector Bits 256) (c d : Byte) : Prop :=
  entry table c <+: entry table d ∨ entry table d <+: entry table c

/-- The nodes are the trie of the codes of the symbols in `used`, and of the path `pre`. -/
structure TrieOf (table : Vector Bits 256) (used : Byte → Prop) (pre : Bits) (nodes : List Node) : Prop where
  trie : Trie nodes used
  reach : ∀ w, (walk nodes 0 w).isSome ↔ w <+: pre ∨ ∃ c, used c ∧ w <+: entry table c
  leads : ∀ w c, leadsTo nodes 0 w c ↔ used c ∧ entry table c = w

theorem Trie.rooted {nodes : List Node} {used : Byte → Prop} (h : Trie nodes used) :
    Rooted nodes 0 fun j p => p < j := h.linked.rooted h.nonempty

theorem trieOf_root (table : Vector Bits 256) : TrieOf table (fun _ => False) [] [branchNode none] where
  trie := trie_root
  reach w := by
    cases w with
    | nil => simp
    | cons b w =>
      have hnone : childOf [branchNode none] 0 b = none := by cases b <;> rfl
      simp [walk_cons, hnone]
  leads w c := by
    refine iff_of_false (fun h => ?_) fun h => h.1
    obtain ⟨k, -, hk⟩ := leadsTo_iff.1 h
    exact trie_root.syms k c hk

section trie
variable {table : Vector Bits 256} {used : Byte → Prop} {pre : Bits} {nodes : List Node} {j : Nat}
  (h : TrieOf table used pre nodes) (hpre : walk nodes 0 pre = some j)
include h

theorem TrieOf.not_clash {c d : Byte} (hc : used c) (hd : used d) (hcd : c ≠ d) : ¬ Clash table c d := by
  have hlc := (h.leads _ c).2 ⟨hc, rfl⟩
  have hld := (h.leads _ d).2 ⟨hd, rfl⟩
  rintro (hp | hp)
  · exact hcd (h.trie.rooted.leadsTo_prefix hlc hld hp).2
  · exact hcd (h.trie.rooted.leadsTo_prefix hld hlc hp).2.symm

include hpre

theorem TrieOf.get? : ∃ n, nodes[j]? = some n :=
  ⟨_, List.getElem?_eq_getElem (h.trie.rooted.walk_lt_length h.trie.nonempty hpre)⟩

/-- A leaf on the path holds a code that begins the path's. -/
theorem TrieOf.leaf_used {n : Node} (hj : nodes[j]? = some n) (hl : n.leaf = true) : used n.sym ∧ entry table n.sym = pre :=
  (h.leads pre n.sym).1 (leadsTo_iff.2 ⟨j, hpre, symAt_some.2 ⟨n, hj, hl, rfl⟩⟩)

/-- A child at the end of the path lies on the path to a code. -/
theorem TrieOf.child_used {b : Bool} {k : Nat} (hk : childOf nodes j b = some k) :
    ∃ d, used d ∧ pre <+: entry table d := by
  have hwalk : walk nodes 0 (pre ++ [b]) = some k := walk_concat_some.2 ⟨j, hpre, hk⟩
  rcases (h.reach (pre ++ [b])).1 (by simp [hwalk]) with hle | ⟨d, hd, hle⟩
  · have := hle.length_le
    rw [List.length_append, List.length_singleton] at this
    omega
  · exact ⟨d, hd, (List.prefix_append pre [b]).trans hle⟩

/-- Descending where a child is present. -/
theorem TrieOf.descend {b : Bool} {k : Nat} (hk : childOf nodes j b = some k) : TrieOf table used (pre ++ [b]) nodes :=
  { h with
    reach := fun w => by
      have hwalk : walk nodes 0 (pre ++ [b]) = some k := walk_concat_some.2 ⟨j, hpre, hk⟩
      constructor
      · intro hw
        exact ((h.reach w).1 hw).imp_left fun hle => hle.trans (List.prefix_append pre [b])
      · rintro (hle | hd)
        · exact walk_isSome_of_prefix hle (by simp [hwalk])
        · exact (h.reach w).2 (.inr hd) }

/-- Branching where it is missing. -/
theorem TrieOf.branch {n : Node} (hj : nodes[j]? = some n) (hl : n.leaf = false) {b : Bool} (hb : n.child b = none) :
    TrieOf table used (pre ++ [b]) (branched nodes j n b) ∧
      walk (branched nodes j n b) 0 (pre ++ [b]) = some nodes.length := by
  have hwalk := walk_branched hj h.trie.rooted hpre hb
  have hend : walk nodes 0 (pre ++ [b]) = none := by
    rw [walk_concat, hpre, Option.bind_some, childOf_get hj, hb]
  refine ⟨⟨h.trie.branch hj hl hb, fun w => ?reach, fun w c => ?leads⟩, (hwalk _).trans (if_pos rfl)⟩
  case reach =>
    rw [hwalk, List.prefix_concat_iff]
    split
    next hw => simp [hw]
    next hw => rw [h.reach, or_iff_right hw]
  case leads =>
    simp only [leadsTo_iff, hwalk, (branched_addsLinks hj hb).syms]
    split
    next hw =>
      refine iff_of_false ?_ ?_
      · rintro ⟨_, ⟨⟩, hk⟩
        exact nomatch (symAt_length nodes).symm.trans hk
      · rintro ⟨hc, rfl⟩
        have := (h.reach (entry table c)).2 (.inr ⟨c, hc, List.prefix_rfl⟩)
        rw [hw, hend] at this
        exact nomatch this
    next hw => exact leadsTo_iff.symm.trans (h.leads w c)

/-- Marking the end of the path with a new symbol whose code the path is. -/
theorem TrieOf.mark {n : Node} (hj : nodes[j]? = some n) (hl : n.leaf = false) (hleft : n.left = none)
    (hright : n.right = none) {c : Byte} (hc : ¬ used c) (he : entry table c = pre) :
    TrieOf table (fun d => d = c ∨ used d) [] (nodes.set j { n with leaf := true, sym := c }) := by
  have hlt := (List.getElem?_eq_some_iff.1 hj).1
  have hsym (k : Nat) : symAt (nodes.set j { n with leaf := true, sym := c }) k = if k = j then some c else symAt nodes k :=
    symAt_set hlt _ k
  refine ⟨h.trie.mark hj hc hleft hright, fun w => ?reach, fun w d => ?leads⟩
  case reach =>
    rw [walk_mark hj, h.reach]
    constructor
    · rintro (hle | ⟨d, hd, hle⟩)
      · exact .inr ⟨c, .inl rfl, he ▸ hle⟩
      · exact .inr ⟨d, .inr hd, hle⟩
    · rintro (hle | ⟨d, rfl | hd, hle⟩)
      · exact .inl (hle.trans (List.nil_prefix))
      · exact .inl (he ▸ hle)
      · exact .inr ⟨d, hd, hle⟩
  case leads =>
    simp only [leadsTo_iff, walk_mark hj, hsym]
    constructor
    · rintro ⟨k, hk, hkd⟩
      split at hkd
      next hkj =>
        obtain rfl := Option.some_inj.1 hkd
        exact ⟨.inl rfl, he.trans (h.trie.rooted.walk_unique hpre (hkj ▸ hk))⟩
      next =>
        obtain ⟨hd, hw⟩ := (h.leads w d).1 (leadsTo_iff.2 ⟨k, hk, hkd⟩)
        exact ⟨.inr hd, hw⟩
    · rintro ⟨rfl | hd, rfl⟩
      · exact ⟨j, he ▸ hpre, if_pos rfl⟩
      · obtain ⟨k, hk, hkd⟩ := leadsTo_iff.1 ((h.leads _ d).2 ⟨hd, rfl⟩)
        refine ⟨k, hk, (if_neg ?_).trans hkd⟩
        rintro rfl
        obtain ⟨m, hm, hml, -⟩ := symAt_some.1 hkd
        obtain rfl := Option.some_inj.1 (hj.symm.trans hm)
        exact absurd (hml.symm.trans hl) (by decide)

end trie

/-! ### Inserting codes -/

/-- An insertion adds the code, or raises MALFORMED(0x0B) where it clashes with one that is there. -/
theorem TrieOf.insertCode_eq {table : Vector Bits 256} {used : Byte → Prop} {pre : Bits} {nodes : List Node} {j : Nat}
    (h : TrieOf table used pre nodes) (hpre : walk nodes 0 pre = some j) {c : Byte} (hc : ¬ used c) {code : Bits}
    (he : entry table c = pre ++ code) :
    ((∃ d, used d ∧ Clash table d c) ∧ insertCode c code j nodes = raise (.malformed 0x0B c.toNat)) ∨
    ∃ nodes', insertCode c code j nodes = .ok nodes' ∧ TrieOf table (fun d => d = c ∨ used d) [] nodes' := by
  induction code generalizing pre j nodes with
  | nil =>
    rw [List.append_nil] at he
    obtain ⟨n, hj⟩ := h.get? hpre
    have hclash {d : Byte} (hp : pre <+: entry table d) : Clash table d c := .inr (he ▸ hp)
    simp only [insertCode, hj]
    split
    next hbad =>
      refine .inl ⟨?_, rfl⟩
      simp only [Bool.or_eq_true, Option.isSome_iff_exists] at hbad
      obtain (hl | ⟨k, hk⟩) | ⟨k, hk⟩ := hbad
      · obtain ⟨hu, hw⟩ := h.leaf_used hpre hj hl
        exact ⟨_, hu, hclash (hw ▸ List.prefix_rfl)⟩
      · obtain ⟨d, hd, hp⟩ := h.child_used hpre (b := false) (childOf_some.2 ⟨n, hj, hk⟩)
        exact ⟨d, hd, hclash hp⟩
      · obtain ⟨d, hd, hp⟩ := h.child_used hpre (b := true) (childOf_some.2 ⟨n, hj, hk⟩)
        exact ⟨d, hd, hclash hp⟩
    next hgood =>
      simp only [Bool.or_eq_true, not_or, Bool.not_eq_true, Option.isSome_eq_false_iff,
        Option.isNone_iff_eq_none] at hgood
      obtain ⟨⟨hl, hleft⟩, hright⟩ := hgood
      exact .inr ⟨_, rfl, h.mark hpre hj hl hleft hright hc he⟩
  | cons b t ih =>
    rw [← List.singleton_append, ← List.append_assoc] at he
    obtain ⟨n, hj⟩ := h.get? hpre
    simp only [insertCode, hj]
    split
    next hl =>
      obtain ⟨hu, hw⟩ := h.leaf_used hpre hj hl
      refine .inl ⟨⟨_, hu, .inl ?_⟩, rfl⟩
      rw [hw, he, List.append_assoc]
      exact List.prefix_append pre _
    next hl =>
      split
      next k hk =>
        have hchild := childOf_some.2 ⟨n, hj, hk⟩
        exact ih (h.descend hpre hchild) (walk_concat_some.2 ⟨j, hpre, hchild⟩) he
      next hb =>
        obtain ⟨hbranch, hend⟩ := h.branch hpre hj (by simpa using hl) hb
        exact ih hbranch hend he

/-- The codes of a list of symbols go into the trie one after the other, up to the first that clashes. -/
theorem TrieOf.insertCodes_eq {table : Vector Bits 256} {used : Byte → Prop} {nodes : List Node}
    (h : TrieOf table used [] nodes) {l : List Byte} (hl : l.Nodup) (hu : ∀ c ∈ l, ¬ used c) :
    (∃ m c r mid, l = m ++ c :: r ∧ TrieOf table (fun d => d ∈ m ∨ used d) [] mid ∧
      (∃ d, (d ∈ m ∨ used d) ∧ Clash table d c) ∧ insertCodes table l nodes = raise (.malformed 0x0B c.toNat)) ∨
    ∃ nodes', insertCodes table l nodes = .ok nodes' ∧ TrieOf table (fun d => d ∈ l ∨ used d) [] nodes' := by
  induction l generalizing used nodes with
  | nil => exact .inr ⟨nodes, rfl, by simpa using h⟩
  | cons c t ih =>
    obtain ⟨hct, ht⟩ := List.nodup_cons.1 hl
    have hmem (m : List Byte) (d : Byte) : (d ∈ m ∨ d = c ∨ used d) ↔ (d ∈ c :: m ∨ used d) := by
      rw [List.mem_cons]
      tauto
    rw [insertCodes]
    rcases h.insertCode_eq (pre := []) (code := entry table c) rfl (hu c (by simp)) rfl with
      ⟨⟨d, hd, hclash⟩, he⟩ | ⟨nodes', he, h'⟩
    · refine .inl ⟨[], c, t, nodes, rfl, by simpa using h, ⟨d, .inr hd, hclash⟩, ?_⟩
      rw [he]
      rfl
    · simp only [he]
      have hu' : ∀ d ∈ t, ¬ (d = c ∨ used d) := fun d hd => by
        rintro (rfl | hd')
        · exact hct hd
        · exact hu d (List.mem_cons_of_mem c hd) hd'
      rcases ih h' ht hu' with ⟨m, d, r, mid, rfl, hmid, hclash, he'⟩ | ⟨nodes'', he', h''⟩
      · simp only [hmem] at hmid hclash
        exact .inl ⟨c :: m, d, r, mid, rfl, hmid, hclash, he'⟩
      · simp only [hmem] at h''
        exact .inr ⟨nodes'', he', h''⟩

/-- Inserting codes adds at most one node for each of their bits. -/
theorem insertCodes_length_le {table : Vector Bits 256} (l : List Byte) (nodes : List Node) :
    Yields (fun nodes' => nodes'.length ≤ nodes.length + (l.map fun c => (entry table c).length).sum)
      (insertCodes table l nodes) := by
  induction l generalizing nodes with
  | nil => exact .ok le_rfl
  | cons c t ih =>
    rw [insertCodes]
    split
    · exact .error
    next nodes' hn =>
      intro nodes'' hn'
      have hfirst := insertCode_length hn
      have hrest := ih nodes' nodes'' hn'
      rw [List.map_cons, List.sum_cons]
      omega

/-! ### The trie of a table -/

theorem firstClash_unique {table : Vector Bits 256} {d e : Byte} (hd : firstClash table d) (he : firstClash table e) :
    d = e := by
  obtain ⟨⟨c, hcd, hc, hdne, hclash⟩, hd⟩ := hd
  obtain ⟨⟨c', hce, hc', hene, hclash'⟩, he⟩ := he
  rcases Nat.lt_trichotomy d.toNat e.toNat with hlt | heq | hlt
  · exact absurd hclash (he d c hlt hcd hc hdne)
  · exact BitVec.eq_of_toNat_eq heq
  · exact absurd hclash' (hd e c' hlt hce hc' hene)

theorem not_prefixFree_of_firstClash {table : Vector Bits 256} {d : Byte} (h : firstClash table d) : ¬ prefixFree table := by
  obtain ⟨⟨c, hcd, hc, hd, hclash⟩, -⟩ := h
  have hne : c ≠ d := fun he => hcd.ne (congrArg BitVec.toNat he)
  intro hfree
  rcases hclash with hp | hp
  · exact hfree c d hne hc hd hp
  · exact hfree d c hne.symm hd hc hp

theorem usedSymbols_sorted (table : Vector Bits 256) : (usedSymbols table).Pairwise fun c d => c.toNat < d.toNat := by
  rw [usedSymbols_eq]
  exact symbols_sorted.filter _

/-- A symbol that clashes with one before it in ascending order, where those before it do not clash, is the first clash. -/
theorem TrieOf.firstClash {table : Vector Bits 256} {m r : List Byte} {c : Byte} {mid : List Node}
    (hl : usedSymbols table = m ++ c :: r) (h : TrieOf table (· ∈ m) [] mid) (hclash : ∃ d, d ∈ m ∧ Clash table d c) :
    firstClash table c := by
  have hsorted := usedSymbols_sorted table
  rw [hl, List.pairwise_append] at hsorted
  obtain ⟨-, hcr, hmc⟩ := hsorted
  have hused {d : Byte} (hd : entry table d ≠ []) (hdc : d.toNat < c.toNat) : d ∈ m := by
    have hmem := mem_usedSymbols.2 hd
    rw [hl, List.mem_append, List.mem_cons] at hmem
    rcases hmem with hmem | rfl | hmem
    · exact hmem
    · exact absurd hdc (Nat.lt_irrefl _)
    · exact absurd ((List.pairwise_cons.1 hcr).1 d hmem) hdc.asymm
  have hne {d : Byte} (hd : d ∈ m ++ c :: r) : entry table d ≠ [] := mem_usedSymbols.1 (hl ▸ hd)
  obtain ⟨d, hd, hclash⟩ := hclash
  refine ⟨⟨d, hmc d hd c (by simp), hne (by simp [hd]), hne (by simp), hclash⟩, fun e c' hec hce hc' he => ?_⟩
  exact h.not_clash (hused hc' (hce.trans hec)) (hused he hec) fun heq => hce.ne (congrArg BitVec.toNat heq)

/-- HTSETDICT on any table: no tree for no code, the trie of its codes, or MALFORMED(0x0B) with the first clash. -/
theorem rebuildTree_eq (table : Vector Bits 256) :
    (coded table = [] ∧ rebuildTree table = .ok ([], none)) ∨
    (coded table ≠ [] ∧ ∃ nodes, rebuildTree table = .ok (nodes, some 0) ∧
      TrieOf table (fun c => entry table c ≠ []) [] nodes ∧ nodes.length ≤ 1 + codesLength table) ∨
    (∃ d, firstClash table d ∧ rebuildTree table = raise (.malformed 0x0B d.toNat)) := by
  rw [rebuildTree]
  split
  next hnil => exact .inl ⟨(usedSymbols_eq_coded table).symm.trans hnil, rfl⟩
  next hne =>
    right
    rcases (trieOf_root table).insertCodes_eq (usedSymbols_nodup table) (fun _ _ => id) with
      ⟨m, c, r, mid, hl, hmid, hclash, he⟩ | ⟨nodes, he, h⟩
    · simp only [or_false] at hmid hclash
      exact .inr ⟨c, hmid.firstClash hl hclash, by rw [he]; rfl⟩
    · simp only [or_false, mem_usedSymbols] at h
      refine .inl ⟨usedSymbols_eq_coded table ▸ hne, nodes, by rw [he], h, ?_⟩
      have hlen := insertCodes_length_le _ _ nodes he
      rwa [usedSymbols_eq_coded] at hlen

/-- Every leaf of the trie of a table is reached by its symbol's code. -/
theorem TrieOf.walk_sym {table : Vector Bits 256} {used : Byte → Prop} {nodes : List Node}
    (h : TrieOf table used [] nodes) {k : Nat} {c : Byte} (hk : symAt nodes k = some c) :
    used c ∧ walk nodes 0 (entry table c) = some k := by
  obtain ⟨w, hw⟩ := h.trie.rooted.exists_walk id (fun _ _ _ hlt => hlt) (lt_length_of_symAt hk)
  obtain ⟨hc, rfl⟩ := (h.leads w c).1 (leadsTo_iff.2 ⟨k, hw, hk⟩)
  exact ⟨hc, hw⟩

/-! ### HTSETDICT -/

/-- The state HTSETDICT leaves before it completes. -/
def State.withDict (s : State) (nodes : List Node) (root : Link) : State :=
  { s with nodes := nodes, root := root, tstate := .dict }

theorem State.withDict_completes (s : State) (nodes : List Node) (root : Link) :
    Completes [] [] [.tree] s (s.withDict nodes root).complete :=
  have h : SameBut [] [] [.tree] s (s.withDict nodes root) := { SameBut.refl s with tree := .inl (by decide) }
  h.completes rfl rfl rfl

theorem State.setDict_ok {s : State} {nodes : List Node} {root : Link} (h : rebuildTree s.ct = .ok (nodes, root)) :
    s.setDict = .ok (s.withDict nodes root) := by
  rw [State.setDict, h]
  rfl

theorem State.setDict_raise {s : State} {r : Raise} (h : rebuildTree s.ct = raise r) : s.setDict = raise r := by
  rw [State.setDict, h]
  rfl

/-- ERRINFO of MALFORMED holds the subcode and the detail (60_exceptions.md R363). -/
theorem State.takeFault_malformed_faults (s : State) (sub d : Nat) :
    Faults .malformed (sub * 2 ^ 24 + d % 2 ^ 24) s (s.takeFault (.malformed sub d)) :=
  { s.takeFault_faults (.malformed sub d) with errInfo := BitVec.toNat_ofNat _ 32 }

/-- A symbol is its own detail. -/
theorem State.takeFault_symbol_faults (s : State) (sub : Nat) (c : Byte) :
    Faults .malformed (sub * 2 ^ 24 + c.toNat) s (s.takeFault (.malformed sub c.toNat)) := by
  have hc : c.toNat % 2 ^ 24 = c.toNat := Nat.mod_eq_of_lt (by omega)
  simpa only [hc] using s.takeFault_malformed_faults sub c.toNat

end Sys2Proof.Machine

namespace Sys2Proof

open Sys2Proof.Machine

/-- Settles O47: HTSETDICT ends in the trie of the table, or at its first clash, which is the only one, and which a
table without clashes does not have. -/
theorem trieFromTable : Obligations.TrieFromTable := by
  refine ⟨fun s hfree => ?built, fun s d hd hclash hbefore => ?clash⟩
  case built =>
    rcases rebuildTree_eq s.ct with ⟨hnil, he⟩ | ⟨hne, nodes, he, h, hlen⟩ | ⟨d, hd, -⟩
    · exact ⟨_, congrArg s.precise (State.setDict_ok he), s.withDict_completes _ _, rfl, fun _ => ⟨rfl, rfl⟩,
        fun hne => absurd hnil hne⟩
    · refine ⟨_, congrArg s.precise (State.setDict_ok he), s.withDict_completes _ _, rfl, fun hnil => absurd hnil hne,
        fun _ => ⟨rfl, hlen, fun c hc => (h.leads _ c).2 ⟨hc, rfl⟩, fun k n hn hl => ?_, h.trie.weights⟩⟩
      exact h.walk_sym (symAt_some.2 ⟨n, hn, hl, rfl⟩)
    · exact absurd hfree (not_prefixFree_of_firstClash hd)
  case clash =>
    have hfirst : firstClash s.ct d := by
      obtain ⟨c, hcd, hc, hclash⟩ := hclash
      exact ⟨⟨c, hcd, hc, hd, hclash⟩, hbefore⟩
    rcases rebuildTree_eq s.ct with ⟨hnil, -⟩ | ⟨-, nodes, -, h, -⟩ | ⟨e, he, hraise⟩
    · exact absurd (mem_coded.2 hd) (by simp [hnil])
    · obtain ⟨c, hcd, hc, hclash⟩ := hclash
      exact absurd hclash (h.not_clash hc hd fun heq => hcd.ne (congrArg BitVec.toNat heq))
    · obtain rfl := firstClash_unique he hfirst
      exact ⟨_, congrArg s.precise (State.setDict_raise hraise), s.takeFault_symbol_faults 0x0B e⟩

end Sys2Proof
end

section
/-! PROOFS. HTENC: bits through OBC with room for them, and the checks before them in order (44_huffman_tree.md R265, R266;
45_bit_cursors.md R299; 20_memory.md R88). -/

namespace Sys2Proof.Machine

/-! ### Bits through OBC -/

/-- Bits that fit OUT, and bits that do not (45_bit_cursors.md R299). -/
theorem State.obcPutBits_fits {s : State} (h : s.sink.Good) {l : Bits}
    (hroom : s.outLen.toNat + (s.obc.nb.toNat + l.length) / 8 ≤ s.outCap.val) :
    ∃ k, obcPutBits s.outCap.val s.sink l = .ok k ∧ s.sink.Puts l k := by
  rcases obcPutBits_eq s.outCap_lt h l with ⟨-, hput⟩ | ⟨hfull, -⟩
  · exact hput
  · have htotal : s.sink.total = 8 * s.outLen.toNat + s.obc.nb.toNat := rfl
    have hlen : s.sink.len.toNat = s.outLen.toNat := rfl
    omega

theorem State.room_ok {s : State} {k : Nat} (h : s.outLen.toNat + k ≤ s.outCap.val) : s.room k = .ok () :=
  if_neg h.not_gt

theorem State.room_full {s : State} {k : Nat} (h : s.outCap.val < s.outLen.toNat + k) : s.room k = raise (.io 2) :=
  if_pos h

theorem State.setSink_completes (s : State) (k : Sink) : Completes [] [] [.obc, .out] s (s.setSink k).complete :=
  have h : SameBut [] [] [.obc, .out] s (s.setSink k) :=
    { SameBut.refl s with obc := .inl (by decide), out := .inl (by decide) }
  h.completes rfl rfl rfl

/-! ### HTENC check by check -/

theorem encodeBytes_missing {table : Vector Bits 256} {m : List Byte} {c : Byte} (n : List Byte)
    (hm : ∀ d ∈ m, entry table d ≠ []) (hc : entry table c = []) :
    encodeBytes table (m ++ c :: n) = raise (.malformed 0x0F c.toNat) := by
  induction m with
  | nil =>
    rw [List.nil_append, encodeBytes, hc]
    exact if_pos List.length_nil
  | cons d m ih =>
    obtain ⟨hd, hm⟩ := List.forall_mem_cons.1 hm
    rw [List.cons_append, encodeBytes, if_neg (List.length_eq_zero_iff.not.2 hd), ih hm]
    rfl

theorem encodeBytes_ok {table : Vector Bits 256} {l : List Byte} (h : ∀ c ∈ l, entry table c ≠ []) :
    encodeBytes table l = .ok (payload table l) := by
  rcases encodeBytes_eq table l with ⟨-, he⟩ | ⟨m, c, n, rfl, -, hc, -⟩
  · exact he
  · exact absurd hc (h c (by simp))

section window
variable {s : State} {p n : Nat}

theorem State.encodeWindow_raise {r : Raise} (h : s.window p n = raise r) : s.encodeWindow p n = raise r := by
  rw [State.encodeWindow, h]
  rfl

variable (hw : p + n ≤ s.inLen.toNat)
include hw

theorem State.encodeWindow_missing {r : Raise} (h : encodeBytes s.ct (s.inBytes p n) = raise r) :
    s.encodeWindow p n = raise r := by
  rw [State.encodeWindow, State.window_ok hw]
  simp only [h]
  rfl

variable (hc : ∀ c ∈ s.inBytes p n, entry s.ct c ≠ [])
include hc

theorem State.encodeWindow_full
    (h : s.outCap.val < s.outLen.toNat + (s.obc.nb.toNat + (payload s.ct (s.inBytes p n)).length) / 8) :
    s.encodeWindow p n = raise (.io 2) := by
  rw [State.encodeWindow, State.window_ok hw]
  simp only [encodeBytes_ok hc, State.room_full h]
  rfl

theorem State.encodeWindow_ok (hs : s.sink.Good)
    (h : s.outLen.toNat + (s.obc.nb.toNat + (payload s.ct (s.inBytes p n)).length) / 8 ≤ s.outCap.val) :
    ∃ k, s.encodeWindow p n = .ok (s.setSink k) ∧ s.sink.Puts (payload s.ct (s.inBytes p n)) k := by
  obtain ⟨k, hk, hputs⟩ := State.obcPutBits_fits hs h
  refine ⟨k, ?_, hputs⟩
  rw [State.encodeWindow, State.window_ok hw]
  simp only [encodeBytes_ok hc, State.room_ok h, hk]

end window

/-- ERRINFO of IO(2) (60_exceptions.md R365). -/
theorem State.takeFault_io_faults (s : State) : Faults .io 2 s (s.takeFault (.io 2)) := s.takeFault_faults (.io 2)

end Sys2Proof.Machine

namespace Sys2Proof

open Sys2Proof.Machine

/-- Settles O48, check by check; a put of bits for which there is room appends them to the stream of the output side. -/
theorem encodeWindow : Obligations.EncodeWindow := by
  rintro s a b l hinv rfl
  refine ⟨fun h => ?position, fun hp h => ?length, fun hw => ⟨fun m c n hl hm hc => ?missing,
    fun hall => ⟨fun h => ?put, fun h => ?full⟩⟩⟩
  case position =>
    exact State.precise_outOfRange (congrArg s.precise (State.encodeWindow_raise (State.window_position _ h)))
  case length =>
    exact State.precise_outOfRange (congrArg s.precise (State.encodeWindow_raise (State.window_length hp h)))
  case missing =>
    have he := encodeBytes_missing n hm hc
    rw [← hl] at he
    exact ⟨_, congrArg s.precise (State.encodeWindow_missing hw he), s.takeFault_symbol_faults 0x0F c⟩
  case put =>
    obtain ⟨k, hk, hputs⟩ := State.encodeWindow_ok hw hall hinv.sink_good h
    exact ⟨_, congrArg s.precise hk, s.setSink_completes k, { hputs.appended with }⟩
  case full => exact ⟨_, congrArg s.precise (State.encodeWindow_full hw hall h), s.takeFault_io_faults⟩

end Sys2Proof
end

section
/-! PROOFS. HTDEC: the loop over whole codes, over the beginning of a code, and its one step at a fault; every stream of bits
is the codes of some symbols or has a first fault (44_huffman_tree.md R267, R268). -/

namespace Sys2Proof.Machine

/-! ### The bits of the input cursor -/

/-- The n bits of the input stream from bit k on. -/
def State.bits (s : State) (k n : Nat) : Bits := (List.range' k n).map s.streamBit

@[simp] theorem State.bits_length (s : State) (k n : Nat) : (s.bits k n).length = n := by simp [State.bits]

theorem State.bits_succ (s : State) (k n : Nat) : s.bits k (n + 1) = s.streamBit k :: s.bits (k + 1) n := by
  simp [State.bits, List.range'_succ]

theorem State.bits_add (s : State) (k m n : Nat) : s.bits k (m + n) = s.bits k m ++ s.bits (k + m) n := by
  rw [State.bits, State.bits, State.bits, ← List.map_append, List.range'_append_1]

theorem State.bits_zero_eq (s : State) (n : Nat) : s.bits 0 n = (List.range n).map s.streamBit := by
  rw [State.bits, List.range_eq_range']

/-- A stream that begins with two strings has the second where the first ends. -/
theorem State.bits_append {s : State} {k n : Nat} {w w' : Bits} (h : w ++ w' = s.bits k n) :
    w = s.bits k w.length ∧ w' = s.bits (k + w.length) w'.length ∧ w.length + w'.length = n := by
  have hlen : w.length + w'.length = n := by simpa using congrArg List.length h
  rw [← hlen, s.bits_add] at h
  obtain ⟨hw, hw'⟩ := List.append_inj h (by simp)
  exact ⟨hw, hw', hlen⟩

/-! ### Parses -/

section parses
variable {nodes : List Node} {root : Nat}

theorem Parses.append {w w' : Bits} {l l' : List Byte} (h : Parses nodes root w l) (h' : Parses nodes root w' l') :
    Parses nodes root (w ++ w') (l ++ l') := by
  induction h with
  | done => exact h'
  | symbol code rest c l hne hlead hno _ ih =>
    rw [List.append_assoc]
    exact .symbol code _ c _ hne hlead hno ih

/-- No nonempty beginning of the bits leads to a leaf. -/
def NoLeafOn (nodes : List Node) (root : Nat) (w : Bits) : Prop :=
  ∀ m, 0 < m → m ≤ w.length → ¬ ∃ d, leadsTo nodes root (w.take m) d

theorem NoLeafOn.nil : NoLeafOn nodes root [] := fun m hm hle => absurd hle (by simpa using hm.ne')

theorem NoLeafOn.concat {w : Bits} {b : Bool} (h : NoLeafOn nodes root w) (hb : ¬ ∃ d, leadsTo nodes root (w ++ [b]) d) :
    NoLeafOn nodes root (w ++ [b]) := by
  intro m hm hle
  rw [List.length_append, List.length_singleton] at hle
  rcases hle.eq_or_lt with rfl | hlt
  · rwa [List.take_of_length_le (by simp)]
  · rw [List.take_append_of_le_length (by omega)]
    exact h m hm (by omega)

/-- A string of bits short of its last one. -/
theorem noLeafOn_iff {w : Bits} {b : Bool} : NoLeafOn nodes root w ↔
    ∀ m, 0 < m → m < (w ++ [b]).length → ¬ ∃ d, leadsTo nodes root ((w ++ [b]).take m) d := by
  refine forall₂_congr fun m _ => ?_
  rw [List.length_append, List.length_singleton, Nat.lt_succ_iff]
  refine forall_congr' fun hle => ?_
  rw [List.take_append_of_le_length hle]

theorem NoLeafOn.symAt_none {w : Bits} (hno : NoLeafOn nodes root w) (hne : w ≠ []) {i : Nat}
    (hi : walk nodes root w = some i) : symAt nodes i = none := by
  by_contra hsym
  obtain ⟨c, hc⟩ := Option.ne_none_iff_exists'.1 hsym
  refine hno w.length (List.length_pos_iff.2 hne) le_rfl ⟨c, leadsTo_iff.2 ⟨i, ?_, hc⟩⟩
  rwa [List.take_length]

theorem standsAfter_iff {bits rest : Bits} : standsAfter nodes root bits rest ↔
    ∃ found symbols, bits = found ++ rest ∧ Parses nodes root found symbols ∧ (walk nodes root rest).isSome ∧
      NoLeafOn nodes root rest := Iff.rfl

/-- One bit more: it has no child to select, or it completes a code, or the walk goes on. -/
theorem standsAfter.next {bits rest : Bits} (h : standsAfter nodes root bits rest) (b : Bool) :
    walk nodes root (rest ++ [b]) = none ∨ standsAfter nodes root (bits ++ [b]) [] ∨
      standsAfter nodes root (bits ++ [b]) (rest ++ [b]) := by
  obtain ⟨found, symbols, rfl, hparse, -, hno⟩ := standsAfter_iff.1 h
  by_cases hnone : walk nodes root (rest ++ [b]) = none
  · exact .inl hnone
  right
  by_cases hlead : ∃ d, leadsTo nodes root (rest ++ [b]) d
  · obtain ⟨d, hd⟩ := hlead
    refine .inl (standsAfter_iff.2 ⟨found ++ (rest ++ [b]), symbols ++ [d], by simp, hparse.append ?_, rfl, .nil⟩)
    have hcode := Parses.symbol (rest ++ [b]) [] d [] (by simp) hd (noLeafOn_iff.1 hno) .done
    rwa [List.append_nil] at hcode
  · exact .inr (standsAfter_iff.2 ⟨found, symbols, by simp, hparse, Option.isSome_iff_ne_none.2 hnone, hno.concat hlead⟩)

/-- Along any bits the walk stands somewhere, or an earlier bit had no child to select. -/
theorem standsAfter_or_dead (nodes : List Node) (root : Nat) (bit : Nat → Bool) (n : Nat) :
    (∃ rest, standsAfter nodes root ((List.range n).map bit) rest) ∨
    ∃ k, k < n ∧ ∃ rest, standsAfter nodes root ((List.range k).map bit) rest ∧
      walk nodes root (rest ++ [bit k]) = none := by
  induction n with
  | zero => exact .inl ⟨[], standsAfter_iff.2 ⟨[], [], rfl, .done, rfl, .nil⟩⟩
  | succ n ih =>
    rcases ih with ⟨rest, hstands⟩ | ⟨k, hk, hdead⟩
    · rw [List.range_succ, List.map_append, List.map_singleton]
      rcases hstands.next (bit n) with hdead | hnext | hnext
      · exact .inr ⟨n, Nat.lt_succ_self n, rest, hstands, hdead⟩
      · exact .inl ⟨_, hnext⟩
      · exact .inl ⟨_, hnext⟩
    · exact .inr ⟨k, by omega, hdead⟩

/-- Bits that are not the codes of symbols, or that the source does not have, have a fault. -/
theorem exists_decodeFault {bit : Nat → Bool} {left n : Nat}
    (h : left < n ∨ ¬ ∃ symbols, Parses nodes root ((List.range n).map bit) symbols) :
    ∃ sub k, DecodeFault nodes root bit left n sub k := by
  rcases standsAfter_or_dead nodes root bit (min n left) with ⟨rest, hstands⟩ | ⟨k, hk, rest, hstands, hdead⟩
  · by_cases hleft : left < n
    · rw [min_eq_right hleft.le] at hstands
      exact ⟨0x0E, left, rest, hstands, .inr (.inl ⟨rfl, hleft, rfl⟩)⟩
    · rw [min_eq_left (by omega)] at hstands
      refine ⟨0x0E, n, rest, hstands, .inr (.inr ⟨rfl, rfl, by omega, ?_⟩)⟩
      rintro rfl
      obtain ⟨found, symbols, hbits, hparse, -⟩ := standsAfter_iff.1 hstands
      rw [List.append_nil] at hbits
      exact h.resolve_left hleft ⟨symbols, hbits ▸ hparse⟩
  · exact ⟨0x0D, k, rest, hstands, .inl ⟨rfl, by omega, by omega, hdead⟩⟩

end parses

/-! ### The loop -/

/-- The result of the loop with symbols found before it. -/
def withSymbols (l : List Byte) (r : Except Stop (Ibc × List Byte)) : Except Stop (Ibc × List Byte) :=
  r.map fun p => (p.1, l ++ p.2)

@[simp] theorem withSymbols_ok (l : List Byte) (c : Ibc) (m : List Byte) :
    withSymbols l (.ok (c, m)) = .ok (c, l ++ m) := rfl

@[simp] theorem withSymbols_raise (l : List Byte) (r : Raise) : withSymbols l (raise r) = raise r := rfl

theorem withSymbols_nil (r : Except Stop (Ibc × List Byte)) : withSymbols [] r = r := by cases r <;> rfl

theorem withSymbols_append (l m : List Byte) (r : Except Stop (Ibc × List Byte)) :
    withSymbols l (withSymbols m r) = withSymbols (l ++ m) r := by
  cases r with
  | error e => rfl
  | ok p => simp [withSymbols, Except.map]

section loop
variable {s : State} {nodes : List Node} {root : Nat} {n k j : Nat} {mid : Bool}

/-- The loop at the end of the source. -/
theorem decodeLoop_ended (hk : k = s.streamLeft) :
    decodeLoop s nodes root (n + 1) k j mid (s.streamAt k) = raise (.malformed 0x0E k) := by
  rw [decodeLoop, if_pos (hk ▸ State.streamAt_left)]

variable (hk : k < s.streamLeft) (hj : j < nodes.length)
include hk hj

/-- A bit with no child to select. -/
theorem decodeLoop_dead (hd : childOf nodes j (s.streamBit k) = none) :
    decodeLoop s nodes root (n + 1) k j mid (s.streamAt k) = raise (.malformed 0x0D k) := by
  have hn := List.getElem?_eq_getElem hj
  rw [childOf_get hn] at hd
  simp only [decodeLoop, State.streamAt_on hk, hn, State.streamAt_current hk, hd]
  rfl

/-- A bit that leads to an internal node. -/
theorem decodeLoop_inner {i : Nat} (hi : childOf nodes j (s.streamBit k) = some i) (hlt : i < nodes.length)
    (hsym : symAt nodes i = none) :
    decodeLoop s nodes root (n + 1) k j mid (s.streamAt k) =
      decodeLoop s nodes root n (k + 1) i true (s.streamAt (k + 1)) := by
  have hn := List.getElem?_eq_getElem hj
  have hm := List.getElem?_eq_getElem hlt
  rw [childOf_get hn] at hi
  rw [symAt_get hm, Node.leafSym, ite_eq_right_iff] at hsym
  have hleaf : nodes[i].leaf = false := by
    by_contra hl
    exact nomatch hsym (by simpa using hl)
  simp only [decodeLoop, State.streamAt_on hk, hn, State.streamAt_current hk, hi, hm, hleaf, State.ibcAdvance_streamAt hk]
  rfl

/-- A bit that leads to a leaf. -/
theorem decodeLoop_leaf {i : Nat} (hi : childOf nodes j (s.streamBit k) = some i) {c : Byte}
    (hsym : symAt nodes i = some c) :
    decodeLoop s nodes root (n + 1) k j mid (s.streamAt k) =
      withSymbols [c] (decodeLoop s nodes root n (k + 1) root false (s.streamAt (k + 1))) := by
  have hn := List.getElem?_eq_getElem hj
  obtain ⟨m, hm, hleaf, rfl⟩ := symAt_some.1 hsym
  rw [childOf_get hn] at hi
  simp only [decodeLoop, State.streamAt_on hk, hn, State.streamAt_current hk, hi, hm, hleaf, State.ibcAdvance_streamAt hk]
  cases decodeLoop s nodes root n (k + 1) root false (s.streamAt (k + 1)) <;> rfl

end loop

section rooted
variable {s : State} {nodes : List Node} {root : Nat} {up : Nat → Nat → Prop} (h : Rooted nodes root up) {k : Nat}
include h

/-- The loop over the beginning of a code stands at the node it leads to. -/
theorem Rooted.decodeLoop_rest {w : Bits} {i : Nat} (hw : walk nodes root w = some i) (hno : NoLeafOn nodes root w)
    (hbits : w = s.bits k w.length) (hleft : k + w.length ≤ s.streamLeft) (n : Nat) :
    decodeLoop s nodes root (w.length + n) k root false (s.streamAt k) =
      decodeLoop s nodes root n (k + w.length) i (!w.isEmpty) (s.streamAt (k + w.length)) := by
  induction w using List.reverseRecOn generalizing i n with
  | nil =>
    obtain rfl := Option.some_inj.1 hw
    simp
  | append_singleton w b ih =>
    obtain ⟨p, hp, hi⟩ := walk_concat_some.1 hw
    obtain ⟨hwbits, hb, -⟩ := State.bits_append hbits
    rw [List.length_append, List.length_singleton] at hleft ⊢
    have hbit : b = s.streamBit (k + w.length) := by simpa [State.bits] using hb
    have hnow : NoLeafOn nodes root w := noLeafOn_iff.2 fun m hm hlt => hno m hm hlt.le
    rw [Nat.add_assoc, Nat.add_comm 1 n, ih hp hnow hwbits (by omega),
      decodeLoop_inner (by omega) (h.walk_lt_length h.rootLt hp) (hbit ▸ hi) (h.childOf_lt_length hi)
        (hno.symAt_none (by simp) hw)]
    have hmid : (!(w ++ [b]).isEmpty) = true := by simp
    rw [hmid, Nat.add_assoc]

/-- The loop over whole codes finds their symbols. -/
theorem Rooted.decodeLoop_found {w : Bits} {l : List Byte} (hp : Parses nodes root w l) (hbits : w = s.bits k w.length)
    (hleft : k + w.length ≤ s.streamLeft) (n : Nat) :
    decodeLoop s nodes root (w.length + n) k root false (s.streamAt k) =
      withSymbols l (decodeLoop s nodes root n (k + w.length) root false (s.streamAt (k + w.length))) := by
  induction hp generalizing k with
  | done => simp [withSymbols_nil]
  | symbol code rest c l hne hlead hno _ ih =>
    obtain ⟨i, hi, hc⟩ := leadsTo_iff.1 hlead
    obtain ⟨hcode, hrest, hlen⟩ := State.bits_append hbits
    obtain ⟨w, b, rfl⟩ := (List.eq_nil_or_concat' code).resolve_left hne
    obtain ⟨p, hp, hpi⟩ := walk_concat_some.1 hi
    obtain ⟨hwbits, hb, -⟩ := State.bits_append hcode
    have hbit : b = s.streamBit (k + w.length) := by simpa [State.bits] using hb
    simp only [List.length_append, List.length_singleton] at hleft hrest ⊢
    rw [show w.length + 1 + rest.length + n = w.length + (rest.length + n + 1) by omega,
      h.decodeLoop_rest hp (noLeafOn_iff.2 hno) hwbits (by omega),
      decodeLoop_leaf (by omega) (h.walk_lt_length h.rootLt hp) (hbit ▸ hpi) hc]
    rw [show k + w.length + 1 = k + (w.length + 1) by omega, ih hrest (by omega), withSymbols_append]
    simp [Nat.add_assoc]

/-- Bits that are the codes of symbols decode to them. -/
theorem Rooted.decodeLoop_parses {n : Nat} {l : List Byte} (hp : Parses nodes root (s.bits 0 n) l)
    (hleft : n ≤ s.streamLeft) : decodeLoop s nodes root n 0 root false s.ibc = .ok (s.streamAt n, l) := by
  have hfound := h.decodeLoop_found (s := s) (k := 0) hp (by simp) (by simpa using hleft) 0
  rw [State.streamAt_zero] at hfound
  simpa [decodeLoop] using hfound

/-- Where decoding goes wrong the loop raises the fault. -/
theorem Rooted.decodeLoop_fault {n sub k : Nat} (hf : DecodeFault nodes root s.streamBit s.streamLeft n sub k) :
    decodeLoop s nodes root n 0 root false s.ibc = raise (.malformed sub k) := by
  obtain ⟨rest, hstands, hcase⟩ := hf
  obtain ⟨found, symbols, hsplit, hparse, hwalk, hno⟩ := standsAfter_iff.1 hstands
  rw [← s.bits_zero_eq] at hsplit
  obtain ⟨hfound, hrest, hlen⟩ := State.bits_append hsplit.symm
  obtain ⟨i, hi⟩ := Option.isSome_iff_exists.1 hwalk
  have hleft : k ≤ s.streamLeft := by omega
  obtain ⟨m, rfl⟩ : ∃ m, n = k + m := Nat.exists_eq_add_of_le (by omega)
  have hloop : decodeLoop s nodes root (k + m) 0 root false s.ibc =
      withSymbols symbols (decodeLoop s nodes root m k i (!rest.isEmpty) (s.streamAt k)) := by
    rw [← hlen, Nat.add_assoc, ← State.streamAt_zero, h.decodeLoop_found hparse hfound (by omega),
      h.decodeLoop_rest hi hno hrest (by omega), Nat.zero_add]
  rw [hloop]
  rcases hcase with ⟨rfl, hkn, hkl, hdead⟩ | ⟨rfl, hkn, hkl⟩ | ⟨rfl, hkn, -, hne⟩
  · obtain ⟨m, rfl⟩ := Nat.exists_eq_add_of_lt (show 0 < m by omega)
    rw [walk_concat, hi, Option.bind_some] at hdead
    rw [Nat.zero_add, decodeLoop_dead hkl (h.walk_lt_length h.rootLt hi) hdead, withSymbols_raise]
  · obtain ⟨m, rfl⟩ := Nat.exists_eq_add_of_lt (show 0 < m by omega)
    rw [Nat.zero_add, decodeLoop_ended hkl, withSymbols_raise]
  · obtain rfl : m = 0 := by omega
    have hmid : (!rest.isEmpty) = true := by simpa using hne
    rw [decodeLoop, if_pos hmid, withSymbols_raise]

end rooted

/-! ### HTDEC -/

theorem byteBits_length (y : Byte) : (byteBits y).length = 8 := by simp [byteBits]

@[simp] theorem bytesBits_length (l : List Byte) : (bytesBits l).length = 8 * l.length := by
  induction l with
  | nil => rfl
  | cons y l ih =>
    rw [bytesBits, List.flatMap_cons, List.length_append, byteBits_length, ← bytesBits, ih, List.length_cons]
    omega

section command
variable {s : State} {r n : Nat} (ht : s.tstate = .tree ∨ s.tstate = .coded ∨ s.tstate = .dict)
include ht

theorem State.has_tree : ¬ (s.tstate = .empty ∨ s.tstate = .leaves) := by
  rcases ht with ht | ht | ht <;> simp [ht]

theorem State.decodePayload_zero : s.decodePayload 0 = .ok s := by
  rw [State.decodePayload, if_neg (State.has_tree ht), if_pos rfl]

variable (hn : n ≠ 0)
include hn

theorem State.decodePayload_noRoot (hroot : s.root = none) : s.decodePayload n = raise (.malformed 0x0C 0) := by
  rw [State.decodePayload, if_neg (State.has_tree ht), if_neg hn, hroot]

variable (hroot : s.root = some r)
include hroot

theorem State.decodePayload_raise {e : Raise} (h : decodeLoop s s.nodes r n 0 r false s.ibc = raise e) :
    s.decodePayload n = raise e := by
  rw [State.decodePayload, if_neg (State.has_tree ht), if_neg hn, hroot]
  simp only [h]
  rfl

variable {cur : Ibc} {l : List Byte} (h : decodeLoop s s.nodes r n 0 r false s.ibc = .ok (cur, l))
include h

theorem State.decodePayload_full (hroom : s.outCap.val < s.outLen.toNat + l.length) :
    s.decodePayload n = raise (.io 2) := by
  rw [State.decodePayload, if_neg (State.has_tree ht), if_neg hn, hroot]
  simp only [h, State.room_full hroom]
  rfl

theorem State.decodePayload_ok (hs : s.sink.Good) (hroom : s.outLen.toNat + l.length ≤ s.outCap.val) :
    ∃ k, s.decodePayload n = .ok { s.setSink k with ibc := cur } ∧ s.sink.Puts (bytesBits l) k := by
  have hnb := s.obc.nb.isLt
  obtain ⟨k, hk, hputs⟩ := State.obcPutBits_fits hs (l := bytesBits l) (by rw [bytesBits_length]; omega)
  refine ⟨k, ?_, hputs⟩
  rw [State.decodePayload, if_neg (State.has_tree ht), if_neg hn, hroot]
  simp only [h, State.room_ok hroom, obcPutBytes, hk]

end command

theorem State.setSink_ibc_completes (s : State) (k : Sink) (c : Ibc) :
    Completes [] [] [.ibc, .obc, .out] s ({ s.setSink k with ibc := c } : State).complete :=
  have h : SameBut [] [] [.ibc, .obc, .out] s { s.setSink k with ibc := c } :=
    { SameBut.refl s with ibc := .inl (by decide), obc := .inl (by decide), out := .inl (by decide) }
  h.completes rfl rfl rfl

/-- The arena of a tree with a root is rooted. -/
theorem Arena.rooted {s : State} (h : Arena s) (ht : s.tstate = .tree ∨ s.tstate = .coded ∨ s.tstate = .dict) {r : Nat}
    (hr : s.root = some r) : ∃ up, Rooted s.nodes r up := by
  have hdata (hd : s.tstate = .tree ∨ s.tstate = .coded) : ∃ up, Rooted s.nodes r up := by
    rcases h.data hd with ⟨-, hnone⟩ | ⟨hlast, -, hrooted, -⟩
    · exact nomatch hnone.symm.trans hr
    · obtain rfl := Option.some_inj.1 (hlast.symm.trans hr)
      exact ⟨_, hrooted⟩
  rcases ht with hd | hd | hd
  · exact hdata (.inl hd)
  · exact hdata (.inr hd)
  · rcases h.dict hd with ⟨-, hnone⟩ | ⟨hzero, -, hrooted, -⟩
    · exact nomatch hnone.symm.trans hr
    · obtain rfl := Option.some_inj.1 (hzero.symm.trans hr)
      exact ⟨_, hrooted⟩

end Sys2Proof.Machine

namespace Sys2Proof

open Sys2Proof.Machine

/-- Settles O49: the loop runs through the whole codes, then through the beginning of the next one, and there ends or faults
in one step; and along any bits there is a code's end, a dead end or the end of the source. -/
theorem decodePayload : Obligations.DecodePayload := by
  intro s a hinv harena ht
  refine ⟨fun h0 => ?empty, fun hn hroot => ?noRoot, fun r hn hroot => ?walk⟩
  case empty =>
    have hexec : exec (.htdec a) s = s.precise (s.decodePayload 0) :=
      congrArg (fun n => s.precise (s.decodePayload n)) h0
    exact ⟨_, hexec.trans (congrArg s.precise (State.decodePayload_zero ht)), (SameBut.refl s).completes rfl rfl rfl⟩
  case noRoot =>
    exact ⟨_, congrArg s.precise (State.decodePayload_noRoot ht hn hroot), s.takeFault_malformed_faults 0x0C 0⟩
  case walk =>
    obtain ⟨up, hr⟩ := harena.rooted ht hroot
    refine ⟨fun symbols hleft hparse => ?_, exists_decodeFault, fun sub k hf => ?_⟩
    · rw [← s.bits_zero_eq] at hparse
      have hloop := hr.decodeLoop_parses hparse hleft
      refine ⟨fun hroom => ?_, fun hroom => ?_⟩
      · obtain ⟨k, hk, hputs⟩ := State.decodePayload_ok ht hn hroot hloop hinv.sink_good hroom
        exact ⟨_, congrArg s.precise hk, s.setSink_ibc_completes k _, { hputs.appended with }, rfl⟩
      · exact ⟨_, congrArg s.precise (State.decodePayload_full ht hn hroot hloop hroom), s.takeFault_io_faults⟩
    · exact ⟨_, congrArg s.precise (State.decodePayload_raise ht hn hroot (hr.decodeLoop_fault hf)),
        s.takeFault_malformed_faults sub k⟩

end Sys2Proof
end

section
/-! PROOFS. The round trip of HTSETDATA, HTENC and OBFLUSH with IBINIT and HTDEC: the bytes of OUT and of IN as bit strings,
and that a tree whose paths are the codes of a table parses what the table encodes (44_huffman_tree.md R264, R269). -/

namespace Sys2Proof.Machine

/-! ### Bytes as bits (20_memory.md R86) -/

/-- Bit i of a byte string, MSB first. -/
theorem bytesBits_get? (l : List Byte) (i : Nat) :
    (bytesBits l)[i]? = l[i / 8]?.map fun y => y.getLsbD (7 - i % 8) := by
  induction l generalizing i with
  | nil => simp [bytesBits]
  | cons y l ih =>
    rw [bytesBits, List.flatMap_cons, ← bytesBits]
    rcases Nat.lt_or_ge i 8 with hi | hi
    · rw [List.getElem?_append_left (by rwa [byteBits_length]), Nat.div_eq_of_lt hi, Nat.mod_eq_of_lt hi]
      simp [byteBits, hi]
    · rw [List.getElem?_append_right (by rwa [byteBits_length]), byteBits_length, ih,
        show i / 8 = (i - 8) / 8 + 1 by omega, show (i - 8) % 8 = i % 8 by omega, List.getElem?_cons_succ]

theorem bytesBits_injective : Function.Injective bytesBits := by
  intro l m h
  refine List.ext_getElem? fun j => ?_
  have hlen : l.length = m.length := by
    have := congrArg List.length h
    rw [bytesBits_length, bytesBits_length] at this
    omega
  rcases Nat.lt_or_ge j l.length with hj | hj
  · rw [List.getElem?_eq_getElem hj, List.getElem?_eq_getElem (hlen ▸ hj)]
    refine congrArg some (BitVec.eq_of_getLsbD_eq fun i hi => ?_)
    have hbit := congrArg (fun w : Bits => w[8 * j + (7 - i)]?) h
    simp only [bytesBits_get?, show (8 * j + (7 - i)) / 8 = j by omega, show 7 - (8 * j + (7 - i)) % 8 = i by omega,
      List.getElem?_eq_getElem hj, List.getElem?_eq_getElem (hlen ▸ hj), Option.map_some, Option.some_inj] at hbit
    exact hbit
  · rw [List.getElem?_eq_none hj, List.getElem?_eq_none (hlen ▸ hj)]

/-- Whole bytes put on an empty OBC stand in OUT from OUT_LEN on (45_bit_cursors.md R299). -/
theorem Sink.Puts.outBytes {s t : State} {w : Bits} {m : Nat} (h : s.sink.Puts w t.sink) (hs : s.obc.nb = 0)
    (hw : w.length = 8 * m) :
    t.outLen.toNat = s.outLen.toNat + m ∧ bytesBits (t.outBytes s.outLen.toNat m) = w := by
  have htotal : 8 * t.outLen.toNat + t.obc.nb.toNat = 8 * s.outLen.toNat + s.obc.nb.toNat + w.length := h.total
  have hnb := t.obc.nb.isLt
  rw [hs, show (0 : BitVec 3).toNat = 0 from rfl] at htotal
  have hlen : t.outLen.toNat = s.outLen.toNat + m := by omega
  refine ⟨hlen, List.ext_getElem? fun i => ?_⟩
  rcases Nat.lt_or_ge i w.length with hi | hi
  · have hstart : s.sink.total = 8 * s.outLen.toNat := by
      rw [Sink.total, State.sink, hs]
      rfl
    have hend : t.sink.total = 8 * s.outLen.toNat + w.length := hstart ▸ h.total
    have hbit := h.bit (8 * s.outLen.toNat + i) (by omega)
    rw [if_neg (by omega), hstart, Nat.add_sub_cancel_left] at hbit
    rw [bytesBits_get?, State.outBytes_get? t (by omega), List.getElem?_eq_getElem hi, Option.map_some, Option.some_inj,
      ← List.getD_eq_getElem w false hi, ← hbit]
    have hin : (8 * s.outLen.toNat + i) / 8 < t.sink.len.toNat := by
      show _ < t.outLen.toNat
      omega
    rw [Sink.bit, if_pos hin, show (8 * s.outLen.toNat + i) / 8 = s.outLen.toNat + i / 8 by omega,
      show (8 * s.outLen.toNat + i) % 8 = i % 8 by omega]
    rfl
  · rw [List.getElem?_eq_none hi, List.getElem?_eq_none (by simpa [← hw] using hi)]

/-- After IbcLoad of a byte of IN the stream is the rest of IN (45_bit_cursors.md R290). -/
theorem State.stream_load {s : State} {p : Nat} (hp : p < s.inLen.toNat) (hs : s.ibc = s.ibcLoad p) :
    s.streamLeft = 8 * (s.inLen.toNat - p) ∧ ∀ k, s.streamBit k = (s.inByte (p + k / 8)).getLsbD (7 - k % 8) := by
  have hlt := s.inLen.isLt
  have hibc : s.ibc = ⟨false, BitVec.ofNat 32 p, 0, s.inByte p⟩ := hs.trans (if_pos hp)
  have hpos : (BitVec.ofNat 32 p).toNat = p := by rw [BitVec.toNat_ofNat, Nat.mod_eq_of_lt (by omega)]
  constructor
  · simp [State.streamLeft, hibc, hpos, hp]
  · intro k
    simp only [State.streamBit, hibc, hpos, show (0 : BitVec 3).toNat = 0 from rfl, Nat.zero_add]
    split
    · rw [Nat.div_eq_of_lt ‹_›, Nat.mod_eq_of_lt ‹_›, Nat.add_zero]
    · rfl

/-- The bits it gives are those of the bytes of IN. -/
theorem State.bits_load {s : State} {p m n : Nat} (hp : p < s.inLen.toNat) (hs : s.ibc = s.ibcLoad p) (hn : n ≤ 8 * m) :
    s.bits 0 n = (bytesBits (s.inBytes p m)).take n := by
  obtain ⟨-, hbit⟩ := State.stream_load hp hs
  refine List.ext_getElem? fun i => ?_
  rcases Nat.lt_or_ge i n with hi | hi
  · rw [List.getElem?_take_of_lt hi, bytesBits_get?, State.inBytes_get? s (by omega)]
    simp [State.bits_zero_eq, hi, hbit]
  · rw [List.getElem?_eq_none (by simpa using hi), List.getElem?_eq_none (by simp; omega)]

/-! ### A tree whose paths are the codes of a table -/

/-- Every code of the table is the path to a leaf with its symbol (44_huffman_tree.md R263). -/
structure TreeFor (nodes : List Node) (root : Link) (table : Vector Bits 256) : Prop where
  rooted : ∀ r, root = some r → ∃ up, Rooted nodes r up
  leads : ∀ c, entry table c ≠ [] → ∃ r, root = some r ∧ leadsTo nodes r (entry table c) c

theorem Derived.treeFor {nodes : List Node} {root : Link} {table : Vector Bits 256} (h : Derived nodes root table)
    (ha : DataArena nodes root) : TreeFor nodes root table where
  rooted r hr := by
    rcases ha with ⟨-, hnone⟩ | ⟨hlast, -, hrooted, -⟩
    · exact nomatch hnone.symm.trans hr
    · obtain rfl := Option.some_inj.1 (hlast.symm.trans hr)
      exact ⟨_, hrooted⟩
  leads _ hc := h.leadsTo hc

theorem TrieOf.treeFor {nodes : List Node} {table : Vector Bits 256}
    (h : TrieOf table (fun c => entry table c ≠ []) [] nodes) : TreeFor nodes (some 0) table where
  rooted := by
    rintro _ ⟨⟩
    exact ⟨_, h.trie.rooted⟩
  leads c hc := ⟨0, rfl, (h.leads _ c).2 ⟨hc, rfl⟩⟩

/-- A table without clashes gets its tree back from HTSETDICT (44_huffman_tree.md R264). -/
theorem exists_rebuildTree {table : Vector Bits 256} (h : prefixFree table) :
    ∃ nodes root, rebuildTree table = .ok (nodes, root) ∧ TreeFor nodes root table := by
  rcases rebuildTree_eq table with ⟨hnil, he⟩ | ⟨-, nodes, he, ht, -⟩ | ⟨d, hd, -⟩
  · exact ⟨[], none, he, nofun, fun c hc => absurd (mem_coded.2 hc) (by simp [hnil])⟩
  · exact ⟨nodes, some 0, he, ht.treeFor⟩
  · exact absurd h (not_prefixFree_of_firstClash hd)

/-- What the table encodes, the tree parses. -/
theorem TreeFor.parses {nodes : List Node} {r : Nat} {table : Vector Bits 256} (h : TreeFor nodes (some r) table)
    {l : List Byte} (hl : ∀ c ∈ l, entry table c ≠ []) : Parses nodes r (payload table l) l := by
  obtain ⟨up, hr⟩ := h.rooted r rfl
  induction l with
  | nil => exact .done
  | cons c l ih =>
    obtain ⟨hc, hl⟩ := List.forall_mem_cons.1 hl
    obtain ⟨_, ⟨⟩, hlead⟩ := h.leads c hc
    refine .symbol (entry table c) _ c l hc hlead (fun m _ hm => ?_) (ih hl)
    rintro ⟨d, hd⟩
    have hlen := congrArg List.length (hr.leadsTo_prefix hd hlead (List.take_prefix m _)).1
    rw [List.length_take] at hlen
    omega

/-! ### The two halves of the round trip -/

theorem State.encodeWindow_completed {s u : State} {p n : Nat} (hs : s.sink.Good) (h : s.encodeWindow p n = .ok u) :
    (∀ c ∈ s.inBytes p n, entry s.ct c ≠ []) ∧ ∃ k, u = s.setSink k ∧ s.sink.Puts (payload s.ct (s.inBytes p n)) k := by
  rcases s.window_raise_or_inside p n with ⟨r, hw⟩ | hw
  · exact nomatch (State.encodeWindow_raise hw).symm.trans h
  rcases encodeBytes_eq s.ct (s.inBytes p n) with ⟨hc, -⟩ | ⟨m, c, r, -, -, -, he⟩
  · rcases Nat.lt_or_ge s.outCap.val
        (s.outLen.toNat + (s.obc.nb.toNat + (payload s.ct (s.inBytes p n)).length) / 8) with hroom | hroom
    · exact nomatch (State.encodeWindow_full hw hc hroom).symm.trans h
    · obtain ⟨k, hk, hputs⟩ := State.encodeWindow_ok hw hc hs hroom
      exact ⟨hc, k, by cases hk.symm.trans h; rfl, hputs⟩
  · exact nomatch (State.encodeWindow_missing hw he).symm.trans h

/-- A run that ends without ERR has completed its first command. -/
theorem execAll_completed {i : Instr} {l : List Instr} {s t : State} (h : execAll (i :: l) s = .next t)
    (ht : t.status.err = false) : ∃ v, exec i s = .next v ∧ v.status.err = false ∧ execAll l v = .next t := by
  rw [execAll] at h
  split at h
  next v hv =>
    cases he : v.status.err with
    | true =>
      rw [he, if_pos rfl] at h
      cases h
      exact nomatch he.symm.trans ht
    | false => exact ⟨v, hv, he, by simpa [he] using h⟩
  · exact nomatch h
  · exact nomatch h

theorem exec_htsetdata_completed {s t : State} {a b : XReg} (h : exec (.htsetdata a b) s = .next t)
    (ht : t.status.err = false) : ∃ freq nodes root table, t = (s.withData freq nodes root table).complete ∧
      DataArena nodes root ∧ Derived nodes root table := by
  obtain ⟨u, hu, rfl⟩ := State.precise_completed (result := s.setData (s.operand a) (s.operand b)) h ht
  obtain ⟨freq, nodes, root, table, hb, hd, rfl⟩ := s.setData_yields _ _ u hu
  have hdata := (fillLeaves_leafArena freq).buildTree _ hb
  exact ⟨freq, nodes, root, table, rfl, hdata, hdata.derived hd⟩

/-- OBFLUSH completes a byte with zeros and counts them (45_bit_cursors.md R303). -/
theorem exec_obflush_completed {s t : State} {d : XReg} (hs : s.sink.Good) (h : exec (.obflush d) s = .next t)
    (ht : t.status.err = false) :
    s.sink.Puts (List.replicate s.sink.gap false) t.sink ∧ t.obc.nb = 0 ∧ (t.getX d).toNat = s.sink.gap ∧
      t.nodes = s.nodes ∧ t.root = s.root ∧ t.tstate = s.tstate ∧ t.ct = s.ct := by
  obtain ⟨-, h⟩ := State.precise_check_completed (s := s) h ht
  have hgap : s.sink.gap < 8 := Nat.mod_lt _ (by decide)
  rcases obcFlush_eq s.outCap_lt hs with ⟨-, k, hk, hputs, hobc⟩ | ⟨-, -, hk⟩
  · rw [hk] at h
    cases h
    refine ⟨hputs, congrArg Obc.nb hobc, ?_, rfl, rfl, rfl, rfl⟩
    refine (congrArg BitVec.toNat ((s.setSink k).getX_setX_same d (BitVec.ofNat 32 s.sink.gap))).trans ?_
    rw [BitVec.toNat_ofNat, Nat.mod_eq_of_lt (by omega)]
  · rw [hk] at h
    cases h
    exact nomatch ht

/-- The encoding half: the bits of the bytes appended are the codes of the window and the padding, and the tree fits the
table. -/
theorem encode_half {s t : State} {a b d : XReg} (hinv : Inv s) (hobc : s.obc = ⟨0, 0⟩)
    (h : execAll [.htsetdata a b, .htenc a b, .obflush d] s = .next t) (ht : t.status.err = false) :
    (∀ c ∈ s.inBytes (s.operand a) (s.operand b), entry t.ct c ≠ []) ∧
    bytesBits (t.outBytes s.outLen.toNat (t.outLen.toNat - s.outLen.toNat)) =
      payload t.ct (s.inBytes (s.operand a) (s.operand b)) ++ List.replicate (t.getX d).toNat false ∧
    t.tstate = .coded ∧ TreeFor t.nodes t.root t.ct ∧ prefixFree t.ct := by
  obtain ⟨s1, h1, hs1, h⟩ := execAll_completed h ht
  obtain ⟨freq, nodes, root, table, rfl, hdata, hderived⟩ := exec_htsetdata_completed h1 hs1
  obtain ⟨s2, h2, hs2, h⟩ := execAll_completed h ht
  obtain ⟨u, hu, rfl⟩ := State.precise_completed (result := State.encodeWindow _ _ _) h2 hs2
  obtain ⟨hc, k, rfl, hputs⟩ :=
    State.encodeWindow_completed (s := (s.withData freq nodes root table).complete) hinv.sink_good hu
  obtain ⟨s3, h3, hs3, h⟩ := execAll_completed h ht
  cases h
  obtain ⟨hflush, hnb, hgap, hnodes, hroot, htstate, hct⟩ :=
    exec_obflush_completed (s := ((s.withData freq nodes root table).complete.setSink k).complete) hputs.good h3 hs3
  rw [hct, hnodes, hroot, htstate, hgap]
  refine ⟨hc, ?_, rfl, hderived.treeFor hdata, hderived.prefixFree hdata⟩
  have hall : s.sink.Puts (payload table (s.inBytes (s.operand a) (s.operand b)) ++ List.replicate k.gap false) t.sink :=
    hputs.trans hflush
  have htotal := hall.total
  rw [Sink.total, Sink.total, show t.sink.obc.nb = 0 from hnb, show s.sink.obc.nb = 0 from congrArg Obc.nb hobc] at htotal
  simp only [State.sink, show (0 : BitVec 3).toNat = 0 from rfl] at htotal
  obtain ⟨-, hbits⟩ := hall.outBytes (m := t.outLen.toNat - s.outLen.toNat) (congrArg Obc.nb hobc) (by omega)
  exact hbits

/-- HTDEC of the codes of a message gives the message. -/
theorem TreeFor.exec_htdec {v : State} {table : Vector Bits 256} {l : List Byte} {n : XReg}
    (h : TreeFor v.nodes v.root table) (ht : v.tstate = .tree ∨ v.tstate = .coded ∨ v.tstate = .dict)
    (hl : ∀ c ∈ l, entry table c ≠ []) (hgood : v.sink.Good) (hobc : v.obc.nb = 0) (herr : v.status.err = false)
    (hbits : v.bits 0 (v.operand n) = payload table l) (hleft : v.operand n ≤ v.streamLeft)
    (hroom : v.outLen.toNat + l.length ≤ v.outCap.val) :
    ∃ u, exec (.htdec n) v = .next u ∧ u.status.err = false ∧ u.outLen.toNat = v.outLen.toNat + l.length ∧
      u.outBytes v.outLen.toNat l.length = l := by
  have hlen : v.operand n = (payload table l).length := by rw [← hbits, State.bits_length]
  cases l with
  | nil =>
    have hexec : exec (.htdec n) v = v.precise (v.decodePayload 0) :=
      congrArg (fun m => v.precise (v.decodePayload m)) hlen
    exact ⟨_, hexec.trans (congrArg v.precise (State.decodePayload_zero ht)), herr, rfl, rfl⟩
  | cons c l =>
    obtain ⟨hc, -⟩ := List.forall_mem_cons.1 hl
    obtain ⟨r, hroot, -⟩ := h.leads c hc
    have hn : v.operand n ≠ 0 := by
      have := List.length_pos_iff.2 hc
      rw [hlen, payload, List.flatMap_cons, List.length_append]
      omega
    rw [hroot] at h
    obtain ⟨up, hr⟩ := h.rooted r rfl
    have hloop := hr.decodeLoop_parses (hbits ▸ h.parses hl) hleft
    obtain ⟨k, hk, hputs⟩ := State.decodePayload_ok ht hn hroot hloop hgood hroom
    obtain ⟨hout, hbytes⟩ := Sink.Puts.outBytes (t := State.complete { v.setSink k with ibc := v.streamAt (v.operand n) })
      hputs hobc (bytesBits_length _)
    exact ⟨_, congrArg v.precise hk, herr, hout, bytesBits_injective hbytes⟩

/-- The decoding half: IBINIT at 0 and HTDEC over IN, the padding left out. -/
theorem TreeFor.decode_half {v : State} {table : Vector Bits 256} {l : List Byte} {e n : XReg} {q : Nat}
    (h : TreeFor v.nodes v.root table) (ht : v.tstate = .tree ∨ v.tstate = .coded ∨ v.tstate = .dict)
    (hl : ∀ c ∈ l, entry table c ≠ []) (hgood : v.sink.Good) (hobc : v.obc.nb = 0) (herr : v.status.err = false)
    (hin : bytesBits (v.inBytes 0 v.inLen.toNat) = payload table l ++ List.replicate q false) (he : v.operand e = 0)
    (hn : v.operand n + q = 8 * v.inLen.toNat) (hroom : v.outLen.toNat + l.length ≤ v.outCap.val) :
    ∃ u, execAll [.ibinit e, .htdec n] v = .next u ∧ u.status.err = false ∧
      u.outLen.toNat = v.outLen.toNat + l.length ∧ u.outBytes v.outLen.toNat l.length = l := by
  have hinit : exec (.ibinit e) v = .next (State.complete { v with ibc := v.ibcLoad 0 }) := by
    rw [← he]
    rfl
  have hlen := congrArg List.length hin
  rw [bytesBits_length, State.inBytes_length, List.length_append, List.length_replicate] at hlen
  have hbits : State.bits { v with ibc := v.ibcLoad 0 } 0 (v.operand n) = payload table l ∧
      v.operand n ≤ State.streamLeft { v with ibc := v.ibcLoad 0 } := by
    rcases Nat.eq_zero_or_pos v.inLen.toNat with h0 | hpos
    · have hn0 : v.operand n = 0 := by omega
      rw [hn0]
      exact ⟨(List.length_eq_zero_iff.1 (by omega)).symm, Nat.zero_le _⟩
    · have hload := State.bits_load (s := { v with ibc := v.ibcLoad 0 }) (m := v.inLen.toNat) (n := v.operand n) hpos rfl
        (by omega)
      obtain ⟨hleft, -⟩ := State.stream_load (s := { v with ibc := v.ibcLoad 0 }) hpos rfl
      refine ⟨hload.trans ?_, by rw [hleft]; simp only; omega⟩
      show (bytesBits (v.inBytes 0 v.inLen.toNat)).take (v.operand n) = _
      rw [hin, List.take_append_of_le_length (by omega), List.take_of_length_le (by omega)]
  obtain ⟨u, hu, huerr, hlenu, hbytes⟩ := TreeFor.exec_htdec (v := State.complete { v with ibc := v.ibcLoad 0 }) h ht hl
    hgood hobc herr hbits.1 hbits.2 hroom
  refine ⟨u, ?_, huerr, hlenu, hbytes⟩
  rw [execAll_cons hinit herr, execAll_cons hu huerr]
  rfl

end Sys2Proof.Machine

namespace Sys2Proof

open Sys2Proof.Machine

/-- Settles O60: OUT holds the codes and the padding, HTDEC reads the codes, and both trees have the codes of the table as
their paths. -/
theorem encodeDecodeRoundTrip : Obligations.EncodeDecodeRoundTrip := by
  rintro s t v a b d e n l bytes hinv hs hobc rfl hexec ht rfl hinv' herr hobc' hin he hn hroom
  obtain ⟨hl, hbits, hcoded, htree, hfree⟩ := encode_half hinv hobc hexec ht
  have hnb : v.obc.nb = 0 := congrArg Obc.nb hobc'
  have hlen : v.operand n + (t.getX d).toNat = 8 * v.inLen.toNat := by
    rw [hn, ← hin, State.inBytes_length]
  rw [← hin] at hbits
  refine ⟨fun ⟨hnodes, hroot, htstate⟩ => ?original, fun hct => ?rebuilt⟩
  case original =>
    rw [← hnodes, ← hroot] at htree
    exact htree.decode_half (.inr (.inl (htstate.trans hcoded))) hl hinv'.sink_good hnb herr hbits he hlen hroom
  case rebuilt =>
    obtain ⟨nodes, root, hb, htree⟩ := exists_rebuildTree hfree
    have hdict : exec .htsetdict v = .next (v.withDict nodes root).complete :=
      congrArg v.precise (State.setDict_ok (hct ▸ hb))
    rw [execAll_cons hdict herr]
    exact TreeFor.decode_half (v := (v.withDict nodes root).complete) htree (.inr (.inr rfl)) hl hinv'.sink_good hnb herr
      hbits he hlen hroom

end Sys2Proof
end

section
/-! PROOFS. The commands that read or write one entry of a table, and the commands that read the arena
(44_huffman_tree.md R242 to R248, R270 to R272). -/

namespace Sys2Proof.Machine

/-! ### One entry of FREQ or CT -/

theorem State.symbol_ok {s : State} {a : XReg} {c : Byte} (h : s.operand a = c.toNat) : s.symbol a = .ok c := by
  rcases s.symbol_eq a with ⟨hgt, -⟩ | ⟨d, hd, he⟩
  · omega
  · rwa [BitVec.eq_of_toNat_eq (hd.trans h)] at he

theorem State.symbol_outOfRange {s : State} {a : XReg} (h : 255 < s.operand a) :
    s.symbol a = raise (.outOfRange (s.operand a)) := if_pos h

section symbol
variable {s : State} {a b : XReg} {r : BsReg}

section ok
variable {c : Byte} (h : s.operand a = c.toNat)
include h

theorem exec_fqwr_ok : exec (.fqwr a b) s = s.precise (.ok (s.withFreq (setEntry s.freq c (s.getX b)))) := by
  show execFqwr a b s = _
  rw [execFqwr, State.symbol_ok h]
  rfl

theorem exec_fqrd_ok : exec (.fqrd b a) s = s.precise (.ok (s.setX b (entry s.freq c))) := by
  show execFqrd b a s = _
  rw [execFqrd, State.symbol_ok h]

theorem exec_ctwr_ok : exec (.ctwr a r) s = s.precise (.ok { s with ct := setEntry s.ct c (s.getBs r) }) := by
  show execCtwr a r s = _
  rw [execCtwr, State.symbol_ok h]

theorem exec_ctrd_ok : exec (.ctrd r a) s = s.precise (.ok (s.setBs r (entry s.ct c))) := by
  show execCtrd r a s = _
  rw [execCtrd, State.symbol_ok h]

end ok

section outOfRange
variable (h : 255 < s.operand a)
include h

theorem exec_fqwr_outOfRange : exec (.fqwr a b) s = s.precise (raise (.outOfRange (s.operand a))) := by
  show execFqwr a b s = _
  rw [execFqwr, State.symbol_outOfRange h]
  rfl

theorem exec_fqrd_outOfRange : exec (.fqrd b a) s = s.precise (raise (.outOfRange (s.operand a))) := by
  show execFqrd b a s = _
  rw [execFqrd, State.symbol_outOfRange h]
  rfl

theorem exec_ctwr_outOfRange : exec (.ctwr a r) s = s.precise (raise (.outOfRange (s.operand a))) := by
  show execCtwr a r s = _
  rw [execCtwr, State.symbol_outOfRange h]
  rfl

theorem exec_ctrd_outOfRange : exec (.ctrd r a) s = s.precise (raise (.outOfRange (s.operand a))) := by
  show execCtrd r a s = _
  rw [execCtrd, State.symbol_outOfRange h]
  rfl

end outOfRange

end symbol

theorem State.setCt_completes (s : State) (table : Vector Bits 256) :
    Completes [] [] [.ct] s ({ s with ct := table } : State).complete :=
  have h : SameBut [] [] [.ct] s { s with ct := table } := { SameBut.refl s with ct := .inl (by decide) }
  h.completes rfl rfl rfl

theorem entry_setEntry_eq {α : Type} (t : Vector α 256) (c d : Byte) (v : α) :
    entry (setEntry t c v) d = if d = c then v else entry t d := by
  rw [entry_setEntry]
  exact if_congr eq_comm rfl rfl

/-! ### The words of the arena -/

/-- A link as a word: NONE reads 0xFFFF (44_huffman_tree.md R270, R272). -/
theorem linkWord_toNat {l : Link} (h : ∀ i, l = some i → i < 2 ^ 32) : (linkWord l).toNat = l.getD 0xFFFF := by
  cases l with
  | none => rfl
  | some i => exact (BitVec.toNat_ofNat i 32).trans (Nat.mod_eq_of_lt (h i rfl))

/-- What HTROOT, HTNCNT and NDRD need of the arena: links and the count fit a word, and an internal node's symbol is 0. -/
structure Readable (nodes : List Node) (root : Link) : Prop where
  count : nodes.length < 2 ^ 32
  atRoot : ∀ i, root = some i → i < 2 ^ 32
  links : ∀ n ∈ nodes, ∀ i, n.left = some i ∨ n.right = some i ∨ n.parent = some i → i < 2 ^ 32
  sym : ∀ n ∈ nodes, n.leaf = false → n.sym = 0

theorem Rooted.readable {nodes : List Node} {root : Nat} {up : Nat → Nat → Prop} (h : Rooted nodes root up)
    (hlen : nodes.length < 2 ^ 32) : Readable nodes (some root) where
  count := hlen
  atRoot := by
    rintro _ ⟨⟩
    exact h.rootLt.trans hlen
  links n hn i hi := by
    obtain ⟨j, hj⟩ := List.mem_iff_getElem?.1 hn
    refine lt_of_lt_of_le ?_ hlen.le
    rcases hi with hi | hi | hi
    · exact h.childOf_lt_length (b := false) (childOf_some.2 ⟨n, hj, hi⟩)
    · exact h.childOf_lt_length (b := true) (childOf_some.2 ⟨n, hj, hi⟩)
    · obtain ⟨m, hm, -⟩ := h.parentNames j i n hj hi
      exact (List.getElem?_eq_some_iff.1 hm).1
  sym := h.internalSym

theorem readable_nil : Readable [] none := ⟨by simp, nofun, nofun, nofun⟩

theorem LeafArena.readable {nodes : List Node} (h : LeafArena nodes) : Readable nodes none where
  count := h.count.trans_lt (by decide)
  atRoot := nofun
  links n hn i hi := by
    obtain ⟨-, hleft, hright, hparent⟩ := h.bare n hn
    simp [hleft, hright, hparent] at hi
  sym n hn hl := absurd ((h.bare n hn).1.symm.trans hl) (by decide)

theorem DataArena.readable {nodes : List Node} {root : Link} (h : DataArena nodes root) : Readable nodes root := by
  rcases h with ⟨rfl, rfl⟩ | ⟨rfl, hlen, hr, -⟩
  · exact readable_nil
  · exact hr.readable (hlen.trans_lt (by decide))

theorem DictArena.readable {nodes : List Node} {root : Link} (h : DictArena nodes root) : Readable nodes root := by
  rcases h with ⟨rfl, rfl⟩ | ⟨rfl, hlen, hr, -⟩
  · exact readable_nil
  · exact hr.readable (hlen.trans_lt (by decide))

theorem Arena.readable {s : State} (h : Arena s) : Readable s.nodes s.root := by
  cases ht : s.tstate with
  | empty =>
    obtain ⟨hn, hr⟩ := h.empty ht
    rw [hn, hr]
    exact readable_nil
  | leaves =>
    rw [(h.leaves ht).1]
    exact (h.leafArena ht).readable
  | tree => exact DataArena.readable (h.data (.inl ht))
  | coded => exact DataArena.readable (h.data (.inr ht))
  | dict => exact DictArena.readable (h.dict ht)

/-! ### NDRD -/

theorem exec_ndrd_of_some {s : State} {b : XReg} {n : Node} (h : s.nodes[s.operand b]? = some n) (a : XReg) {f : BitVec 4}
    {w : Word} (hf : f.toNat ≤ 4) (hw : n.field f = some w) : exec (.ndrd a b f) s = s.precise (.ok (s.setX a w)) := by
  show execNdrd a b f s = _
  rw [execNdrd, if_neg hf.not_gt, h]
  simp only [hw]

theorem exec_ndrd_of_none {s : State} {b : XReg} (h : s.nodes[s.operand b]? = none) (a : XReg) {f : BitVec 4}
    (hf : f.toNat ≤ 4) : exec (.ndrd a b f) s = s.precise (raise (.outOfRange (s.operand b))) := by
  show execNdrd a b f s = _
  rw [execNdrd, if_neg hf.not_gt, h]

/-- LEAF and SYM in one word (44_huffman_tree.md R272). -/
theorem Node.leafWord_toNat {n : Node} (h : n.leaf = false → n.sym = 0) :
    (BitVec.ofNat 32 ((if n.leaf then 1 else 0) * 2 ^ 8 + n.sym.toNat)).toNat = if n.leaf then 256 + n.sym.toNat else 0 := by
  have hsym := n.sym.isLt
  rw [BitVec.toNat_ofNat]
  cases hl : n.leaf with
  | false => rw [h hl]; rfl
  | true =>
    rw [if_pos rfl, if_pos rfl, Nat.mod_eq_of_lt (by omega)]
    omega

end Sys2Proof.Machine

namespace Sys2Proof

open Sys2Proof.Machine

/-- Settles O40: each of the four commands with a symbol operand checks it and then reads or writes one entry. -/
theorem tableCommands : Obligations.TableCommands := by
  refine fun s a b r c => ⟨fun hc => ⟨?fqwr, ?fqrd, ?ctwr, ?ctrd⟩, fun ha => ⟨?_, ?_, ?_, ?_⟩, ?fqclr, ?ctclr⟩
  case fqwr => exact ⟨_, exec_fqwr_ok hc, s.withFreq_completes _, fun d => entry_setEntry_eq s.freq c d _⟩
  case fqrd => exact State.precise_setX (exec_fqrd_ok hc) fun _ ht => ht
  case ctwr => exact ⟨_, exec_ctwr_ok hc, s.setCt_completes _, fun d => entry_setEntry_eq s.ct c d _⟩
  case ctrd => exact State.precise_setBs (exec_ctrd_ok hc) fun _ ht => ht
  case fqclr => exact ⟨_, rfl, s.withFreq_completes _, entry_replicate 0⟩
  case ctclr => exact ⟨_, rfl, s.setCt_completes _, entry_replicate []⟩
  · exact State.precise_outOfRange (exec_fqwr_outOfRange ha)
  · exact State.precise_outOfRange (exec_fqrd_outOfRange ha)
  · exact State.precise_outOfRange (exec_ctwr_outOfRange ha)
  · exact State.precise_outOfRange (exec_ctrd_outOfRange ha)

/-- Settles O50, field by field; in every TSTATE the links are node numbers, so they fit a word. -/
theorem treeInspection : Obligations.TreeInspection := by
  intro s a b f harena
  have hread := harena.readable
  refine ⟨?root, ?count, fun n hn => ?fields, fun hf hb => ?missing, fun hf => ?illegal⟩
  case root => exact State.precise_setX (a := a) rfl fun t ht => by rw [ht, linkWord_toNat hread.atRoot]
  case count =>
    refine State.precise_setX (a := a) rfl fun t ht => ?_
    rw [ht, BitVec.toNat_ofNat, Nat.mod_eq_of_lt hread.count]
  case fields =>
    have hmem := List.mem_of_getElem? hn
    have hlinks := hread.links n hmem
    refine ⟨State.precise_setX (exec_ndrd_of_some hn a (by decide) rfl) fun t ht => ht,
      State.precise_setX (exec_ndrd_of_some hn a (by decide) rfl) fun t ht => ?_,
      State.precise_setX (exec_ndrd_of_some hn a (by decide) rfl) fun t ht => ?_,
      State.precise_setX (exec_ndrd_of_some hn a (by decide) rfl) fun t ht => ?_,
      State.precise_setX (exec_ndrd_of_some hn a (by decide) rfl) fun t ht => ?_⟩ <;> rw [ht]
    · exact Node.leafWord_toNat (hread.sym n hmem)
    · exact linkWord_toNat fun i hi => hlinks i (.inl hi)
    · exact linkWord_toNat fun i hi => hlinks i (.inr (.inl hi))
    · exact linkWord_toNat fun i hi => hlinks i (.inr (.inr hi))
  case missing =>
    exact State.precise_outOfRange (exec_ndrd_of_none (List.getElem?_eq_none hb) a hf)
  case illegal => exact ⟨_, congrArg s.precise (if_pos hf), s.takeFault_faults .illegal⟩

end Sys2Proof
end

section
/-! PROOFS. The input bit cursor: what each command answers, and the stream a run of IBNEXT reads
(45_bit_cursors.md R290 to R297). -/

namespace Sys2Proof.Machine

/-- The state with another input cursor. -/
def State.withIbc (s : State) (c : Ibc) : State := { s with ibc := c }

/-- A write of IBC completes, and leaves whatever holds of every state with that cursor. -/
theorem State.precise_withIbc {s : State} {answer : Answer} {c : Ibc} {Q : State → Prop}
    (h : answer = s.precise (.ok (s.withIbc c))) (hc : ∀ t : State, t.ibc = c → Q t) :
    ∃ t, answer = .next t ∧ Completes [] [] [.ibc] s t ∧ Q t :=
  have hframe : SameBut [] [] [.ibc] s (s.withIbc c) := { SameBut.refl s with ibc := .inl (by decide) }
  ⟨_, h, hframe.completes rfl rfl rfl, hc _ rfl⟩

/-! ### The commands -/

/-- IBINIT on a byte of IN (45_bit_cursors.md R291). -/
theorem State.ibcLoad_inside {s : State} {p : Nat} (h : p < s.inLen.toNat) :
    (s.ibcLoad p).ended = false ∧ (s.ibcLoad p).pos.toNat = p ∧ (s.ibcLoad p).bit = 0 ∧
      (s.ibcLoad p).cur = s.inByte p := by
  have hlen := s.inLen.isLt
  rw [State.ibcLoad, if_pos h]
  exact ⟨rfl, (BitVec.toNat_ofNat p 32).trans (Nat.mod_eq_of_lt (by omega)), rfl, rfl⟩

/-- The cursor's current bit, MSB first (45_bit_cursors.md R292). -/
theorem Ibc.current_toNat (c : Ibc) : c.current.toNat = c.cur.toNat / 2 ^ (7 - c.bit.toNat) % 2 :=
  Nat.toNat_testBit _ _

section on
variable {s : State} (h : s.ibc.ended = false)
include h

theorem exec_ibread_on (a : XReg) : exec (.ibread a) s = s.precise (.ok (s.setX a (bitWord s.ibc.current))) :=
  State.precise_check_passed rfl (by simp [h])

theorem exec_ibnext_on : exec .ibnext s = s.precise (.ok (s.withIbc (s.ibcAdvance s.ibc))) :=
  State.precise_check_passed rfl (by simp [h])

end on

/-! ### The stream (45_bit_cursors.md R297) -/

/-- The state after IBINIT of position p (45_bit_cursors.md R291). -/
def State.loadedAt (s : State) (p : Nat) : State := s.withIbc (s.ibcLoad p)

theorem State.loadedAt_stream {s : State} {p : Nat} (hp : p < s.inLen.toNat) :
    (s.loadedAt p).streamLeft = 8 * (s.inLen.toNat - p) ∧
      ∀ k, (s.loadedAt p).streamBit k = (s.inByte (p + k / 8)).getLsbD (7 - k % 8) :=
  State.stream_load (s := s.loadedAt p) hp rfl

theorem execAll_append {l m : List Instr} {s t : State} (h : execAll l s = .next t) (ht : t.status.err = false) :
    execAll (l ++ m) s = execAll m t := by
  induction l generalizing s with
  | nil =>
    cases h
    rfl
  | cons i l ih =>
    obtain ⟨v, hv, hverr, h⟩ := execAll_completed h ht
    rw [List.cons_append, execAll_cons hv hverr, ih h]

/-- n times IBNEXT moves the cursor n bits on. -/
theorem execAll_replicate_ibnext {s : State} {k n : Nat} (hs : s.status.err = false) (h : k + n ≤ s.streamLeft) :
    execAll (List.replicate n .ibnext) (s.withIbc (s.streamAt k)).complete =
      .next (s.withIbc (s.streamAt (k + n))).complete := by
  induction n generalizing k with
  | zero => rfl
  | succ n ih =>
    have hk : k < s.streamLeft := by omega
    have hnext : exec .ibnext (s.withIbc (s.streamAt k)).complete =
        .next (s.withIbc (s.streamAt (k + 1))).complete := by
      rw [exec_ibnext_on (State.streamAt_on hk), ← State.ibcAdvance_streamAt hk]
      rfl
    rw [List.replicate_succ, execAll_cons hnext hs, ih (by omega), Nat.add_right_comm, Nat.add_assoc]

/-- IBINIT at a byte of IN and k times IBNEXT leave the cursor k bits on in the stream from that byte. -/
theorem execAll_ibinit_ibnext {s : State} {a : XReg} {k : Nat} (hs : s.status.err = false)
    (h : k ≤ (s.loadedAt (s.operand a)).streamLeft) :
    execAll ([.ibinit a] ++ List.replicate k .ibnext) s =
      .next (s.withIbc ((s.loadedAt (s.operand a)).streamAt k)).complete := by
  have hinit : exec (.ibinit a) s = .next (s.loadedAt (s.operand a)).complete := rfl
  have hrun := execAll_replicate_ibnext (s := s.loadedAt (s.operand a)) (k := 0) hs (by simpa using h)
  rw [State.streamAt_zero, Nat.zero_add] at hrun
  rw [List.singleton_append, execAll_cons hinit hs]
  exact hrun

end Sys2Proof.Machine

namespace Sys2Proof

open Sys2Proof.Machine

/-- Settles O52: k times IBNEXT is k bits on in the stream from IN[p], which has 8 bits for each byte below IN_LEN. -/
theorem streamLaw : Obligations.StreamLaw := by
  intro s a d k hs hp
  obtain ⟨hleft, hbit⟩ := State.loadedAt_stream hp
  refine ⟨fun hk => ?read, ?atEnd⟩
  case read =>
    have hlt : k < (s.loadedAt (s.operand a)).streamLeft := by omega
    have hread := exec_ibread_on
      (s := (s.withIbc ((s.loadedAt (s.operand a)).streamAt k)).complete) (State.streamAt_on hlt) d
    refine ⟨_, (execAll_append (execAll_ibinit_ibnext hs hlt.le) hs).trans (execAll_cons hread hs), hs, ?_⟩
    rw [State.getX_complete, State.getX_setX_same, bitWord_toNat]
    exact congrArg Bool.toNat ((State.streamAt_current hlt).trans (hbit k))
  case atEnd =>
    have hrun := execAll_ibinit_ibnext hs hleft.ge
    have hend := State.streamAt_left (s := s.loadedAt (s.operand a))
    rw [hleft] at hend
    refine ⟨_, (execAll_append hrun hs).trans (execAll_cons rfl hs), hs, ?_⟩
    rw [State.getX_complete, State.getX_setX_same, bitWord_toNat]
    exact congrArg Bool.toNat hend

/-- Settles O51: each command reads the cursor's fields, loads it, or moves it on by the two cases of IbcAdvance. -/
theorem inputCursor : Obligations.InputCursor := by
  intro s a hinv
  refine ⟨?init, fun hend => ⟨?readEnd, ?nextEnd⟩, fun hon => ⟨?read, ?next⟩, ?last, ?atEnd, ?pos⟩
  case init =>
    refine State.precise_withIbc (s := s) rfl fun t ht => ?_
    rw [ht]
    exact ⟨State.ibcLoad_inside, fun h => if_neg h.not_gt⟩
  case readEnd | nextEnd => exact State.precise_check_faults rfl hend
  case read => exact State.precise_setX (exec_ibread_on hon a) fun t ht => by rw [ht, bitWord_toNat, Ibc.current_toNat]
  case next =>
    refine State.precise_withIbc (exec_ibnext_on hon) fun t ht => ?_
    rw [ht, State.ibcAdvance]
    refine ⟨fun hbit => ?within, fun hbit hlt => ?_, fun hbit hle => ?_⟩
    case within =>
      rw [if_pos hbit]
      refine ⟨hon, rfl, ?_, rfl⟩
      rw [BitVec.toNat_add, show (1 : BitVec 3).toNat = 1 from rfl, Nat.mod_eq_of_lt (by omega)]
    · rw [if_neg (by omega)]
      exact State.ibcLoad_inside hlt
    · rw [if_neg (by omega)]
      exact if_neg hle.not_gt
  case last =>
    refine State.precise_setX (a := a) rfl fun t ht => ?_
    rw [ht, bitWord_toNat]
    by_cases hlast : s.ibc.ended = false ∧ s.ibc.pos.toNat + 1 = s.inLen.toNat
    · simp [hlast]
    · rw [if_neg hlast]
      simpa using hlast
  case atEnd => exact State.precise_setX (a := a) rfl fun t ht => by rw [ht, bitWord_toNat]
  case pos =>
    refine State.precise_setX (a := a) rfl fun t ht => ?_
    have hbit := s.ibc.bit.isLt
    have hcap := s.inCap.isLt
    have hpos : s.ibc.pos.toNat ≤ s.inCap.val := by
      cases he : s.ibc.ended with
      | true =>
        obtain ⟨-, -, hpos⟩ := hinv.ibcEnd he
        exact hpos
      | false => exact (hinv.ibcOn he).le
    rw [ht, BitVec.toNat_ofNat, Nat.mod_eq_of_lt (by omega)]

end Sys2Proof
end

section
/-! PROOFS. The output bit cursor: a bit put, a flush at and off a byte boundary
(45_bit_cursors.md R299 to R304). -/

namespace Sys2Proof.Machine

/-! ### Bits packed into bytes (20_memory.md R86) -/

/-- Bit j of the number whose digits are the first n bits, the first bit the highest. -/
theorem testBit_foldl_bits (f : Nat → Bool) (n j : Nat) :
    ((List.range n).foldl (fun m i => 2 * m + (f i).toNat) 0).testBit j = (decide (j < n) && f (n - 1 - j)) := by
  induction n generalizing j with
  | zero => simp
  | succ n ih =>
    rw [List.range_succ, List.foldl_append, List.foldl_cons, List.foldl_nil]
    cases j with
    | zero => cases hf : f n <;> simp [hf, Nat.testBit_zero]
    | succ j =>
      have hhalf (m : Nat) : (2 * m + (f n).toNat) / 2 = m := by have := (f n).toNat_lt; omega
      rw [Nat.testBit_succ, hhalf, ih, show n + 1 - 1 - (j + 1) = n - 1 - j by omega]
      simp

theorem packByte_bit (l : Bits) {i : Nat} (hi : i < 8) : (packByte l).getLsbD (7 - i) = l.getD i false := by
  rw [packByte, BitVec.getLsbD_ofNat, testBit_foldl_bits (fun i => l.getD i false), show 8 - 1 - (7 - i) = i by omega]
  simp [show 7 - i < 8 by omega]

/-- Two bytes with the same bits, MSB first, are the same byte. -/
theorem byte_ext {x y : Byte} (h : ∀ i, i < 8 → x.getLsbD (7 - i) = y.getLsbD (7 - i)) : x = y := by
  refine BitVec.eq_of_getLsbD_eq fun i hi => ?_
  have hbit := h (7 - i) (by omega)
  rwa [show 7 - (7 - i) = i by omega] at hbit

/-- The buffer of OBC is its pending bits with zeros below them (10_state.md R57). -/
theorem Sink.Good.packByte_pending {s : State} (h : s.sink.Good) : packByte s.pending = s.obc.buf := by
  refine byte_ext fun i hi => ?_
  rw [packByte_bit _ hi]
  by_cases hin : i < s.obc.nb.toNat
  · simp [State.pending, hin]
  · rw [List.getD_eq_default _ _ (by simpa [State.pending] using hin)]
    exact (h.low (7 - i) (by show 7 - i + s.obc.nb.toNat < 8; omega)).symm

/-! ### OBPUT and OBPUTX -/

/-- A bit that completes no byte, or for whose byte there is room, is put (45_bit_cursors.md R301). -/
theorem State.putBit_ok {s : State} (hs : s.sink.Good) (h : s.obc.nb.toNat < 7 ∨ s.outLen.toNat < s.outCap.val)
    (v : Bool) : ∃ k, s.putBit v = .ok (s.setSink k) ∧ s.sink.Puts [v] k := by
  have hnot : ¬ (s.obc.nb = 7 ∧ s.outCap.val ≤ s.outLen.toNat) := by
    rintro ⟨h7, hfull⟩
    rw [h7] at h
    exact h.elim (by decide) hfull.not_gt
  rcases obcPut_eq s.outCap_lt hs v with ⟨-, k, hk, hputs⟩ | ⟨h7, hfull, -⟩
  · exact ⟨k, by rw [State.putBit, if_neg hnot, hk], hputs⟩
  · exact absurd ⟨h7, hfull⟩ hnot

theorem State.putBit_full {s : State} (h7 : s.obc.nb = 7) (h : s.outCap.val ≤ s.outLen.toNat) (v : Bool) :
    s.putBit v = raise (.io 2) := if_pos ⟨h7, h⟩

theorem exec_obputx_bit {s : State} {a : XReg} {v : Bool} (h : s.operand a = v.toNat) :
    exec (.obputx a) s = s.precise (s.putBit v) := by
  have hv : (s.operand a == 1) = v := by rw [h]; cases v <;> rfl
  rw [← hv]
  exact State.precise_check_passed rfl (by rw [h]; exact v.toNat_le.not_gt)

/-- A bit put completes and is appended to the output stream. -/
theorem State.precise_putBit {s : State} {answer : Answer} {v : Bool} (h : answer = s.precise (s.putBit v))
    (hs : s.sink.Good) (hroom : s.obc.nb.toNat < 7 ∨ s.outLen.toNat < s.outCap.val) :
    ∃ t, answer = .next t ∧ Completes [] [] [.obc, .out] s t ∧ Appended [v] s t := by
  obtain ⟨k, hk, hputs⟩ := State.putBit_ok hs hroom v
  exact ⟨_, h.trans (congrArg s.precise hk), s.setSink_completes k, { hputs.appended with }⟩

/-! ### OBFLUSH -/

/-- The state after a flush that added q zero bits (45_bit_cursors.md R303). -/
def State.flushed (s : State) (a : XReg) (k : Sink) (q : Nat) : State :=
  { (s.setSink k).setX a (BitVec.ofNat 32 q) with pad := BitVec.ofNat 3 q }

/-- OUT with the buffer of OBC at its end, and an empty OBC (45_bit_cursors.md R299). -/
def Sink.withBuffer (k : Sink) : Sink := ⟨k.win.write k.len.toNat k.obc.buf, k.len + 1, Obc.cleared⟩

theorem obcFlush_partial {cap : Nat} {k : Sink} (h : k.obc.nb ≠ 0) (hroom : k.len.toNat < cap) :
    obcFlush cap k = .ok (k.withBuffer, 8 - k.obc.nb.toNat) := by
  rw [obcFlush, if_neg h, outAppend, if_neg hroom.not_ge]
  rfl

section flush
variable {s : State} {a : XReg}

theorem exec_obflush_aligned (h : s.obc.nb = 0) :
    exec (.obflush a) s = .next (s.flushed a s.sink 0).complete := by
  have hflush : obcFlush s.outCap.val s.sink = .ok (s.sink, 0) := if_pos h
  show execObflush a s = _
  rw [execObflush, if_neg (fun hc => hc.1 h), hflush]
  rfl

theorem exec_obflush_partial (h : s.obc.nb ≠ 0) (hroom : s.outLen.toNat < s.outCap.val) :
    exec (.obflush a) s = .next (s.flushed a s.sink.withBuffer (8 - s.obc.nb.toNat)).complete := by
  have hflush : obcFlush s.outCap.val s.sink = .ok (s.sink.withBuffer, 8 - s.obc.nb.toNat) := obcFlush_partial h hroom
  show execObflush a s = _
  rw [execObflush, if_neg (fun hc => hc.2.not_gt hroom), hflush]
  rfl

theorem exec_obflush_full (h : s.obc.nb ≠ 0) (hfull : s.outCap.val ≤ s.outLen.toNat) :
    exec (.obflush a) s = .next (s.takeFault (.io 2)) :=
  congrArg s.precise (if_pos ⟨h, hfull⟩)

theorem State.flushed_aligned_completes (s : State) (a : XReg) :
    Completes [a] [] [.pad] s (s.flushed a s.sink 0).complete :=
  have h : SameBut [a] [] [.pad] s (s.flushed a s.sink 0) :=
    { (SameBut.refl s).setX List.mem_cons_self (BitVec.ofNat 32 0) with pad := .inl (by decide) }
  h.completes rfl rfl rfl

theorem State.flushed_completes (s : State) (a : XReg) (k : Sink) (q : Nat) :
    Completes [a] [] [.obc, .out, .pad] s (s.flushed a k q).complete :=
  have h : SameBut [a] [] [.obc, .out, .pad] s (s.flushed a k q) :=
    { (SameBut.refl s).setX List.mem_cons_self (BitVec.ofNat 32 q) with
      obc := .inl (by decide), out := .inl (by decide), pad := .inl (by decide) }
  h.completes rfl rfl rfl

/-- The register and PAD hold the count of zero bits. -/
theorem State.flushed_count (s : State) (a : XReg) (k : Sink) {q : Nat} (hq : q < 8) :
    ((s.flushed a k q).complete.getX a).toNat = q ∧ (s.flushed a k q).complete.pad.toNat = q := by
  constructor
  · calc ((s.flushed a k q).complete.getX a).toNat
        = (BitVec.ofNat 32 q).toNat := congrArg BitVec.toNat ((s.setSink k).getX_setX_same a _)
      _ = q := by rw [BitVec.toNat_ofNat, Nat.mod_eq_of_lt (by omega)]
  · exact (BitVec.toNat_ofNat q 3).trans (Nat.mod_eq_of_lt hq)

/-- A flush that completes leaves the same count in PAD as in the register. -/
theorem exec_obflush_pad {t : State} (h : exec (.obflush a) s = .next t) (ht : t.status.err = false) :
    t.pad.toNat = (t.getX a).toNat := by
  have hcount (k : Sink) {q : Nat} (hq : q < 8) (he : exec (.obflush a) s = .next (s.flushed a k q).complete) :
      t.pad.toNat = (t.getX a).toNat := by
    cases h.symm.trans he
    obtain ⟨hx, hpad⟩ := s.flushed_count a k hq
    exact hpad.trans hx.symm
  by_cases h0 : s.obc.nb = 0
  · exact hcount _ (by decide) (exec_obflush_aligned h0)
  · have hpos : s.obc.nb.toNat ≠ 0 := fun h => h0 (BitVec.eq_of_toNat_eq h)
    rcases Nat.lt_or_ge s.outLen.toNat s.outCap.val with hroom | hfull
    · exact hcount _ (by omega) (exec_obflush_partial h0 hroom)
    · cases h.symm.trans (exec_obflush_full h0 hfull)
      exact nomatch ht

end flush

end Sys2Proof.Machine

namespace Sys2Proof

open Sys2Proof.Machine

/-- Settles O53: a put appends to the stream of the output side, and a flush writes nothing, the buffer, or faults. -/
theorem outputCursor : Obligations.OutputCursor := by
  intro s a v hinv
  have hgood := hinv.sink_good
  have hnb := s.obc.nb.isLt
  refine ⟨?init, fun hroom => ⟨?put, fun hv => ?putx⟩, fun h7 hfull => ⟨?putFull, fun hle => ?putxFull⟩,
    fun hgt => ?putxRange, fun h0 => ?aligned, fun h0 hroom => ?partialByte, fun h0 hfull => ?flushFull, ?count⟩
  case init =>
    have hframe : SameBut [] [] [.obc] s { s with obc := Obc.cleared } :=
      { SameBut.refl s with obc := .inl (by decide) }
    exact ⟨_, rfl, hframe.completes rfl rfl rfl, rfl⟩
  case put => exact State.precise_putBit rfl hgood hroom
  case putx => exact State.precise_putBit (exec_obputx_bit hv) hgood hroom
  case putFull =>
    exact ⟨_, congrArg s.precise (State.putBit_full (BitVec.eq_of_toNat_eq h7) hfull.ge v), s.takeFault_io_faults⟩
  case putxFull =>
    exact ⟨_, (State.precise_check_passed rfl hle.not_gt).trans
      (congrArg s.precise (State.putBit_full (BitVec.eq_of_toNat_eq h7) hfull.ge _)), s.takeFault_io_faults⟩
  case putxRange => exact State.precise_check_faults rfl hgt
  case aligned =>
    obtain ⟨hx, -⟩ := s.flushed_count a s.sink (q := 0) (by decide)
    exact ⟨_, exec_obflush_aligned h0, s.flushed_aligned_completes a, hx, rfl⟩
  case partialByte =>
    have hpos : s.obc.nb.toNat ≠ 0 := fun h => h0 (BitVec.eq_of_toNat_eq h)
    have hcap := s.outCap_lt
    obtain ⟨hx, hpad⟩ := s.flushed_count a s.sink.withBuffer (q := 8 - s.obc.nb.toNat) (by omega)
    refine ⟨_, exec_obflush_partial h0 hroom, s.flushed_completes a _ _, hx, hpad, rfl, ?_, fun b => ?_⟩
    · show (s.outLen + 1).toNat = _
      rw [BitVec.toNat_add, show (1 : Word).toNat = 1 from rfl, Nat.mod_eq_of_lt (by omega)]
    · rw [hgood.packByte_pending]
      exact Window.byte_write s.outWin s.outLen.toNat b s.obc.buf hgood.wf
  case flushFull => exact ⟨_, exec_obflush_full h0 hfull.ge, s.takeFault_io_faults⟩
  case count =>
    refine State.precise_setX (a := a) rfl fun t ht => ?_
    rw [ht, BitVec.toNat_setWidth_of_le (by decide)]

end Sys2Proof
end

section
/-! PROOFS. What each command that puts bits appends when it completes, and a run of them: HTDEC finds the symbols its
bits are the codes of, whatever the rest of the arena (44_huffman_tree.md R267, 45_bit_cursors.md R305). -/

namespace Sys2Proof.Machine

/-! ### HTDEC over the codes of symbols -/

theorem lt_length_of_walk_cons {nodes : List Node} {j i : Nat} {b : Bool} {w : Bits}
    (h : walk nodes j (b :: w) = some i) : j < nodes.length := by
  rw [walk_cons, Option.bind_eq_some_iff] at h
  obtain ⟨k, hk, -⟩ := h
  obtain ⟨n, hn, -⟩ := childOf_some.1 hk
  exact (List.getElem?_eq_some_iff.1 hn).1

theorem leadsTo_cons {nodes : List Node} {j i : Nat} {b : Bool} {w : Bits} {c : Byte}
    (hi : childOf nodes j b = some i) : leadsTo nodes j (b :: w) c ↔ leadsTo nodes i w c := by
  rw [leadsTo_iff, leadsTo_iff, walk_cons, hi, Option.bind_some]

section loop
variable {s : State} {nodes : List Node} {root : Nat}

/-- The loop from any node over one code, which meets its first leaf at its end. -/
theorem decodeLoop_code {w : Bits} (hne : w ≠ []) {j k : Nat} {c : Byte} (hlead : leadsTo nodes j w c)
    (hno : ∀ m, 0 < m → m < w.length → ¬ ∃ d, leadsTo nodes j (w.take m) d) (hbits : w = s.bits k w.length)
    (hleft : k + w.length ≤ s.streamLeft) (n : Nat) (mid : Bool) :
    decodeLoop s nodes root (w.length + n) k j mid (s.streamAt k) =
      withSymbols [c] (decodeLoop s nodes root n (k + w.length) root false (s.streamAt (k + w.length))) := by
  induction w generalizing j k mid with
  | nil => exact absurd rfl hne
  | cons b w ih =>
    rw [List.length_cons] at hno hleft hbits ⊢
    rw [s.bits_succ] at hbits
    obtain ⟨hb, hw⟩ := List.cons.inj hbits
    obtain ⟨e, he, hsym⟩ := leadsTo_iff.1 hlead
    have hj := lt_length_of_walk_cons he
    rw [walk_cons, Option.bind_eq_some_iff] at he
    obtain ⟨i, hi, he⟩ := he
    rw [Nat.add_right_comm]
    cases w with
    | nil =>
      obtain rfl := Option.some_inj.1 he
      exact (decodeLoop_leaf (by omega) hj (hb ▸ hi) hsym).trans (by simp)
    | cons b' w =>
      have hinner : symAt nodes i = none := by
        by_contra hleaf
        obtain ⟨d, hd⟩ := Option.ne_none_iff_exists'.1 hleaf
        exact hno 1 (by decide) (by simp) ⟨d, (leadsTo_cons hi).2 (leadsTo_iff.2 ⟨i, rfl, hd⟩)⟩
      have hno' (m : Nat) (hm : 0 < m) (hlen : m < (b' :: w).length) : ¬ ∃ d, leadsTo nodes i ((b' :: w).take m) d := by
        rintro ⟨d, hd⟩
        exact hno (m + 1) m.succ_pos (by omega) ⟨d, (leadsTo_cons hi).2 hd⟩
      rw [decodeLoop_inner (by omega) hj (hb ▸ hi) (lt_length_of_walk_cons he) hinner,
        ih (by simp) ((leadsTo_cons hi).1 hlead) hno' hw (by omega), Nat.add_right_comm k, Nat.add_assoc k]

/-- The loop over the codes of symbols finds these symbols. -/
theorem decodeLoop_codes {w : Bits} {l : List Byte} {k : Nat} (hp : Parses nodes root w l)
    (hbits : w = s.bits k w.length) (hleft : k + w.length ≤ s.streamLeft) :
    decodeLoop s nodes root w.length k root false (s.streamAt k) = .ok (s.streamAt (k + w.length), l) := by
  induction hp generalizing k with
  | done => rfl
  | symbol code rest c l hne hlead hno _ ih =>
    obtain ⟨hcode, hrest, -⟩ := State.bits_append hbits
    rw [List.length_append] at hleft ⊢
    rw [decodeLoop_code hne hlead hno hcode (by omega), ih hrest (by omega), withSymbols_ok, Nat.add_assoc,
      List.singleton_append]

/-- A loop that gives a result has had all its bits. -/
theorem decodeLoop_left {k : Nat} (hk : k ≤ s.streamLeft) (n j : Nat) (mid : Bool) :
    Yields (fun _ => k + n ≤ s.streamLeft) (decodeLoop s nodes root n k j mid (s.streamAt k)) := by
  induction n generalizing k j mid with
  | zero => exact .check fun _ => .ok hk
  | succ n ih =>
    refine .check fun hon => ?_
    have hlt : k < s.streamLeft := hk.lt_of_ne fun hend => hon (hend ▸ State.streamAt_left)
    have hrest (i : Nat) (mid : Bool) := ih (Nat.succ_le_of_lt hlt) i mid
    rw [State.ibcAdvance_streamAt hlt, ← Nat.add_assoc, Nat.add_right_comm]
    split
    · exact .stuck
    · split
      · exact .raise
      · split
        · exact .stuck
        · refine .ite (fun _ => ?_) fun _ => hrest _ _
          split
          · exact .error
          next hr => exact .ok (hrest _ _ _ hr)

/-- The loop over bits that are the codes of symbols finds no others. -/
theorem decodeLoop_symbols {n : Nat} {cur : Ibc} {l symbols : List Byte}
    (hp : Parses nodes root ((List.range n).map s.streamBit) symbols)
    (h : decodeLoop s nodes root n 0 root false s.ibc = .ok (cur, l)) : l = symbols := by
  rw [← s.bits_zero_eq] at hp
  rw [← s.streamAt_zero] at h
  have hleft := decodeLoop_left (Nat.zero_le _) _ _ _ _ h
  have hcodes := decodeLoop_codes (s := s) (k := 0) hp (by rw [State.bits_length]) (by rwa [State.bits_length])
  rw [State.bits_length, h] at hcodes
  exact congrArg Prod.snd (Except.ok.inj hcodes)

end loop

/-- HTDEC that gives a result has put the symbols its loop found. -/
theorem State.decodePayload_completed {s u : State} {n : Nat} (hs : s.sink.Good) (h : s.decodePayload n = .ok u) :
    (n = 0 ∧ u = s) ∨ n ≠ 0 ∧ ∃ r cur l k, s.root = some r ∧ decodeLoop s s.nodes r n 0 r false s.ibc = .ok (cur, l) ∧
      s.sink.Puts (bytesBits l) k ∧ u = { s.setSink k with ibc := cur } := by
  rw [State.decodePayload] at h
  split at h
  · cases h
  · split at h
    · exact .inl ⟨‹_›, (Except.ok.inj h).symm⟩
    · split at h
      · cases h
      next r hroot =>
        split at h
        · cases h
        next cur l hloop =>
          split at h
          · cases h
          next hroom =>
            split at h
            · cases h
            next k hk =>
              refine .inr ⟨‹_›, r, cur, l, k, hroot, hloop, ?_, (Except.ok.inj h).symm⟩
              rcases obcPutBits_eq s.outCap_lt hs (bytesBits l) with ⟨-, k', hk', hputs⟩ | ⟨-, hfull⟩
              · cases hk'.symm.trans hk
                exact hputs
              · exact nomatch hfull.symm.trans hk

/-! ### The bits that a completed command puts -/

theorem State.putBit_completed {s u : State} {b : Bool} (hs : s.sink.Good) (h : s.putBit b = .ok u) :
    s.sink.Puts [b] u.sink := by
  rw [State.putBit] at h
  split at h
  · cases h
  · rcases obcPut_eq s.outCap_lt hs b with ⟨-, k, hk, hputs⟩ | ⟨-, -, hfull⟩
    · rw [hk] at h
      cases h
      exact hputs
    · rw [hfull] at h
      cases h

theorem State.decodePayload_puts {s u : State} {a : XReg} {m : Bits} (hs : s.sink.Good)
    (h : s.decodePayload (s.operand a) = .ok u) (hm : putsBits (.htdec a) s m) : s.sink.Puts m u.sink := by
  obtain ⟨symbols, rfl, hsymbols⟩ := hm
  rcases State.decodePayload_completed hs h with ⟨hzero, rfl⟩ | ⟨hn, r, cur, l, k, hroot, hloop, hputs, rfl⟩
  · have hnil : [] = symbols := by
      rcases hsymbols with ⟨hnil, -⟩ | ⟨r, -, hparse⟩
      · exact hnil.symm
      · rw [hzero] at hparse
        exact decodeLoop_symbols (s := u) hparse rfl
    rw [← hnil]
    exact .refl hs
  · have heq : l = symbols := by
      rcases hsymbols with ⟨-, hzero⟩ | ⟨r', hroot', hparse⟩
      · exact absurd hzero hn
      · obtain rfl := Option.some_inj.1 (hroot.symm.trans hroot')
        exact decodeLoop_symbols hparse hloop
    rw [← heq]
    exact hputs

/-- A command that completes puts the bits `putsBits` says. -/
theorem exec_puts {i : Instr} {s t : State} {m : Bits} (hs : s.sink.Good) (h : exec i s = .next t)
    (ht : t.status.err = false) (hm : putsBits i s m) : s.sink.Puts m t.sink := by
  cases i with
  | obput v =>
    obtain ⟨u, hu, rfl⟩ := State.precise_completed (result := s.putBit v) h ht
    obtain rfl := hm
    exact (State.putBit_completed hs hu :)
  | obputx a =>
    obtain ⟨-, h⟩ := State.precise_check_completed (s := s) h ht
    obtain ⟨u, hu, rfl⟩ := State.precise_completed h ht
    obtain rfl := hm
    exact (State.putBit_completed hs hu :)
  | htenc a b =>
    obtain ⟨u, hu, rfl⟩ := State.precise_completed (result := s.encodeWindow _ _) h ht
    obtain rfl := hm
    obtain ⟨-, k, rfl, hputs⟩ := State.encodeWindow_completed hs hu
    exact hputs
  | htdec a =>
    obtain ⟨u, hu, rfl⟩ := State.precise_completed (result := s.decodePayload _) h ht
    exact (State.decodePayload_puts hs hu hm :)
  | _ => exact hm.elim

theorem PutRun.puts {s t : State} {bits : Bits} (h : PutRun s bits t) (hs : s.sink.Good) : s.sink.Puts bits t.sink := by
  induction h with
  | start => exact .refl hs
  | put _ _ _ _ _ _ hexec hu hm ih => exact ih.trans (exec_puts ih.good hexec hu hm)

/-! ### Bits packed into bytes -/

@[simp] theorem packBytes_length (w : Bits) : (packBytes w).length = (w.length + 7) / 8 := by simp [packBytes]

/-- A packed bit string is the string and zeros to the byte boundary (46_codec.md R326). -/
theorem bytesBits_packBytes (w : Bits) :
    bytesBits (packBytes w) = w ++ List.replicate (padCount w.length) false := by
  have hlen : (bytesBits (packBytes w)).length = (w ++ List.replicate (padCount w.length) false).length := by
    simp only [bytesBits_length, packBytes_length, List.length_append, List.length_replicate, padCount]
    omega
  refine List.ext_getElem hlen fun i hi hi' => ?_
  have hbyte : i / 8 < (w.length + 7) / 8 := by rw [bytesBits_length, packBytes_length] at hi; omega
  have hget : (packBytes w)[i / 8]? = some (packByte (w.drop (8 * (i / 8)))) := by simp [packBytes, hbyte]
  have hright : (w ++ List.replicate (padCount w.length) false).getD i false = w.getD i false := by
    rcases Nat.lt_or_ge i w.length with h | h
    · exact List.getD_append _ _ _ _ h
    · rw [List.getD_append_right _ _ _ _ h, List.getD_eq_getElem?_getD, List.getElem?_getD_replicate_default_eq,
        List.getD_eq_default _ _ h]
  rw [← List.getD_eq_getElem _ false hi, ← List.getD_eq_getElem _ false hi', hright, List.getD_eq_getElem?_getD,
    bytesBits_get?, hget, Option.map_some, Option.getD_some, packByte_bit _ (Nat.mod_lt _ (by decide)),
    List.getD_eq_getElem?_getD, List.getElem?_drop, Nat.div_add_mod, List.getD_eq_getElem?_getD]

/-- A run of puts and its padding end at a byte boundary. -/
theorem Sink.Puts.gap_eq {k k' : Sink} {w : Bits} (h : k.Puts w k') (hk : k.obc.nb = 0) :
    k'.gap = padCount w.length := by
  have htotal := h.total
  rw [Sink.total, Sink.total, hk, show (0 : BitVec 3).toNat = 0 from rfl] at htotal
  unfold Sink.gap padCount
  omega

end Sys2Proof.Machine

namespace Sys2Proof

open Sys2Proof.Machine

/-- Settles O54: each command of the run appends its bits to the stream of the output side and the flush appends zeros,
so the bytes of OUT from the old OUT_LEN on hold the bits put and the padding. -/
theorem outputLaw : Obligations.OutputLaw := by
  intro s s0 t u bits d hinv hs hinit hrun hflush hu
  cases hinit
  have hgood : Sink.Good { s.sink with obc := Obc.cleared } := ⟨hinv.outWf, Obc.cleared_low⟩
  have hputs := hrun.puts hgood
  have hgap : t.sink.gap = padCount bits.length := hputs.gap_eq rfl
  obtain ⟨hzeros, -, hx, -⟩ := exec_obflush_completed hputs.good hflush hu
  have hall := hputs.trans hzeros
  rw [hgap, ← bytesBits_packBytes] at hall
  obtain ⟨hlen, hbits⟩ := hall.outBytes rfl (bytesBits_length _)
  rw [packBytes_length] at hlen hbits
  exact ⟨bytesBits_injective hbits, hlen, hx.trans hgap, (exec_obflush_pad hflush hu).trans (hx.trans hgap)⟩

end Sys2Proof
end

section
/-! PROOFS. How COMPRESS and DECOMPRESS end: the two valid-bit checks, and the state that a later failure leaves
(46_codec.md R330, R343, R348; 60_exceptions.md R365). -/

namespace Sys2Proof.Machine

/-! ### The failure state -/

theorem State.codecFailed_takeFault (s : State) (r : Raise) : CodecFailed s (s.codecFailed.takeFault r) where
  x _ _ := rfl
  bs _ _ := rfl
  freq := .inl (by decide)
  tree := .inl (by decide)
  ct := .inl (by decide)
  pq := .inl (by decide)
  ibc := .inl (by decide)
  obc := .inl (by decide)
  pad := .inr rfl
  out := .inl (by decide)
  draws := .inl (by decide)
  ctrl := rfl
  inLen := rfl
  inByte _ := rfl
  inCap := rfl
  outCap := rfl
  cmd := rfl
  busyLeft := rfl
  resetPin := rfl
  host := rfl
  rdata := rfl
  outEmpty := rfl
  obcEmpty := rfl
  ibcEnd := rfl
  ctEmpty := entry_replicate []
  noNodes := rfl
  noRoot := rfl
  tstateEmpty := rfl
  pqEmpty := rfl

theorem State.compressFailed_takeFault (s : State) (r : Raise) : CodecFailed s (s.compressFailed.takeFault r) :=
  { s.codecFailed_takeFault r with freq := .inl (by decide) }

theorem State.takeFault_errorEntered (s : State) (r : Raise) :
    ErrorEntered r.code r.info.toNat s (s.takeFault r) := (s.takeFault_faults r).toErrorEntered

/-! ### The valid-bit checks (60_exceptions.md R365) -/

theorem exec_codec_noSource {s : State} {i : Instr} (hi : i = .compress ∨ i = .decompress)
    (hsrc : s.ctrl.getLsbD 0 = false) : exec i s = .next (s.takeFault (.io 0)) := by
  rcases hi with rfl | rfl <;> exact if_pos hsrc

section source
variable {s : State} (hsrc : s.ctrl.getLsbD 0 = true)
include hsrc

theorem exec_codec_noSink {i : Instr} (hi : i = .compress ∨ i = .decompress) (hsnk : s.ctrl.getLsbD 1 = false) :
    exec i s = .next (s.takeFault (.io 1)) := by
  rcases hi with rfl | rfl <;> exact (if_neg (ne_false_of_eq_true hsrc)).trans (if_pos hsnk)

variable (hsnk : s.ctrl.getLsbD 1 = true)
include hsnk

theorem exec_compress : exec .compress s = s.compressFailed.imprecise s.compress :=
  (if_neg (ne_false_of_eq_true hsrc)).trans (if_neg (ne_false_of_eq_true hsnk))

theorem exec_decompress : exec .decompress s = s.codecFailed.imprecise s.decompress :=
  (if_neg (ne_false_of_eq_true hsrc)).trans (if_neg (ne_false_of_eq_true hsnk))

end source

/-! ### Failures (46_codec.md R348) -/

/-- A codec command that ends with ERR, where its result has none, has left the failure state. -/
theorem State.imprecise_failed {failed t : State} {result : Except Stop State} (h : failed.imprecise result = .next t)
    (hr : Yields (fun u => u.status.err = false) result) (ht : t.status.err = true) :
    ∃ r, t = failed.takeFault r := by
  rcases State.imprecise_next h with ⟨u, hu, rfl⟩ | ⟨r, -, ht⟩
  · exact nomatch (hr u hu).symm.trans ht
  · exact ⟨r, ht⟩

theorem State.compress_status (s : State) : Yields (fun u => u.status = s.status) s.compress := by
  intro v hv
  obtain ⟨u, k, q, hu, -, rfl⟩ := s.compress_yields v hv
  exact congrArg HostSide.status hu.visible.hostSide

theorem State.decompress_status (s : State) : Yields (fun u => u.status = s.status) s.decompress := by
  intro v hv
  obtain ⟨table, u, k, c, q, -, hu, -, rfl⟩ := s.decompress_yields v hv
  exact congrArg HostSide.status hu.visible.hostSide

end Sys2Proof.Machine

namespace Sys2Proof

open Sys2Proof.Machine

/-- Settles O58: past the valid-bit checks a result keeps STATUS, so an end with ERR is the fault entry from the failure
state. -/
theorem codecFailure : Obligations.CodecFailure := by
  refine ⟨fun s t hs hsrc hsnk ht => ⟨fun h => ?compress, fun h => ?decompress⟩,
    fun s i hi => ⟨fun hsrc => ?source, fun hsrc hsnk => ?sink⟩⟩
  case compress =>
    obtain ⟨r, rfl⟩ := State.imprecise_failed ((exec_compress hsrc hsnk).symm.trans h)
      (fun u hu => (congrArg Status.err (s.compress_status u hu)).trans hs) ht
    exact ⟨s.compressFailed_takeFault r, entry_replicate 0⟩
  case decompress =>
    obtain ⟨r, rfl⟩ := State.imprecise_failed ((exec_decompress hsrc hsnk).symm.trans h)
      (fun u hu => (congrArg Status.err (s.decompress_status u hu)).trans hs) ht
    exact ⟨s.codecFailed_takeFault r, rfl⟩
  case source => exact ⟨_, exec_codec_noSource hi hsrc, s.takeFault_faults (.io 0)⟩
  case sink => exact ⟨_, exec_codec_noSink hsrc hi hsnk, s.takeFault_faults (.io 1)⟩

end Sys2Proof
end

section
/-! PROOFS. The container written through OBC: each field is bits put, or IO(2) where they do not fit OUT, and the bits
put are those of the container's bytes (46_codec.md R321 to R328, R330, R333). -/

namespace Sys2Proof.Machine

/-! ### Bits that fit OUT -/

/-- The result of putting bits: they are appended, or their whole bytes do not fit OUT (20_memory.md R88). -/
def PutsOrFull (cap : Nat) (k : Sink) (w : Bits) (r : Except Stop Sink) : Prop :=
  ((k.total + w.length) / 8 ≤ cap ∧ ∃ k', r = .ok k' ∧ k.Puts w k') ∨
    (cap < (k.total + w.length) / 8 ∧ r = raise (.io 2))

/-- The output side at a byte boundary within OUT. -/
structure Sink.Aligned (cap : Nat) (k : Sink) : Prop extends k.Good where
  len : k.len.toNat ≤ cap
  nb : k.obc.nb = 0

theorem Sink.total_div (k : Sink) : k.total / 8 = k.len.toNat := by
  have := k.obc.nb.isLt
  unfold Sink.total
  omega

theorem Sink.Aligned.total {cap : Nat} {k : Sink} (h : k.Aligned cap) : k.total = 8 * k.len.toNat := by
  rw [Sink.total, h.nb]
  rfl

/-- Whole bytes put end at a byte boundary. -/
theorem Sink.Puts.aligned {cap n : Nat} {k k' : Sink} {w : Bits} (h : k.Puts w k') (hk : k.Aligned cap)
    (hw : w.length = 8 * n) (hlen : k'.len.toNat ≤ cap) : k'.Aligned cap where
  toGood := h.good
  len := hlen
  nb := by
    have htotal := h.total
    have := k'.obc.nb.isLt
    rw [hk.total, hw, Sink.total] at htotal
    exact BitVec.eq_of_toNat_eq (show _ = 0 by omega)

/-- At a byte boundary nothing is pending. -/
theorem Sink.Aligned.obc {cap : Nat} {k : Sink} (h : k.Aligned cap) : k.obc = Obc.cleared := by
  have hbuf : k.obc.buf = 0 := BitVec.eq_of_getLsbD_eq fun i hi => by
    rw [h.low i (by rw [h.nb]; exact hi)]
    exact BitVec.getLsbD_zero.symm
  cases hk : k.obc with
  | mk buf nb =>
    have hnb := h.nb
    rw [hk] at hnb hbuf
    rw [show buf = 0 from hbuf, show nb = 0 from hnb]
    rfl

/-- Puts in a row. -/
theorem PutsOrFull.bind {cap : Nat} {k : Sink} {w w' : Bits} {r : Except Stop Sink} (h : PutsOrFull cap k w r)
    {f : Sink → Except Stop Sink} (hf : ∀ k', k.Puts w k' → k'.len.toNat ≤ cap → PutsOrFull cap k' w' (f k')) :
    PutsOrFull cap k (w ++ w') (r >>= f) := by
  unfold PutsOrFull
  rw [List.length_append]
  rcases h with ⟨hfits, k', rfl, hputs⟩ | ⟨hfull, rfl⟩
  · rw [← hputs.total, Sink.total_div] at hfits
    rcases hf k' hputs hfits with ⟨hfits', k'', he, hputs'⟩ | ⟨hfull', he⟩
    · exact .inl ⟨by rw [hputs.total] at hfits'; omega, k'', he, hputs.trans hputs'⟩
    · exact .inr ⟨by rw [hputs.total] at hfull'; omega, he⟩
  · exact .inr ⟨by omega, rfl⟩

section fields
variable {cap : Nat} (hcap : cap < 2 ^ 32) {k : Sink}
include hcap

theorem obcPutBits_putsOrFull (hg : k.Good) (hlen : k.len.toNat ≤ cap) (w : Bits) :
    PutsOrFull cap k w (obcPutBits cap k w) := by
  have h := obcPutBits_eq hcap hg w
  rwa [max_eq_left hlen] at h

theorem obcFlush_putsOrFull (hg : k.Good) (hlen : k.len.toNat ≤ cap) :
    PutsOrFull cap k (List.replicate k.gap false) ((obcFlush cap k).map Prod.fst) := by
  have hnb := k.obc.nb.isLt
  unfold PutsOrFull
  rw [List.length_replicate, Sink.total, Sink.gap]
  rcases obcFlush_eq hcap hg with ⟨hor, k', he, hputs, -⟩ | ⟨hne, hfull, he⟩
  · refine .inl ⟨?_, k', by rw [he]; rfl, hputs⟩
    rcases hor with h0 | hlt
    · rw [h0, show (0 : BitVec 3).toNat = 0 from rfl]
      omega
    · omega
  · have hpos : k.obc.nb.toNat ≠ 0 := fun h => hne (BitVec.eq_of_toNat_eq h)
    exact .inr ⟨by omega, by rw [he]; rfl⟩

/-- Bits and a flush are the packed bits (46_codec.md R326, R328). -/
theorem putPacked_putsOrFull (h : k.Aligned cap) (w : Bits) : PutsOrFull cap k (bytesBits (packBytes w))
    (obcPutBits cap k w >>= fun k' => (obcFlush cap k').map Prod.fst) := by
  rw [bytesBits_packBytes]
  refine (obcPutBits_putsOrFull hcap h.toGood h.len w).bind fun k' hputs hlen => ?_
  rw [← hputs.gap_eq h.nb]
  exact obcFlush_putsOrFull hcap hputs.good hlen

end fields

/-! ### The fields in a row -/

/-- COMPRESS stops at the first field that does not fit. -/
theorem writeContainer_eq (cap : Nat) (k : Sink) (head : List Byte) (codes : Bits) (q : Nat) (payload : Bits) :
    writeContainer cap k head codes q payload =
      obcPutBytes cap k head >>= fun k => (obcPutBits cap k codes >>= fun k => (obcFlush cap k).map Prod.fst) >>= fun k =>
        obcPutBytes cap k [BitVec.ofNat 8 q] >>= fun k => obcPutBits cap k payload >>= fun k =>
          (obcFlush cap k).map Prod.fst := by
  simp only [writeContainer, bind_assoc]
  simp only [bind, Except.bind, Except.map]
  repeat' split
  all_goals simp_all

theorem bytesBits_append (l m : List Byte) : bytesBits (l ++ m) = bytesBits l ++ bytesBits m := List.flatMap_append

theorem writeContainer_putsOrFull {cap : Nat} (hcap : cap < 2 ^ 32) {k : Sink} (h : k.Aligned cap) (head : List Byte)
    (codes : Bits) (q : Nat) (payload : Bits) :
    PutsOrFull cap k (bytesBits (head ++ packBytes codes ++ [BitVec.ofNat 8 q] ++ packBytes payload))
      (writeContainer cap k head codes q payload) := by
  rw [writeContainer_eq, bytesBits_append, bytesBits_append, bytesBits_append, List.append_assoc, List.append_assoc]
  refine (obcPutBits_putsOrFull hcap h.toGood h.len _).bind fun k1 h1 hlen1 => ?_
  have ha1 := h1.aligned h (bytesBits_length _) hlen1
  refine (putPacked_putsOrFull hcap ha1 codes).bind fun k2 h2 hlen2 => ?_
  have ha2 := h2.aligned ha1 (bytesBits_length _) hlen2
  refine (obcPutBits_putsOrFull hcap ha2.toGood ha2.len _).bind fun k3 h3 hlen3 => ?_
  exact putPacked_putsOrFull hcap (h3.aligned ha2 (bytesBits_length _) hlen3) payload

end Sys2Proof.Machine
end

section
/-! PROOFS. COMPRESS: what HTSETDATA does to any two states with the same input, that the bytes written are the container
of the input, and how COMPRESS ends (46_codec.md R330 to R333). -/

namespace Sys2Proof.Machine

/-! ### HTSETDATA by the bytes of its window -/

/-- The tree and the table of a byte string (44_huffman_tree.md R260). -/
structure DataTree (l : List Byte) (nodes : List Node) (root : Link) (table : Vector Bits 256) : Prop where
  tree : buildTree (fillLeaves (countBytes l)) = .ok (nodes, root)
  codes : deriveTable nodes = .ok table

/-- What HTSETDATA over the whole input does depends on its bytes alone. -/
theorem State.setData_input {l : List Byte} (hl : l.length < 2 ^ 32) :
    (∃ nodes root table, DataTree l nodes root table ∧ ∀ s : State, s.inBytes 0 s.inLen.toNat = l →
      s.setData 0 s.inLen.toNat = .ok (s.withData (countBytes l) nodes root table)) ∨
    ∃ r, ∀ s : State, s.inBytes 0 s.inLen.toNat = l → s.setData 0 s.inLen.toNat = raise r := by
  have hscan (s : State) (hs : s.inBytes 0 s.inLen.toNat = l) :
      s.scanFrequencies 0 s.inLen.toNat = .ok (s.withFreq (countBytes l)) :=
    hs ▸ State.scanFrequencies_ok (Nat.zero_add _).le
  have hsum := (sum_fillLeaves (countBytes l)).trans (countSum_countBytes hl)
  rcases (fillLeaves_leafArena (countBytes l)).buildTree_eq with ⟨-, nodes, root, hb, hbuilt⟩ | ⟨hge, -⟩
  · rcases hbuilt.arena.deriveTable_eq with ⟨-, -, w, -, -, hd⟩ | ⟨table, hd, -⟩
    · exact .inr ⟨_, fun s hs => State.setData_raise_codes (hscan s hs) hb hd⟩
    · exact .inl ⟨nodes, root, table, ⟨hb, hd⟩, fun s hs => State.setData_ok (hscan s hs) hb hd⟩
  · omega

section tree
variable {l : List Byte} {nodes : List Node} {root : Link} {table : Vector Bits 256} (h : DataTree l nodes root table)
include h

theorem DataTree.prefixFree : prefixFree table := by
  have hdata := (fillLeaves_leafArena (countBytes l)).buildTree _ h.tree
  exact (hdata.derived h.codes).prefixFree hdata

theorem DataTree.codesFit : CodesFit table := deriveTable_codesFit nodes table h.codes

/-- Every byte that occurs has a code. -/
theorem DataTree.entry_ne_nil (hl : l.length < 2 ^ 32) {c : Byte} (hc : c ∈ l) : entry table c ≠ [] := by
  rcases (fillLeaves_leafArena (countBytes l)).buildTree_eq with ⟨-, nodes', root', hb, hbuilt⟩ | ⟨-, hb⟩
  · cases hb.symm.trans h.tree
    refine (hbuilt.entry_ne_nil_iff (hbuilt.arena.derived h.codes)).2 (symAt_fillLeaves.2 fun h0 => ?_)
    have hcount := entry_countBytes_toNat hl c
    rw [h0] at hcount
    exact List.count_eq_zero.1 hcount.symm hc
  · exact nomatch hb.symm.trans h.tree

end tree

/-! ### The bytes written -/

theorem codesBits_length (table : Vector Bits 256) : (codesBits table (coded table)).length = codesLength table := by
  rw [codesBits, List.length_flatMap]
  rfl

/-- N from the counts is the number of bits of the message (46_codec.md R331). -/
theorem payloadLength_countBytes {l : List Byte} (hl : l.length < 2 ^ 32) {table : Vector Bits 256}
    (hc : ∀ c ∈ l, entry table c ≠ []) :
    payloadLength (countBytes l) table (coded table) = (payload table l).length := by
  have hnodup : (coded table).Nodup := usedSymbols_eq_coded table ▸ usedSymbols_nodup table
  have hsub : l.toFinset ⊆ (coded table).toFinset := fun c hcl =>
    List.mem_toFinset.2 (mem_coded.2 (hc c (List.mem_toFinset.1 hcl)))
  simp only [payloadLength, entry_countBytes_toNat hl]
  rw [← List.sum_toFinset _ hnodup, payload, List.length_flatMap, Finset.sum_list_map_count]
  simp only [smul_eq_mul]
  refine (Finset.sum_subset hsub fun c _ hcl => ?_).symm
  rw [List.count_eq_zero_of_not_mem (fun h => hcl (List.mem_toFinset.2 h)), Nat.zero_mul]

theorem containerHead_coded (table : Vector Bits 256) : containerHead table (coded table) = layoutHead table := by
  rw [containerHead, codesBits_length]
  rfl

/-- The container of a message under a table, written field by field. -/
def writeMessage (cap : Nat) (k : Sink) (table : Vector Bits 256) (l : List Byte) : Except Stop Sink :=
  writeContainer cap k (containerHead table (coded table)) (codesBits table (coded table))
    (padCount (payload table l).length) (payload table l)

/-- The bytes written are those of the container (46_codec.md R321), and it fits or not as a whole (R333). -/
theorem writeMessage_putsOrFull {cap : Nat} (hcap : cap < 2 ^ 32) {k : Sink} (h : k.Aligned cap) (table : Vector Bits 256)
    (l : List Byte) : PutsOrFull cap k (bytesBits (container table l)) (writeMessage cap k table l) := by
  have hwrite := writeContainer_putsOrFull hcap h (containerHead table (coded table)) (codesBits table (coded table))
    (padCount (payload table l).length) (payload table l)
  rw [containerHead_coded] at hwrite
  rw [writeMessage, containerHead_coded]
  exact hwrite

/-! ### The length of a container (46_codec.md R321, R324, R333) -/

theorem layoutHead_length (table : Vector Bits 256) : (layoutHead table).length = 8 + 2 * (coded table).length := by
  rw [layoutHead, List.length_append, List.length_flatMap]
  simp
  omega

theorem codes_length (table : Vector Bits 256) :
    ((coded table).flatMap fun c => entry table c).length = codesLength table := codesBits_length table

theorem container_length (table : Vector Bits 256) (l : List Byte) :
    (container table l).length = padOffset table + 1 + ((payload table l).length + 7) / 8 := by
  simp only [container, List.length_append, layoutHead_length, packBytes_length, codes_length, List.length_singleton,
    padOffset]

theorem coded_length (table : Vector Bits 256) : (coded table).length ≤ 256 :=
  usedSymbols_eq_coded table ▸ usedSymbols_length table

theorem CodesFit.sum_le {table : Vector Bits 256} (h : CodesFit table) (l : List Byte) :
    (l.map fun c => (entry table c).length).sum ≤ 32 * l.length := by
  have hle := List.sum_le_card_nsmul (l.map fun c => (entry table c).length) 32 (by simpa using fun c _ => h c)
  rwa [List.length_map, smul_eq_mul, Nat.mul_comm] at hle

theorem CodesFit.padOffset_le {table : Vector Bits 256} (h : CodesFit table) : padOffset table ≤ 1544 := by
  have hcodes : codesLength table ≤ 32 * (coded table).length := h.sum_le _
  have := coded_length table
  rw [padOffset]
  omega

theorem CodesFit.container_length_le {table : Vector Bits 256} (h : CodesFit table) (l : List Byte) :
    (container table l).length ≤ 1545 + 4 * l.length := by
  have hpayload : (payload table l).length ≤ 32 * l.length := by
    rw [payload, List.length_flatMap]
    exact h.sum_le l
  have := h.padOffset_le
  rw [container_length]
  omega

/-! ### How COMPRESS ends -/

/-- The state COMPRESS leaves before it completes (46_codec.md R332). -/
def State.withContainer (s : State) (l : List Byte) (nodes : List Node) (root : Link) (table : Vector Bits 256)
    (k : Sink) : State :=
  { (s.freshOutput.withData (countBytes l) nodes root table).setSink k with
    pad := BitVec.ofNat 3 (padCount (payload table l).length) }

theorem State.withContainer_completes (s : State) (l : List Byte) (nodes : List Node) (root : Link)
    (table : Vector Bits 256) (k : Sink) :
    Completes [] [] [.freq, .tree, .ct, .pq, .obc, .pad, .out] s (s.withContainer l nodes root table k).complete :=
  have h : SameBut [] [] [.freq, .tree, .ct, .pq, .obc, .pad, .out] s (s.withContainer l nodes root table k) :=
    { SameBut.refl s with
      freq := .inl (by decide)
      tree := .inl (by decide)
      ct := .inl (by decide)
      pq := .inl (by decide)
      obc := .inl (by decide)
      pad := .inl (by decide)
      out := .inl (by decide) }
  h.completes rfl rfl rfl

theorem Inv.freshOutput_aligned {s : State} (h : Inv s) : s.freshOutput.sink.Aligned s.outCap.val :=
  ⟨h.freshOutput_within.toGood, Nat.zero_le _, rfl⟩

/-- The bytes `l` stand in OUT[0 .. OUT_LEN), OBC is empty, and the rest of OUT is that of `s`. -/
structure Sink.Holds (k : Sink) (l : List Byte) (s : State) : Prop where
  len : k.len.toNat = l.length
  obc : k.obc = Obc.cleared
  bytes : (s.setSink k).outBytes 0 l.length = l
  above : ∀ a, l.length ≤ a → k.win.byte a = s.outByte a

/-- Whole bytes put on the fresh output side. -/
theorem Sink.Puts.holds {s : State} (h : Inv s) {k : Sink} {l : List Byte} (hk : s.freshOutput.sink.Puts (bytesBits l) k)
    (hlen : l.length ≤ s.outCap.val) : k.Holds l s := by
  obtain ⟨hout, hbytes⟩ := Sink.Puts.outBytes (s := s.freshOutput) (t := s.setSink k) hk rfl (bytesBits_length l)
  have hk_len : k.len.toNat = l.length := hout.trans (Nat.zero_add _)
  exact {
    len := hk_len
    obc := (hk.aligned h.freshOutput_aligned (bytesBits_length l) (hk_len.trans_le hlen)).obc
    bytes := bytesBits_injective hbytes
    above := fun a ha => hk.above a (hk_len.trans_le ha) }

/-- The container is written as a whole, or does not fit (46_codec.md R333). -/
theorem Inv.writeMessage {s : State} (hinv : Inv s) (table : Vector Bits 256) (l : List Byte) :
    ((container table l).length ≤ s.outCap.val ∧
      ∃ k, writeMessage s.outCap.val s.freshOutput.sink table l = .ok k ∧ k.Holds (container table l) s) ∨
    (s.outCap.val < (container table l).length ∧
      writeMessage s.outCap.val s.freshOutput.sink table l = raise (.io 2)) := by
  have hwrite := writeMessage_putsOrFull s.outCap_lt hinv.freshOutput_aligned table l
  rw [PutsOrFull, bytesBits_length, hinv.freshOutput_aligned.total, show s.freshOutput.sink.len.toNat = 0 from rfl,
    Nat.mul_zero, Nat.zero_add, Nat.mul_div_cancel_left _ (by decide)] at hwrite
  exact hwrite.imp_left fun ⟨hfits, k, he, hputs⟩ => ⟨hfits, k, he, hputs.holds hinv hfits⟩

/-- COMPRESS past HTSETDATA writes the container of the input under the table that left. -/
theorem State.compress_of_setData {s u : State} {l : List Byte} (h : s.freshOutput.setData 0 s.inLen.toNat = .ok u)
    (hb : u.inBytes 0 u.inLen.toNat = l)
    (hq : padOf (payloadLength u.freq u.ct (coded u.ct)) = padCount (payload u.ct l).length) :
    s.compress = (writeMessage u.outCap.val u.sink u.ct l).map fun k =>
      { u.setSink k with pad := BitVec.ofNat 3 (padCount (payload u.ct l).length) } := by
  have hmessage : l.flatMap (entry u.ct) = payload u.ct l := rfl
  rw [State.compress, h, writeMessage]
  simp only [usedSymbols_eq_coded, hq, hb, hmessage]
  split
  next he => rw [he]; rfl
  next hk => rw [hk]; rfl

section compress
variable {s : State} {l : List Byte} (hb : s.inBytes 0 s.inLen.toNat = l)
include hb

theorem State.input_lt : l.length < 2 ^ 32 := by
  rw [← hb, State.inBytes_length]
  exact s.inLen.isLt

variable {nodes : List Node} {root : Link} {table : Vector Bits 256} (h : DataTree l nodes root table)
  (hset : s.freshOutput.setData 0 s.inLen.toNat = .ok (s.freshOutput.withData (countBytes l) nodes root table))
include h hset

theorem DataTree.compress_map : s.compress =
    (writeMessage s.outCap.val s.freshOutput.sink table l).map (s.withContainer l nodes root table) := by
  have hl := State.input_lt hb
  exact State.compress_of_setData hset hb
    (congrArg padCount (payloadLength_countBytes hl fun c hc => h.entry_ne_nil hl hc))

theorem DataTree.compress_fits (hinv : Inv s) (hfits : (container table l).length ≤ s.outCap.val) :
    ∃ k, s.compress = .ok (s.withContainer l nodes root table k) ∧ k.Holds (container table l) s := by
  rcases hinv.writeMessage table l with ⟨-, k, he, hk⟩ | ⟨hfull, -⟩
  · exact ⟨k, by rw [h.compress_map hb hset, he]; rfl, hk⟩
  · exact absurd hfits hfull.not_ge

theorem DataTree.compress_full (hinv : Inv s) (hfull : s.outCap.val < (container table l).length) :
    s.compress = raise (.io 2) := by
  rcases hinv.writeMessage table l with ⟨hfits, -⟩ | ⟨-, he⟩
  · exact absurd hfits hfull.not_ge
  · rw [h.compress_map hb hset, he]
    rfl

end compress

theorem State.compress_noTree {s : State} {r : Raise} (h : s.freshOutput.setData 0 s.inLen.toNat = raise r) :
    s.compress = raise r := by
  rw [State.compress, h]
  rfl

/-- PAD holds the pad count. -/
theorem padCount_toNat (n : Nat) : (BitVec.ofNat 3 (padCount n)).toNat = padCount n :=
  (BitVec.toNat_ofNat _ 3).trans (Nat.mod_eq_of_lt (Nat.mod_lt _ (by decide)))

/-- HTSETDATA over the whole input with its operands in x0 and x1. -/
theorem exec_htsetdata_input (s : State) : exec (.htsetdata 0 1) ((s.setX 0 0).setX 1 s.inLen) =
    ((s.setX 0 0).setX 1 s.inLen).precise
      (((s.setX 0 0).setX 1 s.inLen).setData 0 ((s.setX 0 0).setX 1 s.inLen).inLen.toNat) := by
  have hpos : ((s.setX 0 0).setX 1 s.inLen).operand 0 = 0 := by simp [State.operand, State.getX_setX]
  have hlen : ((s.setX 0 0).setX 1 s.inLen).operand 1 = s.inLen.toNat :=
    congrArg BitVec.toNat ((s.setX 0 0).getX_setX_same 1 s.inLen)
  show State.precise _ (State.setData _ _ _) = _
  rw [hpos, hlen]
  rfl

theorem exec_compress_raise {s : State} (hsrc : s.ctrl.getLsbD 0 = true) (hsnk : s.ctrl.getLsbD 1 = true) {r : Raise}
    (h : s.compress = raise r) : exec .compress s = .next (s.compressFailed.takeFault r) :=
  (exec_compress hsrc hsnk).trans (congrArg _ h)

theorem exec_compress_ok {s u : State} (hsrc : s.ctrl.getLsbD 0 = true) (hsnk : s.ctrl.getLsbD 1 = true)
    (h : s.compress = .ok u) : exec .compress s = .next u.complete :=
  (exec_compress hsrc hsnk).trans (congrArg _ h)

end Sys2Proof.Machine

namespace Sys2Proof

open Sys2Proof.Machine

/-- Settles O55: HTSETDATA sees the input alone, so both commands have the same tree or the same fault; what is then put
through OBC are the bytes of the container, whose length is at most 1545 + 4 × IN_LEN where every code fits. -/
theorem compressWritesContainer : Obligations.CompressWritesContainer := by
  refine ⟨fun s u l hinv hs hsrc hsnk hl hu => ?asData, fun s hinv hsrc hsnk hfew hcap => ?room⟩
  case asData =>
    have hin : s.freshOutput.inBytes 0 s.freshOutput.inLen.toNat = l := hl.symm
    rw [exec_htsetdata_input] at hu
    rcases State.setData_input (State.input_lt hl.symm) with ⟨nodes, root, table, htree, hset⟩ | ⟨r, hset⟩
    · rw [hset ((s.setX 0 0).setX 1 s.inLen) hl.symm] at hu
      cases hu
      refine ⟨fun _ hfits => ?_, fun _ hfull => ?_, fun herr => nomatch hs.symm.trans herr⟩
      · obtain ⟨k, he, hk⟩ := htree.compress_fits hl.symm (hset _ hin) hinv hfits
        have hlen : (s.withContainer l nodes root table k).complete.outLen.toNat = (container table l).length := hk.len
        refine ⟨_, exec_compress_ok hsrc hsnk he, s.withContainer_completes l nodes root table k, hlen, ?_,
          fun a ha => hk.above a (hlen.ge.trans ha), rfl, rfl, rfl, rfl, rfl, rfl, hk.obc, padCount_toNat _⟩
        rw [hlen]
        exact hk.bytes
      · exact ⟨_, exec_compress_raise hsrc hsnk (htree.compress_full hl.symm (hset _ hin) hinv hfull),
          { s.takeFault_errorEntered (.io 2) with }, s.compressFailed_takeFault _⟩
    · rw [hset ((s.setX 0 0).setX 1 s.inLen) hl.symm] at hu
      cases hu
      exact ⟨nofun, nofun, fun _ => ⟨_, exec_compress_raise hsrc hsnk (State.compress_noTree (hset _ hin)),
        { s.takeFault_errorEntered r with }, s.compressFailed_takeFault _⟩⟩
  case room =>
    obtain ⟨nodes, root, table, hb, hd, -⟩ := buildTree_countBytes (State.input_lt rfl) hfew
    have htree : DataTree (s.inBytes 0 s.inLen.toNat) nodes root table := ⟨hb, hd⟩
    have hset := State.setData_ok (s := s.freshOutput) (State.scanFrequencies_ok (Nat.zero_add _).le) hb hd
    have hle := htree.codesFit.container_length_le (s.inBytes 0 s.inLen.toNat)
    rw [State.inBytes_length] at hle
    obtain ⟨k, he, -⟩ := htree.compress_fits rfl hset hinv (hle.trans hcap)
    exact ⟨_, exec_compress_ok hsrc hsnk he, s.withContainer_completes _ nodes root table k⟩

end Sys2Proof
end

section
/-! PROOFS. The header checks of DECOMPRESS against the bytes of the container: the first check that fails, and what holds
where none does (46_codec.md R343). -/

namespace Sys2Proof.Machine

/-! ### Checks in order -/

/-- The answer of checks in order: MALFORMED with the subcode and detail of the first that fails, or the value. -/
def checked {α : Type} (x : Option (Nat × Nat)) (v : α) : Except Stop α :=
  x.elim (.ok v) fun y => raise (.malformed y.1 y.2)

/-- One check before others. -/
theorem ite_eq_checked {α : Type} {p q : Prop} [Decidable p] [Decidable q] (hpq : p ↔ q) {sub d : Nat}
    {r : Except Stop α} {x : Option (Nat × Nat)} {v : α} (h : ¬ q → r = checked x v) :
    (if p then raise (.malformed sub d) else r) = checked (if q then some (sub, d) else x) v := by
  by_cases hq : q
  · rw [if_pos (hpq.2 hq), if_pos hq]
    rfl
  · rw [if_neg (mt hpq.1 hq), if_neg hq]
    exact h hq

/-! ### The entries -/

/-- Entry k of a container (46_codec.md R325). -/
def entryAt (c : List Byte) (k : Nat) : Byte × Nat := (c.getD (8 + 2 * k) 0, (c.getD (9 + 2 * k) 0).toNat)

/-- The first `e` entries of a container. -/
def entriesOf (c : List Byte) (e : Nat) : List (Byte × Nat) := (List.range e).map (entryAt c)

theorem entriesOf_sum (c : List Byte) (e : Nat) : ((entriesOf c e).map Prod.snd).sum = lengthSum c e := by
  rw [entriesOf, List.map_map]
  rfl

/-- The check of entry k (46_codec.md R343). -/
def entryCheck (c : List Byte) (k : Nat) : Option (Nat × Nat) :=
  if 0 < k ∧ (c.getD (8 + 2 * k) 0).toNat ≤ (c.getD (6 + 2 * k) 0).toNat then some (0x05, k)
  else if (c.getD (9 + 2 * k) 0).toNat = 0 ∨ 32 < (c.getD (9 + 2 * k) 0).toNat then
    some (0x06, (c.getD (8 + 2 * k) 0).toNat)
  else none

theorem entryFault_eq (c : List Byte) (e : Nat) : entryFault c e = (List.range' 0 e).findSome? (entryCheck c) := by
  rw [← List.range_eq_range']
  rfl

/-- The symbol of the entry before entry k. -/
def symbolBefore (c : List Byte) (k : Nat) : Option Byte := if k = 0 then none else some (c.getD (6 + 2 * k) 0)

theorem checkEntries_eq (c : List Byte) (k n : Nat) :
    checkEntries k (symbolBefore c k) ((List.range' k n).map (entryAt c)) =
      checked ((List.range' k n).findSome? (entryCheck c)) () := by
  induction n generalizing k with
  | zero => rfl
  | succ n ih =>
    have hbefore : (symbolBefore c k).any (fun p => (c.getD (8 + 2 * k) 0).toNat ≤ p.toNat) ↔
        0 < k ∧ (c.getD (8 + 2 * k) 0).toNat ≤ (c.getD (6 + 2 * k) 0).toNat := by
      rcases k.eq_zero_or_pos with rfl | hk
      · simp [symbolBefore]
      · simp [symbolBefore, hk, hk.ne']
    rw [List.range'_succ, List.map_cons, entryAt, checkEntries, List.findSome?_cons]
    have hnext : symbolBefore c (k + 1) = some (c.getD (8 + 2 * k) 0) := by
      rw [symbolBefore, if_neg k.succ_ne_zero, show 6 + 2 * (k + 1) = 8 + 2 * k by omega]
    by_cases h5 : 0 < k ∧ (c.getD (8 + 2 * k) 0).toNat ≤ (c.getD (6 + 2 * k) 0).toNat
    · rw [if_pos (hbefore.2 h5), entryCheck, if_pos h5]
      rfl
    · rw [if_neg (mt hbefore.1 h5), entryCheck, if_neg h5]
      split
      · rfl
      · rw [← hnext]
        exact ih (k + 1)

theorem entryFault_eq_none {c : List Byte} {e : Nat} : entryFault c e = none ↔ ∀ k, k < e →
    (0 < k → (c.getD (6 + 2 * k) 0).toNat < (c.getD (8 + 2 * k) 0).toNat) ∧
      0 < (c.getD (9 + 2 * k) 0).toNat ∧ (c.getD (9 + 2 * k) 0).toNat ≤ 32 := by
  rw [entryFault, List.findSome?_eq_none_iff]
  refine forall_congr' fun k => ?_
  rw [List.mem_range]
  refine imp_congr_right fun _ => ?_
  split
  · simp only [reduceCtorEq, false_iff]
    omega
  · split
    · simp only [reduceCtorEq, false_iff]
      omega
    · simp only [true_iff]
      omega

/-! ### The header -/

/-- The header holds what 46_codec.md R343 asks of it. -/
structure HeaderOk (c : List Byte) : Prop where
  magic : c.take 4 = [0x48, 0x41, 0x46, 0x46]
  fixed : 8 ≤ c.length
  count : fieldAt c 4 ≤ 256
  entries : entryFault c (fieldAt c 4) = none
  offset : fieldAt c 6 = 8 + 2 * fieldAt c 4 + (lengthSum c (fieldAt c 4) + 7) / 8
  inside : fieldAt c 6 < c.length
  pad : (c.getD (fieldAt c 6) 0).toNat ≤ 7
  padded : (c.getD (fieldAt c 6) 0).toNat ≠ 0 → fieldAt c 6 + 1 < c.length

theorem ite_some_eq_none {α : Type} {p : Prop} [Decidable p] {a : α} {x : Option α} :
    (if p then some a else x) = none ↔ ¬ p ∧ x = none := by split <;> simp [*]

theorem headerFault_eq_none {c : List Byte} : headerFault c = none ↔ HeaderOk c := by
  cases he : entryFault c (fieldAt c 4) with
  | some x =>
    simp only [headerFault, he, ite_some_eq_none, reduceCtorEq, and_false, false_iff]
    exact fun h => nomatch he.symm.trans h.entries
  | none =>
    simp only [headerFault, he, ite_some_eq_none, and_true]
    constructor
    · rintro ⟨h1, h2, h3, h4, h7, h8, h9, h10⟩
      push Not at h1 h8 h10
      exact ⟨h1.2, by omega, by omega, he, h8, by omega, by omega, fun h => by have := h10.2 h; omega⟩
    · rintro ⟨h1, h2, h3, -, h8, h9, h10, h11⟩
      exact ⟨fun h => h.elim (by omega) fun h => h h1, by omega, by omega, by omega, by omega, by omega, by omega,
        by omega⟩

section parse
variable {s : State} {c : List Byte} (hc : c = s.inBytes 0 s.inLen.toNat)
include hc

theorem input_length : s.inLen.toNat = c.length := by rw [hc, State.inBytes_length]

theorem input_getD {k : Nat} (hk : k < c.length) : s.inByte k = c.getD k 0 := by
  rw [← input_length hc] at hk
  rw [hc, List.getD_eq_getElem?_getD, State.inBytes_get? s hk, Nat.zero_add]
  rfl

theorem input_take (hlen : 4 ≤ c.length) : s.inBytes 0 4 = c.take 4 := by
  rw [← input_length hc] at hlen
  rw [hc, State.inBytes, State.inBytes, ← List.map_take, List.take_range, min_eq_left hlen]

theorem input_field {k : Nat} (hk : k + 1 < c.length) :
    (s.inByte k).toNat + 256 * (s.inByte (k + 1)).toNat = fieldAt c k := by
  rw [input_getD hc (by omega), input_getD hc hk, fieldAt]

theorem readEntries_eq {e : Nat} (he : 8 + 2 * e ≤ c.length) : s.readEntries e = entriesOf c e := by
  refine List.map_congr_left fun k hk => ?_
  rw [List.mem_range] at hk
  rw [input_getD hc (by omega), input_getD hc (by omega), entryAt]

/-- The header checks find the first failing check of the container, or its header. -/
theorem State.parseHeader_eq : s.parseHeader =
    checked (headerFault c) ⟨entriesOf c (fieldAt c 4), fieldAt c 6, (c.getD (fieldAt c 6) 0).toNat⟩ := by
  have hmagic : (c.length < 4 ∨ s.inBytes 0 4 ≠ magic) ↔ (c.length < 4 ∨ c.take 4 ≠ [0x48, 0x41, 0x46, 0x46]) :=
    or_congr_right' fun h => by rw [input_take hc (by omega)]; rfl
  rw [State.parseHeader, headerFault]
  simp only [input_length hc]
  refine ite_eq_checked hmagic fun _ => ite_eq_checked Iff.rfl fun hlen => ?_
  rw [input_field hc (k := 4) (by omega), input_field hc (k := 6) (by omega)]
  refine ite_eq_checked Iff.rfl fun _ => ite_eq_checked Iff.rfl fun he => ?_
  have hcheck := checkEntries_eq c 0 (fieldAt c 4)
  rw [← entryFault_eq, ← List.range_eq_range'] at hcheck
  rw [readEntries_eq hc (by omega), show checkEntries 0 none (entriesOf c (fieldAt c 4)) = _ from hcheck]
  cases entryFault c (fieldAt c 4) with
  | some x => rfl
  | none =>
    simp only [checked, Option.elim_none, entriesOf_sum]
    refine ite_eq_checked Iff.rfl fun _ => ite_eq_checked Iff.rfl fun _ => ite_eq_checked Iff.rfl fun ht => ?_
    rw [input_getD hc (by omega)]
    exact ite_eq_checked (or_congr_right (and_congr_right fun _ => by omega)) fun _ => rfl

end parse

end Sys2Proof.Machine
end

section
/-! PROOFS. DECOMPRESS past its header checks: the code table it reads is the one the container holds, and the rest is
HTSETDICT and HTDEC (46_codec.md R343 to R345). -/

namespace Sys2Proof.Machine

/-! ### Reading the code table -/

section read
variable (s : State) (c : Ibc)

/-- Where the cursor of the state stands says nothing about what another one reads. -/
@[simp] theorem State.readBits_withIbc (n : Nat) (d : Ibc) : (s.withIbc c).readBits n d = s.readBits n d := by
  induction n generalizing d with
  | zero => rfl
  | succ n ih =>
    simp only [State.readBits, show (s.withIbc c).ibcAdvance d = s.ibcAdvance d from rfl, ih]

theorem State.readTable_withIbc (l : List (Byte × Nat)) (d : Ibc) (t : Vector Bits 256) :
    (s.withIbc c).readTable l d t = s.readTable l d t := by
  induction l generalizing d t with
  | nil => rfl
  | cons x l ih => simp only [State.readTable, State.readBits_withIbc, ih]

end read

/-- A symbol that is not listed keeps its code. -/
theorem State.readTable_other (s : State) {l : List (Byte × Nat)} {d : Byte} (h : ∀ x ∈ l, x.1 ≠ d) (cur : Ibc)
    (t : Vector Bits 256) : entry (s.readTable l cur t) d = entry t d := by
  induction l generalizing cur t with
  | nil => rfl
  | cons x l ih =>
    obtain ⟨hx, hl⟩ := List.forall_mem_cons.1 h
    rw [State.readTable, ih hl, entry_setEntry, if_neg hx]

/-- The code of a listed symbol is the stream's bits after those of the entries before it. -/
theorem State.readTable_listed {s : State} (m r : List (Byte × Nat)) {d : Byte} {n k : Nat} (hr : ∀ x ∈ r, x.1 ≠ d)
    (hleft : k + (m.map Prod.snd).sum + n ≤ s.streamLeft) (t : Vector Bits 256) :
    entry (s.readTable (m ++ (d, n) :: r) (s.streamAt k) t) d = s.bits (k + (m.map Prod.snd).sum) n := by
  induction m generalizing k t with
  | nil =>
    rw [List.map_nil, List.sum_nil, Nat.add_zero] at hleft ⊢
    rw [List.nil_append, State.readTable, State.readTable_other _ hr, entry_setEntry, if_pos rfl,
      State.readBits_streamAt hleft, State.bits]
  | cons x m ih =>
    rw [List.map_cons, List.sum_cons, ← Nat.add_assoc] at hleft ⊢
    rw [List.cons_append, State.readTable, State.readBits_streamAt (by omega), ih hleft]

/-- From IN[p] on the stream's bits are those of the rest of the input. -/
theorem State.loadedAt_bits {s : State} {c : List Byte} (hc : c = s.inBytes 0 s.inLen.toNat) {p : Nat} (hp : p < c.length)
    {k n : Nat} (h : k + n ≤ 8 * (c.length - p)) :
    (s.loadedAt p).bits k n = ((bytesBits (c.drop p)).drop k).take n := by
  have hdrop : c.drop p = s.inBytes p (c.length - p) := by
    rw [← input_length hc, hc, State.inBytes, State.inBytes]
    refine List.ext_getElem (by simp) fun i _ _ => by simp
  have hload := State.bits_load (s := s.loadedAt p) (by rw [← input_length hc] at hp; exact hp) rfl h
  rw [State.bits_add, Nat.zero_add] at hload
  have hdropped := congrArg (List.drop k) hload
  rw [List.drop_left' (State.bits_length _ _ _), List.drop_take, Nat.add_sub_cancel_left] at hdropped
  rw [hdrop]
  exact hdropped

/-! ### The table of a container -/

/-- The symbols of the entries ascend. -/
theorem symbols_ascend {c : List Byte} {e : Nat} (h : entryFault c e = none) {j k : Nat} (hjk : j < k) (hk : k < e) :
    (c.getD (8 + 2 * j) 0).toNat < (c.getD (8 + 2 * k) 0).toNat := by
  have hnext {i : Nat} (hi : i + 1 < e) : (c.getD (8 + 2 * i) 0).toNat < (c.getD (8 + 2 * (i + 1)) 0).toNat := by
    obtain ⟨hlt, -⟩ := entryFault_eq_none.1 h (i + 1) hi
    rw [show 8 + 2 * i = 6 + 2 * (i + 1) by omega]
    exact hlt i.succ_pos
  induction k, hjk using Nat.le_induction with
  | base => exact hnext hk
  | succ k _ ih => exact (ih (by omega)).trans (hnext hk)

theorem entriesOf_length (c : List Byte) (e : Nat) : (entriesOf c e).length = e := by simp [entriesOf]

theorem entriesOf_split (c : List Byte) {k e : Nat} (hk : k < e) :
    entriesOf c e = entriesOf c k ++ entryAt c k :: (List.range' (k + 1) (e - k - 1)).map (entryAt c) := by
  obtain ⟨m, rfl⟩ := Nat.exists_eq_add_of_lt hk
  rw [entriesOf, entriesOf, List.range_eq_range', List.range_eq_range', Nat.add_assoc, ← List.range'_append_1,
    List.map_append, Nat.zero_add, List.range'_succ, List.map_cons, show k + (m + 1) - k - 1 = m by omega]

section held
variable {s : State} {c : List Byte} {table : Vector Bits 256} (hc : c = s.inBytes 0 s.inLen.toNat) (hok : HeaderOk c)
include hc hok

/-- The code read for entry k. -/
theorem State.readTable_entry {k : Nat} (hk : k < fieldAt c 4) :
    entry (s.readTable (entriesOf c (fieldAt c 4)) (s.ibcLoad (8 + 2 * fieldAt c 4)) (Vector.replicate 256 []))
      (c.getD (8 + 2 * k) 0) =
    ((bytesBits (c.drop (8 + 2 * fieldAt c 4))).drop (lengthSum c k)).take (c.getD (9 + 2 * k) 0).toNat := by
  have hpos : 8 + 2 * fieldAt c 4 < c.length := by have := hok.offset; have := hok.inside; omega
  obtain ⟨hleft, -⟩ := State.loadedAt_stream (s := s) (input_length hc ▸ hpos)
  have hsum := entriesOf_sum c (fieldAt c 4)
  rw [entriesOf_split c hk] at hsum ⊢
  simp only [List.map_append, List.map_cons, List.sum_append, List.sum_cons, entriesOf_sum, entryAt] at hsum
  have hbits : lengthSum c k + (c.getD (9 + 2 * k) 0).toNat ≤ 8 * (c.length - (8 + 2 * fieldAt c 4)) := by
    have := hok.offset
    have := hok.inside
    omega
  have hread := State.readTable_listed (s := s.loadedAt (8 + 2 * fieldAt c 4)) (k := 0) (entriesOf c k)
    ((List.range' (k + 1) (fieldAt c 4 - k - 1)).map (entryAt c)) (d := c.getD (8 + 2 * k) 0)
    (n := (c.getD (9 + 2 * k) 0).toNat) ?later ?left (Vector.replicate 256 [])
  case later =>
    simp only [List.mem_map, List.mem_range'_1, forall_exists_index, and_imp]
    rintro _ j hkj hj rfl heq
    exact (symbols_ascend hok.entries (show k < j by omega) (by omega)).ne' (congrArg BitVec.toNat heq)
  case left =>
    rw [entriesOf_sum, hleft, input_length hc]
    omega
  rw [State.streamAt_zero, State.loadedAt, State.readTable_withIbc, entriesOf_sum, Nat.zero_add] at hread
  exact hread.trans (State.loadedAt_bits hc hpos hbits)

/-- The code table read is the one the container holds. -/
theorem State.readTable_held (hheld : tableHeld c table) : s.readTable (entriesOf c (fieldAt c 4))
    (s.ibcLoad (8 + 2 * fieldAt c 4)) (Vector.replicate 256 []) = table := by
  obtain ⟨hlisted, hother⟩ := hheld
  refine entry_ext fun d => ?_
  by_cases hd : ∃ k, k < fieldAt c 4 ∧ c.getD (8 + 2 * k) 0 = d
  · obtain ⟨k, hk, rfl⟩ := hd
    exact (State.readTable_entry hc hok hk).trans (hlisted k hk).symm
  · push Not at hd
    have hout : ∀ x ∈ entriesOf c (fieldAt c 4), x.1 ≠ d := by
      simp only [entriesOf, List.mem_map, List.mem_range, forall_exists_index, and_imp]
      rintro _ k hk rfl
      exact hd k hk
    rw [State.readTable_other s hout, entry_replicate, hother d hd]

end held

/-! ### HTSETDICT and HTDEC of the payload -/

theorem payloadHeld_length (c : List Byte) :
    (payloadHeld c).length = 8 * (c.length - fieldAt c 6 - 1) - (c.getD (fieldAt c 6) 0).toNat := by
  rw [payloadHeld, List.length_take, bytesBits_length, List.length_drop]
  omega

/-- The state in which DECOMPRESS decodes the payload (46_codec.md R345). -/
def State.decoding (s : State) (table : Vector Bits 256) (nodes : List Node) (root : Link) (p : Nat) : State :=
  { ({ s.freshOutput with ct := table } : State).withDict nodes root with ibc := s.ibcLoad p }

/-- The state with another PAD. -/
def State.withPad (q : Nat) (s : State) : State := { s with pad := BitVec.ofNat 3 q }

section input
variable {s : State} {c : List Byte} (hc : c = s.inBytes 0 s.inLen.toNat)
include hc

/-- The stream of the payload gives the payload bits. -/
theorem State.payload_bits : (s.loadedAt (fieldAt c 6 + 1)).bits 0 (payloadHeld c).length = payloadHeld c ∧
    (payloadHeld c).length ≤ (s.loadedAt (fieldAt c 6 + 1)).streamLeft := by
  have hlen := payloadHeld_length c
  rcases Nat.lt_or_ge (fieldAt c 6 + 1) c.length with hlt | hge
  · obtain ⟨hleft, -⟩ := State.loadedAt_stream (s := s) (input_length hc ▸ hlt)
    rw [State.loadedAt_bits hc hlt (by omega), List.drop_zero, hleft, input_length hc, hlen, payloadHeld]
    exact ⟨rfl, by omega⟩
  · have hnil : payloadHeld c = [] := List.length_eq_zero_iff.1 (by omega)
    rw [hnil]
    exact ⟨rfl, Nat.zero_le _⟩

/-- A header check that fails. -/
theorem State.decompress_header {sub d : Nat} (h : headerFault c = some (sub, d)) :
    s.decompress = raise (.malformed sub d) := by
  rw [State.decompress, State.parseHeader_eq hc, h]
  rfl

variable {table : Vector Bits 256} (hok : HeaderOk c) (hheld : tableHeld c table)
include hok hheld

/-- HTSETDICT fails. -/
theorem State.decompress_clash {r : Raise} (h : rebuildTree table = raise r) : s.decompress = raise r := by
  have hdict : State.setDict { s.freshOutput with ct := table } = raise r := State.setDict_raise h
  rw [State.decompress, State.parseHeader_eq hc, headerFault_eq_none.2 hok]
  simp only [checked, Option.elim_none, entriesOf_length, State.readTable_held hc hok hheld, hdict]
  rfl

/-- HTSETDICT completes, and HTDEC decodes the payload. -/
theorem State.decompress_decoding {nodes : List Node} {root : Link} (h : rebuildTree table = .ok (nodes, root)) :
    s.decompress = ((s.decoding table nodes root (fieldAt c 6 + 1)).decodePayload (payloadHeld c).length).map
      (State.withPad (c.getD (fieldAt c 6) 0).toNat) := by
  have hdict : State.setDict { s.freshOutput with ct := table } =
      .ok (({ s.freshOutput with ct := table } : State).withDict nodes root) := State.setDict_ok h
  rw [State.decompress, State.parseHeader_eq hc, headerFault_eq_none.2 hok]
  simp only [checked, Option.elim_none, entriesOf_length, State.readTable_held hc hok hheld, hdict]
  rw [input_length hc, ← payloadHeld_length]
  split
  next he => exact (congrArg (Except.map (State.withPad _)) he).symm
  next hu => exact (congrArg (Except.map (State.withPad _)) hu).symm

end input

end Sys2Proof.Machine
end

section
/-! PROOFS. What DECOMPRESS reports: the faults of decoding in the trie of a table are the beginnings of its codes that go
wrong, and each failing check ends in the failure state (46_codec.md R343, R345, R348; 44_huffman_tree.md R267). -/

namespace Sys2Proof.Machine

/-! ### HTSETDICT on the table -/

theorem rebuildTree_clash {table : Vector Bits 256} {d : Byte} (h : firstClash table d) :
    rebuildTree table = raise (.malformed 0x0B d.toNat) := by
  obtain ⟨c, hcd, hc, hd, hclash⟩ := h.1
  rcases rebuildTree_eq table with ⟨hnil, -⟩ | ⟨-, nodes, -, ht, -⟩ | ⟨e, he, hraise⟩
  · exact absurd (mem_coded.2 hd) (by simp [hnil])
  · exact absurd hclash (ht.not_clash hc hd fun heq => hcd.ne (congrArg BitVec.toNat heq))
  · rwa [firstClash_unique h he]

theorem exists_firstClash {table : Vector Bits 256} (h : ¬ prefixFree table) : ∃ d, firstClash table d := by
  rcases rebuildTree_eq table with ⟨hnil, -⟩ | ⟨-, nodes, -, ht, -⟩ | ⟨d, hd, -⟩
  · exact absurd (fun c d _ hc => absurd (mem_coded.2 hc) (by simp [hnil])) h
  · exact absurd (fun c d hne hc hd hp => ht.not_clash hc hd hne (.inl hp)) h
  · exact ⟨d, hd⟩

theorem rebuildTree_noCode {table : Vector Bits 256} (h : ∀ c, entry table c = []) :
    rebuildTree table = .ok ([], none) := by
  have hnil : usedSymbols table = [] := List.eq_nil_iff_forall_not_mem.2 fun c hc => mem_usedSymbols.1 hc (h c)
  rw [rebuildTree, hnil]

theorem rebuildTree_trie {table : Vector Bits 256} (h : prefixFree table) {c : Byte} (hc : entry table c ≠ []) :
    ∃ nodes, rebuildTree table = .ok (nodes, some 0) ∧ TrieOf table (fun d => entry table d ≠ []) [] nodes := by
  rcases rebuildTree_eq table with ⟨hnil, -⟩ | ⟨-, nodes, he, ht, -⟩ | ⟨d, hd, -⟩
  · exact absurd (mem_coded.2 hc) (by simp [hnil])
  · exact ⟨nodes, he, ht⟩
  · exact absurd h (not_prefixFree_of_firstClash hd)

/-! ### Decoding in the trie of a table (44_huffman_tree.md R267) -/

section trie
variable {table : Vector Bits 256} {nodes : List Node} (h : TrieOf table (fun c => entry table c ≠ []) [] nodes)
include h

/-- What the trie parses, the table encodes. -/
theorem TrieOf.payload_of_parses {w : Bits} {l : List Byte} (hp : Parses nodes 0 w l) :
    (∀ c ∈ l, entry table c ≠ []) ∧ w = payload table l := by
  induction hp with
  | done => exact ⟨nofun, rfl⟩
  | symbol code rest c l _ hlead _ _ ih =>
    obtain ⟨hc, rfl⟩ := (h.leads code c).1 hlead
    obtain ⟨hl, rfl⟩ := ih
    exact ⟨List.forall_mem_cons.2 ⟨hc, hl⟩, rfl⟩

/-- A walk from the root stays in the trie along the beginning of a code. -/
theorem TrieOf.walk_isSome_iff {w : Bits} (hw : w ≠ []) : (walk nodes 0 w).isSome ↔ ∃ c, w <+: entry table c := by
  rw [h.reach, List.prefix_nil, or_iff_right hw]
  refine exists_congr fun c => and_iff_right_of_imp fun hle hnil => hw ?_
  rwa [hnil, List.prefix_nil] at hle

/-- A beginning of a code short of its end meets no leaf. -/
theorem TrieOf.noLeafOn_iff {c : Byte} {w : Bits} (hle : w <+: entry table c) (hc : entry table c ≠ []) :
    NoLeafOn nodes 0 w ↔ w ≠ entry table c := by
  constructor
  · rintro hno rfl
    refine hno _ (List.length_pos_iff.2 hc) le_rfl ⟨c, ?_⟩
    rw [List.take_length]
    exact (h.leads _ c).2 ⟨hc, rfl⟩
  · rintro hne m hm hlen ⟨d, hd⟩
    obtain ⟨hused, hcode⟩ := (h.leads _ d).1 hd
    have hpre : entry table d <+: w := hcode ▸ List.take_prefix m w
    by_cases hdc : d = c
    · subst hdc
      exact hne (hle.eq_of_length (le_antisymm hle.length_le hpre.length_le))
    · exact h.not_clash hused hc hdc (.inl (hpre.trans hle))

theorem TrieOf.standsAfter_iff {bits rest : Bits} {c : Byte} (hc : entry table c ≠ []) :
    standsAfter nodes 0 bits rest ↔ ∃ l, (∀ c ∈ l, entry table c ≠ []) ∧ bits = payload table l ++ rest ∧
      ∃ c, rest <+: entry table c ∧ rest ≠ entry table c := by
  rw [Machine.standsAfter_iff]
  constructor
  · rintro ⟨found, symbols, rfl, hparse, hwalk, hno⟩
    obtain ⟨hl, rfl⟩ := h.payload_of_parses hparse
    refine ⟨symbols, hl, rfl, ?_⟩
    rcases eq_or_ne rest [] with rfl | hrest
    · exact ⟨c, List.nil_prefix, hc.symm⟩
    · obtain ⟨d, hd⟩ := (h.walk_isSome_iff hrest).1 hwalk
      exact ⟨d, hd, (h.noLeafOn_iff hd fun hnil => hrest (List.prefix_nil.1 (hnil ▸ hd))).1 hno⟩
  · rintro ⟨l, hl, rfl, d, hd, hne⟩
    have hused : entry table d ≠ [] := fun hnil => hne ((List.prefix_nil.1 (hnil ▸ hd)).trans hnil.symm)
    exact ⟨_, l, rfl, h.treeFor.parses hl, (h.reach rest).2 (.inr ⟨d, hused, hd⟩), (h.noLeafOn_iff hd hused).2 hne⟩

/-- Where the source has all its bits, decoding goes wrong just where the bits stop being the codes of a message. -/
theorem TrieOf.decodeFault_iff {c : Byte} (hc : entry table c ≠ []) {bit : Nat → Bool} {left n : Nat} (hn : n ≤ left)
    {sub k : Nat} : DecodeFault nodes 0 bit left n sub k ↔ PayloadFault table ((List.range n).map bit) sub k := by
  have htake (hk : k ≤ n) : ((List.range n).map bit).take k = (List.range k).map bit := by
    rw [← List.map_take, List.take_range, min_eq_left hk]
  have hget (hk : k < n) : ((List.range n).map bit).getD k false = bit k := by
    simp [List.getD_eq_getElem?_getD, hk]
  have hdead (rest : Bits) (b : Bool) : walk nodes 0 (rest ++ [b]) = none ↔ ¬ ∃ c, rest ++ [b] <+: entry table c := by
    rw [← h.walk_isSome_iff (by simp), Option.not_isSome_iff_eq_none]
  simp only [DecodeFault, PayloadFault, h.standsAfter_iff hc, hdead, List.length_map, List.length_range]
  constructor
  · rintro ⟨rest, ⟨l, hl, hbits, hrest⟩, hcase⟩
    have hk : k ≤ n := by omega
    refine ⟨l, rest, hl, hk, (htake hk).trans hbits, hrest, ?_⟩
    rcases hcase with ⟨hsub, hkn, -, hno⟩ | ⟨-, hkn, rfl⟩ | ⟨hsub, hkn, -, hne⟩
    · exact .inl ⟨hsub, hkn, by rwa [hget hkn]⟩
    · omega
    · exact .inr ⟨hsub, hkn, hne⟩
  · rintro ⟨l, rest, hl, hk, hbits, hrest, hcase⟩
    refine ⟨rest, ⟨l, hl, (htake hk).symm.trans hbits, hrest⟩, ?_⟩
    rcases hcase with ⟨hsub, hkn, hno⟩ | ⟨hsub, hkn, hne⟩
    · rw [hget hkn] at hno
      exact .inl ⟨hsub, hkn, by omega, hno⟩
    · exact .inr (.inr ⟨hsub, hkn, hn, hne⟩)

end trie

/-- Only a table with codes has payload bits that go wrong within one. -/
theorem PayloadFault.exists_code {table : Vector Bits 256} {bits : Bits} {sub k : Nat}
    (h : PayloadFault table bits sub k) : ∃ c, entry table c ≠ [] := by
  obtain ⟨-, rest, -, -, -, ⟨c, hle, hne⟩, -⟩ := h
  exact ⟨c, fun hnil => hne ((List.prefix_nil.1 (hnil ▸ hle)).trans hnil.symm)⟩

theorem PayloadFault.ne_nil {table : Vector Bits 256} {bits : Bits} {sub k : Nat} (h : PayloadFault table bits sub k) :
    bits ≠ [] := by
  rintro rfl
  obtain ⟨l, rest, -, -, hsplit, -, ⟨-, hlt, -⟩ | ⟨-, -, hne⟩⟩ := h
  · exact absurd hlt (Nat.not_lt_zero k)
  · rw [List.take_nil, List.nil_eq_append_iff] at hsplit
    exact hne hsplit.2

/-- Bits that are not the codes of a message go wrong somewhere. -/
theorem exists_payloadFault {table : Vector Bits 256} (h : prefixFree table) {c : Byte} (hc : entry table c ≠ [])
    {bits : Bits} (hno : ¬ ∃ l, (∀ x ∈ l, entry table x ≠ []) ∧ bits = payload table l) :
    ∃ sub k, PayloadFault table bits sub k := by
  obtain ⟨nodes, -, ht⟩ := rebuildTree_trie h hc
  have hbits : (List.range bits.length).map (fun i => bits.getD i false) = bits :=
    List.ext_getElem (by simp) fun i _ hi => by simp [hi]
  have hfault := exists_decodeFault (nodes := nodes) (root := 0) (bit := fun i => bits.getD i false)
    (left := bits.length) (n := bits.length) (.inr fun ⟨l, hl⟩ => hno ⟨l, ht.payload_of_parses (hbits ▸ hl)⟩)
  simp only [ht.decodeFault_iff hc le_rfl, hbits] at hfault
  exact hfault

/-! ### DECOMPRESS -/

theorem decompressRaises_of_raise {s : State} (hsrc : s.ctrl.getLsbD 0 = true) (hsnk : s.ctrl.getLsbD 1 = true)
    {sub d : Nat} (h : s.decompress = raise (.malformed sub d)) : decompressRaises s sub d :=
  ⟨s.codecFailed.takeFault (.malformed sub d), (exec_decompress hsrc hsnk).trans (congrArg _ h),
    { s.takeFault_errorEntered (.malformed sub d) with errInfo := BitVec.toNat_ofNat _ 32 },
    s.codecFailed_takeFault _, rfl⟩

/-- A container with an entry has a symbol with a code. -/
theorem tableHeld.exists_code {c : List Byte} {table : Vector Bits 256} (h : tableHeld c table) (hok : HeaderOk c)
    (he : fieldAt c 4 ≠ 0) : ∃ d, entry table d ≠ [] := by
  have hinside := hok.inside
  rw [hok.offset] at hinside
  obtain ⟨-, hpos, -⟩ := entryFault_eq_none.1 hok.entries 0 (by omega)
  obtain ⟨hlisted, -⟩ := h
  refine ⟨c.getD (8 + 2 * 0) 0, List.length_pos_iff.1 ?_⟩
  rw [hlisted 0 (by omega), List.length_take, List.length_drop, bytesBits_length, List.length_drop,
    show lengthSum c 0 = 0 from rfl]
  omega

section payload
variable {s : State} {c : List Byte} {table : Vector Bits 256} (hc : c = s.inBytes 0 s.inLen.toNat) (hok : HeaderOk c)
  (hheld : tableHeld c table)
include hc hok hheld

/-- A payload where no symbol has a code. -/
theorem State.decompress_noRoot (he : fieldAt c 4 = 0) (hp : payloadHeld c ≠ []) :
    s.decompress = raise (.malformed 0x0C 0) := by
  have hnone (d : Byte) : entry table d = [] := hheld.2 d fun k hk => absurd hk (by omega)
  rw [State.decompress_decoding hc hok hheld (rebuildTree_noCode hnone),
    State.decodePayload_noRoot (.inr (.inr rfl)) (List.length_eq_zero_iff.not.2 hp) rfl]
  rfl

/-- A payload that is not the codes of a message. -/
theorem State.decompress_payloadFault (hfree : prefixFree table) {sub k : Nat}
    (hf : PayloadFault table (payloadHeld c) sub k) : s.decompress = raise (.malformed sub k) := by
  obtain ⟨d, hd⟩ := hf.exists_code
  obtain ⟨nodes, hb, ht⟩ := rebuildTree_trie hfree hd
  obtain ⟨hbits, hleft⟩ := State.payload_bits hc
  have hn := List.length_eq_zero_iff.not.2 hf.ne_nil
  rw [← hbits, State.bits_zero_eq] at hf
  have hloop := ht.trie.rooted.decodeLoop_fault (s := s.decoding table nodes (some 0) (fieldAt c 6 + 1))
    ((ht.decodeFault_iff hd hleft).2 hf)
  rw [State.decompress_decoding hc hok hheld hb, State.decodePayload_raise (.inr (.inr rfl)) hn rfl hloop]
  rfl

end payload

end Sys2Proof.Machine

namespace Sys2Proof

open Sys2Proof.Machine

/-- Settles O57: the checks run in order over the bytes of the input; past them the table read is the one the container
holds, HTSETDICT finds its first clash, and decoding in its trie goes wrong just where the payload stops being codes. -/
theorem headerChecks : Obligations.HeaderChecks := by
  intro s c hsrc hsnk hc
  refine ⟨fun sub d h => ?header, fun table hnone hheld => ?_⟩
  case header => exact decompressRaises_of_raise hsrc hsnk (State.decompress_header hc h)
  have hok := headerFault_eq_none.1 hnone
  refine ⟨exists_firstClash, fun d hd => ?clash, fun he hp => ?noCode, fun hfree he hno => ?payload,
    fun sub k hfree hf => ?fault⟩
  case clash => exact decompressRaises_of_raise hsrc hsnk (State.decompress_clash hc hok hheld (rebuildTree_clash hd))
  case noCode => exact decompressRaises_of_raise hsrc hsnk (State.decompress_noRoot hc hok hheld he hp)
  case payload =>
    obtain ⟨d, hd⟩ := hheld.exists_code hok he
    exact exists_payloadFault hfree hd hno
  case fault => exact decompressRaises_of_raise hsrc hsnk (State.decompress_payloadFault hc hok hheld hfree hf)

end Sys2Proof
end

section
/-! PROOFS. The layout of a container: its header is one that 46_codec.md R343 accepts, and it holds its table and the
codes of its message (46_codec.md R321 to R328, R344). -/

namespace Sys2Proof.Machine

/-! ### The parts of a container -/

/-- The bytes of a container of the message under the table, cut at T and T + 1 (46_codec.md R321). -/
structure ContainerParts (table : Vector Bits 256) (l : List Byte) (codeBytes payloadBytes c : List Byte) : Prop where
  split : c = layoutHead table ++ (codeBytes ++ BitVec.ofNat 8 (padCount (payload table l).length) :: payloadBytes)
  codeLength : codeBytes.length = (codesLength table + 7) / 8
  codes : ((coded table).flatMap fun d => entry table d) <+: bytesBits codeBytes
  payloadLength : payloadBytes.length = ((payload table l).length + 7) / 8
  payload : Machine.payload table l <+: bytesBits payloadBytes

theorem IsContainer.exists_parts {table : Vector Bits 256} {l c : List Byte} (h : IsContainer table l c) :
    ∃ codeBytes payloadBytes, ContainerParts table l codeBytes payloadBytes c := by
  obtain ⟨codeBytes, payloadBytes, rfl, hlen, hcodes, hplen, hpayload⟩ := h
  exact ⟨codeBytes, payloadBytes, by simp, hlen, hcodes, hplen, hpayload⟩

/-- What is written is a container. -/
theorem isContainer_container (table : Vector Bits 256) (l : List Byte) : IsContainer table l (container table l) := by
  refine ⟨_, _, rfl, ?_, ?_, packBytes_length _, ?_⟩
  · rw [packBytes_length, codes_length]
  · rw [bytesBits_packBytes]
    exact List.prefix_append _ _
  · rw [bytesBits_packBytes]
    exact List.prefix_append _ _

/-! ### The entries -/

/-- Byte 2k of pairs of bytes, and the one after it. -/
theorem getD_flatMap_pair (f : Byte → Byte) (l r : List Byte) {k : Nat} (hk : k < l.length) :
    ((l.flatMap fun d => [d, f d]) ++ r).getD (2 * k) 0 = l[k] ∧
      ((l.flatMap fun d => [d, f d]) ++ r).getD (2 * k + 1) 0 = f l[k] := by
  induction l generalizing k with
  | nil => exact absurd hk (Nat.not_lt_zero k)
  | cons d l ih =>
    cases k with
    | zero => exact ⟨rfl, rfl⟩
    | succ k => exact ih (Nat.lt_of_succ_lt_succ hk)

theorem getD_split {m r c : List Byte} {y : Byte} (h : c = m ++ y :: r) : c.getD m.length 0 = y := by
  rw [h, List.getD_append_right _ _ _ _ le_rfl, Nat.sub_self]
  rfl

theorem drop_split {m r c : List Byte} {y : Byte} (h : c = m ++ y :: r) : c.drop (m.length + 1) = r := by
  rw [h, List.append_cons]
  exact List.drop_left' (by simp)

section parts
variable {table : Vector Bits 256} {l codeBytes payloadBytes c : List Byte}
  (h : ContainerParts table l codeBytes payloadBytes c)
include h

theorem ContainerParts.length : c.length = padOffset table + 1 + payloadBytes.length := by
  rw [h.split, List.length_append, layoutHead_length, List.length_append, List.length_cons, h.codeLength, padOffset]
  omega

/-- The pad byte stands at T. -/
theorem ContainerParts.splitPad :
    c = (layoutHead table ++ codeBytes) ++ BitVec.ofNat 8 (padCount (Machine.payload table l).length) :: payloadBytes ∧
      (layoutHead table ++ codeBytes).length = padOffset table := by
  refine ⟨by rw [h.split, List.append_assoc], ?_⟩
  rw [List.length_append, layoutHead_length, h.codeLength, padOffset]

/-- entryCount is E (46_codec.md R323). -/
theorem ContainerParts.fieldAt_four : fieldAt c 4 = (coded table).length := by
  have hlow : c.getD 4 0 = BitVec.ofNat 8 ((coded table).length % 256) := by rw [h.split]; rfl
  have hhigh : c.getD 5 0 = BitVec.ofNat 8 ((coded table).length / 256) := by rw [h.split]; rfl
  have := coded_length table
  rw [fieldAt, hlow, hhigh, BitVec.toNat_ofNat, BitVec.toNat_ofNat]
  omega

section entries
variable {k : Nat} (hk : k < (coded table).length)
include hk

theorem ContainerParts.symbol : c.getD (8 + 2 * k) 0 = (coded table)[k] := by
  obtain ⟨hsym, -⟩ := getD_flatMap_pair (fun d => BitVec.ofNat 8 (entry table d).length) (coded table)
    (codeBytes ++ BitVec.ofNat 8 (padCount (Machine.payload table l).length) :: payloadBytes) hk
  rw [h.split, Nat.add_comm]
  exact hsym

variable (hfit : CodesFit table)
include hfit

theorem ContainerParts.codeLengthAt : (c.getD (9 + 2 * k) 0).toNat = (entry table (coded table)[k]).length := by
  obtain ⟨-, hlen⟩ := getD_flatMap_pair (fun d => BitVec.ofNat 8 (entry table d).length) (coded table)
    (codeBytes ++ BitVec.ofNat 8 (padCount (Machine.payload table l).length) :: payloadBytes) hk
  have hle := hfit (coded table)[k]
  have hbyte : c.getD (9 + 2 * k) 0 = BitVec.ofNat 8 (entry table (coded table)[k]).length := by
    rw [h.split, Nat.add_comm]
    exact hlen
  rw [hbyte, BitVec.toNat_ofNat]
  omega

end entries

variable (hfit : CodesFit table)
include hfit

theorem ContainerParts.lengthSum {k : Nat} (hk : k ≤ (coded table).length) :
    lengthSum c k = (((coded table).take k).flatMap fun d => entry table d).length := by
  rw [Machine.lengthSum, List.length_flatMap]
  refine congrArg List.sum (List.ext_getElem (by simp [hk]) fun i hi _ => ?_)
  rw [List.length_map, List.length_range] at hi
  simp only [List.getElem_map, List.getElem_range, List.getElem_take, h.codeLengthAt (hi.trans_le hk) hfit]

theorem ContainerParts.lengthSum_all : Machine.lengthSum c (coded table).length = codesLength table := by
  rw [h.lengthSum hfit le_rfl, List.take_length, codes_length]

/-- tableOffset is T (46_codec.md R324). -/
theorem ContainerParts.fieldAt_six : fieldAt c 6 = padOffset table := by
  have hlow : c.getD 6 0 = BitVec.ofNat 8 (padOffset table % 256) := by rw [h.split]; rfl
  have hhigh : c.getD 7 0 = BitVec.ofNat 8 (padOffset table / 256) := by rw [h.split]; rfl
  have := hfit.padOffset_le
  rw [fieldAt, hlow, hhigh, BitVec.toNat_ofNat, BitVec.toNat_ofNat]
  omega

omit hfit in
theorem ContainerParts.pad : (c.getD (padOffset table) 0).toNat = padCount (Machine.payload table l).length := by
  obtain ⟨hsplit, hlen⟩ := h.splitPad
  have hq : padCount (Machine.payload table l).length < 8 := Nat.mod_lt _ (by decide)
  rw [← hlen, getD_split hsplit, BitVec.toNat_ofNat]
  omega

theorem ContainerParts.entryFault_none : entryFault c (coded table).length = none := by
  refine entryFault_eq_none.2 fun k hk => ⟨fun hpos => ?_, ?_⟩
  · obtain ⟨j, rfl⟩ := Nat.exists_eq_succ_of_ne_zero hpos.ne'
    have hsorted := usedSymbols_sorted table
    rw [usedSymbols_eq_coded, List.pairwise_iff_getElem] at hsorted
    rw [show 6 + 2 * (j + 1) = 8 + 2 * j by omega, h.symbol (by omega), h.symbol hk]
    exact hsorted j (j + 1) _ hk (Nat.lt_succ_self j)
  · rw [h.codeLengthAt hk hfit]
    exact ⟨List.length_pos_iff.2 (mem_coded.1 (List.getElem_mem hk)), hfit _⟩

/-- The header of a container passes the checks. -/
theorem ContainerParts.headerOk : HeaderOk c := by
  have hlen := h.length
  have hT : 8 + 2 * (coded table).length ≤ padOffset table := Nat.le_add_right _ _
  refine {
    magic := by rw [h.split]; rfl
    fixed := by omega
    count := by rw [h.fieldAt_four]; exact coded_length table
    entries := by rw [h.fieldAt_four]; exact h.entryFault_none hfit
    offset := by rw [h.fieldAt_six hfit, h.fieldAt_four, h.lengthSum_all hfit, padOffset]
    inside := by rw [h.fieldAt_six hfit]; omega
    pad := by
      rw [h.fieldAt_six hfit, h.pad]
      exact Nat.le_of_lt_succ (Nat.mod_lt _ (by decide))
    padded := fun hq => ?_ }
  rw [h.fieldAt_six hfit, h.pad, padCount] at hq
  rw [h.fieldAt_six hfit, hlen, h.payloadLength]
  omega

/-- A container holds its table. -/
theorem ContainerParts.tableHeld : tableHeld c table := by
  rw [Machine.tableHeld, h.fieldAt_four]
  refine ⟨fun k hk => ?_, fun d hd => ?_⟩
  · have hdrop : c.drop (8 + 2 * (coded table).length) =
        codeBytes ++ BitVec.ofNat 8 (padCount (Machine.payload table l).length) :: payloadBytes := by
      rw [h.split, List.drop_left' (layoutHead_length table)]
    obtain ⟨w, hw⟩ := h.codes
    have hcodes : (coded table).flatMap (fun d => entry table d) =
        ((coded table).take k).flatMap (fun d => entry table d) ++
          (entry table (coded table)[k] ++ ((coded table).drop (k + 1)).flatMap fun d => entry table d) := by
      rw [← List.flatMap_cons, ← List.flatMap_append, List.getElem_cons_drop, List.take_append_drop]
    rw [h.symbol hk, h.codeLengthAt hk hfit, hdrop, bytesBits_append, ← hw, hcodes, List.append_assoc, List.append_assoc,
      List.append_assoc, List.drop_left' (h.lengthSum hfit hk.le).symm, List.take_left' rfl]
  · by_contra hne
    obtain ⟨k, hk, rfl⟩ := List.getElem_of_mem (mem_coded.2 hne)
    exact hd k hk (h.symbol hk)

/-- The payload bits of a container are the codes of its message. -/
theorem ContainerParts.payloadHeld : payloadHeld c = Machine.payload table l := by
  obtain ⟨hsplit, hlen⟩ := h.splitPad
  have hdrop : c.drop (padOffset table + 1) = payloadBytes := hlen ▸ drop_split hsplit
  have hcount : 8 * (c.length - padOffset table - 1) - padCount (Machine.payload table l).length =
      (Machine.payload table l).length := by
    rw [h.length, h.payloadLength, padCount]
    omega
  rw [Machine.payloadHeld, h.fieldAt_six hfit, hdrop, h.pad, hcount]
  exact (List.prefix_iff_eq_take.1 h.payload).symm

end parts

end Sys2Proof.Machine
end

section
/-! PROOFS. DECOMPRESS of a container, and of what COMPRESS wrote (46_codec.md R345, R346, R350). -/

namespace Sys2Proof.Machine

/-! ### HTDEC of the codes of a message -/

section message
variable {v : State} {table : Vector Bits 256} {l : List Byte} (h : TreeFor v.nodes v.root table)
  (hl : ∀ c ∈ l, entry table c ≠ [])
  (hbits : v.bits 0 (payload table l).length = payload table l) (hleft : (payload table l).length ≤ v.streamLeft)
include h hl hbits hleft

/-- A message that is not empty is found by the decode loop. -/
theorem TreeFor.decodeLoop_message (hne : l ≠ []) : (payload table l).length ≠ 0 ∧ ∃ r, v.root = some r ∧
    decodeLoop v v.nodes r (payload table l).length 0 r false v.ibc = .ok (v.streamAt (payload table l).length, l) := by
  obtain ⟨c, hc⟩ := List.exists_mem_of_ne_nil l hne
  obtain ⟨r, hroot, -⟩ := h.leads c (hl c hc)
  have hpos : (payload table l).length ≠ 0 := by
    rw [ne_eq, List.length_eq_zero_iff, payload, List.flatMap_eq_nil_iff]
    exact fun hnil => hl c hc (hnil c hc)
  rw [hroot] at h
  obtain ⟨up, hr⟩ := h.rooted r rfl
  exact ⟨hpos, r, hroot, hr.decodeLoop_parses (hbits.symm ▸ h.parses hl) hleft⟩

variable (ht : v.tstate = .tree ∨ v.tstate = .coded ∨ v.tstate = .dict)
include ht

theorem TreeFor.decodePayload_fits (hgood : v.sink.Good) (hroom : v.outLen.toNat + l.length ≤ v.outCap.val) :
    ∃ k, v.decodePayload (payload table l).length =
        .ok { v.setSink k with ibc := v.streamAt (payload table l).length } ∧ v.sink.Puts (bytesBits l) k := by
  rcases eq_or_ne l [] with rfl | hne
  · exact ⟨v.sink, State.decodePayload_zero ht, .refl hgood⟩
  · obtain ⟨hpos, r, hroot, hloop⟩ := h.decodeLoop_message hl hbits hleft hne
    exact State.decodePayload_ok ht hpos hroot hloop hgood hroom

theorem TreeFor.decodePayload_full (hlen : v.outLen.toNat ≤ v.outCap.val)
    (hroom : v.outCap.val < v.outLen.toNat + l.length) :
    v.decodePayload (payload table l).length = raise (.io 2) := by
  have hne : l ≠ [] := by
    rintro rfl
    exact absurd hroom hlen.not_gt
  obtain ⟨hpos, r, hroot, hloop⟩ := h.decodeLoop_message hl hbits hleft hne
  exact State.decodePayload_full ht hpos hroot hloop hroom

end message

/-! ### The cursor after the payload -/

/-- All bits of IN from a byte on leave the cursor at the end. -/
theorem State.streamAt_whole {s : State} {p n : Nat} (hn : n = 8 * (s.inLen.toNat - p)) :
    (s.loadedAt p).streamAt n = ⟨true, s.inLen, 0, 0⟩ := by
  rcases s.ibcLoad_eq p with ⟨hin, hload⟩ | ⟨hend, hload⟩
  · have hlt := s.inLen.isLt
    have hibc : (s.loadedAt p).ibc = ⟨false, BitVec.ofNat 32 p, 0, s.inByte p⟩ := hload
    have hpos : (BitVec.ofNat 32 p).toNat = p := by rw [BitVec.toNat_ofNat, Nat.mod_eq_of_lt (by omega)]
    have hbit : (s.loadedAt p).ibc.bit.toNat = 0 := by rw [hibc]; rfl
    rw [State.streamAt_loaded (by omega), hbit, hibc, if_neg]
    · rfl
    · rw [hpos, show (s.loadedAt p).inLen = s.inLen from rfl]
      omega
  · rw [show n = 0 by omega, State.streamAt_zero]
    exact hload

/-- All but q < 8 bits leave it on the last byte, q bits before the end. -/
theorem State.streamAt_padding {s : State} {p n q : Nat} (hp : p < s.inLen.toNat) (hn : n + q = 8 * (s.inLen.toNat - p))
    (hq0 : q ≠ 0) (hq : q < 8) : (s.loadedAt p).streamAt n =
      ⟨false, BitVec.ofNat 32 (s.inLen.toNat - 1), BitVec.ofNat 3 (8 - q), s.inByte (s.inLen.toNat - 1)⟩ := by
  have hlt := s.inLen.isLt
  have hibc : (s.loadedAt p).ibc = ⟨false, BitVec.ofNat 32 p, 0, s.inByte p⟩ := if_pos hp
  have hpos : (BitVec.ofNat 32 p).toNat = p := by rw [BitVec.toNat_ofNat, Nat.mod_eq_of_lt (by omega)]
  have hbit : (s.loadedAt p).ibc.bit.toNat = 0 := by rw [hibc]; rfl
  rcases Nat.lt_or_ge n 8 with hlast | hmore
  · rw [State.streamAt_latched (by omega), hbit, hibc, show p = s.inLen.toNat - 1 by omega, show 0 + n = 8 - q by omega]
  · rw [State.streamAt_loaded (by omega), hbit, hibc, if_pos]
    · simp only [hpos, show p + (0 + n) / 8 = s.inLen.toNat - 1 by omega, show (0 + n) % 8 = 8 - q by omega]
      rfl
    · rw [hpos, show (s.loadedAt p).inLen = s.inLen from rfl]
      omega

/-! ### DECOMPRESS of a container -/

/-- The state DECOMPRESS leaves before it completes (46_codec.md R346). -/
def State.withMessage (s : State) (table : Vector Bits 256) (nodes : List Node) (root : Link) (k : Sink) (c : Ibc)
    (q : Nat) : State :=
  State.withPad q { (({ s.freshOutput with ct := table } : State).withDict nodes root).setSink k with ibc := c }

theorem State.withMessage_completes (s : State) (table : Vector Bits 256) (nodes : List Node) (root : Link) (k : Sink)
    (c : Ibc) (q : Nat) : Completes [] [] [.tree, .ct, .ibc, .obc, .pad, .out] s (s.withMessage table nodes root k c q).complete :=
  have h : SameBut [] [] [.tree, .ct, .ibc, .obc, .pad, .out] s (s.withMessage table nodes root k c q) :=
    { SameBut.refl s with
      tree := .inl (by decide)
      ct := .inl (by decide)
      ibc := .inl (by decide)
      obc := .inl (by decide)
      pad := .inl (by decide)
      out := .inl (by decide) }
  h.completes rfl rfl rfl

section container
variable {s : State} {table : Vector Bits 256} {l : List Byte} (hfit : CodesFit table)
  (hcontainer : IsContainer table l (s.inBytes 0 s.inLen.toNat))
include hfit hcontainer

/-- DECOMPRESS of a container decodes the codes of its message. -/
theorem State.decompress_container {nodes : List Node} {root : Link} (hb : rebuildTree table = .ok (nodes, root)) :
    s.decompress = ((s.decoding table nodes root (padOffset table + 1)).decodePayload (payload table l).length).map
      (State.withPad (padCount (payload table l).length)) ∧
    (s.loadedAt (padOffset table + 1)).bits 0 (payload table l).length = payload table l ∧
    (payload table l).length ≤ (s.loadedAt (padOffset table + 1)).streamLeft := by
  obtain ⟨codeBytes, payloadBytes, hparts⟩ := hcontainer.exists_parts
  have hdecoding := State.decompress_decoding rfl (hparts.headerOk hfit) (hparts.tableHeld hfit) hb
  have hbits := State.payload_bits (s := s) rfl
  rw [hparts.fieldAt_six hfit, hparts.pad, hparts.payloadHeld hfit] at hdecoding
  rw [hparts.fieldAt_six hfit, hparts.payloadHeld hfit] at hbits
  exact ⟨hdecoding, hbits⟩

variable (hl : ∀ c ∈ l, entry table c ≠ []) {nodes : List Node} {root : Link} (hb : rebuildTree table = .ok (nodes, root))
  (htree : TreeFor nodes root table)
include hl hb htree

theorem State.decompress_fits (hinv : Inv s) (hroom : l.length ≤ s.outCap.val) :
    ∃ k, s.decompress = .ok (s.withMessage table nodes root k
        ((s.loadedAt (padOffset table + 1)).streamAt (payload table l).length) (padCount (payload table l).length)) ∧
      k.Holds l s := by
  obtain ⟨hdecompress, hbits, hleft⟩ := State.decompress_container hfit hcontainer hb
  obtain ⟨k, hk, hputs⟩ := TreeFor.decodePayload_fits (v := s.decoding table nodes root (padOffset table + 1)) htree
    hl hbits hleft (.inr (.inr rfl)) hinv.freshOutput_within.toGood ((Nat.zero_add _).trans_le hroom)
  refine ⟨k, ?_, hputs.holds hinv hroom⟩
  rw [hdecompress, hk]
  rfl

theorem State.decompress_full (hroom : s.outCap.val < l.length) : s.decompress = raise (.io 2) := by
  obtain ⟨hdecompress, hbits, hleft⟩ := State.decompress_container hfit hcontainer hb
  rw [hdecompress, TreeFor.decodePayload_full (v := s.decoding table nodes root (padOffset table + 1)) htree
    hl hbits hleft (.inr (.inr rfl)) (Nat.zero_le _) (hroom.trans_eq (Nat.zero_add _).symm)]
  rfl

end container

theorem exec_decompress_ok {s u : State} (hsrc : s.ctrl.getLsbD 0 = true) (hsnk : s.ctrl.getLsbD 1 = true)
    (h : s.decompress = .ok u) : exec .decompress s = .next u.complete :=
  (exec_decompress hsrc hsnk).trans (congrArg _ h)

theorem exec_decompress_raise {s : State} (hsrc : s.ctrl.getLsbD 0 = true) (hsnk : s.ctrl.getLsbD 1 = true) {r : Raise}
    (h : s.decompress = raise r) : exec .decompress s = .next (s.codecFailed.takeFault r) :=
  (exec_decompress hsrc hsnk).trans (congrArg _ h)

end Sys2Proof.Machine

namespace Sys2Proof

open Sys2Proof.Machine

/-- Settles O56: a container passes the checks and holds its table, whose tree parses the codes of the message; the
padding is what the cursor has left. -/
theorem decompressReadsContainer : Obligations.DecompressReadsContainer := by
  intro s table l hinv hsrc hsnk hfree hfit hl hcontainer
  obtain ⟨nodes, root, hb, htree⟩ := exists_rebuildTree hfree
  refine ⟨fun hroom => ?fits, fun hfull => ?full⟩
  case fits =>
    obtain ⟨k, hk, hout⟩ := State.decompress_fits hfit hcontainer hl hb htree hinv hroom
    obtain ⟨codeBytes, payloadBytes, hparts⟩ := hcontainer.exists_parts
    have hlen := hparts.length
    rw [State.inBytes_length, hparts.payloadLength] at hlen
    have hpad : padCount (payload table l).length < 8 := Nat.mod_lt _ (by decide)
    have hbits : (payload table l).length + padCount (payload table l).length =
        8 * (s.inLen.toNat - (padOffset table + 1)) := by
      rw [hlen, padCount]
      omega
    refine ⟨_, exec_decompress_ok hsrc hsnk hk, s.withMessage_completes _ _ _ _ _ _, hout.len, hout.bytes, hout.above,
      rfl, rfl, fun u hu => ?dict, hout.obc, padCount_toNat _, fun hq => ?atEnd, fun hq => ?before⟩
    case dict =>
      have hexec : exec .htsetdict { s with ct := table } = .next
          (State.withDict { s with ct := table } nodes root).complete := congrArg (State.precise _) (State.setDict_ok hb)
      cases hexec.symm.trans hu
      exact ⟨rfl, rfl⟩
    case atEnd => exact State.streamAt_whole (by omega)
    case before =>
      have hlast := State.streamAt_padding (s := s) (p := padOffset table + 1) (by omega) hbits hq hpad
      have hlt := s.inLen.isLt
      show Ibc.ended (State.streamAt _ _) = false ∧ (Ibc.pos (State.streamAt _ _)).toNat + 1 = _ ∧
        (Ibc.bit (State.streamAt _ _)).toNat = _ ∧ Ibc.cur (State.streamAt _ _) = _
      rw [hlast, BitVec.toNat_ofNat, BitVec.toNat_ofNat, Nat.mod_eq_of_lt (by omega), Nat.mod_eq_of_lt (by omega)]
      exact ⟨rfl, by omega, rfl, rfl⟩
  case full =>
    exact ⟨_, exec_decompress_raise hsrc hsnk (State.decompress_full hfit hcontainer hl hb htree hfull),
      { s.takeFault_errorEntered (.io 2) with }, s.codecFailed_takeFault _, rfl⟩

end Sys2Proof
end

section
/-! PROOFS. What COMPRESS wrote is a container that DECOMPRESS reads back (46_codec.md R350). -/

namespace Sys2Proof.Machine

/-- A codec command that completes had both windows valid (60_exceptions.md R365). -/
theorem exec_codec_completed {s t : State} {i : Instr} (hi : i = .compress ∨ i = .decompress) (h : exec i s = .next t)
    (ht : t.status.err = false) : s.ctrl.getLsbD 0 = true ∧ s.ctrl.getLsbD 1 = true := by
  cases hsrc : s.ctrl.getLsbD 0 with
  | false =>
    cases h.symm.trans (exec_codec_noSource hi hsrc)
    exact nomatch ht
  | true =>
    cases hsnk : s.ctrl.getLsbD 1 with
    | false =>
      cases h.symm.trans (exec_codec_noSink hsrc hi hsnk)
      exact nomatch ht
    | true => exact ⟨rfl, rfl⟩

/-- A COMPRESS that completes leaves the container of the input in OUT. -/
theorem exec_compress_completed {s t : State} {l : List Byte} (hl : s.inBytes 0 s.inLen.toNat = l) (hinv : Inv s)
    (h : exec .compress s = .next t) (ht : t.status.err = false) :
    ∃ nodes root table, DataTree l nodes root table ∧ t.outBytes 0 t.outLen.toNat = container table l := by
  obtain ⟨hsrc, hsnk⟩ := exec_codec_completed (.inl rfl) h ht
  have hfault {r : Raise} (hr : s.compress = raise r) : False := by
    cases h.symm.trans (exec_compress_raise hsrc hsnk hr)
    exact nomatch ht
  rcases State.setData_input (State.input_lt hl) with ⟨nodes, root, table, htree, hset⟩ | ⟨r, hset⟩
  · have hset := hset s.freshOutput hl
    rcases Nat.lt_or_ge s.outCap.val (container table l).length with hfull | hfits
    · exact (hfault (htree.compress_full hl hset hinv hfull)).elim
    · obtain ⟨k, hk, hout⟩ := htree.compress_fits hl hset hinv hfits
      cases h.symm.trans (exec_compress_ok hsrc hsnk hk)
      refine ⟨nodes, root, table, htree, ?_⟩
      have hlen : (s.withContainer l nodes root table k).complete.outLen.toNat = (container table l).length := hout.len
      rw [hlen]
      exact hout.bytes
  · exact (hfault (State.compress_noTree (hset s.freshOutput hl))).elim

end Sys2Proof.Machine

namespace Sys2Proof

open Sys2Proof.Machine

/-- Settles O59: COMPRESS leaves the container of its input under a table without clashes that covers it, and DECOMPRESS
reads every such container back. -/
theorem codecRoundTrip : Obligations.CodecRoundTrip := by
  intro s t v hinv _ ht herr hinv' hsrc hsnk hin hroom
  obtain ⟨nodes, root, table, htree, hout⟩ := exec_compress_completed rfl hinv ht herr
  have hcontainer : IsContainer table (s.inBytes 0 s.inLen.toNat) (v.inBytes 0 v.inLen.toNat) :=
    (hin.trans hout) ▸ isContainer_container table _
  have hlen : (s.inBytes 0 s.inLen.toNat).length = s.inLen.toNat := State.inBytes_length _ _ _
  obtain ⟨hfits, -⟩ := decompressReadsContainer v table _ hinv' hsrc hsnk htree.prefixFree htree.codesFit
    (fun c hc => htree.entry_ne_nil (State.input_lt rfl) hc) hcontainer
  obtain ⟨u, hu, hcompletes, houtLen, hbytes, -⟩ := hfits (hlen.trans_le hroom)
  refine ⟨u, hu, hcompletes, BitVec.eq_of_toNat_eq (houtLen.trans hlen), ?_⟩
  rw [houtLen]
  exact hbytes

end Sys2Proof
end

section
/-! PROOFS. Which agent a step moves, and what each of them does (70_reset_and_hazards.md R400, R405, R406, R408). -/

namespace Sys2Proof.Machine

/-! ### Who moves -/

/-- The sequencer runs the captured word once no access lands before it (log 2). -/
theorem step_command {s : State} (hp : s.resetPin = false) (hb : s.status.busy = true)
    (hr : s.busyLeft = 0 ∨ s.host = []) : step s = s.runCommand := (if_pos ⟨hp, hb⟩).trans (if_pos hr)

/-- While reset is asserted or BUSY = 0 only the host moves. -/
theorem step_idle {s : State} (h : s.resetPin = true ∨ s.status.busy = false) : step s = s.hostMoves :=
  if_neg fun ⟨hp, hb⟩ => by simp [hp, hb] at h

/-- A host access lands while a command executes, and uses up one of those that LATENCY lets land (log 2). -/
theorem step_landing {s : State} (hp : s.resetPin = false) (hb : s.status.busy = true)
    (hr : ¬ (s.busyLeft = 0 ∨ s.host = [])) : step s = State.hostMoves { s with busyLeft := s.busyLeft - 1 } :=
  (if_pos ⟨hp, hb⟩).trans (if_neg hr)

theorem State.hostMoves_cons {s : State} {op : HostOp} {l : List HostOp} (h : s.host = op :: l) :
    s.hostMoves = .next (State.hostOp { s with host := l } op) := by simp only [State.hostMoves, h]

theorem State.hostMoves_nil {s : State} (h : s.host = []) : s.hostMoves = .next s := by simp only [State.hostMoves, h]

theorem State.hostMoves_next (s : State) : ∃ t, s.hostMoves = .next t := by
  cases h : s.host with
  | nil => exact ⟨s, State.hostMoves_nil h⟩
  | cons op l => exact ⟨_, State.hostMoves_cons h⟩

/-- A step in which the host moves is the oldest of its accesses. -/
theorem step_host {s : State} {op : HostOp} {l : List HostOp} (hl : s.host = op :: l)
    (h : s.resetPin = true ∨ s.status.busy = false ∨ s.busyLeft ≠ 0) :
    ∃ n, step s = .next (State.hostOp { s with host := l, busyLeft := n } op) := by
  by_cases hidle : s.resetPin = true ∨ s.status.busy = false
  · exact ⟨s.busyLeft, (step_idle hidle).trans (State.hostMoves_cons hl)⟩
  · simp only [not_or, Bool.not_eq_true, Bool.not_eq_false] at hidle
    obtain ⟨hp, hb⟩ := hidle
    have hleft : s.busyLeft ≠ 0 := by simpa [hp, hb] using h
    have hmove := State.hostMoves_cons (s := { s with busyLeft := s.busyLeft - 1 }) hl
    exact ⟨s.busyLeft - 1, (step_landing hp hb (by simp [hleft, hl])).trans hmove⟩

/-- Only the end of a command can stop the machine. -/
theorem step_next_of_runCommand {s : State} (h : ∃ t, s.runCommand = .next t) : ∃ t, step s = .next t := by
  by_cases hb : s.resetPin = false ∧ s.status.busy = true
  · by_cases hr : s.busyLeft = 0 ∨ s.host = []
    · rwa [step_command hb.1 hb.2 hr]
    · rw [step_landing hb.1 hb.2 hr]
      exact State.hostMoves_next _
  · rw [step_idle ((not_and_or.1 hb).imp eq_true_of_ne_false eq_false_of_ne_true)]
    exact s.hostMoves_next

/-! ### The captured word -/

theorem State.runCommand_of_decode {s : State} {i : Instr} (h : decode s.cmd = .ok i) : s.runCommand = exec i s := by
  simp only [State.runCommand, h]

/-- The word a host placed for the next step (log 4). -/
theorem State.withFetchWord_cmd (s : State) (w : Word) : (s.withFetchWord 32 w.toNat).cmd = w := by
  show BitVec.ofNat 32 (w.toNat % 2 ^ 32) = w
  rw [Nat.mod_eq_of_lt w.isLt, BitVec.ofNat_toNat, BitVec.setWidth_eq]

/-- At the end of a command BUSY falls, and DONE or ERR is set (70_reset_and_hazards.md R406). -/
theorem State.runCommand_status {s t : State} (h : s.runCommand = .next t) :
    t.status = { s.status with busy := false, done := true } ∨
    ∃ code, code ≠ .none ∧ t.status = { s.status with busy := false, err := true, errCode := code } := by
  rcases State.runCommand_next h with ⟨i, h⟩ | rfl
  · rcases h.hostSide with h | ⟨r, h⟩
    · exact .inl (congrArg HostSide.status h)
    · exact .inr ⟨r.code, r.code_ne_none, congrArg HostSide.status h⟩
  · exact .inr ⟨.illegal, nofun, rfl⟩

/-! ### A host access while a command executes (70_reset_and_hazards.md R410) -/

section busy
variable {s : State} (hp : s.resetPin = false) (hb : s.status.busy = true)
include hp hb

theorem State.hostOp_write_busy (w : Width) (addr v : Word) : s.hostOp (.write w addr v) = s.writeBusy w addr := by
  simp [State.hostOp, hp, State.hostWrite, hb]

/-- A discarded write of a listed register sets OVR. -/
theorem State.hostOp_write_busy_listed {addr : Word} (h : listedOffset addr.toNat) (v : Word) :
    s.hostOp (.write .word addr v) = s.overrun := by
  obtain ⟨r, hr⟩ := Option.isSome_iff_exists.1 ((regAt_isSome _).2 h)
  obtain ⟨hlt, h4⟩ := regAt_form hr
  simp [hostOp_write_busy hp hb, State.writeBusy, s.place_block hlt, blockForm, h4, hr]

/-- A discarded write of IN sets OVR, whatever its form (log 10). -/
theorem State.hostOp_write_busy_in (w : Width) {addr : Word} (h : 0x40000000 ≤ addr.toNat)
    (h' : addr.toNat < 0x40000000 + s.inCap.val) (v : Word) : s.hostOp (.write w addr v) = s.overrun := by
  simp [hostOp_write_busy hp hb, State.writeBusy, s.place_inWin h h']

theorem State.hostOp_write_busy_unlisted {addr : Word} (hlt : addr.toNat < 0x1000) (h : ¬ listedOffset addr.toNat)
    (w : Width) (v : Word) : s.hostOp (.write w addr v) = s := by
  simp [hostOp_write_busy hp hb, State.writeBusy, s.place_block hlt, regAt_eq_none h]

/-- A write of OUT or of an unmapped address does nothing (log 10). -/
theorem State.hostOp_write_busy_outside {addr : Word} (h : 0x1000 ≤ addr.toNat)
    (hin : ¬ (0x40000000 ≤ addr.toNat ∧ addr.toNat < 0x40000000 + s.inCap.val)) (w : Width) (v : Word) :
    s.hostOp (.write w addr v) = s := by
  by_cases hout : 0x80000000 ≤ addr.toNat ∧ addr.toNat < 0x80000000 + s.outCap.val
  · simp [hostOp_write_busy hp hb, State.writeBusy, s.place_outWin hout.1 hout.2]
  · simp [hostOp_write_busy hp hb, State.writeBusy, s.place_unmapped h hin hout]

/-- A read with no value of its own while BUSY = 1 is a draw(). -/
theorem State.hostOp_read_draw {w : Width} {addr : Word} (h : s.readBusy w addr = none) :
    s.hostOp (.read w addr) = { s with rdata := Config.drawWord s.draws, draws := s.draws + 1 } := by
  simp [State.hostOp, hp, State.hostRead, hb, h, State.drawn]

/-- While a command executes a host access other than reset keeps it executing. -/
theorem State.hostOp_busy {op : HostOp} (h : op ≠ .reset true) :
    (s.hostOp op).resetPin = false ∧ (s.hostOp op).status.busy = true ∧ (s.hostOp op).host = s.host := by
  cases op with
  | read w addr =>
    obtain ⟨r, d, he⟩ := s.hostOp_read_frame w addr
    rw [he]
    exact ⟨hp, hb, rfl⟩
  | write w addr v =>
    generalize ht : s.hostOp (.write w addr v) = t
    cases ht ▸ s.hostOp_write_wrote w addr v with
    | ignored | overrun | window => exact ⟨hp, hb, rfl⟩
    | reg _ hb' => exact nomatch hb.symm.trans hb'
  | reset asserted =>
    cases asserted with
    | true => exact absurd rfl h
    | false =>
      rw [State.hostOp, s.setReset_idle hp]
      exact ⟨hp, hb, rfl⟩

end busy

/-- In the block every word read while BUSY = 1 is a draw(), but those of 20_memory.md R94. -/
theorem State.readBusy_block (s : State) {addr : Word} (hlt : addr.toNat < 0x1000) (h4 : addr.toNat % 4 = 0)
    (h : ¬ (addr.toNat = 0x000 ∨ addr.toNat = 0x008 ∨ addr.toNat = 0x024 ∨ addr.toNat = 0x028)) :
    s.readBusy .word addr = none := by
  cases hr : regAt addr.toNat with
  | none => simp [State.readBusy, s.place_block hlt, blockForm, h4, hr]
  | some r => simp [State.readBusy, s.place_block hlt, blockForm, h4, hr, mt (regAt_readable hr).1 h]

end Sys2Proof.Machine
end

section
/-! PROOFS. How the computation of a command can stop: the error codes each shared operation raises, and that no walk leaves an
arena that has its shape (60_exceptions.md R360, R361; log 15). -/

namespace Sys2Proof.Machine

/-! ### Computations that stop -/

/-- A raise of a code of `p`, or a walk that leaves the arena where `sound` fails. -/
inductive StopIn (p : ErrCode → Prop) (sound : Prop) : Stop → Prop
  | raise {r : Raise} (h : p r.code) : StopIn p sound (.raise r)
  | stuck {f : Fault} (h : ¬ sound) : StopIn p sound (.stuck f)

theorem StopIn.mono {p q : ErrCode → Prop} {a b : Prop} {e : Stop} (h : StopIn p a e) (hpq : ∀ c, p c → q c)
    (hba : b → a) : StopIn q b e := by
  cases h with
  | raise h => exact .raise (hpq _ h)
  | stuck h => exact .stuck (mt hba h)

/-- However the computation stops, it raises a code of `p`, or a walk has left an arena that is not `sound`. -/
def Stops {α : Type} (p : ErrCode → Prop) (sound : Prop) (r : Except Stop α) : Prop :=
  ∀ e, r = .error e → StopIn p sound e

namespace Stops
variable {α : Type} {p q : ErrCode → Prop} {a b : Prop}

theorem ok {v : α} : Stops p a (.ok v) := nofun

theorem raise {r : Raise} (h : p r.code) : Stops (α := α) p a (Machine.raise r) := by
  rintro _ ⟨⟩
  exact .raise h

theorem stuck (h : ¬ a) : Stops (α := α) p a Machine.stuck := by
  rintro _ ⟨⟩
  exact .stuck h

theorem error {e : Stop} (h : StopIn p a e) : Stops (α := α) p a (.error e) := by
  rintro _ ⟨⟩
  exact h

theorem mono {r : Except Stop α} (h : Stops p a r) (hpq : ∀ c, p c → q c) (hba : b → a) : Stops q b r :=
  fun e he => (h e he).mono hpq hba

theorem ite {c : Prop} [Decidable c] {x y : Except Stop α} (hx : c → Stops p a x) (hy : ¬ c → Stops p a y) :
    Stops p a (if c then x else y) := by
  split
  · exact hx ‹_›
  · exact hy ‹_›

theorem check {c : Prop} [Decidable c] {r : Raise} {x : Except Stop α} (hr : c → p r.code) (hx : ¬ c → Stops p a x) :
    Stops p a (if c then Machine.raise r else x) := ite (fun hc => raise (hr hc)) hx

theorem bind {β : Type} {x : Except Stop β} {f : β → Except Stop α} (hx : Stops p a x)
    (hf : ∀ v, x = .ok v → Stops p a (f v)) : Stops p a (x >>= f) := by
  cases hv : x with
  | error e => exact error (hx e hv)
  | ok v => exact hf v hv

theorem map {β : Type} {x : Except Stop β} {f : β → α} (hx : Stops p a x) : Stops p a (x.map f) := by
  cases hv : x with
  | error e => exact error (hx e hv)
  | ok v => exact ok

end Stops

/-! ### Operands, the window and the output side -/

theorem State.symbol_stops (s : State) (a : XReg) : Stops (· = .outOfRange) True (s.symbol a) :=
  .check (fun _ => rfl) fun _ => .ok

theorem State.window_stops (s : State) (p n : Nat) : Stops (· = .outOfRange) True (s.window p n) :=
  .check (fun _ => rfl) fun _ => .check (fun _ => rfl) fun _ => .ok

theorem State.room_stops (s : State) (k : Nat) : Stops (· = .io) True (s.room k) := .check (fun _ => rfl) fun _ => .ok

theorem outAppend_stops (cap : Nat) (k : Sink) (b : Byte) : Stops (· = .io) True (outAppend cap k b) :=
  .check (fun _ => rfl) fun _ => .ok

theorem obcPut_stops (cap : Nat) (k : Sink) (b : Bool) : Stops (· = .io) True (obcPut cap k b) := by
  refine .ite (fun _ => ?_) fun _ => .ok
  split
  · exact .ok
  next e he => exact .error (outAppend_stops cap k _ e he)

theorem obcPutBits_stops (cap : Nat) (k : Sink) (l : Bits) : Stops (· = .io) True (obcPutBits cap k l) := by
  induction l generalizing k with
  | nil => exact .ok
  | cons b t ih =>
    rw [obcPutBits]
    split
    · exact ih _
    next e he => exact .error (obcPut_stops cap k b e he)

theorem obcFlush_stops (cap : Nat) (k : Sink) : Stops (· = .io) True (obcFlush cap k) := by
  refine .ite (fun _ => .ok) fun _ => ?_
  split
  · exact .ok
  next e he => exact .error (outAppend_stops cap k _ e he)

theorem State.putBit_stops (s : State) (b : Bool) : Stops (· = .io) True (s.putBit b) := by
  refine .check (fun _ => rfl) fun _ => ?_
  split
  next e he => exact .error (obcPut_stops _ _ b e he)
  · exact .ok

theorem writeContainer_stops (cap : Nat) (k : Sink) (head : List Byte) (codes : Bits) (q : Nat) (payload : Bits) :
    Stops (· = .io) True (writeContainer cap k head codes q payload) := by
  rw [writeContainer_eq]
  have packed (k : Sink) (l : Bits) :
      Stops (· = .io) True (obcPutBits cap k l >>= fun k => (obcFlush cap k).map Prod.fst) :=
    (obcPutBits_stops cap k l).bind fun _ _ => (obcFlush_stops cap _).map
  exact (obcPutBits_stops cap k _).bind fun k1 _ => (packed k1 codes).bind fun k2 _ =>
    (obcPutBits_stops cap k2 _).bind fun k3 _ => packed k3 payload

/-! ### Building from data (44_huffman_tree.md R254, R258, R260) -/

theorem State.scanFrequencies_stops (s : State) (p n : Nat) : Stops (· = .outOfRange) True (s.scanFrequencies p n) := by
  unfold State.scanFrequencies
  split
  next e he => exact .error (s.window_stops p n e he)
  · exact .ok

theorem buildTree_stops (nodes : List Node) : Stops (· = .capacity) True (buildTree nodes) := by
  rcases buildTree_eq nodes with ⟨-, h⟩ | ⟨-, h⟩ | ⟨-, _, _, h, -⟩
  · exact h ▸ .ok
  · exact h ▸ .raise rfl
  · exact h ▸ .ok

theorem State.buildFromLeaves_stops (s : State) :
    Stops (fun c => c = .capacity ∨ (c = .sequence ∧ s.tstate ≠ .leaves)) True s.buildFromLeaves := by
  refine .check (fun h => .inr ⟨rfl, h⟩) fun _ => ?_
  split
  next e he => exact .error ((buildTree_stops s.nodes e he).mono (fun _ => .inl) id)
  · exact .ok

theorem deriveFrom_stops (nodes : List Node) (i : Nat) (table : Vector Bits 256) (l : List Node) :
    Stops (· = .outOfRange) False (deriveFrom nodes i table l) := by
  induction l generalizing i table with
  | nil => exact .ok
  | cons n t ih =>
    refine .ite (fun _ => ?_) fun _ => ih _ _
    split
    · exact .stuck id
    · exact .check (fun _ => rfl) fun _ => ih _ _

/-- The walks of HTDICT end at the root of a tree built from data. -/
theorem deriveTable_stops (nodes : List Node) :
    Stops (· = .outOfRange) (∃ root, DataArena nodes root) (deriveTable nodes) := by
  by_cases h : ∃ root, DataArena nodes root
  · obtain ⟨root, hd⟩ := h
    rcases hd.deriveTable_eq with ⟨_, _, w, -, -, he⟩ | ⟨table, he, -⟩
    · exact he ▸ .raise rfl
    · exact he ▸ .ok
  · exact (deriveFrom_stops nodes 0 _ nodes).mono (fun _ => id) h

theorem State.deriveCodes_stops (s : State) :
    Stops (fun c => c = .outOfRange ∨ (c = .sequence ∧ s.tstate ≠ .tree)) (Arena s) s.deriveCodes := by
  refine .check (fun h => .inr ⟨rfl, h⟩) fun ht => ?_
  split
  next e he =>
    have htree : s.tstate = .tree := by simpa using ht
    exact .error ((deriveTable_stops s.nodes e he).mono (fun _ => .inl) fun h => ⟨s.root, h.data (.inl htree)⟩)
  · exact .ok

/-- The counts of a window add up to less than 2^32, so HTSETDATA builds its tree, and the tree has its shape. -/
theorem State.setData_stops (s : State) (p n : Nat) : Stops (· = .outOfRange) True (s.setData p n) := by
  rcases s.window_raise_or_inside p n with ⟨r, hr⟩ | hin
  · have hcode := s.window_stops p n _ hr
    rw [State.setData_raise_scan (State.scanFrequencies_raise hr)]
    exact .error hcode
  · have hscan := State.scanFrequencies_ok hin
    have hlt : (s.inBytes p n).length < 2 ^ 32 := by
      have := s.inLen.isLt
      rw [State.inBytes_length]
      omega
    have hsum := (sum_fillLeaves (countBytes (s.inBytes p n))).trans (countSum_countBytes hlt)
    rcases (fillLeaves_leafArena (countBytes (s.inBytes p n))).buildTree_eq with ⟨-, nodes, root, hb, hbuilt⟩ | ⟨hge, -⟩
    · rw [State.setData_of_build hscan hb]
      refine (State.deriveCodes_stops _).mono ?_ fun _ => .of_data (.inl rfl) hbuilt.arena
      rintro c (hc | ⟨-, ht⟩)
      · exact hc
      · exact absurd rfl ht
    · omega

/-! ### Rebuilding, encoding and decoding (44_huffman_tree.md R262, R265, R267) -/

theorem State.setDict_stops (s : State) : Stops (· = .malformed) True s.setDict := by
  unfold State.setDict
  rcases rebuildTree_eq s.ct with ⟨-, h⟩ | ⟨-, _, h, -⟩ | ⟨_, -, h⟩ <;> rw [h]
  · exact .ok
  · exact .ok
  · exact .raise rfl

theorem encodeBytes_stops (table : Vector Bits 256) (l : List Byte) :
    Stops (· = .malformed) True (encodeBytes table l) := by
  rcases encodeBytes_eq table l with ⟨-, h⟩ | ⟨_, _, _, -, -, -, h⟩
  · exact h ▸ .ok
  · exact h ▸ .raise rfl

theorem State.encodeWindow_stops (s : State) (p n : Nat) :
    Stops (· ∈ [.outOfRange, .io, .malformed]) True (s.encodeWindow p n) := by
  unfold State.encodeWindow
  split
  next e he => exact .error ((s.window_stops p n e he).mono (by simp) id)
  · split
    next e he => exact .error ((encodeBytes_stops _ _ e he).mono (by simp) id)
    · split
      next e he => exact .error ((s.room_stops _ e he).mono (by simp) id)
      · split
        next e he => exact .error ((obcPutBits_stops _ _ _ e he).mono (by simp) id)
        · exact .ok

/-- The decode loop walks from node to child, so in a rooted arena it stays in the arena. -/
theorem decodeLoop_stops (s : State) (nodes : List Node) (root n k j : Nat) (mid : Bool) (cur : Ibc) :
    Stops (· = .malformed) ((∃ up, Rooted nodes root up) ∧ j < nodes.length) (decodeLoop s nodes root n k j mid cur) := by
  induction n generalizing k j mid cur with
  | zero => exact .check (fun _ => rfl) fun _ => .ok
  | succ n ih =>
    refine .check (fun _ => rfl) fun _ => ?_
    split
    next hj => exact .stuck fun ⟨_, hlt⟩ => absurd (List.getElem?_eq_none_iff.1 hj) (Nat.not_le.2 hlt)
    next m hj =>
      split
      · exact .raise rfl
      next i hi =>
        have hchild : (∃ up, Rooted nodes root up) ∧ j < nodes.length → i < nodes.length := fun ⟨⟨_, hr⟩, _⟩ =>
          hr.childOf_lt_length ((childOf_get hj _).trans hi)
        split
        next hnone => exact .stuck fun h => absurd (List.getElem?_eq_none_iff.1 hnone) (Nat.not_le.2 (hchild h))
        · refine .ite (fun _ => ?_) fun _ => (ih _ _ _ _).mono (fun _ => id) fun h => ⟨h.1, hchild h⟩
          split
          next e he =>
            exact .error ((ih _ _ _ _ e he).mono (fun _ => id) fun ⟨⟨up, hr⟩, _⟩ => ⟨⟨up, hr⟩, hr.rootLt⟩)
          · exact .ok

theorem State.decodePayload_stops (s : State) (n : Nat) :
    Stops (fun c => c ∈ [.io, .malformed] ∨ (c = .sequence ∧ (s.tstate = .empty ∨ s.tstate = .leaves))) (Arena s)
      (s.decodePayload n) := by
  refine .check (fun h => .inr ⟨rfl, h⟩) fun ht => .ite (fun _ => .ok) fun _ => ?_
  split
  · exact .raise (.inl (by decide))
  next r hr =>
    split
    next e he =>
      refine .error ((decodeLoop_stops _ _ _ _ _ _ _ _ e he).mono (by simp) fun h => ?_)
      have htree : s.tstate = .tree ∨ s.tstate = .coded ∨ s.tstate = .dict := by
        cases hs : s.tstate <;> simp [hs] at ht ⊢
      obtain ⟨up, hrooted⟩ := h.rooted htree hr
      exact ⟨⟨up, hrooted⟩, hrooted.rootLt⟩
    · split
      next e he => exact .error ((s.room_stops _ e he).mono (by simp) fun _ => trivial)
      · split
        next e he => exact .error ((obcPutBits_stops _ _ _ e he).mono (by simp) fun _ => trivial)
        · exact .ok

/-! ### The codec (46_codec.md R330, R343) -/

theorem State.compress_stops (s : State) : Stops (· ∈ [.outOfRange, .io]) True s.compress := by
  unfold State.compress
  split
  next e he => exact .error ((State.setData_stops _ _ _ e he).mono (by simp) id)
  · split
    next e he => exact .error ((writeContainer_stops _ _ _ _ _ _ e he).mono (by simp) id)
    · exact .ok

theorem State.parseHeader_stops (s : State) : Stops (· = .malformed) True s.parseHeader := by
  rw [State.parseHeader_eq rfl]
  cases headerFault (s.inBytes 0 s.inLen.toNat) with
  | none => exact .ok
  | some x => exact .raise rfl

/-- The payload is decoded in the tree that HTSETDICT has just built from the table, which has its shape. -/
theorem State.decompress_stops (s : State) : Stops (· ∈ [.io, .malformed]) True s.decompress := by
  unfold State.decompress
  split
  next e he => exact .error ((s.parseHeader_stops e he).mono (by simp) id)
  next h hh =>
    have hfit := s.readTable_codesFit (s.parseHeader_fit h hh) (s.ibcLoad (8 + 2 * h.entries.length)) codesFit_empty
    simp only
    split
    next e he => exact .error ((State.setDict_stops _ e he).mono (by simp) id)
    next u hu =>
      have hrebuilt := State.setDict_yields _ u hu
      have harena := hrebuilt.arena hfit
      have htstate : u.tstate = .dict := by
        obtain ⟨_, _, -, rfl⟩ := hrebuilt
        rfl
      split
      next e he =>
        refine .error ((State.decodePayload_stops _ _ e he).mono ?_ fun _ => { harena with })
        rintro c (hc | ⟨-, ht⟩)
        · exact hc
        · simp [htstate] at ht
      · exact .ok

end Sys2Proof.Machine
end

section
/-! PROOFS. How every command answers: it completes with STATUS as it was, or it stops with a code 60_exceptions.md R361 lists
for it (R368; 30_encoding.md R118; log 15). -/

namespace Sys2Proof.Machine

/-! ### What a command may raise -/

/-- The commands whose order 60_exceptions.md R368 checks, in a TSTATE they do not take. -/
def OutOfOrder (i : Instr) (t : TState) : Prop :=
  (i = .htbuild ∧ t ≠ .leaves) ∨ (i = .htdict ∧ t ≠ .tree) ∨ ((∃ a, i = .htdec a) ∧ (t = .empty ∨ t = .leaves))

/-- The codes command `i` may raise from `s`: a listed one, SEQUENCE only out of order, and ILLEGAL where the term is no legal
command. -/
inductive MayRaise (s : State) (i : Instr) : ErrCode → Prop
  | listed {c : ErrCode} (h : c ∈ mayRaise i) (hc : c ≠ .sequence) : MayRaise s i c
  | outOfOrder (h : OutOfOrder i s.tstate) : MayRaise s i .sequence
  | illegal (h : WellFormed i = false) : MayRaise s i .illegal

theorem OutOfOrder.listed {i : Instr} {t : TState} (h : OutOfOrder i t) : .sequence ∈ mayRaise i := by
  rcases h with ⟨rfl, -⟩ | ⟨rfl, -⟩ | ⟨⟨a, rfl⟩, -⟩
  · exact .tail _ (.head _)
  · exact .tail _ (.head _)
  · exact .tail _ (.tail _ (.head _))

theorem MayRaise.mem {s : State} {i : Instr} {c : ErrCode} (h : MayRaise s i c) (hi : WellFormed i = true) :
    c ∈ mayRaise i := by
  cases h with
  | listed h => exact h
  | outOfOrder h => exact h.listed
  | illegal h => exact nomatch h.symm.trans hi

/-- SEQUENCE is raised out of order only. -/
theorem MayRaise.sequence {s : State} {i : Instr} (h : MayRaise s i .sequence) : OutOfOrder i s.tstate := by
  cases h with
  | listed _ hc => exact absurd rfl hc
  | outOfOrder h => exact h

/-! ### The computation of a command -/

theorem Yields.imp {α : Type} {P Q : α → Prop} {r : Except Stop α} (h : Yields P r) (hpq : ∀ u, P u → Q u) :
    Yields Q r := fun u hu => hpq u (h u hu)

/-- The computation of command `i` on `s`: its result has STATUS as it was, and it stops as the command may. -/
structure Lawful (s : State) (i : Instr) (r : Except Stop State) : Prop where
  status : Yields (fun u => u.status = s.status) r
  stops : Stops (MayRaise s i) (Arena s) r

namespace Lawful
variable {s : State} {i : Instr}

theorem ok {u : State} (h : u.status = s.status := by rfl) : Lawful s i (.ok u) := ⟨.ok h, .ok⟩

theorem raise {r : Raise} (h : r.code ∈ mayRaise i) (hc : r.code ≠ .sequence) : Lawful s i (Machine.raise r) :=
  ⟨.raise, .raise (.listed h hc)⟩

theorem outOfRange {n : Nat} (h : .outOfRange ∈ mayRaise i) : Lawful s i (Machine.raise (.outOfRange n)) := raise h nofun

theorem ite {c : Prop} [Decidable c] {x y : Except Stop State} (hx : c → Lawful s i x) (hy : ¬ c → Lawful s i y) :
    Lawful s i (if c then x else y) :=
  ⟨.ite (fun h => (hx h).status) fun h => (hy h).status, .ite (fun h => (hx h).stops) fun h => (hy h).stops⟩

/-- A range check of a command. -/
theorem check {c : Prop} [Decidable c] {n : Nat} {x : Except Stop State} (h : .outOfRange ∈ mayRaise i)
    (hx : Lawful s i x) : Lawful s i (if c then Machine.raise (.outOfRange n) else x) :=
  ite (fun _ => outOfRange h) fun _ => hx

theorem error {e : Stop} (h : StopIn (MayRaise s i) (Arena s) e) : Lawful s i (.error e) := ⟨.error, .error h⟩

end Lawful

/-- A stop of a shared operation whose one code is listed for the command. -/
theorem StopIn.listed {s : State} {i : Instr} {c : ErrCode} {e : Stop} (h : StopIn (· = c) True e) (hc : c ∈ mayRaise i)
    (hne : c ≠ .sequence) : StopIn (MayRaise s i) (Arena s) e :=
  h.mono (fun _ hd => hd ▸ .listed hc hne) fun _ => trivial

/-- A shared operation with one code, as the whole of a command. -/
theorem Lawful.of_stops {s : State} {i : Instr} {c : ErrCode} {r : Except Stop State}
    (hs : Yields (fun u => u.status = s.status) r) (h : Stops (· = c) True r) (hc : c ∈ mayRaise i)
    (hne : c ≠ .sequence) : Lawful s i r :=
  ⟨hs, fun e he => (h e he).listed hc hne⟩

/-- A shared operation whose codes are those listed for the command. -/
theorem Lawful.of_listed {s : State} {i : Instr} {l : List ErrCode} {r : Except Stop State}
    (hs : Yields (fun u => u.status = s.status) r) (h : Stops (· ∈ l) True r) (hl : l = mayRaise i)
    (hne : .sequence ∉ l) : Lawful s i r :=
  ⟨hs, h.mono (fun _ hc => .listed (hl ▸ hc) (ne_of_mem_of_not_mem hc hne)) fun _ => trivial⟩

theorem State.putBit_lawful (s : State) {i : Instr} (v : Bool) (h : .io ∈ mayRaise i) : Lawful s i (s.putBit v) := by
  refine .of_stops ((s.putBit_yields v).imp ?_) (s.putBit_stops v) h nofun
  rintro _ ⟨_, -, rfl⟩
  rfl

/-- A selector of at most 4 names a field (44_huffman_tree.md R272). -/
theorem Node.field_isSome (n : Node) {f : BitVec 4} (h : f.toNat ≤ 4) : (n.field f).isSome = true := by
  have hf : ∀ f : BitVec 4, f.toNat ≤ 4 → f = 0 ∨ f = 1 ∨ f = 2 ∨ f = 3 ∨ f = 4 := by decide
  rcases hf f h with rfl | rfl | rfl | rfl | rfl <;> rfl

/-- How a command answers: the end of a lawful computation, with the fault entry from the state before it or from a failure
state. -/
def Answers (s : State) (i : Instr) (answer : Answer) : Prop :=
  ∃ (failed : State) (r : Except Stop State), failed.status = s.status ∧ answer = failed.imprecise r ∧ Lawful s i r

theorem Answers.precise {s : State} {i : Instr} {r : Except Stop State} (h : Lawful s i r) : Answers s i (s.precise r) :=
  ⟨s, r, rfl, rfl, h⟩

/-- The two codec commands, with their valid-bit checks (60_exceptions.md R365). -/
theorem Answers.codec {s failed : State} {i : Instr} {answer : Answer} {r : Except Stop State} {p p' q q' : Prop}
    (h : (p ∧ answer = .next (s.takeFault (.io 0))) ∨ (p' ∧ q ∧ answer = .next (s.takeFault (.io 1))) ∨
      (p' ∧ q' ∧ answer = failed.imprecise r))
    (hio : .io ∈ mayRaise i) (hf : failed.status = s.status) (hr : Lawful s i r) : Answers s i answer := by
  rcases h with ⟨-, h⟩ | ⟨-, -, h⟩ | ⟨-, -, h⟩
  · exact ⟨s, Machine.raise (.io 0), rfl, h, .raise hio nofun⟩
  · exact ⟨s, Machine.raise (.io 1), rfl, h, .raise hio nofun⟩
  · exact ⟨failed, r, hf, h, hr⟩

/-! ### Every command -/

theorem exec_answers (i : Instr) (s : State) : Answers s i (exec i s) := by
  cases i with
  | nop | srst | li | lui | mov | bsmov | bssize | bsempty | bsclr | bsword | pqsize | pqclr | fqclr | ctclr | htfill
  | htroot | htncnt | ibinit | iblast | ibend | ibpos | obinit | obcnt => exact .precise .ok
  | bget | bset | bsnew | bsfrom | bssetat | bsera1 | bspush | bspop | ibread | ibnext =>
    exact .precise (.check (.head _) .ok)
  | bins | bera | bsins | bsins1 | bsera => exact .precise (.check (.head _) (.check (.head _) .ok))
  | bsinsr =>
    exact .precise (.check (.head _) (.check (.head _) (.check (.head _) (.check (.head _) .ok))))
  | bssetu | bsresize => exact .precise (.check (.head _) (.ite (fun _ => .ok) fun _ => .ok))
  | bsgetu =>
    refine .precise (.check (.head _) ?_)
    split
    · exact .ok
    · exact .ok
  | bsat | bsfront | bsback | pqpop | pqtop | pqback | pqat =>
    refine .precise ?_
    split
    · exact .outOfRange (.head _)
    · exact .ok
  | pqpush => exact .precise (.check (.head _) (.ite (fun _ => .raise (.tail _ (.head _)) nofun) fun _ => .ok))
  | fqwr a | ctwr a | fqrd _ a | ctrd _ a =>
    refine .precise ?_
    split
    next e he => exact .error ((s.symbol_stops a e he).listed (.head _) nofun)
    · exact .ok
  | htfreq a b =>
    refine .precise (.of_stops ((s.scanFrequencies_yields _ _).imp ?_) (s.scanFrequencies_stops _ _) (.head _) nofun)
    rintro _ ⟨_, rfl⟩
    rfl
  | htbuild =>
    refine .precise ⟨s.buildFromLeaves_yields.imp ?_, s.buildFromLeaves_stops.mono ?_ fun _ => trivial⟩
    · rintro _ ⟨-, _, _, -, rfl⟩
      rfl
    · rintro _ (rfl | ⟨rfl, h⟩)
      · exact .listed (.head _) nofun
      · exact .outOfOrder (.inl ⟨rfl, h⟩)
  | htdict =>
    refine .precise ⟨s.deriveCodes_yields.imp ?_, s.deriveCodes_stops.mono ?_ id⟩
    · rintro _ ⟨-, _, -, rfl⟩
      rfl
    · rintro _ (rfl | ⟨rfl, h⟩)
      · exact .listed (.head _) nofun
      · exact .outOfOrder (.inr (.inl ⟨rfl, h⟩))
  | htsetdata a b =>
    exact .precise (.of_stops ((s.setData_yields _ _).imp fun _ h => congrArg HostSide.status h.visible.hostSide)
      (s.setData_stops _ _) (.head _) nofun)
  | htsetdict =>
    exact .precise (.of_stops (s.setDict_yields.imp fun _ h => congrArg HostSide.status h.visible.hostSide)
      s.setDict_stops (.head _) nofun)
  | htenc a b =>
    refine .precise (.of_listed ((s.encodeWindow_yields _ _).imp ?_) (s.encodeWindow_stops _ _) rfl (by decide))
    rintro _ ⟨_, -, rfl⟩
    rfl
  | htdec a =>
    refine .precise ⟨(s.decodePayload_yields _).imp fun _ h => congrArg HostSide.status h.visible.hostSide,
      (s.decodePayload_stops _).mono ?_ id⟩
    rintro c (hc | ⟨rfl, h⟩)
    · obtain rfl | rfl : c = .io ∨ c = .malformed := by simpa using hc
      · exact .listed (.head _) nofun
      · exact .listed (.tail _ (.head _)) nofun
    · exact .outOfOrder (.inr (.inr ⟨⟨a, rfl⟩, h⟩))
  | ndrd a b f =>
    refine .precise (.ite (fun hf => ?_) fun hf => ?_)
    · exact ⟨.raise, .raise (.illegal (decide_eq_false (Nat.not_le.2 hf)))⟩
    · split
      · exact .outOfRange (.head _)
      next n _ =>
        split
        next hn => exact nomatch (n.field_isSome (Nat.not_lt.1 hf)).symm.trans (congrArg Option.isSome hn)
        · exact .ok
  | obput v => exact .precise (s.putBit_lawful v (.head _))
  | obputx a => exact .precise (.check (.head _) (s.putBit_lawful _ (.tail _ (.head _))))
  | obflush a =>
    refine .precise (.ite (fun _ => .raise (.head _) nofun) fun _ => ?_)
    split
    next e he => exact .error ((obcFlush_stops _ _ e he).listed (.head _) nofun)
    · exact .ok
  | compress =>
    exact .codec (execCompress_eq s) (.tail _ (.head _)) rfl
      (.of_listed s.compress_status s.compress_stops rfl (by decide))
  | decompress =>
    exact .codec (execDecompress_eq s) (.head _) rfl
      (.of_listed s.decompress_status s.decompress_stops rfl (by decide))

/-- Where ERR or ERRCODE changed, the command has raised a code it may raise. -/
theorem exec_raised {i : Instr} {s t : State} (h : exec i s = .next t)
    (ht : t.status.err ≠ s.status.err ∨ t.status.errCode ≠ s.status.errCode) :
    MayRaise s i t.status.errCode := by
  obtain ⟨failed, r, hf, he, hr⟩ := exec_answers i s
  rcases State.imprecise_next (he.symm.trans h) with ⟨u, hu, rfl⟩ | ⟨x, hx, rfl⟩
  · have := hr.status u hu
    simp [this] at ht
  · cases hr.stops _ hx with
    | raise h => exact h

/-- Where the arena has its shape every command has a next state. -/
theorem Arena.exec_next {s : State} (h : Arena s) (i : Instr) : ∃ t, exec i s = .next t := by
  obtain ⟨failed, r, -, he, hr⟩ := exec_answers i s
  rw [he]
  match r, hr with
  | .ok u, _ => exact ⟨_, rfl⟩
  | .error e, hr =>
    cases hr.stops e rfl with
    | raise => exact ⟨_, rfl⟩
    | stuck hs => exact absurd h hs

/-- A word that is no command faults, so no captured word stops the machine. -/
theorem Arena.runCommand_next {s : State} (h : Arena s) : ∃ t, s.runCommand = .next t := by
  rcases s.runCommand_eq with ⟨i, -, he⟩ | ⟨-, he⟩
  · rw [he]
    exact h.exec_next i
  · exact ⟨_, he⟩

/-! ### SEQUENCE (60_exceptions.md R368) -/

theorem State.takeFault_sequence_faults (s : State) (t : TState) :
    Faults .sequence t.code.toNat s (s.takeFault (.sequence t)) := by
  have hinfo : (Raise.sequence t).info.toNat = t.code.toNat := by cases t <;> rfl
  exact hinfo ▸ s.takeFault_faults (.sequence t)

theorem exec_htbuild_outOfOrder {s : State} (h : s.tstate ≠ .leaves) :
    exec .htbuild s = .next (s.takeFault (.sequence s.tstate)) := congrArg s.precise (if_pos h)

theorem exec_htdict_outOfOrder {s : State} (h : s.tstate ≠ .tree) :
    exec .htdict s = .next (s.takeFault (.sequence s.tstate)) := congrArg s.precise (if_pos h)

theorem exec_htdec_outOfOrder {s : State} (h : s.tstate = .empty ∨ s.tstate = .leaves) (a : XReg) :
    exec (.htdec a) s = .next (s.takeFault (.sequence s.tstate)) := congrArg s.precise (if_pos h)

end Sys2Proof.Machine
end

section
/-! PROOFS. The statements of 60_exceptions.md. -/

namespace Sys2Proof

open Sys2Proof.Machine

/-- Settles O17: the host's moves always have a next state, and so has every command on an arena that has its shape. -/
theorem noStepStops : Obligations.NoStepStops := fun _ h => step_next_of_runCommand h.runCommand_next

/-- Settles O20, from the codes each command may raise. -/
theorem commandsRaiseOnlyListedCodes : Obligations.CommandsRaiseOnlyListedCodes := by
  intro i s t hi _ hs h ht
  have hne : t.status.err ≠ s.status.err := fun he => nomatch ht.symm.trans (he.trans hs)
  exact (exec_raised h (.inl hne)).mem hi

/-- Settles O25: the check of R368 comes first in each of the three commands, and no other code they or others raise is
SEQUENCE. -/
theorem sequenceFaults : Obligations.SequenceFaults := by
  refine ⟨fun s h => ⟨_, exec_htbuild_outOfOrder h, s.takeFault_sequence_faults _⟩,
    fun s h => ⟨_, exec_htdict_outOfOrder h, s.takeFault_sequence_faults _⟩,
    fun s a h => ⟨_, exec_htdec_outOfOrder h a, s.takeFault_sequence_faults _⟩, fun i s t hs h ht => ?_⟩
  have hraised := exec_raised h (.inr (ht ▸ hs.symm))
  rw [ht] at hraised
  exact hraised.sequence

end Sys2Proof
end

section
/-! PROOFS. How a command in progress comes to its end, and the values that reset leaves (70_reset_and_hazards.md R400, R407;
10_state.md R60). -/

namespace Sys2Proof.Machine

/-! ### The end of a command (70_reset_and_hazards.md R407) -/

/-- BUSY = 0, with exactly one of DONE and ERR. -/
def State.AtEnd (t : State) : Prop :=
  t.status.busy = false ∧
    ((t.status.done = true ∧ t.status.err = false) ∨ (t.status.done = false ∧ t.status.err = true))

/-- A command executes with DONE = 0 and ERR = 0, and its end sets one of them. -/
theorem Inv.runCommand_atEnd {s t : State} (h : Inv s) (hb : s.status.busy = true) (ht : s.runCommand = .next t) :
    t.AtEnd := by
  obtain ⟨hdone, herr⟩ := h.busyClean hb
  rw [State.AtEnd]
  rcases State.runCommand_status ht with hs | ⟨code, -, hs⟩
  · rw [hs]
    exact ⟨rfl, .inl ⟨rfl, herr⟩⟩
  · rw [hs]
    exact ⟨rfl, .inr ⟨hdone, rfl⟩⟩

/-- A run that begins with a given step. -/
theorem run_succ {M : Host.Core} {s t : M.State} (h : M.step s = .next t) (k : Nat) : M.run (k + 1) s = M.run k t := by
  rw [Host.Core.run, h]

/-- With no access left to land the next step is the end. -/
theorem run_one_atEnd {s : State} (hi : Inv s) (ha : Arena s) (hp : s.resetPin = false) (hb : s.status.busy = true)
    (hr : s.busyLeft = 0 ∨ s.host = []) : ∃ t : State, Host.Core.run core 1 s = .next t ∧ t.AtEnd := by
  obtain ⟨t, ht⟩ := ha.runCommand_next
  exact ⟨t, run_succ (M := core) ((step_command hp hb hr).trans ht) 0, hi.runCommand_atEnd hb ht⟩

/-- Each access that lands shortens the host's list, and with none left the command runs. -/
theorem exists_run_atEnd {s : State} (hi : Inv s) (ha : Arena s) (hp : s.resetPin = false) (hb : s.status.busy = true)
    {l : List HostOp} (hl : s.host = l) (hr : HostOp.reset true ∉ l) :
    ∃ (k : Nat) (t : State), k ≤ l.length + 1 ∧ Host.Core.run core k s = .next t ∧ t.AtEnd := by
  induction l generalizing s with
  | nil =>
    obtain ⟨t, ht⟩ := run_one_atEnd hi ha hp hb (.inr hl)
    exact ⟨1, t, Nat.le_refl 1, ht⟩
  | cons op l ih =>
    by_cases hleft : s.busyLeft = 0
    · obtain ⟨t, ht⟩ := run_one_atEnd hi ha hp hb (.inl hleft)
      exact ⟨1, t, Nat.le_add_left 1 _, ht⟩
    · obtain ⟨n, hs⟩ := step_host hl (.inr (.inr hleft))
      obtain ⟨hop, hr⟩ := not_or.1 (mt List.mem_cons.2 hr)
      obtain ⟨hp', hb', hl'⟩ := State.hostOp_busy (s := { s with host := l, busyLeft := n }) hp hb (Ne.symm hop)
      obtain ⟨k, t, hk, ht, hend⟩ := ih (hi.step hs) (ha.step hi hs) hp' hb' hl' hr
      exact ⟨k + 1, t, Nat.succ_le_succ hk, (run_succ (M := core) hs k).trans ht, hend⟩

/-! ### The reset values (10_state.md R60) -/

/-- `t` holds the reset values, whatever IN, OUT, the parameters and the model's own fields hold. -/
def ResetValues (t : State) : Prop :=
  ∃ inWin outWin inCap outCap pin host rdata draws, t =
    { State.reset with
      inWin := inWin, outWin := outWin, inCap := inCap, outCap := outCap, resetPin := pin, host := host, rdata := rdata
      draws := draws }

theorem reset_resetValues : ResetValues State.reset := ⟨_, _, _, _, _, _, _, _, rfl⟩

theorem State.powerOn_resetValues (s : State) (pin : Bool) : ResetValues { s.powerOn with resetPin := pin } :=
  ⟨_, _, _, _, _, _, _, _, rfl⟩

theorem State.getX_reset (i : XReg) : State.reset.getX i = 0 := by simp [State.getX, State.reset]

theorem State.statusWord_reset : State.reset.statusWord = 0 := by decide

theorem State.getBs_reset (j : BsReg) : State.reset.getBs j = [] := by simp [State.getBs, State.reset]

end Sys2Proof.Machine
end

section
/-! PROOFS. The statements of 70_reset_and_hazards.md. -/

namespace Sys2Proof

open Sys2Proof.Machine

/-- Settles O18, by induction on the accesses the host has yet to make. -/
theorem commandEnds : Obligations.CommandEnds := fun _ hi ha hp hb hr => exists_run_atEnd hi ha hp hb rfl hr

/-- Settles O5: who moves by the two conditions of a step, and the placed word decodes to its command. -/
theorem stepRunsTheDecodedCommand : Obligations.StepRunsTheDecodedCommand := by
  refine ⟨fun s i hp hb hr hi => ?_, fun s i hi => ?_, fun s op l => step_host, fun s hl hb => ?_⟩
  · rw [step_command hp hb hr, State.runCommand_of_decode hi]
  · rw [step_command rfl rfl (.inl rfl)]
    exact State.runCommand_of_decode ((congrArg decode (s.withFetchWord_cmd (encode i))).trans (decodeOfEncode i hi))
  · rw [step_idle (.inr hb), State.hostMoves_nil hl]

/-- Settles O6: the busy rule or the pending fault discards the write, and the end of a command by the shapes of its end. -/
theorem commandAcceptance : Obligations.CommandAcceptance := by
  have hreg : regAt (0x014 : Word).toNat = some .cmd := rfl
  refine ⟨fun s c hp h => ?_, fun s c hp hb he => ?_, fun s t => State.runCommand_status⟩
  · cases hb : s.status.busy with
    | true => exact State.hostOp_write_busy_listed hp hb (.inl (by decide)) c
    | false =>
      have he : s.status.err = true := by simpa [hb] using h
      exact (State.hostOp_write_reg hp hb c hreg).trans (if_pos he)
  · exact ⟨_, _, (State.hostOp_write_reg hp hb c hreg).trans (if_neg (ne_true_of_eq_false he))⟩

/-- Settles O7, place by place of the address map. -/
theorem busyHazard : Obligations.BusyHazard := by
  intro s addr v hp hb
  have hread {r : Reg} (hr : regAt addr.toNat = some r) (hbusy : r.readableBusy = true) :=
    State.hostOp_read_readable hp hr hbusy
  refine ⟨fun h => State.hostOp_write_busy_listed hp hb h v,
    fun w h h' => State.hostOp_write_busy_in hp hb w h h' v,
    fun hlt h => State.hostOp_write_busy_unlisted hp hb hlt h .word v,
    fun h => hread (r := .id) (h ▸ rfl) rfl, fun h => hread (r := .status) (h ▸ rfl) rfl,
    fun h => hread (r := .inCap) (h ▸ rfl) rfl, fun h => hread (r := .outCap) (h ▸ rfl) rfl,
    fun hlt h4 h0 h8 h24 h28 => State.hostOp_read_draw hp hb (s.readBusy_block hlt h4 ?_),
    fun w h => State.hostOp_read_draw hp hb (s.readBusy_window w h),
    fun w h hin => State.hostOp_write_busy_outside hp hb h hin w v⟩
  rintro (h | h | h | h)
  · exact h0 (BitVec.eq_of_toNat_eq h)
  · exact h8 (BitVec.eq_of_toNat_eq h)
  · exact h24 (BitVec.eq_of_toNat_eq h)
  · exact h28 (BitVec.eq_of_toNat_eq h)

/-- Settles O13: power-on reset and `State.reset` agree on every register of the spec, so the values are read off the
reset state once. -/
theorem powerOnReset : Obligations.PowerOnReset := by
  refine ⟨fun s asserted t ht => ?_, fun s asserted => ?_, fun s => s.setReset_idle, fun s w addr v hp => ?_,
    fun s op l hp hl => (step_idle (.inl hp)).trans (State.hostMoves_cons hl)⟩
  · obtain ⟨_, _, _, _, _, _, _, _, rfl⟩ : ResetValues t := by
      rcases ht with ⟨hpin, rfl⟩ | rfl
      · rw [State.hostOp, s.setReset_reset hpin]
        exact s.powerOn_resetValues asserted
      · exact reset_resetValues
    exact ⟨State.getX_reset, State.getBs_reset, fun c => entry_replicate _ c, fun c => entry_replicate _ c, rfl, rfl,
      rfl, rfl, rfl, rfl, rfl, rfl, State.statusWord_reset, rfl, rfl, rfl, rfl, rfl⟩
  · cases hpin : asserted || s.resetPin with
    | true =>
      rw [State.hostOp, s.setReset_reset (by simpa using hpin)]
      exact ⟨rfl, rfl, rfl, rfl⟩
    | false =>
      obtain ⟨rfl, hp⟩ := Bool.or_eq_false_iff.1 hpin
      rw [State.hostOp, s.setReset_idle hp]
      exact ⟨hp, rfl, rfl, rfl⟩
  · simp [State.hostOp, hp]

end Sys2Proof
end
